-- ==== Sys2Proof/Word.lean ====
section
/-! DEFINITION. The word types of the LC-620 and the one rounding its arithmetic needs. -/

namespace Sys2Proof

/-- A byte (00_scope, "Bytes and payloads"). -/
abbrev Byte := BitVec 8

/-- A word on a channel link (00_scope, R159). -/
abbrev Word16 := BitVec 16

/-- A sector payload: 1,024 bytes, the first byte most significant (R3, R189). -/
abbrev Payload := BitVec 8192

/-- The quotient rounded up, as in the seek time of R13. -/
def divUp (n d : Nat) : Nat := (n + (d - 1)) / d

end Sys2Proof
end

