-- ==== Sys2Proof/Syntax.lean ====
section
/-! DEFINITION. The commands of the LC-620: one constructor per row of spec/opcode_table.json. -/

namespace Sys2Proof

/-- One of the two Channel Links. -/
inductive Channel where
  | a | b
  deriving DecidableEq, Repr

/-- A frame as the link receives it whole (R160): the tag and length fields of its header and the words
received after the header up to the frame end. The kind is the command's constructor. -/
structure Frame where
  tag    : Byte
  length : Word16
  words  : List Word16
  deriving DecidableEq, Repr

/-- The two forms of a frame that is of no known kind (R160, R164). -/
inductive Malformed where
  /-- the frame ends before its header is complete -/
  | shortHeader
  /-- the kind code is not in the table of R189 -/
  | unknownKind (code : Byte) (frame : Frame)
  deriving DecidableEq, Repr

/-- What the head finds in the sector whose end has come (R3). The pass under way turns it into the
outcome of R4. -/
inductive Found where
  /-- the sector reads as erased -/
  | erased
  /-- the code decodes the sector, with this many symbols corrected -/
  | decoded (data : Payload) (corrections : Nat)
  /-- the errors exceed what the code can correct -/
  | uncorrectable
  deriving DecidableEq, Repr

/-- The mechanism as a reset finds it (R36). -/
structure MechanismFound where
  switchClosed    : Bool
  hubClamped      : Bool
  tabSet          : Bool
  spindleTurning  : Bool
  deriving DecidableEq, Repr

/-- A character received on the console line, by the classes of R179. -/
inductive ConsoleChar where
  | carriageReturn
  | lineFeed
  | backspace
  | printable (c : Char)
  | otherControl
  | framingError
  deriving DecidableEq, Repr

/-- The fields of an ended console line after its command letter (R179). -/
abbrev Fields := List (List Char)

/-- The commands. The comment on each names its row of spec/opcode_table.json where the name differs. -/
inductive Instr where
  | attach (ch : Channel) (f : Frame)
  | detach (ch : Channel) (f : Frame)
  | inquire (ch : Channel) (f : Frame)
  | setEvents (ch : Channel) (f : Frame)
  | clearEvents (ch : Channel) (f : Frame)
  | read (ch : Channel) (f : Frame)
  | write (ch : Channel) (f : Frame)
  | data (ch : Channel) (f : Frame)
  | flush (ch : Channel) (f : Frame)
  | discard (ch : Channel) (f : Frame)
  | eject (ch : Channel) (f : Frame)
  | initialise (ch : Channel) (f : Frame)
  | openStream (ch : Channel) (f : Frame)
  | closeStream (ch : Channel) (f : Frame)
  | lock (ch : Channel) (f : Frame)
  | unlock (ch : Channel) (f : Frame)
  | postMail (ch : Channel) (f : Frame)
  | setDrive (ch : Channel) (f : Frame)
  | pullReport (ch : Channel) (f : Frame)
  | pullData (ch : Channel) (f : Frame)
  | pullStream (ch : Channel) (f : Frame)
  | pullMail (ch : Channel) (f : Frame)
  | pullEvents (ch : Channel) (f : Frame)
  | pullFaults (ch : Channel) (f : Frame)
  | malformedFrame (ch : Channel) (m : Malformed)
  | linkReset (ch : Channel)
  /-- `midFrame`: the master was sending a frame when the input was released (R175) -/
  | linkResetRelease (ch : Channel) (midFrame : Bool)
  /-- `strapHigh`: the board's console-clear strap (R188) -/
  | powerUpReset (found : MechanismFound) (strapHigh : Bool)
  | masterClear (found : MechanismFound)
  /-- with the hub clamp and the tab line as they stand when the switch closes -/
  | cartridgeSwitchCloses (hubClamped : Bool) (tabSet : Bool)
  | cartridgeSwitchOpens
  | clampComplete (tabSet : Bool)
  | spindleStopped
  | ejectButton
  /-- `elapsed`: µs since the last index event at which this one comes -/
  | indexEvent (elapsed : Nat) (found : Found)
  | indexLoss
  | sectorEnd (found : Found)
  /-- `elapsed`: µs since the last index event; `cancelled`: the report is for a cancelled command (R122) -/
  | seekComplete (elapsed : Nat) (cancelled : Bool)
  | polaritySettled (elapsed : Nat) (cancelled : Bool)
  | seekFault (elapsed : Nat) (cancelled : Bool)
  | moveLimitExpiry
  | clampLimitExpiry
  | lockLimitExpiry
  | stopLimitExpiry
  | switchLimitExpiry
  | consoleCharacter (c : ConsoleChar)
  | selectDisplay (fields : Fields)
  | nextDisplay (fields : Fields)
  | display (fields : Fields)
  | hold (fields : Fields)
  | go (fields : Fields)
  | step (fields : Fields)
  | watch (fields : Fields)
  | clearWatch (fields : Fields)
  | settingEntry (fields : Fields)
  | consoleClear (fields : Fields)
  | consoleLineSent
  | consoleMasterClear (found : MechanismFound)
  deriving DecidableEq, Repr

end Sys2Proof
end

