-- ==== Sys2Proof/Decode.lean ====
section
/-! DEFINITION. The decoder of table words. No row of spec/opcode_table.json has bits (log entry 28). -/

namespace Sys2Proof

/-- No word of the table spells a command: every row is without bits (log entry 28). -/
def decodeTableWord (_nbits _w : Nat) : Option Instr := none

end Sys2Proof
end

