-- ==== Sys2Proof/Config.lean ====
section
/-! DEFINITION. The values the manual leaves open. Each is a constant without a body: no proof can see
what it is, so every statement holds whatever it is. -/

namespace Sys2Proof

/-- R116: which of several offers that reach an idle engine together is taken first is not fixed.
Argument: the number of the choice. Log entry 7. -/
opaque Config.freeArrival : Nat → Nat

/-- R136: at a space notice the two waiting streams are tried in either order. True: Channel B first.
Log entry 8. -/
opaque Config.freeStreamOrder : Nat → Bool

/-- R26 and R167 give no detail for a READ report of status MEDIUM_FAULT. Log entry 9. -/
opaque Config.freeReadDetail : Nat → BitVec 32

/-- R12 and R20 both act on the revolution counter at the index event that brings lock: set to 0, and
raised by 1. True: the event is counted after the counter was set to 0. Log entry 10. -/
opaque Config.lockIndexCounted : Bool

/-- R10 divides by the measured period; this is the quotient while that period is 0 µs. Log entry 11. -/
opaque Config.freeAngle : Nat → Nat

/-- R183: each field of a display line begins with a short name, and no rule spells the names. Arguments: the
item, and the field's place in it. Log entry 19. -/
opaque Config.fieldName : Nat → Nat → List Char

end Sys2Proof
end

