-- ==== Sys2Proof/Machine/State.lean ====
section
/-! DEFINITION. The state of the LC-620 as plain data, block by block, and the state after power-up reset.
Computed views (angle, pin counts, level, in flight, spare-allocation view, reserved slots, committing
counts) are not stored: log entry 6. -/

namespace Sys2Proof.Machine

/-- One value for each channel. -/
structure PerChannel (α : Type) where
  a : α
  b : α
  deriving DecidableEq, Repr

def PerChannel.get {α : Type} (p : PerChannel α) : Channel → α
  | .a => p.a
  | .b => p.b

def PerChannel.set {α : Type} (p : PerChannel α) (ch : Channel) (x : α) : PerChannel α :=
  match ch with
  | .a => { p with a := x }
  | .b => { p with b := x }

/-- A physical address (R5). -/
structure Phys where
  track  : Nat
  sector : Nat
  deriving DecidableEq, Repr

/-! ## Cartridge Controller (Section 2) -/

/-- The cartridge states of R16, in the order of their codes in R189. -/
inductive CartState where
  | empty | loading | spinningUp | mounting | ready | readOnly | unformatted | unusable
  | draining | spinningDown | ejecting | recovering | failed
  deriving DecidableEq, Repr

/-- The mechanism limits of R16. -/
inductive LimitKind where
  | clamp | lock | stop | switch
  deriving DecidableEq, Repr

/-- A running mechanism limit; the deadline is a clock reading in µs. -/
structure MechLimit where
  kind     : LimitKind
  deadline : Nat
  deriving DecidableEq, Repr

/-- An eject in progress and whom to answer (R16). -/
inductive EjectRequest where
  | channel (ch : Channel) (tag : Byte)
  | button
  deriving DecidableEq, Repr

/-- An INITIALISE in progress and whom to answer (R16). -/
structure InitRequest where
  channel : Channel
  tag     : Byte
  deriving DecidableEq, Repr

/-- How a control sector of the mount was resolved (R21). -/
inductive MountOutcome where
  | good | blank | unreadable
  deriving DecidableEq, Repr

/-- One control-sector record of the mount progress (R16); outcome absent: not resolved. -/
structure MountSector where
  retries : Nat
  outcome : Option MountOutcome
  deriving DecidableEq, Repr

/-- The mount progress cleared: 56 records not resolved, retry count 0 (R20). -/
def clearedMount : Vector MountSector 56 := Vector.replicate 56 ⟨0, none⟩

/-- The controller record of R16. The mount progress holds copy A's sectors 0–27, then copy B's. -/
structure Controller where
  state         : CartState
  prior         : Option CartState
  recoveryCount : Nat
  tab           : Bool
  lockRun       : Nat
  mount         : Vector MountSector 56
  eject         : Option EjectRequest
  initialise    : Option InitRequest
  limit         : Option MechLimit
  deriving DecidableEq, Repr

/-- The mechanism's lines as last sensed, and the console-clear strap (R18, R33, R36, R188). -/
structure DriveLines where
  switchClosed  : Bool
  hubClamped    : Bool
  tabSet        : Bool
  spindleAtRest : Bool
  strapHigh     : Bool
  deriving DecidableEq, Repr

/-- What CC commands of the mechanism's slow actions (Section 2). -/
structure DriveOutputs where
  clampCommand : Bool
  motorOn      : Bool
  ejectFired   : Bool
  deriving DecidableEq, Repr

/-! ## Remap Table (Section 3) -/

/-- The kind of a remap entry; only an ACTIVE entry has a home address (R38). -/
inductive RemapKind where
  | active (home : Phys)
  | spent
  deriving DecidableEq, Repr

/-- A remap entry (R38); its spare address is named by zone and spare index. -/
structure RemapEntry where
  kind       : RemapKind
  zone       : Nat
  index      : Nat
  generation : Nat
  deriving DecidableEq, Repr

inductive TableState where
  | clean | dirty | flushing
  deriving DecidableEq, Repr

/-- The status of one copy in a flush; while WRITING, with the count of its sectors verified (R46, R55). -/
inductive CopyStatus where
  | waiting
  | writing (verified : Nat)
  | verified
  | failed
  deriving DecidableEq, Repr

/-- Flush progress (R37). -/
structure FlushProgress where
  copyA : CopyStatus
  copyB : CopyStatus
  deriving DecidableEq, Repr

/-- 28 sectors, each present or not: the image area, or an assembly area (R51). -/
abbrev ImageArea := Vector (Option Payload) 28

def emptyArea : ImageArea := Vector.replicate 28 none

/-- The table record of R37, with copy B's assembly area of R51. -/
structure RemapTable where
  loaded       : Bool
  entries      : List RemapEntry
  state        : TableState
  changedAgain : Bool
  fault        : Bool
  generation   : Nat
  verifiedGen  : Nat
  progress     : Option FlushProgress
  image        : ImageArea
  assemblyB    : ImageArea
  deriving DecidableEq, Repr

/-- The "while unloaded" column of R37. -/
def RemapTable.unloaded : RemapTable :=
  { loaded := false, entries := [], state := .clean, changedAgain := false, fault := false,
    generation := 0, verifiedGen := 0, progress := none, image := emptyArea, assemblyB := emptyArea }

/-! ## Sector Cache (Section 4) -/

inductive EntryState where
  | reading | clean | committing | committingNewer
  deriving DecidableEq, Repr

/-- A cache entry in its slot (R58). `blank`: Content is BLANK. -/
structure Entry where
  slot    : Nat
  lba     : Nat
  addr    : Phys
  state   : EntryState
  blank   : Bool
  current : Nat
  newer   : Option Nat
  writer  : Option Channel
  take    : Option Nat
  retries : Nat
  deriving DecidableEq, Repr

/-- How a reference resolved bad (R65). -/
inductive BadStatus where
  | unreadable | lost
  deriving DecidableEq, Repr

/-- The condition of a reference (R65). -/
inductive RefCond where
  | waiting
  | ready
  | bad (status : BadStatus)
  deriving DecidableEq, Repr

/-- A read record's reference to one LBA not yet delivered (R65). -/
structure ReadRef where
  lba  : Nat
  cond : RefCond
  deriving DecidableEq, Repr

/-- A read record (R67); `refs` holds the references not yet delivered, in LBA order. -/
structure ReadRecord where
  channel  : Channel
  tag      : Byte
  first    : Nat
  count    : Nat
  refs     : List ReadRef
  bad      : Nat
  complete : Bool
  deriving DecidableEq, Repr

/-- What the last request refused RETRY wanted (R80). -/
inductive WantKind where
  | read | write
  deriving DecidableEq, Repr

structure Want where
  kind  : WantKind
  count : Nat
  deriving DecidableEq, Repr

/-- The cache record of R57. Entries stand in slot order, read records in order of acceptance. -/
structure Cache where
  entries  : List Entry
  buffers  : Vector Payload 160
  freeList : List Nat
  recency  : List Nat
  takes    : Nat
  reads    : List ReadRecord
  wants    : PerChannel (Option Want)
  deriving DecidableEq, Repr

/-! ## Commit Unit (Section 5) -/

inductive Stage where
  | eraseDue | writeDue | verifyDue
  deriving DecidableEq, Repr

inductive VerifyPolicy where
  | always | never
  deriving DecidableEq, Repr

/-- A commit task (R87); its entry is named by its LBA. -/
structure CommitTask where
  lba         : Nat
  addr        : Phys
  stage       : Stage
  buffer      : Nat
  take        : Nat
  policy      : VerifyPolicy
  used        : Nat
  reassignGen : Option Nat
  takeAtMark  : Option Nat
  deriving DecidableEq, Repr

/-- One of the two table copies. -/
inductive TableCopy where
  | a | b
  deriving DecidableEq, Repr

/-- A table task (R88). -/
structure TableTask where
  copy     : TableCopy
  sector   : Nat
  stage    : Stage
  restarts : Nat
  held     : Bool
  deriving DecidableEq, Repr

/-- The condition of a waiting sector (R98). -/
inductive WaitCond where
  | pending
  | awaitingTable (gen : Nat)
  | satisfied
  deriving DecidableEq, Repr

/-- A waiting sector (R98). -/
structure WaitSector where
  lba        : Nat
  take       : Nat
  cond       : WaitCond
  superseded : Bool
  deriving DecidableEq, Repr

inductive WaiterKind where
  | sync | flush
  deriving DecidableEq, Repr

/-- A sync waiter (R100) or a flush waiter (R101). `first` and `count` are the request's. -/
structure Waiter where
  kind    : WaiterKind
  channel : Channel
  tag     : Byte
  first   : Nat
  count   : Nat
  sectors : List WaitSector
  deriving DecidableEq, Repr

/-- The reasons of deferred-fault records (R96); the first three are the task failures of R95. -/
inductive FaultReason where
  | verifyLimit | noSpare | tableFault | ejected
  deriving DecidableEq, Repr

structure FaultRecord where
  lba    : Nat
  reason : FaultReason
  deriving DecidableEq, Repr

/-- A channel's deferred-fault list with its MORE mark (R96). -/
structure FaultList where
  records : List FaultRecord
  more    : Bool
  deriving DecidableEq, Repr

/-- The record of R86. Waiters of both kinds and channels stand in order of registration (R194). -/
structure CommitUnit where
  tasks      : List CommitTask
  tableTasks : List TableTask
  waiters    : List Waiter
  faults     : PerChannel FaultList
  deriving DecidableEq, Repr

/-! ## Pass Engine (Section 6) and the rotation timer (Section 1) -/

inductive EngineState where
  | stopped | idle | moving | dwelling | held
  deriving DecidableEq, Repr

inductive Polarity where
  | erase | write
  deriving DecidableEq, Repr

/-- The four kinds of pass (R4). -/
inductive PassKind where
  | read | erase | write | verify
  deriving DecidableEq, Repr

/-- The owner's record of a due operation (R108). The owner is SC, CMU, CMU or CC in turn. -/
inductive OpOwner where
  | entry (lba : Nat)
  | task (lba : Nat)
  | table (copy : TableCopy) (sector : Nat)
  | mount (copy : TableCopy) (sector : Nat)
  deriving DecidableEq, Repr

/-- A due operation (R108); the order of offering is its place in the due set. -/
structure DueOp where
  owner : OpOwner
  kind  : PassKind
  addr  : Phys
  deriving DecidableEq, Repr

/-- The instant a move ended: its angle and the index events since (R14, log entry 13). -/
structure SettlePoint where
  angle : Nat
  wraps : Nat
  deriving DecidableEq, Repr

inductive MoveKind where
  | target | recalibrate
  deriving DecidableEq, Repr

/-- A move in progress (R106). -/
structure Move where
  kind      : MoveKind
  track     : Nat
  polarity  : Polarity
  seekDone  : Bool
  flipDone  : Bool
  startedAt : Nat
  deriving DecidableEq, Repr

/-- A track and a polarity: the retry target of R122, or what a choice names (Section 6.4). -/
structure Target where
  track    : Nat
  polarity : Polarity
  deriving DecidableEq, Repr

/-- The pass between its mark and its end (R106), with the data drawn at the mark of a WRITE (R112). -/
structure CurrentPass where
  op        : DueOp
  withdrawn : Bool
  drawn     : Option Payload
  deriving DecidableEq, Repr

/-- The engine record of R106. `goWaiting`: a GO waits for a step pass's end (R126). -/
structure Engine where
  state      : EngineState
  headTrack  : Nat
  polarity   : Polarity
  settle     : Option SettlePoint
  move       : Option Move
  retry      : Option Target
  seekFaults : Nat
  pass       : Option CurrentPass
  due        : List DueOp
  goWaiting  : Bool
  deriving DecidableEq, Repr

/-- The rotation timer (R10) and the revolution counter (R12). `indexSeen`: an index event was received
with no reset or spindle start since. -/
structure RotationTimer where
  period     : Nat
  elapsed    : Nat
  indexSeen  : Bool
  revolution : BitVec 16
  deriving DecidableEq, Repr

/-! ## Streams (Section 7) -/

inductive StreamState where
  | closed | opened | ended | faulted
  deriving DecidableEq, Repr

structure Extent where
  first : Nat
  count : Nat
  deriving DecidableEq, Repr

/-- A stream's reference: waiting or ready (R131). -/
structure StreamRef where
  position : Nat
  lba      : Nat
  ready    : Bool
  deriving DecidableEq, Repr

/-- A stream context (R131); references stand in ascending position. -/
structure Stream where
  state           : StreamState
  extents         : List Extent
  positions       : Nat
  prefetchCursor  : Nat
  deliveryCursor  : Nat
  depth           : Nat
  lowWater        : Nat
  refs            : List StreamRef
  faultPosition   : Option Nat
  faultStatus     : Option BadStatus
  prefetchWaiting : Bool
  deriving DecidableEq, Repr

/-- The CLOSED column of R131. -/
def Stream.closed : Stream :=
  { state := .closed, extents := [], positions := 0, prefetchCursor := 0, deliveryCursor := 0,
    depth := 1, lowWater := 0, refs := [], faultPosition := none, faultStatus := none,
    prefetchWaiting := false }

/-! ## Coordination Unit (Section 8) -/

inductive LockMode where
  | writeGuard | fullGuard
  deriving DecidableEq, Repr

/-- A lock entry (R148). -/
structure LockEntry where
  owner  : Channel
  first  : Nat
  count  : Nat
  mode   : LockMode
  handle : Nat
  deriving DecidableEq, Repr

/-- A mailbox (R147). -/
structure Mailbox where
  value   : BitVec 32
  full    : Bool
  overrun : Bool
  deriving DecidableEq, Repr

def Mailbox.emptied : Mailbox := { value := 0, full := false, overrun := false }

/-- The Drive Settings record (R147). -/
structure Settings where
  readRetries   : Nat
  reassignLimit : Nat
  verifyPolicy  : VerifyPolicy
  dirtyLimit    : Nat
  deriving DecidableEq, Repr

/-- The reset values of R158. -/
def Settings.atReset : Settings :=
  { readRetries := 3, reassignLimit := 2, verifyPolicy := .always, dirtyLimit := 48 }

/-- The record of R147. `inbox.get ch` is the mailbox addressed to `ch`, sent by the other channel. -/
structure Coordination where
  locks    : List LockEntry
  inbox    : PerChannel Mailbox
  settings : Settings
  deriving DecidableEq, Repr

/-! ## Channel links (Section 9) -/

/-- The frame kinds a master may send (R161). -/
inductive FrameKind where
  | attach | detach | inquire | setEvents | clearEvents
  | read | write | data | flush | discard | eject | initialise
  | openStream | closeStream | lock | unlock | postMail | setDrive
  | pullReport | pullData | pullStream | pullMail | pullEvents | pullFaults
  deriving DecidableEq, Repr

/-- The refusal reasons of R162, in the order of their codes in R189. -/
inductive RefusalReason where
  | frameError | sequence | notAttached | tagInUse | queueFull | retry | range | locked | notReady
  | notFormatted | writeProtected | inUse | busy | conflict | limit | mediumFault
  deriving DecidableEq, Repr

/-- The queued requests (R161). -/
inductive QueuedKind where
  | read | write | flush | eject | initialise
  deriving DecidableEq, Repr

/-- The report statuses of R167, in the order of their codes. -/
inductive ReportStatus where
  | ok | degraded | writeFault | tableFault | mediumFault | cancelled
  deriving DecidableEq, Repr

/-- A report record (R167). -/
structure Report where
  tag        : Byte
  kind       : QueuedKind
  status     : ReportStatus
  detail     : Nat
  superseded : Bool
  stamp      : BitVec 16
  deriving DecidableEq, Repr

/-- A record of the outstanding set (R166). -/
structure Outstanding where
  tag  : Byte
  kind : QueuedKind
  deriving DecidableEq, Repr

/-- The event flags of R170. -/
inductive EventFlag where
  | report | mail | streamData | streamLow | streamEnd | streamFault | space | cartridge | settings
  | deferredFault | held
  deriving DecidableEq, Repr

inductive ClearStyle where
  | pullClear | explicit
  deriving DecidableEq, Repr

inductive WriteMode where
  | deferred | sync
  deriving DecidableEq, Repr

/-- A write data phase with its reservation (R73, R163). -/
structure DataPhase where
  tag      : Byte
  first    : Nat
  count    : Nat
  mode     : WriteMode
  received : Nat
  buffers  : List Nat
  slots    : List Nat
  deriving DecidableEq, Repr

/-- The event word (R191). -/
structure EventWord where
  flags : BitVec 11
  mask  : BitVec 11
  style : ClearStyle
  deriving DecidableEq, Repr

/-- The INQUIRE record (R177, R191). -/
structure InquireRecord where
  cartridge     : CartState
  tab           : Bool
  engine        : EngineState
  stream        : StreamState
  table         : TableState
  fault         : Bool
  attachedA     : Bool
  attachedB     : Bool
  generation    : Nat
  entryCount    : Nat
  freeSpares    : Nat
  reading       : Nat
  clean         : Nat
  committing    : Nat
  newer         : Nat
  freeSlots     : Nat
  freeBuffers   : Nat
  committingOwn : Nat
  dirtyLimit    : Nat
  outstanding   : Nat
  unread        : Nat
  deriving DecidableEq, Repr

/-- What an ACCEPTED response carries (R191). -/
inductive Acceptance where
  | plain
  | attach (ch : Channel) (restarted : Bool)
  | events (w : EventWord)
  | pins (released : Nat)
  | handle (h : Nat)
  | unlocked (first count : Nat) (mode : LockMode)
  | mail (overwrote receiverAttached : Bool)
  | settings (now : Settings)
  | stream (depth lowWater positions : Nat)
  | inquire (r : InquireRecord)
  deriving DecidableEq, Repr

/-- The status of a delivered sector (R189). -/
inductive SectorStatus where
  | ok
  | bad (status : BadStatus)
  deriving DecidableEq, Repr

/-- A SECTOR frame's contents (R191). `place`: offset of a read, or stream position. -/
structure SectorFrame where
  lba    : Nat
  status : SectorStatus
  blank  : Bool
  stream : Bool
  take   : Nat
  place  : Nat
  data   : Option Payload
  deriving DecidableEq, Repr

/-- The response kinds (R161, R191). -/
inductive ResponseBody where
  | accepted (x : Acceptance)
  | refused (r : RefusalReason)
  | empty (noRead pending : Bool)
  | report (r : Report)
  | sector (x : SectorFrame)
  | mail (value : BitVec 32) (overrun : Bool)
  | events (w : EventWord)
  | faults (records : List FaultRecord) (more : Bool)
  deriving DecidableEq, Repr

/-- A response frame: it echoes the tag of the frame it answers (R161). -/
structure Response where
  tag  : Byte
  body : ResponseBody
  deriving DecidableEq, Repr

/-- A link record (R163), with the level of the link-reset input and what R175 makes of it, and the last
response sent. -/
structure Link where
  attached      : Bool
  restarted     : Bool
  outstanding   : List Outstanding
  reports       : List Report
  flags         : BitVec 11
  mask          : BitVec 11
  style         : ClearStyle
  dataPhase     : Option DataPhase
  attn          : Bool
  resetAsserted : Bool
  discardTail   : Bool
  response      : Option Response
  deriving DecidableEq, Repr

/-- The reset column of R163. -/
def Link.atReset : Link :=
  { attached := false, restarted := true, outstanding := [], reports := [], flags := 0, mask := 0,
    style := .pullClear, dataPhase := none, attn := false, resetAsserted := false,
    discardTail := false, response := none }

/-! ## Maintenance console (Section 10) -/

/-- The command letters of R180. -/
inductive ConsoleLetter where
  | s | n | d | h | g | t | w | c | e | question
  deriving DecidableEq, Repr

inductive WatchAction where
  | hold | note
  deriving DecidableEq, Repr

/-- The pass kinds a watch slot lists (R178). -/
structure KindSet where
  read   : Bool
  erase  : Bool
  write  : Bool
  verify : Bool
  deriving DecidableEq, Repr

structure WatchSlot where
  addr   : Phys
  kinds  : KindSet
  action : WatchAction
  armed  : Bool
  deriving DecidableEq, Repr

/-- An outcome as the console names it (R185). -/
inductive ShownOutcome where
  | good (corrections : Nat)
  | unreadable | blank | done | pass | fail | discarded
  deriving DecidableEq, Repr

/-- Item 3 of a slot that holds an entry; `blank`: Content is BLANK (R183). -/
structure ShownEntry where
  lba     : Nat
  addr    : Phys
  state   : EntryState
  blank   : Bool
  writer  : Option Channel
  pins    : Nat
  take    : Option Nat
  retries : Nat
  deriving DecidableEq, Repr

/-- Item 4 of a commit task (R183). Of a table task it shows every field of R88, in their order. -/
structure ShownTask where
  lba         : Nat
  addr        : Phys
  stage       : Stage
  take        : Nat
  policy      : VerifyPolicy
  used        : Nat
  reassignGen : Option Nat
  deriving DecidableEq, Repr

/-- Item 5 (R183); `active`: the kind is ACTIVE, else SPENT. -/
structure ShownRemap where
  active     : Bool
  home       : Option Phys
  spare      : Phys
  zone       : Nat
  index      : Nat
  generation : Nat
  deriving DecidableEq, Repr

/-- Items 7 and 8 (R183). What R183 names in the plural is shown as a count: log entry 32. -/
structure ShownChannel where
  attached    : Bool
  restarted   : Bool
  outstanding : Nat
  unread      : Nat
  flags       : BitVec 11
  mask        : BitVec 11
  style       : ClearStyle
  phase       : Option (Byte × Nat × Nat)
  reads       : Nat
  committing  : Nat
  faults      : Nat
  more        : Bool
  want        : Option Want
  deriving DecidableEq, Repr

/-- Items 9 and A: the fields R146 lists, and no other (R183). -/
structure ShownStream where
  state           : StreamState
  positions       : Nat
  prefetchCursor  : Nat
  deliveryCursor  : Nat
  depth           : Nat
  lowWater        : Nat
  level           : Nat
  inFlight        : Nat
  faultPosition   : Option Nat
  faultStatus     : Option BadStatus
  prefetchWaiting : Bool
  deriving DecidableEq, Repr

/-- A display response (R183): the item, the index of a collection, and the item's fields in order. A lock
entry's fields (item 6) are those of R148, in their order. -/
inductive Shown where
  | empty (item : Nat)
  | cartridge (state : CartState) (tab : Bool) (recovery : Nat) (prior : Option CartState)
      (limit : Option LimitKind)
  | engine (track angle : Nat) (polarity : Polarity) (state : EngineState)
  | cache (reading clean committing newer freeSlots freeBuffers reservedA reservedB takes : Nat)
  | slotEntry (index : Nat) (x : ShownEntry)
  | slotFree (index : Nat)
  | slotReserved (index : Nat)
  | commitTask (index : Nat) (x : ShownTask)
  | tableTask (index : Nat) (x : TableTask)
  | remap (index : Nat) (x : ShownRemap)
  | lock (index : Nat) (x : LockEntry)
  | channel (ch : Channel) (x : ShownChannel)
  | stream (ch : Channel) (x : ShownStream)
  | settings (x : Settings)
  | watch (index : Nat) (slot : Option WatchSlot)
  deriving DecidableEq, Repr

/-- Response lines (R180, R181): `prompt` is ">" alone, `error` is "*" and the last accepted letter. -/
inductive Reply where
  | prompt
  | error (last : Option ConsoleLetter)
  | shown (x : Shown)
  | held | holdPending
  | go | holdCancelled | running
  | step
  | watch (slot : Nat)
  | clearWatch (slot : Nat)
  | setting (id value : Nat)
  | clear
  deriving DecidableEq, Repr

/-- Unsolicited lines (R184, R185, R186). -/
inductive ConsoleNotice where
  | heldAt (track : Nat) (stamp : BitVec 16)
  | stepEnd (kind : PassKind) (addr : Phys) (outcome : ShownOutcome) (stamp : BitVec 16)
  | watchMatch (slot : Nat) (action : WatchAction) (kind : PassKind) (addr : Phys)
      (outcome : ShownOutcome) (stamp : BitVec 16)
  deriving DecidableEq, Repr

/-- A line of the output queue; `plus`: "+" after its "=" (R181). -/
inductive ConsoleLine where
  | reply (r : Reply)
  | notice (plus : Bool) (x : ConsoleNotice)
  deriving DecidableEq, Repr

/-- Where a console master clear stands (R188). -/
inductive ClearPhase where
  | none
  /-- "?" accepted; "> CLEAR" is in the output queue -/
  | lineQueued
  /-- "> CLEAR" has been sent -/
  | lineSent
  deriving DecidableEq, Repr

/-- The console record (R178). -/
structure Console where
  line      : List Char
  overlong  : Bool
  last      : Option ConsoleLetter
  item      : Nat
  index     : Nat
  hold      : Bool
  stepReq   : Bool
  watch0    : Option WatchSlot
  watch1    : Option WatchSlot
  queue     : List ConsoleLine
  lost      : Bool
  clearing  : ClearPhase
  deriving DecidableEq, Repr

/-! ## The whole part -/

/-- The state of the part. `clock` and `freeCount` are the model's own (log entries 22 and 23); `pending`
holds the commands that wait, first in, first out. -/
structure State where
  clock     : Nat
  timer     : RotationTimer
  lines     : DriveLines
  outputs   : DriveOutputs
  cc        : Controller
  rmt       : RemapTable
  sc        : Cache
  cmu       : CommitUnit
  pe        : Engine
  su        : PerChannel Stream
  cu        : Coordination
  links     : PerChannel Link
  mci       : Console
  freeCount : Nat
  pending   : List Instr
  deriving DecidableEq, Repr

/-- The machine's faults: none. Every command has an effect on every state (log entry 27). -/
inductive Fault where
  deriving DecidableEq, Repr

/-- The machine's refusals. -/
inductive Refusal where
  /-- Raised by exec for a command that has no meaning yet; safe. No arm raises it. -/
  | notModelled (mnemonic : String)
  deriving DecidableEq, Repr

/-- The engine record after reset (R106). -/
def Engine.atReset : Engine :=
  { state := .stopped, headTrack := 0, polarity := .erase, settle := none, move := none, retry := none,
    seekFaults := 0, pass := none, due := [], goWaiting := false }

/-- The cache record after reset (R57, R84). Buffer contents: log entry 21. -/
def Cache.atReset : Cache :=
  { entries := [], buffers := Vector.replicate 160 0, freeList := List.range 160, recency := [],
    takes := 0, reads := [], wants := ⟨none, none⟩ }

/-- The commit unit's record after reset (R86, R105). -/
def CommitUnit.atReset : CommitUnit :=
  { tasks := [], tableTasks := [], waiters := [], faults := ⟨⟨[], false⟩, ⟨[], false⟩⟩ }

/-- The console record after reset (R178). -/
def Console.atReset : Console :=
  { line := [], overlong := false, last := none, item := 0, index := 0, hold := false, stepReq := false,
    watch0 := none, watch1 := none, queue := [], lost := false, clearing := .none }

/-- The coordination unit's record after reset (R147). -/
def Coordination.atReset : Coordination :=
  { locks := [], inbox := ⟨Mailbox.emptied, Mailbox.emptied⟩, settings := Settings.atReset }

/-- The controller record after reset in an empty drive (R36). -/
def Controller.atReset : Controller :=
  { state := .empty, prior := none, recoveryCount := 0, tab := false, lockRun := 0, mount := clearedMount,
    eject := none, initialise := none, limit := none }

/-- The rotation timer after reset (R10, R12). -/
def RotationTimer.atReset : RotationTimer :=
  { period := 20000, elapsed := 0, indexSeen := false, revolution := 0 }

/-- The part right after power-up reset. The mechanism is found at rest with the cartridge switch open:
DESIGN CHOICE, log entry 3. -/
def State.reset : State :=
  { clock := 0
    timer := RotationTimer.atReset
    lines := ⟨false, false, false, true, false⟩
    outputs := ⟨false, false, false⟩
    cc := Controller.atReset
    rmt := RemapTable.unloaded
    sc := Cache.atReset
    cmu := CommitUnit.atReset
    pe := Engine.atReset
    su := ⟨Stream.closed, Stream.closed⟩
    cu := Coordination.atReset
    links := ⟨Link.atReset, Link.atReset⟩
    mci := Console.atReset
    freeCount := 0
    pending := [] }

end Sys2Proof.Machine
end

