-- ==== Sys2Proof/Machine/Geometry.lean ====
section
/-! DEFINITION. Media geometry, addressing, rotation and access cost (Section 1). -/

namespace Sys2Proof.Machine

/-- The last LBA is 426,559 (R6). -/
def lbaCount : Nat := 426560

/-- A run of sectors lies within the LBAs (R6): count at least 1 is the caller's to check. -/
def inLbaRange (first count : Nat) : Bool := first + count ≤ lbaCount

/-- S(z), the sectors of each track of zone z (R2). -/
def sectorsIn (z : Nat) : Nat := 29 - z

/-- B(z), the first LBA of zone z (R6). -/
def firstLba (z : Nat) : Nat := 1240 * (29 * z - z * (z - 1) / 2)

/-- The zone of a track of 2 or more (R2). -/
def zoneOfTrack (t : Nat) : Nat := (t - 2) / 1250

/-- The index k of a track within its zone (R2). -/
def trackInZone (t : Nat) : Nat := (t - 2) % 1250

/-- The sectors on a track: 29 on a control track, S(z) elsewhere (R1, R2). -/
def sectorsOn (t : Nat) : Nat := if t < 2 then 29 else sectorsIn (zoneOfTrack t)

/-- The spare sectors of a zone (R2). -/
def sparesIn (z : Nat) : Nat := 10 * sectorsIn z

/-- A physical address exists (R5). -/
def Phys.isPresent (p : Phys) : Bool := p.track ≤ 20001 && p.sector < sectorsOn p.track

/-- A user address (R5). -/
def Phys.isUser (p : Phys) : Bool := p.isPresent && 2 ≤ p.track && trackInZone p.track < 1240

/-- A spare address (R5). -/
def Phys.isSpare (p : Phys) : Bool := p.isPresent && 2 ≤ p.track && 1240 ≤ trackInZone p.track

/-- The order of addresses: by track, then by sector (R38). -/
def Phys.before (p q : Phys) : Bool := p.track < q.track || (p.track == q.track && p.sector < q.sector)

/-- The zone of an LBA: the largest z with B(z) not above it (R7). -/
def zoneOfLba (lba : Nat) : Nat :=
  (List.range 16).foldl (fun best z => if firstLba z ≤ lba then z else best) 0

/-- The address of offset o within zone z (R7, steps 3 and 4). -/
def homeAt (z o : Nat) : Phys := ⟨2 + 1250 * z + o / sectorsIn z, o % sectorsIn z⟩

/-- The home address of an LBA (R7). -/
def homeOf (lba : Nat) : Phys := homeAt (zoneOfLba lba) (lba - firstLba (zoneOfLba lba))

/-- The offset within its zone of a user address (R5, R192). -/
def homeOffset (p : Phys) : Nat := trackInZone p.track * sectorsIn (zoneOfTrack p.track) + p.sector

/-- The address of spare index j of zone z (R9). -/
def spareAt (z j : Nat) : Phys := ⟨2 + 1250 * z + 1240 + j / sectorsIn z, j % sectorsIn z⟩

/-- The angle at which sector s of a track of n sectors begins (R11). -/
def startAngle (n s : Nat) : Nat := s * 4096 / n

/-- The sector under the head at an angle: the last one whose start angle has been reached (R11). -/
def sectorAtAngle (n a : Nat) : Nat :=
  (List.range n).foldl (fun best s => if startAngle n s ≤ a then s else best) 0

/-- The angle (R10): 0 at an index event, and held at 4,095; after it, while P is 0, the quotient is a free value
(log entry 11). -/
def RotationTimer.angle (t : RotationTimer) : Nat :=
  if t.elapsed = 0 then 0
  else if t.period = 0 then Nat.min (Config.freeAngle t.elapsed) 4095
  else Nat.min (t.elapsed * 4096 / t.period) 4095

/-- The first elapsed time at which the angle has reached a start angle (R10, R11). -/
def RotationTimer.reaches (t : RotationTimer) (angle : Nat) : Nat := divUp (angle * t.period) 4096

/-- The nominal seek time for a track distance (R13). -/
def seekTime (d : Nat) : Nat := if d = 0 then 0 else 256 + divUp d 4

/-- |target track − current track| (R13). -/
def trackDistance (s t : Nat) : Nat := (s - t) + (t - s)

/-- The move time of a candidate (R13). -/
def moveTime (d : Nat) (flip : Bool) : Nat := if flip then Nat.max (seekTime d) 512 else seekTime d

/-- The lead (R14). -/
def lead : Nat := 16

/-- The cost of a candidate with move time m and start angle θ from the present angle a (R15). -/
def accessCost (a m θ : Nat) : Nat :=
  (((θ : Int) - ((a + m + lead : Nat) : Int)) % 4096).toNat + m + lead

/-- The start angle of a physical sector on its own track (R11, R15). -/
def Phys.angle (p : Phys) : Nat := startAngle (sectorsOn p.track) p.sector

end Sys2Proof.Machine
end

