-- ==== Sys2Proof/Machine/Layout.lean ====
section
/-! DEFINITION. Byte layouts of frames, responses and the table image (Section 11). -/

namespace Sys2Proof.Machine

/-! ## Codes (R189) -/

/-- The code of a frame kind (R189). -/
def FrameKind.code : FrameKind → Byte
  | .attach => 0x01 | .detach => 0x02 | .inquire => 0x03 | .setEvents => 0x04 | .clearEvents => 0x05
  | .read => 0x10 | .write => 0x11 | .data => 0x12 | .flush => 0x13 | .discard => 0x14
  | .eject => 0x18 | .initialise => 0x19
  | .openStream => 0x20 | .closeStream => 0x21
  | .lock => 0x28 | .unlock => 0x29 | .postMail => 0x2a | .setDrive => 0x2b
  | .pullReport => 0x30 | .pullData => 0x31 | .pullStream => 0x32 | .pullMail => 0x33
  | .pullEvents => 0x34 | .pullFaults => 0x35

/-- Every frame kind the link knows. -/
def FrameKind.all : List FrameKind :=
  [.attach, .detach, .inquire, .setEvents, .clearEvents, .read, .write, .data, .flush, .discard, .eject,
   .initialise, .openStream, .closeStream, .lock, .unlock, .postMail, .setDrive, .pullReport, .pullData,
   .pullStream, .pullMail, .pullEvents, .pullFaults]

/-- The kind of a code of the table of R189; absent for an unknown kind. -/
def FrameKind.ofCode (code : Byte) : Option FrameKind := FrameKind.all.find? fun k => k.code == code

/-- A kind code that is in the table of R189. -/
def isKnownCode (code : Byte) : Bool := (FrameKind.ofCode code).isSome

def RefusalReason.code : RefusalReason → Nat
  | .frameError => 1 | .sequence => 2 | .notAttached => 3 | .tagInUse => 4 | .queueFull => 5
  | .retry => 6 | .range => 7 | .locked => 8 | .notReady => 9 | .notFormatted => 10
  | .writeProtected => 11 | .inUse => 12 | .busy => 13 | .conflict => 14 | .limit => 15
  | .mediumFault => 16

def ReportStatus.code : ReportStatus → Nat
  | .ok => 0 | .degraded => 1 | .writeFault => 2 | .tableFault => 3 | .mediumFault => 4 | .cancelled => 5

def SectorStatus.code : SectorStatus → Nat
  | .ok => 0 | .bad .unreadable => 1 | .bad .lost => 2

def FaultReason.code : FaultReason → Nat
  | .verifyLimit => 1 | .noSpare => 2 | .tableFault => 3 | .ejected => 4

def CartState.code : CartState → Nat
  | .empty => 0 | .loading => 1 | .spinningUp => 2 | .mounting => 3 | .ready => 4 | .readOnly => 5
  | .unformatted => 6 | .unusable => 7 | .draining => 8 | .spinningDown => 9 | .ejecting => 10
  | .recovering => 11 | .failed => 12

def EngineState.code : EngineState → Nat
  | .stopped => 0 | .idle => 1 | .moving => 2 | .dwelling => 3 | .held => 4

def StreamState.code : StreamState → Nat
  | .closed => 0 | .opened => 1 | .ended => 2 | .faulted => 3

def TableState.code : TableState → Nat
  | .clean => 0 | .dirty => 1 | .flushing => 2

def VerifyPolicy.code : VerifyPolicy → Nat
  | .always => 0 | .never => 1

def LockMode.code : LockMode → Nat
  | .writeGuard => 0 | .fullGuard => 1

def QueuedKind.frameKind : QueuedKind → FrameKind
  | .read => .read | .write => .write | .flush => .flush | .eject => .eject | .initialise => .initialise

/-! ## Responses (R191) -/

/-- A field of n bytes, most significant byte first (R189). -/
def fieldBytes : Nat → Nat → List Byte
  | 0, _ => []
  | n + 1, v => BitVec.ofNat 8 (v / 256 ^ n) :: fieldBytes n v

/-- Two marks of a byte or a word: bit 0 and bit 1. -/
def markBits (bit0 bit1 : Bool) : Nat := bit0.toNat + 2 * bit1.toNat

/-- The event word as a 32-bit number (R191). -/
def EventWord.value (w : EventWord) : Nat :=
  w.flags.toNat + 65536 * w.mask.toNat +
    (match w.style with | .pullClear => 0 | .explicit => 2147483648)

/-- The 1,024 bytes of a payload in the order they are stored. -/
def payloadBytes (p : Payload) : List Byte :=
  (List.range 1024).map fun i => p.extractLsb' (8 * (1023 - i)) 8

/-- The INQUIRE record's 36 bytes (R191). -/
def InquireRecord.bytes (r : InquireRecord) : List Byte :=
  fieldBytes 1 r.cartridge.code ++ fieldBytes 1 r.tab.toNat ++ fieldBytes 1 r.engine.code ++
  fieldBytes 1 r.stream.code ++ fieldBytes 1 r.table.code ++ fieldBytes 1 r.fault.toNat ++
  fieldBytes 1 r.attachedA.toNat ++ fieldBytes 1 r.attachedB.toNat ++
  fieldBytes 4 r.generation ++ fieldBytes 2 r.entryCount ++ fieldBytes 2 r.freeSpares ++
  fieldBytes 2 r.reading ++ fieldBytes 2 r.clean ++ fieldBytes 2 r.committing ++ fieldBytes 2 r.newer ++
  fieldBytes 2 r.freeSlots ++ fieldBytes 2 r.freeBuffers ++
  fieldBytes 2 r.committingOwn ++ fieldBytes 2 r.dirtyLimit ++
  fieldBytes 2 r.outstanding ++ fieldBytes 2 r.unread

/-- The payload of an ACCEPTED response (R191). -/
def Acceptance.bytes : Acceptance → List Byte
  | .plain => []
  | .attach ch restarted =>
    fieldBytes 1 (match ch with | .a => 0 | .b => 1) ++ fieldBytes 1 restarted.toNat
  | .events w => fieldBytes 4 w.value
  | .pins released => fieldBytes 2 released
  | .handle h => fieldBytes 2 h
  | .unlocked first count mode => fieldBytes 4 first ++ fieldBytes 2 count ++ fieldBytes 2 mode.code
  | .mail overwrote receiver => fieldBytes 2 (markBits overwrote receiver)
  | .settings now =>
    fieldBytes 2 now.readRetries ++ fieldBytes 2 now.reassignLimit ++
    fieldBytes 2 now.verifyPolicy.code ++ fieldBytes 2 now.dirtyLimit
  | .stream depth low n => fieldBytes 2 depth ++ fieldBytes 2 low ++ fieldBytes 4 n
  | .inquire r => r.bytes

/-- The report record's 12 bytes (R191). -/
def Report.bytes (r : Report) : List Byte :=
  [r.tag, r.kind.frameKind.code] ++ fieldBytes 1 r.status.code ++ fieldBytes 1 r.superseded.toNat ++
  fieldBytes 4 r.detail ++ fieldBytes 2 r.stamp.toNat ++ fieldBytes 2 0

/-- The sector header and, with status OK, the data (R191). -/
def SectorFrame.bytes (x : SectorFrame) : List Byte :=
  fieldBytes 4 x.lba ++ fieldBytes 1 x.status.code ++ fieldBytes 1 (markBits x.blank x.stream) ++
  fieldBytes 6 x.take ++ fieldBytes 4 x.place ++
  (match x.data with | some p => payloadBytes p | none => [])

/-- The payload of a response (R191). -/
def ResponseBody.bytes : ResponseBody → List Byte
  | .accepted x => x.bytes
  | .refused r => fieldBytes 2 r.code
  | .empty noRead pending => fieldBytes 2 (markBits noRead pending)
  | .report r => r.bytes
  | .sector x => x.bytes
  | .mail value overrun => fieldBytes 4 value.toNat ++ fieldBytes 2 overrun.toNat
  | .events w => fieldBytes 4 w.value
  | .faults records more =>
    fieldBytes 1 records.length ++ fieldBytes 1 more.toNat ++
    records.flatMap fun x => fieldBytes 4 x.lba ++ fieldBytes 1 x.reason.code ++ fieldBytes 1 0

/-- The code of a response kind (R189). -/
def ResponseBody.code : ResponseBody → Byte
  | .accepted _ => 0x80 | .refused _ => 0x81 | .empty _ _ => 0x82 | .report _ => 0x83
  | .sector _ => 0x84 | .mail _ _ => 0x85 | .events _ => 0x86 | .faults _ _ => 0x87

/-- The bytes of a response frame: header, then payload (R189, R191). -/
def Response.bytes (r : Response) : List Byte :=
  [r.body.code, r.tag] ++ fieldBytes 2 r.body.bytes.length ++ r.body.bytes

/-- Bytes carried as words, the earlier byte in bits 15–8 (R189). -/
def packWords : List Byte → List Word16
  | hi :: lo :: rest => (hi ++ lo) :: packWords rest
  | [hi] => [hi ++ (0 : Byte)]
  | [] => []

/-- The words the link sends for a response (R159, R189). -/
def Response.words (r : Response) : List Word16 := packWords r.bytes

/-! ## The table image (R192, R193) -/

/-- Word w of a sector, most significant byte first (R193). -/
def wordAt (p : Payload) (w : Nat) : BitVec 32 := p.extractLsb' (32 * (255 - w)) 32

/-- Record slot r of a sector, 8 bytes (R192). -/
def recordAt (p : Payload) (r : Nat) : BitVec 64 := p.extractLsb' (64 * (127 - r)) 64

/-- The sum of (k + 1) × word k over the first n words of a sector whose first word is word `base`. -/
def weightedSum (p : Payload) (base : Nat) : Nat → Nat
  | 0 => 0
  | n + 1 => weightedSum p base n + (base + n + 1) * (wordAt p n).toNat

/-- The header sector with word 2 counted as 0 (R193). -/
def withoutChecksum (header : Payload) : Payload :=
  header &&& ~~~(((0xffffffff : BitVec 32).setWidth 8192) <<< (32 * 253))

/-- The checksum over a copy's sectors (R193). -/
def tableChecksum : List Payload → BitVec 32
  | [] => 0
  | header :: rest =>
    BitVec.ofNat 32
      (weightedSum (withoutChecksum header) 0 256 +
        ((rest.zipIdx 1).foldl (fun sum x => sum + weightedSum x.1 (256 * x.2) 256) 0))

/-- The 8 bytes of an entry record: generation, then the descriptor word (R192). -/
def RemapEntry.record (e : RemapEntry) : BitVec 64 :=
  let kind : BitVec 2 := match e.kind with | .active _ => 1 | .spent => 2
  let offset : Nat := match e.kind with | .active home => homeOffset home | .spent => 0
  BitVec.ofNat 32 e.generation ++ (kind ++ BitVec.ofNat 4 e.zone ++ BitVec.ofNat 9 e.index ++
    (0 : BitVec 1) ++ BitVec.ofNat 16 offset : BitVec 32)

/-- A sector of 128 record slots; slots beyond the records are zero (R192). -/
def recordSector (records : List (BitVec 64)) : Payload :=
  (List.range 128).foldl (fun acc r => (acc <<< 64) ||| (records.getD r 0).setWidth 8192) 0

/-- The header sector (R192). -/
def headerSector (gen count : Nat) (sum : BitVec 32) : Payload :=
  ((BitVec.ofNat 32 gen ++ BitVec.ofNat 16 count ++ (0 : BitVec 16) ++ sum : BitVec 96).setWidth 8192)
    <<< (8192 - 96)

/-- The record sectors 1 to 27 of an image: the entry at position p in sector 1 + p div 128 (R45). -/
def recordSectors (entries : List RemapEntry) : List Payload :=
  (List.range 27).map fun i => recordSector (((entries.drop (128 * i)).take 128).map RemapEntry.record)

/-- The image a snapshot writes (R45, R192, R193). -/
def tableImage (gen : Nat) (entries : List RemapEntry) : List Payload :=
  let body := recordSectors entries
  let sum := tableChecksum (headerSector gen entries.length 0 :: body)
  headerSector gen entries.length sum :: body

/-- Decode an entry record under a header generation; absent where conditions 4 to 6 of R52 fail (R193). -/
def decodeRecord (gmax : Nat) (r : BitVec 64) : Option RemapEntry :=
  let gen := (r.extractLsb' 32 32).toNat
  let kind := (r.extractLsb' 30 2).toNat
  let zone := (r.extractLsb' 26 4).toNat
  let index := (r.extractLsb' 17 9).toNat
  let offset := (r.extractLsb' 0 16).toNat
  if gen < 1 || gmax < gen || sparesIn zone ≤ index then none
  else if kind = 1 then
    if offset < 1240 * sectorsIn zone then some ⟨.active (homeAt zone offset), zone, index, gen⟩ else none
  else if kind = 2 then some ⟨.spent, zone, index, gen⟩
  else none

/-- The spare address of an entry (R9, R38). -/
def RemapEntry.spare (e : RemapEntry) : Phys := spareAt e.zone e.index

/-- Table order (R38): ACTIVE entries by home, then SPENT entries by spare. -/
def RemapEntry.precedes (x y : RemapEntry) : Bool :=
  match x.kind, y.kind with
  | .active h, .active k => h.before k
  | .active _, .spent => true
  | .spent, .active _ => false
  | .spent, .spent => x.spare.before y.spare

/-- Each entry precedes the next (R52, condition 7). -/
def inTableOrder : List RemapEntry → Bool
  | x :: y :: rest => x.precedes y && inTableOrder (y :: rest)
  | _ => true

/-- The home of an ACTIVE entry. -/
def RemapEntry.home? (e : RemapEntry) : Option Phys :=
  match e.kind with | .active h => some h | .spent => none

/-- No two entries share a spare, and no two ACTIVE entries a home (R39; R52, condition 8). -/
def distinctEntries (entries : List RemapEntry) : Bool :=
  (entries.map fun e => (e.zone, e.index)).Nodup && (entries.filterMap RemapEntry.home?).Nodup

/-- The header generation and the entries of a copy of 28 sectors, absent where R52 finds it invalid by
conditions 2 to 8. -/
def decodeCopy (sectors : List Payload) : Option (Nat × List RemapEntry) :=
  match sectors with
  | [] => none
  | header :: body =>
    let gen := (wordAt header 0).toNat
    let count := ((wordAt header 1).extractLsb' 16 16).toNat
    if tableChecksum sectors ≠ wordAt header 2 then none
    else if gen < 1 || 3440 < count then none
    else
      let records := (List.range count).map fun p => recordAt (body.getD (p / 128) 0) (p % 128)
      match records.mapM (decodeRecord gen) with
      | none => none
      | some entries =>
        if inTableOrder entries && distinctEntries entries then some (gen, entries) else none

end Sys2Proof.Machine
end

