-- ==== Sys2Proof/Machine/Flags.lean ====
section
/-! DEFINITION. Event flags, the enable mask, ATTN and the event word (R170 to R173, R191). -/

namespace Sys2Proof.Machine

/-- The bit of an event flag in the event word (R191). -/
def EventFlag.index : EventFlag → Nat
  | .report => 0 | .mail => 1 | .streamData => 2 | .streamLow => 3 | .streamEnd => 4 | .streamFault => 5
  | .space => 6 | .cartridge => 7 | .settings => 8 | .deferredFault => 9 | .held => 10

/-- A flag as a one-bit mask. -/
def EventFlag.bit (e : EventFlag) : BitVec 11 := (1 : BitVec 11) <<< e.index

/-- A flag is set. -/
def Link.flag (l : Link) (e : EventFlag) : Bool := l.flags.getLsbD e.index

/-- ATTN is driven while the channel is attached and a flag is both set and enabled (R173). -/
def Link.attnDue (l : Link) : Bool := l.attached && (l.flags &&& l.mask) != 0

/-- The link judges ATTN (R173). -/
def Link.judged (l : Link) : Link := { l with attn := l.attnDue }

/-- A notice reaches the link: its flag is set when attached, and it is discarded when detached (R170). -/
def Link.noticed (e : EventFlag) (l : Link) : Link :=
  if l.attached then { l with flags := l.flags ||| e.bit } else l

/-- The flags named in a mask are cleared (R172). -/
def Link.cleared (m : BitVec 11) (l : Link) : Link := { l with flags := l.flags &&& ~~~m }

/-- The event word as it stands (R191). -/
def Link.eventWord (l : Link) : EventWord := { flags := l.flags, mask := l.mask, style := l.style }

end Sys2Proof.Machine
end

