-- ==== Sys2Proof/Machine/Operands.lean ====
section
/-! DEFINITION. The operand fields of frames (R160, R189, R190) and of console lines (R179, R180). -/

namespace Sys2Proof.Machine

/-- The other link. -/
def other : Channel → Channel
  | .a => .b
  | .b => .a

/-! ## Frames -/

/-- The 16-bit field at payload bytes 2i and 2i + 1 (R189). -/
def field16 (f : Frame) (i : Nat) : Nat := (f.words.getD i 0).toNat

/-- The 32-bit field at payload bytes 2i to 2i + 3 (R189). -/
def field32 (f : Frame) (i : Nat) : Nat := field16 f i * 65536 + field16 f (i + 1)

/-- The payload lengths R189 allows for a kind; DATA is judged by R74. -/
def lengthAllowed (k : FrameKind) (f : Frame) : Bool :=
  let n := f.length.toNat
  match k with
  | .attach | .detach | .inquire | .discard | .eject | .initialise | .closeStream | .pullReport
  | .pullData | .pullStream | .pullMail | .pullEvents | .pullFaults => n == 0
  | .setEvents => n == 4
  | .clearEvents => n == 2
  | .read => n == 6
  | .write => n == 8
  | .data => true
  | .flush => n == 6
  | .openStream => n == 8 + 6 * field16 f 2 && n ≤ 1040
  | .lock => n == 8
  | .unlock => n == 2
  | .postMail => n == 4
  | .setDrive => n == 8

/-- The words after the header are exactly the length rounded up to a whole word (R160). -/
def wordsMatch (f : Frame) : Bool := f.words.length == divUp f.length.toNat 2

/-- A frame is well formed for its kind (R160); a DATA frame is judged only for its kind. -/
def frameWellFormed (k : FrameKind) (f : Frame) : Bool :=
  match k with
  | .data => true
  | _ => lengthAllowed k f && wordsMatch f

/-- A DATA frame of exactly 1,024 bytes (R74). -/
def isFullData (f : Frame) : Bool := f.length.toNat == 1024 && f.words.length == 512

/-- The payload of a DATA frame, its bytes in the order they travel (R189, R190). -/
def dataPayload (f : Frame) : Payload :=
  f.words.foldl (fun acc w => (acc <<< 16) ||| w.setWidth 8192) 0

/-- The mode field of a WRITE (R189, R190). -/
def writeMode (f : Frame) : Option WriteMode :=
  match field16 f 3 with
  | 0 => some .deferred
  | 1 => some .sync
  | _ => none

/-- The mode field of a LOCK (R189, R190). -/
def lockMode (f : Frame) : Option LockMode :=
  match field16 f 3 with
  | 0 => some .writeGuard
  | 1 => some .fullGuard
  | _ => none

/-- The clear-style field of SET_EVENTS: a code that names neither style is PULL_CLEAR (R171). -/
def clearStyle (f : Frame) : ClearStyle := if field16 f 1 = 1 then .explicit else .pullClear

/-- A flag mask, bits 11–15 reserved (R190). -/
def flagMask (f : Frame) : BitVec 11 := BitVec.ofNat 11 (field16 f 0)

/-- The extents of an OPEN_STREAM (R190). -/
def streamExtents (f : Frame) : List Extent :=
  (List.range (field16 f 2)).map fun i => ⟨field32 f (4 + 3 * i), field16 f (4 + 3 * i + 2)⟩

/-- A setting field of SET_DRIVE: FFFFh is KEEP (R190). -/
def settingField (f : Frame) (i : Nat) : Option Nat :=
  if field16 f i = 0xffff then none else some (field16 f i)

/-! ## Received words (R160, R189) -/

/-- The command of a frame of a known kind. -/
def frameCommand (k : FrameKind) (ch : Channel) (f : Frame) : Instr :=
  match k with
  | .attach => .attach ch f | .detach => .detach ch f | .inquire => .inquire ch f
  | .setEvents => .setEvents ch f | .clearEvents => .clearEvents ch f | .read => .read ch f
  | .write => .write ch f | .data => .data ch f | .flush => .flush ch f | .discard => .discard ch f
  | .eject => .eject ch f | .initialise => .initialise ch f | .openStream => .openStream ch f
  | .closeStream => .closeStream ch f | .lock => .lock ch f | .unlock => .unlock ch f
  | .postMail => .postMail ch f | .setDrive => .setDrive ch f | .pullReport => .pullReport ch f
  | .pullData => .pullData ch f | .pullStream => .pullStream ch f | .pullMail => .pullMail ch f
  | .pullEvents => .pullEvents ch f | .pullFaults => .pullFaults ch f

/-- The command of the words received up to a frame's end (R160, R189): the kind code is in bits 15–8 of the
first word and the tag in bits 7–0, the length is the second word. A code absent from the table of R189 is an
unknown kind, and a frame that ends in its header has none. -/
def commandOfWords (ch : Channel) : List Word16 → Instr
  | head :: length :: words =>
    let code : Byte := head.extractLsb' 8 8
    let f : Frame := ⟨head.extractLsb' 0 8, length, words⟩
    match FrameKind.ofCode code with
    | some k => frameCommand k ch f
    | none => .malformedFrame ch (.unknownKind code f)
  | _ => .malformedFrame ch .shortHeader

/-- The words of a frame with a kind code, header first (R189). -/
def Frame.received (code : Byte) (f : Frame) : List Word16 := (code ++ f.tag) :: f.length :: f.words

/-! ## Console fields -/

/-- The value of a hexadecimal digit, in either case (R179). -/
def hexDigit (c : Char) : Option Nat :=
  let n := c.toNat
  if 48 ≤ n ∧ n ≤ 57 then some (n - 48)
  else if 65 ≤ n ∧ n ≤ 70 then some (n - 55)
  else if 97 ≤ n ∧ n ≤ 102 then some (n - 87)
  else none

/-- The value of hexadecimal digits read from a running value. -/
def hexValue (acc : Nat) : List Char → Option Nat
  | [] => some acc
  | c :: rest =>
    match hexDigit c with
    | some d => hexValue (16 * acc + d) rest
    | none => none

/-- A number of 1 to `most` hexadecimal digits (R180, R182, R186, R187). -/
def hexNumber (most : Nat) (field : List Char) : Option Nat :=
  if field.length = 0 ∨ most < field.length then none else hexValue 0 field

/-- A letter in capitals (R179). -/
def capital (c : Char) : Char := if 97 ≤ c.toNat ∧ c.toNat ≤ 122 then Char.ofNat (c.toNat - 32) else c

/-- The command letter of a first field (R180). -/
def commandLetter (field : List Char) : Option ConsoleLetter :=
  match field.map capital with
  | ['S'] => some .s
  | ['N'] => some .n
  | ['D'] => some .d
  | ['H'] => some .h
  | ['G'] => some .g
  | ['T'] => some .t
  | ['W'] => some .w
  | ['C'] => some .c
  | ['E'] => some .e
  | ['?'] => some .question
  | _ => none

/-- One letter of a watch slot's kinds joins the set; a repeated letter is accepted (R186). -/
def addKind (k : KindSet) (c : Char) : Option KindSet :=
  match capital c with
  | 'R' => some { k with read := true }
  | 'E' => some { k with erase := true }
  | 'W' => some { k with write := true }
  | 'V' => some { k with verify := true }
  | _ => none

/-- One to four of the letters R, E, W, V, a repeated one accepted (R186). A field of more than four letters is
refused even where letters repeat in it: DESIGN CHOICE, log entry 31. -/
def watchKinds (field : List Char) : Option KindSet :=
  if field.length = 0 ∨ 4 < field.length then none
  else field.foldlM addKind ⟨false, false, false, false⟩

/-- A watch slot's action letter (R186). -/
def watchAction (field : List Char) : Option WatchAction :=
  match field.map capital with
  | ['H'] => some .hold
  | ['N'] => some .note
  | _ => none

/-- A slot number, 0 or 1 (R186). -/
def slotNumber (field : List Char) : Option Nat :=
  match field with
  | ['0'] => some 0
  | ['1'] => some 1
  | _ => none

/-- The fields of a line: runs of characters other than spaces (R179). -/
def splitFields (line : List Char) : Fields :=
  let step := fun (acc : List (List Char) × List Char) (c : Char) =>
    if c = ' ' then (if acc.2 = [] then acc else (acc.1 ++ [acc.2], []))
    else (acc.1, acc.2 ++ [c])
  let r := line.foldl step ([], [])
  if r.2 = [] then r.1 else r.1 ++ [r.2]

end Sys2Proof.Machine
end

