-- ==== Sys2Proof/Machine/Ops.lean ====
section
/-! DEFINITION. The named operations every block shares: time, links, notices, reports, responses, console
lines, buffers, references, pins and the due set. -/

namespace Sys2Proof.Machine

/-! ## Time (R10, R12, log entries 1 and 2) -/

/-- The angle as it stands. -/
def State.angle (s : State) : Nat := s.timer.angle

/-- Time passes until the elapsed time stands at `elapsed`; a reading already past leaves it. -/
def passUntil (elapsed : Nat) (s : State) : State :=
  { s with
    clock := s.clock + (elapsed - s.timer.elapsed)
    timer := { s.timer with elapsed := Nat.max s.timer.elapsed elapsed } }

/-- Time passes until the clock stands at a deadline. -/
def passToClock (deadline : Nat) (s : State) : State :=
  { s with
    clock := Nat.max s.clock deadline
    timer := { s.timer with elapsed := s.timer.elapsed + (deadline - s.clock) } }

/-- The track whose layout marks and ends are reckoned on: a move's target track, else the head's (R11). -/
def reckonedTrack (s : State) : Nat :=
  match s.pe.state, s.pe.move with
  | .moving, some m => m.track
  | _, _ => s.pe.headTrack

/-- The sector under the head. -/
def sectorUnderHead (s : State) : Nat := sectorAtAngle (sectorsOn (reckonedTrack s)) s.angle

/-! ## Links -/

/-- Every change of a link's record ends with ATTN judged anew (R173). -/
def updLink (ch : Channel) (g : Link → Link) (s : State) : State :=
  { s with links := s.links.set ch (g (s.links.get ch)).judged }

/-- A notice to one link (R170). -/
def notify (ch : Channel) (e : EventFlag) (s : State) : State := updLink ch (Link.noticed e) s

/-- A notice to both links. -/
def notifyBoth (e : EventFlag) (s : State) : State := notify .b e (notify .a e s)

/-- The response to a frame (R159, R161). -/
def respond (ch : Channel) (tag : Byte) (body : ResponseBody) (s : State) : State :=
  updLink ch (fun l => { l with response := some ⟨tag, body⟩ }) s

/-- A queued request joins the outstanding set (R166). -/
def addOutstanding (ch : Channel) (tag : Byte) (kind : QueuedKind) (s : State) : State :=
  updLink ch (fun l => { l with outstanding := l.outstanding ++ [⟨tag, kind⟩] }) s

/-- A record leaves the outstanding set without a report (R166). -/
def dropOutstanding (ch : Channel) (tag : Byte) (kind : QueuedKind) (s : State) : State :=
  updLink ch (fun l => { l with outstanding := l.outstanding.erase ⟨tag, kind⟩ }) s

/-- A posted report moves from the outstanding set to the queue and sets REPORT, or is dropped (R167). -/
def Link.posted (r : Report) (l : Link) : Link :=
  if l.attached && l.outstanding.contains ⟨r.tag, r.kind⟩ then
    Link.noticed .report
      { l with outstanding := l.outstanding.erase ⟨r.tag, r.kind⟩, reports := l.reports ++ [r] }
  else l

/-- A block posts a report, stamped with the revolution counter (R12, R167). -/
def postReport (ch : Channel) (tag : Byte) (kind : QueuedKind) (status : ReportStatus) (detail : Nat)
    (superseded : Bool) (s : State) : State :=
  updLink ch (Link.posted ⟨tag, kind, status, detail, superseded, s.timer.revolution⟩) s

/-- A change of cartridge state, with its CARTRIDGE notice to both links (R17). -/
def enterCartState (st : CartState) (s : State) : State :=
  notifyBoth .cartridge { s with cc := { s.cc with state := st } }

/-- The locked states (R17). -/
def CartState.isLocked : CartState → Bool
  | .mounting | .ready | .readOnly | .unformatted | .unusable | .draining => true
  | _ => false

/-! ## Console lines (R181) -/

def ConsoleLine.isNotice : ConsoleLine → Bool
  | .notice _ _ => true
  | .reply _ => false

/-- An unsolicited line joins a queue of fewer than 8 lines, or the lost mark is set. -/
def Console.noticed (x : ConsoleNotice) (m : Console) : Console :=
  if m.queue.length < 8 then { m with queue := m.queue ++ [.notice m.lost x], lost := false }
  else { m with lost := true }

def queueNotice (x : ConsoleNotice) (s : State) : State := { s with mci := s.mci.noticed x }

/-- The queue without its oldest unsolicited line that is not being sent; the oldest line is being sent. -/
def withoutOldestNotice : List ConsoleLine → List ConsoleLine
  | [] => []
  | sending :: rest => sending :: rest.eraseP ConsoleLine.isNotice

/-- A response line has room, or an unsolicited line to displace. -/
def Console.hasReplyRoom (m : Console) : Bool :=
  m.queue.length < 8 || m.queue.tail.any ConsoleLine.isNotice

/-- A response line joins the tail, displacing an unsolicited line from a full queue. -/
def Console.replied (r : Reply) (m : Console) : Console :=
  if m.queue.length < 8 then { m with queue := m.queue ++ [.reply r] }
  else { m with queue := withoutOldestNotice m.queue ++ [.reply r], lost := true }

/-! ## Cache entries, slots and buffers (R57 to R65) -/

/-- The entry of an LBA. -/
def entryAt (s : State) (lba : Nat) : Option Entry := s.sc.entries.find? fun e => e.lba == lba

/-- Change the entry of an LBA. -/
def updEntry (lba : Nat) (g : Entry → Entry) (s : State) : State :=
  { s with sc := { s.sc with entries := s.sc.entries.map fun e => if e.lba == lba then g e else e } }

/-- An entry holds data that can be delivered (R60). -/
def EntryState.hasData : EntryState → Bool
  | .reading => false
  | _ => true

/-- An entry is in COMMITTING or COMMITTING_NEWER. -/
def EntryState.isCommitting : EntryState → Bool
  | .committing | .committingNewer => true
  | _ => false

/-- The contents of a buffer. -/
def bufferData (s : State) (b : Nat) : Payload := (s.sc.buffers[b]?).getD 0

/-- Fill a buffer. -/
def fillBuffer (b : Nat) (p : Payload) (s : State) : State :=
  { s with sc := { s.sc with buffers := s.sc.buffers.setIfInBounds b p } }

/-- Freed buffers join the tail of the free list (R61). -/
def freeBuffers (bs : List Nat) (s : State) : State :=
  { s with sc := { s.sc with freeList := s.sc.freeList ++ bs } }

/-- Buffers are taken from the head of the free list (R61). -/
def takeBuffers (n : Nat) (s : State) : State :=
  { s with sc := { s.sc with freeList := s.sc.freeList.drop n } }

/-- The slots a link's write reservation holds (R73). -/
def Link.reservedSlots (l : Link) : List Nat :=
  match l.dataPhase with | some d => d.slots | none => []

/-- The reserved slots of both links (R57). -/
def reservedSlots (s : State) : List Nat := s.links.a.reservedSlots ++ s.links.b.reservedSlots

/-- The free slots in ascending order (R57). -/
def freeSlots (s : State) : List Nat :=
  (List.range 128).filter fun n => !(s.sc.entries.any fun e => e.slot == n) && !(reservedSlots s).contains n

/-- An entry takes its place in slot order. -/
def insertBySlot (e : Entry) : List Entry → List Entry
  | [] => [e]
  | x :: rest => if e.slot < x.slot then e :: x :: rest else x :: insertBySlot e rest

/-- An entry moves, or joins, to the most-recent end (R63). -/
def touch (lba : Nat) (s : State) : State :=
  { s with sc := { s.sc with recency := s.sc.recency.erase lba ++ [lba] } }

/-- A new entry joins the cache and the most-recent end of the recency list (R58, R63). -/
def addEntry (e : Entry) (s : State) : State :=
  touch e.lba { s with sc := { s.sc with entries := insertBySlot e s.sc.entries } }

/-- The buffers an entry holds, current before newer (R82). -/
def Entry.buffers (e : Entry) : List Nat :=
  e.current :: (match e.newer with | some b => [b] | none => [])

/-- An entry is removed: its buffers are freed, its slot is free, it leaves the recency list (R63, R81). -/
def removeEntry (e : Entry) (s : State) : State :=
  freeBuffers e.buffers
    { s with sc := { s.sc with
        entries := s.sc.entries.filter fun x => x.lba != e.lba
        recency := s.sc.recency.erase e.lba } }

/-- The newest data an entry holds (R60). -/
def newestData (s : State) (e : Entry) : Payload :=
  if e.blank then 0 else bufferData s (match e.newer with | some b => b | none => e.current)

/-! ## References and pins (R65) -/

/-- A reference holds a pin: it is waiting or ready. -/
def ReadRef.pins (r : ReadRef) : Bool :=
  match r.cond with | .waiting | .ready => true | .bad _ => false

/-- The pins a read record holds on an entry. -/
def ReadRecord.pinsOn (lba : Nat) (r : ReadRecord) : Nat := r.refs.countP fun x => x.lba == lba && x.pins

/-- The pins a stream holds on an entry. -/
def Stream.pinsOn (lba : Nat) (t : Stream) : Nat := t.refs.countP fun x => x.lba == lba

/-- The pin count of an entry: the references that hold it (R65). -/
def pinCount (s : State) (lba : Nat) : Nat :=
  (s.sc.reads.map (ReadRecord.pinsOn lba)).sum + s.su.a.pinsOn lba + s.su.b.pinsOn lba

/-- An entry is CLEAN and holds no pin (R64). -/
def isUnpinnedClean (s : State) (lba : Nat) : Bool :=
  match entryAt s lba with
  | some e => e.state == .clean && pinCount s lba == 0
  | none => false

/-- The level of a stream (R131). -/
def Stream.level (t : Stream) : Nat := t.refs.countP fun x => x.ready

/-- The sectors of a stream in flight (R131). -/
def Stream.inFlight (t : Stream) : Nat := t.refs.countP fun x => !x.ready

/-- Change a stream context. -/
def updStream (ch : Channel) (g : Stream → Stream) (s : State) : State :=
  { s with su := s.su.set ch (g (s.su.get ch)) }

/-- The sectors a link has reserved. -/
def Link.reservedCount (l : Link) : Nat :=
  match l.dataPhase with | some d => d.count | none => 0

/-- A channel's committing count (R79). -/
def committingCount (s : State) (ch : Channel) : Nat :=
  (s.sc.entries.countP fun e => e.state.isCommitting && e.writer == some ch) +
    (s.links.get ch).reservedCount

/-! ## The due set (R108, R110) -/

/-- An owner offers an operation. -/
def offer (op : DueOp) (s : State) : State := { s with pe := { s.pe with due := s.pe.due ++ [op] } }

/-- The current pass is marked withdrawn when its operation is (R110). -/
def Engine.withdrawn (p : OpOwner → Bool) (pe : Engine) : Engine :=
  { pe with
    due := pe.due.filter fun op => !p op.owner
    pass := pe.pass.map fun c => if p c.op.owner then { c with withdrawn := true } else c }

/-- The operations of the owners' records that meet p are withdrawn. -/
def withdrawAll (p : OpOwner → Bool) (s : State) : State := { s with pe := s.pe.withdrawn p }

/-- One owner's record's operation is withdrawn. -/
def withdraw (o : OpOwner) (s : State) : State := withdrawAll (fun x => x == o) s

/-- An operation is compatible with a polarity (R109). -/
def PassKind.compatible (k : PassKind) (p : Polarity) : Bool :=
  match k, p with
  | .read, _ | .verify, _ => true
  | .erase, .erase => true
  | .write, .write => true
  | _, _ => false

/-- The pass a stage names (R89). -/
def Stage.pass : Stage → PassKind
  | .eraseDue => .erase
  | .writeDue => .write
  | .verifyDue => .verify

/-- The operation offered for a commit task (R89). -/
def CommitTask.op (t : CommitTask) : DueOp := ⟨.task t.lba, t.stage.pass, t.addr⟩

/-- The track of a table copy (R1). -/
def TableCopy.track : TableCopy → Nat
  | .a => 0
  | .b => 1

/-- The operation offered for a table task (R88, R89). -/
def TableTask.op (t : TableTask) : DueOp := ⟨.table t.copy t.sector, t.stage.pass, ⟨t.copy.track, t.sector⟩⟩

/-- The commit task of an LBA's entry. -/
def taskAt (s : State) (lba : Nat) : Option CommitTask := s.cmu.tasks.find? fun t => t.lba == lba

/-- Change the commit task of an LBA's entry. -/
def updTask (lba : Nat) (g : CommitTask → CommitTask) (s : State) : State :=
  { s with cmu := { s.cmu with tasks := s.cmu.tasks.map fun t => if t.lba == lba then g t else t } }

/-! ## Pass outcomes (R3, R4) -/

/-- The outcome of a pass (R4). -/
inductive PassOutcome where
  | good (data : Payload) (corrections : Nat)
  | unreadable
  | blank
  | done
  | pass
  | fail
  deriving DecidableEq, Repr

/-- What the mechanism finds, as a READ classifies it; the code corrects up to 16 symbols (R3, R4). -/
def readOutcome (f : Found) : PassOutcome :=
  match f with
  | .erased => .blank
  | .decoded data n => if n ≤ 16 then .good data n else .unreadable
  | .uncorrectable => .unreadable

/-- The verify margin is 4 corrections (R4). -/
def verifyOutcome (f : Found) : PassOutcome :=
  match f with
  | .decoded _ n => if n ≤ 4 then .pass else .fail
  | _ => .fail

/-- The outcome of a pass that is not cut off (R4). -/
def outcomeOf (k : PassKind) (f : Found) : PassOutcome :=
  match k with
  | .read => readOutcome f
  | .verify => verifyOutcome f
  | .erase | .write => .done

end Sys2Proof.Machine
end

