-- ==== Sys2Proof/Machine/Engine.lean ====
section
/-! DEFINITION. The Pass Engine's moves, its choice and its hold (Section 6), without the delivery of
outcomes, which stands in Machine/Passes.lean. -/

namespace Sys2Proof.Machine

/-! ## Moves (R120 to R123) -/

/-- The present instant as a settle point (R14). -/
def settleNow (s : State) : SettlePoint := ⟨s.angle, 0⟩

/-- The end of a move of kind TARGET (R121). -/
def finishTarget (t : Target) (s : State) : State :=
  { s with pe := { s.pe with
      headTrack := t.track, polarity := t.polarity, settle := some (settleNow s), seekFaults := 0,
      retry := none, move := none, state := .dwelling } }

/-- A move of kind TARGET starts (R120); one with neither part to do ends where it starts (R121, log
entry 16). -/
def startTarget (t : Target) (s : State) : State :=
  if t.track = s.pe.headTrack ∧ t.polarity = s.pe.polarity then finishTarget t s
  else
    { s with pe := { s.pe with
        state := .moving
        move := some { kind := .target, track := t.track, polarity := t.polarity,
                       seekDone := t.track == s.pe.headTrack, flipDone := t.polarity == s.pe.polarity,
                       startedAt := s.clock } } }

/-- A RECALIBRATE move starts: to track 0, with the bias commanded (R122, R123). -/
def startRecalibrate (p : Polarity) (s : State) : State :=
  { s with pe := { s.pe with
      state := .moving
      move := some { kind := .recalibrate, track := 0, polarity := p, seekDone := false,
                     flipDone := false, startedAt := s.clock } } }

/-- The end of a RECALIBRATE move: the retried move, or the first dwell after STOPPED (R122, R123). -/
def finishRecalibrate (p : Polarity) (s : State) : State :=
  let s1 := { s with pe := { s.pe with
      headTrack := 0, polarity := p, settle := some (settleNow s), move := none } }
  match s.pe.retry with
  | some t => startTarget t s1
  | none => { s1 with pe := { s1.pe with seekFaults := 0, state := .dwelling } }

/-- A move ends when both its parts are done (R121). -/
def endMoveIfDone (s : State) : State :=
  match s.pe.move with
  | some m =>
    if m.seekDone && m.flipDone then
      match m.kind with
      | .target => finishTarget ⟨m.track, m.polarity⟩ s
      | .recalibrate => finishRecalibrate m.polarity s
    else s
  | none => s

/-- CC brings PE out of STOPPED (R123). -/
def startEngine (s : State) : State :=
  startRecalibrate .erase { s with pe := { s.pe with seekFaults := 0, retry := none } }

/-- Take at mark is cleared when a commit task's WRITE pass is cut off (R89, R91). -/
def clearTakeAtMark (o : OpOwner) (s : State) : State :=
  match o with
  | .task lba => updTask lba (fun t => { t with takeAtMark := none }) s
  | _ => s

/-- A pass cut off has no outcome; an owner that has not withdrawn it keeps its operation due (R115). -/
def cutOffPass (s : State) : State :=
  match s.pe.pass with
  | none => s
  | some c =>
    let s1 := { s with pe := { s.pe with pass := none } }
    if c.withdrawn then s1 else clearTakeAtMark c.op.owner s1

/-- CC puts PE into STOPPED (R124). -/
def stopEngine (s : State) : State :=
  let s1 := cutOffPass s
  let wasHeld := s.pe.state == .held
  { s1 with
    pe := { s1.pe with
      move := none, retry := none, settle := none, seekFaults := 0, state := .stopped, goWaiting := false }
    mci := { s1.mci with hold := s1.mci.hold || wasHeld, stepReq := false } }

/-! ## The choice (R116 to R120) -/

/-- A stream is starving (R137). -/
def Stream.starving (t : Stream) : Bool :=
  t.state == .opened && t.deliveryCursor < t.positions && t.level < t.lowWater

/-- The physical sector of a stream's oldest outstanding READING sector (R117, R137). -/
def oldestReading (s : State) (t : Stream) : Option Phys :=
  (t.refs.find? fun r => !r.ready).bind fun r => (entryAt s r.lba).map Entry.addr

/-- A candidate of the urgent rule: level, cost, and the sector. -/
structure UrgentCandidate where
  level : Nat
  cost  : Nat
  addr  : Phys
  deriving DecidableEq, Repr

/-- A starving stream's candidate (R117). -/
def urgentCandidate (s : State) (ch : Channel) : Option UrgentCandidate :=
  let t := s.su.get ch
  if t.starving then
    (oldestReading s t).map fun p =>
      ⟨t.level, accessCost s.angle (seekTime (trackDistance s.pe.headTrack p.track)) p.angle, p⟩
  else none

/-- Channel A's candidate is chosen before Channel B's unless B's level, then cost, is lower (R117). -/
def chooseUrgent (s : State) : Option Phys :=
  let away := fun (c : UrgentCandidate) => c.addr.track != s.pe.headTrack
  match urgentCandidate s .a, urgentCandidate s .b with
  | some x, some y =>
    if away x || away y then
      some (if y.level < x.level ∨ (y.level = x.level ∧ y.cost < x.cost) then y.addr else x.addr)
    else none
  | some x, none => if away x then some x.addr else none
  | none, some y => if away y then some y.addr else none
  | none, none => none

/-- The move time of a candidate of the best rule (R119). -/
def opMoveTime (s : State) (op : DueOp) : Nat :=
  moveTime (trackDistance s.pe.headTrack op.addr.track) (!op.kind.compatible s.pe.polarity)

/-- The cost of a candidate (R15). -/
def opCost (s : State) (op : DueOp) : Nat := accessCost s.angle (opMoveTime s op) op.addr.angle

/-- The order of R119: cost, then track, then sector; the earlier offered keeps its place. -/
def betterThan (s : State) (x y : DueOp) : Bool :=
  opCost s x < opCost s y ||
    (opCost s x == opCost s y && x.addr.before y.addr)

/-- The best rule (R119). -/
def chooseBest (s : State) : List DueOp → Option DueOp
  | [] => none
  | op :: rest => some (rest.foldl (fun best x => if betterThan s x best then x else best) op)

/-- The polarity a chosen operation asks for (R120). -/
def targetPolarity (k : PassKind) (present : Polarity) : Polarity :=
  match k with
  | .erase => .erase
  | .write => .write
  | .read | .verify => present

/-- The choice among a due set: urgent, stay, best (R116); absent when nothing is due. -/
def choose (due : List DueOp) (s : State) : Option Target :=
  match chooseUrgent s with
  | some p => some ⟨p.track, s.pe.polarity⟩
  | none =>
    if due.any fun op => op.addr.track == s.pe.headTrack && op.kind.compatible s.pe.polarity then
      some ⟨s.pe.headTrack, s.pe.polarity⟩
    else
      (chooseBest s due).map fun op => ⟨op.addr.track, targetPolarity op.kind s.pe.polarity⟩

/-- PE acts on its choice: it stays in DWELLING, moves, or enters IDLE (R119, R120). -/
def actOnChoice (t : Option Target) (s : State) : State :=
  match t with
  | none => { s with pe := { s.pe with state := .idle } }
  | some t =>
    if t.track = s.pe.headTrack ∧ t.polarity = s.pe.polarity then
      { s with pe := { s.pe with state := .dwelling } }
    else startTarget t s

/-- PE makes the choice (R116). -/
def makeChoice (s : State) : State := actOnChoice (choose s.pe.due s) s

/-- Offers that reach an idle engine: the first one taken makes the choice (R116). Where the offers would
give different choices, which one is first is a free value (log entry 7). -/
def workArrival (s : State) : State :=
  if s.pe.state = .idle then
    match s.pe.due with
    | [] => s
    | op :: rest =>
      let first := choose [op] s
      if rest.all fun x => choose [x] s == first then actOnChoice first s
      else
        let taken := (op :: rest).getD (Config.freeArrival s.freeCount % (rest.length + 1)) op
        actOnChoice (choose [taken] s) { s with freeCount := s.freeCount + 1 }
  else s

/-! ## Hold, GO and STEP (R125 to R127) -/

/-- PE takes a pending hold: it enters HELD and posts the notice and the console line (R125, R184). -/
def takeHold (s : State) : State :=
  queueNotice (.heldAt s.pe.headTrack s.timer.revolution)
    (notifyBoth .held
      { s with pe := { s.pe with state := .held }, mci := { s.mci with hold := false } })

/-- A step pass is under way: HELD with a current pass (R127). -/
def stepUnderWay (s : State) : Bool := s.pe.state == .held && s.pe.pass.isSome

/-- The due set holds a compatible operation on the head track (R127). -/
def compatibleHere (s : State) : Bool :=
  s.pe.due.any fun op => op.addr.track == s.pe.headTrack && op.kind.compatible s.pe.polarity

end Sys2Proof.Machine
end

