-- ==== Sys2Proof/Machine/Table.lean ====
section
/-! DEFINITION. The Remap Table (Section 3): translation, spares, the flush's start, mount assembly and the
mount choice. The end of a flush, which acts on CMU and CC, stands in Machine/Flushes.lean. -/

namespace Sys2Proof.Machine

/-- The highest generation (R37). -/
def maxGeneration : Nat := 4294967295

/-! ## Translation (R8, R40) -/

/-- The ACTIVE entry of a home address. -/
def RemapTable.activeFor (t : RemapTable) (home : Phys) : Option RemapEntry :=
  t.entries.find? fun e => e.home? == some home

/-- The physical address of an LBA; while UNLOADED its home address (R8, R40). -/
def RemapTable.translate (t : RemapTable) (lba : Nat) : Phys :=
  if t.loaded then
    match t.activeFor (homeOf lba) with
    | some e => e.spare
    | none => homeOf lba
  else homeOf lba

/-! ## Spares (R39, R41 to R44) -/

/-- A spare index of a zone is in the zone's spare-allocation view (R39). -/
def RemapTable.spareUsed (t : RemapTable) (z j : Nat) : Bool :=
  t.entries.any fun e => e.zone == z && e.index == j

/-- The free spares in total: 3,440 less the entry count while LOADED, 0 otherwise (R37, R39). -/
def RemapTable.freeSpares (t : RemapTable) : Nat := if t.loaded then 3440 - t.entries.length else 0

/-- RMT's judgement of a spare request for a home in zone z: the lowest free index, or a refusal (R41). -/
def RemapTable.judgeSpare (t : RemapTable) (z : Nat) : Except FaultReason Nat :=
  if !t.loaded || t.fault || t.generation == maxGeneration then .error .tableFault
  else
    match (List.range (sparesIn z)).find? fun j => !t.spareUsed z j with
    | some j => .ok j
    | none => .error .noSpare

/-- An entry takes its place in table order (R38). -/
def insertEntry (e : RemapEntry) : List RemapEntry → List RemapEntry
  | [] => [e]
  | x :: rest => if e.precedes x then e :: x :: rest else x :: insertEntry e rest

/-- The entry change of a grant: a first reassignment (R42) or the replacement of a spare (R43). -/
def RemapTable.granted (t : RemapTable) (home : Phys) (z j : Nat) : List RemapEntry :=
  let gen := t.generation + 1
  match t.activeFor home with
  | none => insertEntry ⟨.active home, z, j, gen⟩ t.entries
  | some old =>
    insertEntry ⟨.spent, old.zone, old.index, gen⟩
      (t.entries.map fun e => if e.home? == some home then { e with zone := z, index := j, generation := gen } else e)

/-! ## The flush's start (R45) -/

/-- The 28 table tasks of a copy at creation (R45, R88). -/
def copyTasks (c : TableCopy) (held : Bool) : List TableTask :=
  (List.range 28).map fun i => ⟨c, i, .eraseDue, 0, held⟩

/-- Operations offered one after another. -/
def offerAll (ops : List DueOp) (s : State) : State := { s with pe := { s.pe with due := s.pe.due ++ ops } }

/-- The generation a flush carries: one higher, stopping at the highest (R45, step 1). -/
def raisedGeneration (g : Nat) : Nat := Nat.min (g + 1) maxGeneration

/-- The image area holding an image. -/
def imageArea (sectors : List Payload) : ImageArea := Vector.ofFn fun i : Fin 28 => sectors[i.val]?

/-- A flush starts at a generation (R45, steps 2 to 5). -/
def startFlushAt (gen : Nat) (s : State) : State :=
  offerAll ((copyTasks .a false).map TableTask.op)
    { s with
      rmt := { s.rmt with
        generation := gen
        image := imageArea (tableImage gen s.rmt.entries)
        changedAgain := false
        progress := some ⟨.writing 0, .waiting⟩
        state := .flushing }
      cmu := { s.cmu with
        tableTasks := s.cmu.tableTasks ++ copyTasks .a false ++ copyTasks .b true } }

/-- A flush starts with its generation raised (R45, step 1). -/
def startFlush (s : State) : State := startFlushAt (raisedGeneration s.rmt.generation) s

/-- After an entry change: a CLEAN table becomes DIRTY and a flush starts at once; a FLUSHING table marks
changed again (R44). -/
def tableChanged (s : State) : State :=
  match s.rmt.state with
  | .clean => startFlush { s with rmt := { s.rmt with state := .dirty } }
  | .flushing => { s with rmt := { s.rmt with changedAgain := true } }
  | .dirty => s

/-- A grant of spare index j of zone z for a home (R42 to R44). -/
def grantSpare (home : Phys) (z j : Nat) (s : State) : State :=
  tableChanged { s with rmt := { s.rmt with entries := s.rmt.granted home z j } }

/-- INITIALISE has RMT start a new table (R54). -/
def startNewTable (s : State) : State :=
  startFlushAt 1
    { s with rmt := { s.rmt with entries := [], loaded := true, fault := false, changedAgain := false,
                                 verifiedGen := 0, generation := 1 } }

/-! ## Mount (R51 to R53) -/

/-- Both assembly areas are emptied (R51). -/
def emptyAssembly (s : State) : State :=
  { s with rmt := { s.rmt with image := emptyArea, assemblyB := emptyArea } }

/-- A GOOD payload is placed in the slot of its copy and sector (R51). -/
def assemble (c : TableCopy) (i : Nat) (p : Payload) (s : State) : State :=
  match c with
  | .a => { s with rmt := { s.rmt with image := s.rmt.image.setIfInBounds i (some p) } }
  | .b => { s with rmt := { s.rmt with assemblyB := s.rmt.assemblyB.setIfInBounds i (some p) } }

/-- The place of a control sector in the mount progress. -/
def mountIndex (c : TableCopy) (i : Nat) : Nat :=
  match c with
  | .a => i
  | .b => 28 + i

/-- All 28 sectors of a copy resolved GOOD (R52, condition 1). -/
def copyAllGood (m : Vector MountSector 56) (c : TableCopy) : Bool :=
  (List.range 28).all fun i => (m[mountIndex c i]?).bind MountSector.outcome == some .good

/-- A copy's generation and entries, absent where the copy is invalid (R52). -/
def judgeCopy (m : Vector MountSector 56) (c : TableCopy) (area : ImageArea) :
    Option (Nat × List RemapEntry) :=
  if copyAllGood m c then
    match area.toList.mapM id with
    | some sectors => decodeCopy sectors
    | none => none
  else none

/-- The answers to the mount choice (R53). -/
inductive MountChoice where
  | load (gen : Nat) (entries : List RemapEntry)
  | unformatted
  | unusable
  deriving DecidableEq, Repr

/-- The mount choice (R53). -/
def mountChoice (s : State) : MountChoice :=
  match judgeCopy s.cc.mount .a s.rmt.image, judgeCopy s.cc.mount .b s.rmt.assemblyB with
  | some x, some y => if x.1 < y.1 then .load y.1 y.2 else .load x.1 x.2
  | some x, none => .load x.1 x.2
  | none, some y => .load y.1 y.2
  | none, none =>
    if s.cc.mount.toList.all fun r => r.outcome == some .blank then .unformatted else .unusable

/-- A copy is loaded (R53); the image area holds no image until the next flush. -/
def RemapTable.load (gen : Nat) (entries : List RemapEntry) (t : RemapTable) : RemapTable :=
  { t with loaded := true, entries := entries, state := .clean, changedAgain := false, fault := false,
           generation := gen, verifiedGen := gen, progress := none, image := emptyArea,
           assemblyB := emptyArea }

/-- The table is unloaded (R56). -/
def unloadTable (s : State) : State := { s with rmt := RemapTable.unloaded }

end Sys2Proof.Machine
end

