-- ==== Sys2Proof/Machine/Space.lean ====
section
/-! DEFINITION. Finding space, eviction, new READING entries, the resolution of references, prefetch and the
freeing events (R64 to R70, R80, R135 to R139). -/

namespace Sys2Proof.Machine

/-! ## Finding space (R64) -/

/-- The evictable entries' LBAs in recency order; a hit of the request being judged is not evictable. -/
def evictable (isHit : Nat → Bool) (s : State) : List Nat :=
  s.sc.recency.filter fun lba => isUnpinnedClean s lba && !isHit lba

/-- The evictions a request needing m slots and m buffers needs (R64, step 2). -/
def evictionsNeeded (m : Nat) (s : State) : Nat :=
  Nat.max (m - (freeSlots s).length) (m - s.sc.freeList.length)

/-- The space for m slots and m buffers can be found (R64). -/
def spaceFor (m : Nat) (isHit : Nat → Bool) (s : State) : Bool :=
  evictionsNeeded m s ≤ (evictable isHit s).length

/-- One entry is evicted (R64, step 3). -/
def evict (s : State) (lba : Nat) : State :=
  match entryAt s lba with
  | some e => removeEntry e s
  | none => s

/-! ## The wants-space marks (R80) -/

/-- A wants-space mark is met (R80). -/
def wantMet (ch : Channel) (w : Want) (s : State) : Bool :=
  spaceFor w.count (fun _ => false) s &&
    (match w.kind with
      | .read => true
      | .write => committingCount s ch + w.count ≤ s.cu.settings.dirtyLimit)

/-- A channel's wants-space mark becomes another. -/
def setWant (ch : Channel) (w : Option Want) (s : State) : State :=
  { s with sc := { s.sc with wants := s.sc.wants.set ch w } }

/-- SC checks a channel's mark: when met, SPACE is posted and the mark becomes absent (R80). -/
def checkWant (ch : Channel) (s : State) : State :=
  match s.sc.wants.get ch with
  | some w => if wantMet ch w s then notify ch .space (setWant ch none s) else s
  | none => s

/-- SC checks both marks (R80). -/
def checkWants (s : State) : State := checkWant .b (checkWant .a s)

/-! ## Making space (R64) -/

/-- The entries that a request's evictions remove, in recency order (R64, step 3). -/
def victims (m : Nat) (isHit : Nat → Bool) (s : State) : List Nat :=
  (evictable isHit s).take (evictionsNeeded m s)

/-- The evictions for m slots and m buffers are made (R64, step 3). -/
def evictFor (m : Nat) (isHit : Nat → Bool) (s : State) : State := (victims m isHit s).foldl evict s

/-- SC makes the evictions a READ or a WRITE needs. They free slots and buffers, so SC checks the marks (R80)
before the request takes its room: log entry 8. -/
def makeSpace (m : Nat) (isHit : Nat → Bool) (s : State) : State :=
  match victims m isHit s with
  | [] => s
  | _ => checkWants (evictFor m isHit s)

/-! ## New READING entries (R58, R67) -/

/-- The operation offered for a READING entry (R108). -/
def Entry.readOp (e : Entry) : DueOp := ⟨.entry e.lba, .read, e.addr⟩

/-- A READING entry is created in the lowest free slot with the buffer at the head of the free list, and its
READ pass offered (R67). -/
def createReading (lba : Nat) (s : State) : State :=
  let e : Entry :=
    { slot := (freeSlots s).headD 0, lba := lba, addr := s.rmt.translate lba, state := .reading,
      blank := false, current := s.sc.freeList.headD 0, newer := none, writer := none, take := none,
      retries := 0 }
  offer e.readOp (addEntry e (takeBuffers 1 s))

/-! ## Resolution of references (R65, R70, R138, R139) -/

/-- No reference of a read record is waiting (R70). -/
def ReadRecord.isDone (r : ReadRecord) : Bool := r.refs.all fun x => x.cond != .waiting

/-- The READ's report at completion (R70). -/
def postReadReport (s : State) (r : ReadRecord) : State :=
  if r.bad = 0 then postReport r.channel r.tag .read .ok r.count false s
  else postReport r.channel r.tag .read .degraded r.bad false s

/-- The PENDING read records that meet `concerned` and have no waiting reference complete, oldest accepted
first (R70, R195). -/
def completeReads (concerned : ReadRecord → Bool) (s : State) : State :=
  let ends := fun (r : ReadRecord) => !r.complete && concerned r && r.isDone
  (s.sc.reads.filter ends).foldl postReadReport
    { s with sc := { s.sc with
        reads := s.sc.reads.map fun r => if ends r then { r with complete := true } else r } }

/-- A read record holds an undelivered reference to an LBA. -/
def ReadRecord.concerns (lba : Nat) (r : ReadRecord) : Bool := r.refs.any fun x => x.lba == lba

/-- A read record's waiting reference to an LBA becomes ready (R68, R76). -/
def ReadRecord.readied (lba : Nat) (r : ReadRecord) : ReadRecord :=
  { r with refs := r.refs.map fun x =>
      if x.lba == lba && x.cond == .waiting then { x with cond := .ready } else x }

/-- A read record's reference to an LBA resolves bad; a PENDING record counts it (R69, R70, R81). -/
def ReadRecord.spoiled (lba : Nat) (status : BadStatus) (r : ReadRecord) : ReadRecord :=
  { r with
    bad := if r.complete then r.bad else r.bad + r.pinsOn lba
    refs := r.refs.map fun x => if x.lba == lba && x.pins then { x with cond := .bad status } else x }

def mapReads (g : ReadRecord → ReadRecord) (s : State) : State :=
  { s with sc := { s.sc with reads := s.sc.reads.map g } }

/-- A stream's reference to an LBA becomes ready; level 0 to 1 posts STREAM_DATA (R138). -/
def streamReadied (ch : Channel) (lba : Nat) (s : State) : State :=
  let t := s.su.get ch
  let t1 := { t with refs := t.refs.map fun x => if x.lba == lba then { x with ready := true } else x }
  let s1 := updStream ch (fun _ => t1) s
  if t.level = 0 ∧ t1.level = 1 then notify ch .streamData s1 else s1

/-- Every waiting reference on an entry becomes ready (R68, R76, R138). -/
def refsReady (lba : Nat) (s : State) : State :=
  streamReadied .b lba
    (streamReadied .a lba
      (completeReads (ReadRecord.concerns lba) (mapReads (ReadRecord.readied lba) s)))

/-- A stream faults at a position: the references at or above it are gone (R139). -/
def Stream.faultedAt (p : Nat) (status : BadStatus) (t : Stream) : Stream :=
  { t with state := .faulted, refs := t.refs.filter fun x => x.position < p, faultPosition := some p,
           faultStatus := some status, prefetchWaiting := false }

/-- A stream becomes FAULTED at a position and STREAM_FAULT is posted (R139). -/
def faultStream (ch : Channel) (p : Nat) (status : BadStatus) (s : State) : State :=
  notify ch .streamFault (updStream ch (Stream.faultedAt p status) s)

/-- A stream's reference to a removed entry resolves bad (R139). -/
def streamSpoiled (ch : Channel) (lba : Nat) (status : BadStatus) (s : State) : State :=
  match (s.su.get ch).refs.find? fun x => x.lba == lba with
  | some x => faultStream ch x.position status s
  | none => s

/-- Every reference on a removed entry resolves bad (R69, R81). -/
def refsBad (lba : Nat) (status : BadStatus) (s : State) : State :=
  streamSpoiled .b lba status
    (streamSpoiled .a lba status
      (completeReads (ReadRecord.concerns lba) (mapReads (ReadRecord.spoiled lba status) s)))

/-! ## Prefetch (R133, R135) -/

/-- The LBA of a position (R133). -/
def positionLba : List Extent → Nat → Nat
  | [], _ => 0
  | x :: rest, p => if p < x.count then x.first + p else positionLba rest (p - x.count)

/-- A prefetch can be made: OPEN, positions left, level plus in flight below the depth (R135). -/
def Stream.canPrefetch (t : Stream) : Bool :=
  t.state == .opened && t.prefetchCursor < t.positions && t.level + t.inFlight < t.depth

/-- The stream after the position at its prefetch cursor is prefetched (R135). -/
def Stream.prefetched (lba : Nat) (ready : Bool) (t : Stream) : Stream :=
  { t with refs := t.refs ++ [⟨t.prefetchCursor, lba, ready⟩], prefetchCursor := t.prefetchCursor + 1,
           prefetchWaiting := false }

/-- One prefetch. Its evictions check no mark, since a prefetch brings no SPACE event (R135). -/
def prefetchOne (ch : Channel) (s : State) : State :=
  let t := s.su.get ch
  let lba := positionLba t.extents t.prefetchCursor
  match entryAt s lba with
  | some e =>
    let s1 := updStream ch (Stream.prefetched lba e.state.hasData) (touch lba s)
    if e.state.hasData ∧ t.level = 0 then notify ch .streamData s1 else s1
  | none =>
    if spaceFor 1 (fun _ => false) s then
      updStream ch (Stream.prefetched lba false) (createReading lba (evictFor 1 (fun _ => false) s))
    else updStream ch (fun t => { t with prefetchWaiting := true }) s

/-- SU prefetches again while the conditions hold; a miss without space stops it (R135). -/
def prefetchUpTo (ch : Channel) : Nat → State → State
  | 0, s => s
  | n + 1, s =>
    if (s.su.get ch).canPrefetch then
      let s1 := prefetchOne ch s
      if (s1.su.get ch).prefetchWaiting then s1 else prefetchUpTo ch n s1
    else s

/-- SU runs the prefetch of a stream. Each prefetch raises level plus in flight by one, so no more than the depth
are made (R135). -/
def prefetch (ch : Channel) (s : State) : State := prefetchUpTo ch (s.su.get ch).depth s

/-! ## Freeing events (R80, R136) -/

/-- At a space notice a stream whose prefetch is waiting tries again (R136). -/
def retryPrefetch (ch : Channel) (s : State) : State :=
  if (s.su.get ch).prefetchWaiting then prefetch ch s else s

/-- Both waiting streams try, in an order that is a free value (R136, log entry 8). -/
def retryPrefetches (s : State) : State :=
  if s.su.a.prefetchWaiting && s.su.b.prefetchWaiting then
    let s1 := { s with freeCount := s.freeCount + 1 }
    if Config.freeStreamOrder s.freeCount then retryPrefetch .a (retryPrefetch .b s1)
    else retryPrefetch .b (retryPrefetch .a s1)
  else retryPrefetch .b (retryPrefetch .a s)

/-- A freeing event: SC checks the marks, then tells SU that space may have been freed (R80). -/
def freeingEvent (s : State) : State := retryPrefetches (checkWants s)

/-- Entries were evicted between two states: an entry of the first no longer stands in the second. -/
def evictedSince (before after : State) : Bool :=
  before.sc.entries.any fun e => !after.sc.entries.contains e

/-- The evictions made for a request or a prefetch are a freeing event for the waiting streams too (R64, R80):
SC tells SU once the room is taken (log entry 8). -/
def afterEvictions (before after : State) : State :=
  if evictedSince before after then retryPrefetches after else after

/-- Released pins are a freeing event when they leave an entry evictable (R80). -/
def afterRelease (lbas : List Nat) (s : State) : State :=
  if lbas.any (isUnpinnedClean s) then freeingEvent s else s

end Sys2Proof.Machine
end

