-- ==== Sys2Proof/Machine/Commit.lean ====
section
/-! DEFINITION. The Commit Unit's tasks, waiters and deferred-fault lists (Section 5), without the delivery of
outcomes, which stands in Machine/Passes.lean. -/

namespace Sys2Proof.Machine

/-! ## Commit tasks (R87, R89) -/

/-- The reassignment generation of a new task at a physical sector (R87). -/
def RemapTable.unverifiedMove (t : RemapTable) (addr : Phys) : Option Nat :=
  match t.entries.find? fun r => r.home?.isSome && r.spare == addr with
  | some r => if t.verifiedGen < r.generation then some r.generation else none
  | none => none

/-- The task of an entry at its creation (R87). -/
def newTask (s : State) (lba : Nat) (addr : Phys) (buffer take : Nat) : CommitTask :=
  { lba := lba, addr := addr, stage := .eraseDue, buffer := buffer, take := take,
    policy := s.cu.settings.verifyPolicy, used := 0, reassignGen := s.rmt.unverifiedMove addr,
    takeAtMark := none }

/-- CMU creates a commit task and offers its pass (R87, R89). -/
def createTask (lba : Nat) (addr : Phys) (buffer take : Nat) (s : State) : State :=
  let t := newTask s lba addr buffer take
  offer t.op { s with cmu := { s.cmu with tasks := s.cmu.tasks ++ [t] } }

/-- A commit task is removed and its operation withdrawn (R89). -/
def removeTask (lba : Nat) (s : State) : State :=
  withdraw (.task lba)
    { s with cmu := { s.cmu with tasks := s.cmu.tasks.filter fun t => t.lba != lba } }

/-- A task changes its stage or sector: its old operation is withdrawn and the new one offered (R89). -/
def restage (t : CommitTask) (s : State) : State :=
  offer t.op (withdraw (.task t.lba) (updTask t.lba (fun _ => t) s))

/-! ## Waiters (R98 to R102) -/

/-- How a waiter completes: status, detail and the SUPERSEDED mark (R100). -/
structure Completion where
  status     : ReportStatus
  detail     : Nat
  superseded : Bool
  deriving DecidableEq, Repr

/-- The request a waiter answers. -/
def WaiterKind.queued : WaiterKind → QueuedKind
  | .sync => .write
  | .flush => .flush

/-- The lowest LBA of a waiter's sectors that meet p. -/
def Waiter.lowest (p : WaitSector → Bool) (w : Waiter) : Nat :=
  ((w.sectors.filter p).map WaitSector.lba).foldl Nat.min lbaCount

/-- A waiting sector is not SATISFIED. -/
def WaitSector.isOpen (x : WaitSector) : Bool := x.cond != .satisfied

/-- A waiter holds a sector of an LBA that is not SATISFIED. -/
def Waiter.holdsOpen (lba : Nat) (w : Waiter) : Bool := w.sectors.any fun x => x.lba == lba && x.isOpen

/-- A waiter completes OK when every sector is SATISFIED (R100, R101). -/
def Waiter.satisfied (w : Waiter) : Option Completion :=
  if w.sectors.any WaitSector.isOpen then none
  else
    match w.kind with
    | .sync => some ⟨.ok, w.count, w.sectors.any WaitSector.superseded⟩
    | .flush => some ⟨.ok, w.sectors.length, false⟩

/-- A waiter's completion posts its report on its channel (R100). -/
def postCompletion (s : State) (x : Waiter × Option Completion) : State :=
  match x.2 with
  | some c => postReport x.1.channel x.1.tag x.1.kind.queued c.status c.detail c.superseded s
  | none => s

/-- Every waiter is judged, oldest registered first; a completed one is removed (R98 to R103, R194). -/
def judgeWaiters (judge : Waiter → Waiter × Option Completion) (s : State) : State :=
  let judged := s.cmu.waiters.map judge
  judged.foldl postCompletion
    { s with cmu := { s.cmu with
        waiters := judged.filterMap fun x => match x.2 with | some _ => none | none => some x.1 } }

/-- A finishing record (R92, step 1). -/
structure FinishRecord where
  lba  : Nat
  take : Nat
  gen  : Option Nat
  deriving DecidableEq, Repr

/-- The reassignments of a finishing record are covered by a verified copy (R98). -/
def FinishRecord.covered (f : FinishRecord) (verifiedGen : Nat) : Bool :=
  match f.gen with
  | none => true
  | some g => g ≤ verifiedGen

/-- A finishing record judges this waiting sector: of its LBA, PENDING, taken no later (R98). -/
def FinishRecord.judges (f : FinishRecord) (x : WaitSector) : Bool :=
  x.lba == f.lba && x.cond == .pending && x.take ≤ f.take

/-- A waiting sector after a finishing record, under no fault mark (R98). -/
def FinishRecord.settle (f : FinishRecord) (verifiedGen : Nat) (x : WaitSector) : WaitSector :=
  if f.judges x then
    { x with
      cond := if f.covered verifiedGen then .satisfied else .awaitingTable (f.gen.getD 0)
      superseded := x.superseded || x.take < f.take }
  else x

/-- A waiter judged against a finishing record (R98). -/
def FinishRecord.judgeWaiter (f : FinishRecord) (table : RemapTable) (w : Waiter) :
    Waiter × Option Completion :=
  if !f.covered table.verifiedGen && table.fault && w.sectors.any f.judges then
    (w, some ⟨.tableFault, f.lba, false⟩)
  else
    let w1 := { w with sectors := w.sectors.map (f.settle table.verifiedGen) }
    (w1, w1.satisfied)

/-- CMU judges every waiter against a finishing record (R98). -/
def judgeFinish (f : FinishRecord) (s : State) : State := judgeWaiters (f.judgeWaiter s.rmt) s

/-- A waiting sector at a verified-generation notice (R99). -/
def WaitSector.released (v : Nat) (x : WaitSector) : WaitSector :=
  match x.cond with
  | .awaitingTable g => if g ≤ v then { x with cond := .satisfied } else x
  | _ => x

/-- RMT tells CMU that a generation is verified (R99). -/
def tableVerified (v : Nat) (s : State) : State :=
  judgeWaiters (fun w =>
    let w1 := { w with sectors := w.sectors.map (WaitSector.released v) }
    (w1, w1.satisfied)) s

/-- A waiting sector awaits a copy of a generation at or above G (R99). -/
def WaitSector.awaits (gen : Nat) (x : WaitSector) : Bool :=
  match x.cond with
  | .awaitingTable g => gen ≤ g
  | _ => false

/-- RMT tells CMU of a table fault with a flush's generation (R99). -/
def tableFaulted (gen : Nat) (s : State) : State :=
  judgeWaiters (fun w =>
    (w, if w.sectors.any (WaitSector.awaits gen) then
          some ⟨.tableFault, w.lowest (WaitSector.awaits gen), false⟩ else none)) s

/-- The waiters that hold an open sector of an LBA complete WRITE_FAULT (R95, step 1). -/
def failWaiters (lba : Nat) (s : State) : State :=
  judgeWaiters (fun w => (w, if w.holdsOpen lba then some ⟨.writeFault, lba, false⟩ else none)) s

/-- A waiter completes MEDIUM_FAULT, detail its lowest LBA not SATISFIED (R102, R103). -/
def Waiter.mediumFault (w : Waiter) : Completion := ⟨.mediumFault, w.lowest WaitSector.isOpen, false⟩

/-- The waiters that hold an open sector of an LBA complete MEDIUM_FAULT (R103, step 1). -/
def ejectWaiters (lba : Nat) (s : State) : State :=
  judgeWaiters (fun w => (w, if w.holdsOpen lba then some w.mediumFault else none)) s

/-- Every waiter completes MEDIUM_FAULT (R102; R103, step 2). -/
def endAllWaiters (s : State) : State := judgeWaiters (fun w => (w, some w.mediumFault)) s

/-- A sync waiter of a channel holds an open sector of an LBA. -/
def hasSyncOn (ch : Channel) (lba : Nat) (s : State) : Bool :=
  s.cmu.waiters.any fun w => w.kind == .sync && w.channel == ch && w.holdsOpen lba

/-! ## Deferred-fault lists (R96) -/

/-- A record joins a list of fewer than 16, or MORE is set (R96). -/
def FaultList.added (r : FaultRecord) (l : FaultList) : FaultList :=
  if l.records.length < 16 then { l with records := l.records ++ [r] } else { l with more := true }

/-- A record reaches the list of an attached channel, with its notice (R96). -/
def addFault (ch : Channel) (r : FaultRecord) (s : State) : State :=
  if (s.links.get ch).attached then
    notify ch .deferredFault
      { s with cmu := { s.cmu with faults := s.cmu.faults.set ch ((s.cmu.faults.get ch).added r) } }
  else s

/-- The writer's record, unless a sync waiter of the writer stands for it (R95, step 2; R103, step 1). -/
def recordFor (writer : Option Channel) (waited : Channel → Bool) (r : FaultRecord) (s : State) : State :=
  match writer with
  | some ch => if waited ch then s else addFault ch r s
  | none => s

/-! ## Finish and failure (R92, R94, R95) -/

/-- An entry in COMMITTING_NEWER is promoted: its current buffer is freed and its newer buffer becomes the
current one (R92, step 3; R94, step 4). -/
def promote (e : Entry) (newer : Nat) (s : State) : State :=
  freeBuffers [e.current]
    (updEntry e.lba (fun x => { x with state := .committing, current := newer, newer := none }) s)

/-- SC changes the entry of a finished task (R92, step 3). -/
def finishEntry (e : Entry) (s : State) : State :=
  match e.state, e.newer with
  | .committingNewer, some b => createTask e.lba e.addr b (e.take.getD 0) (promote e b s)
  | _, _ => updEntry e.lba (fun x => { x with state := .clean }) s

/-- A commit task finishes (R92, steps 1 to 4). The finish is a freeing event (R80, R92). -/
def finishTask (t : CommitTask) (s : State) : State :=
  let s1 := removeTask t.lba s
  let s2 := match entryAt s1 t.lba with
    | some e => freeingEvent (finishEntry e s1)
    | none => s1
  judgeFinish ⟨t.lba, t.take, t.reassignGen⟩ s2

/-- SC removes the entry of a failed task, and its references resolve LOST (R81). -/
def loseEntry (lba : Nat) (s : State) : State :=
  match entryAt s lba with
  | some e => freeingEvent (refsBad lba .lost (removeEntry e s))
  | none => s

/-- A commit task fails (R95, steps 1 to 4). -/
def failTask (t : CommitTask) (reason : FaultReason) (s : State) : State :=
  let writer := (entryAt s t.lba).bind Entry.writer
  loseEntry t.lba
    (removeTask t.lba
      (recordFor writer (fun ch => hasSyncOn ch t.lba s) ⟨t.lba, reason⟩ (failWaiters t.lba s)))

/-- The home address of a task's entry moves to a granted spare and the task starts over there
(R94, steps 1 to 5). -/
def moveToSpare (t : CommitTask) (e : Entry) (spare : Phys) (gen : Nat) (s : State) : State :=
  let s1 := updEntry t.lba (fun x => { x with addr := spare }) s
  let t1 := { t with addr := spare, stage := .eraseDue, used := t.used + 1, reassignGen := some gen,
                     takeAtMark := none }
  match e.state, e.newer with
  | .committingNewer, some b =>
    freeingEvent (restage { t1 with buffer := b, take := e.take.getD 0 } (promote e b s1))
  | _, _ => restage t1 s1

/-- A verify failed: the task moves to a spare, or fails (R94). -/
def verifyFailed (t : CommitTask) (s : State) : State :=
  if s.cu.settings.reassignLimit ≤ t.used then failTask t .verifyLimit s
  else
    let z := zoneOfLba t.lba
    match s.rmt.judgeSpare z, entryAt s t.lba with
    | .ok j, some e =>
      moveToSpare t e (spareAt z j) (s.rmt.generation + 1) (grantSpare (homeOf t.lba) z j s)
    | .error reason, _ => failTask t reason s
    | .ok _, none => s

/-! ## Teardown (R103, R104) -/

/-- One committing entry at the clearing for eject (R103, step 1). A record is not made where a sync waiter
of the writer held the LBA at the start of the step (log entry 18). -/
def ejectEntry (start : State) (s : State) (e : Entry) : State :=
  recordFor e.writer (fun ch => hasSyncOn ch e.lba start) ⟨e.lba, .ejected⟩ (ejectWaiters e.lba s)

/-- An owner's record is CMU's. -/
def OpOwner.isCommit : OpOwner → Bool
  | .task _ | .table _ _ => true
  | _ => false

/-- CMU deals with its committing entries at the clearing for eject (R103). -/
def clearCommit (s : State) : State :=
  let committing := s.sc.entries.filter fun e => e.state.isCommitting
  let s1 := endAllWaiters (committing.foldl (ejectEntry s) s)
  withdrawAll OpOwner.isCommit { s1 with cmu := { s1.cmu with tasks := [], tableTasks := [] } }

/-- CMU removes a detached channel's part of its record (R104). -/
def detachCommit (ch : Channel) (s : State) : State :=
  { s with cmu := { s.cmu with
      waiters := s.cmu.waiters.filter fun w => w.channel != ch
      faults := s.cmu.faults.set ch ⟨[], false⟩ } }

end Sys2Proof.Machine
end

