-- ==== Sys2Proof/Machine/Cartridge.lean ====
section
/-! DEFINITION. The Cartridge Controller (Section 2): clearing, draining, ejecting, failure, recovery, mount,
gating and resets. -/

namespace Sys2Proof.Machine

/-! ## Mechanism limits and the spindle motor (R16, R33) -/

/-- The span of a mechanism limit in µs (R33). -/
def LimitKind.span : LimitKind → Nat
  | .clamp => 2000000
  | .lock => 6000000
  | .stop => 5000000
  | .switch => 2000000

/-- A mechanism limit starts. -/
def startLimit (k : LimitKind) (s : State) : State :=
  { s with cc := { s.cc with limit := some ⟨k, s.clock + k.span⟩ } }

/-- The mechanism limit is cancelled. -/
def cancelLimit (s : State) : State := { s with cc := { s.cc with limit := none } }

/-- The spindle motor starts, or starts again: a spindle start in the sense of R10. -/
def startMotor (s : State) : State :=
  { s with outputs := { s.outputs with motorOn := true }
           timer := { s.timer with indexSeen := false }
           lines := { s.lines with spindleAtRest := false } }

/-- The spindle motor stops. -/
def stopMotor (s : State) : State := { s with outputs := { s.outputs with motorOn := false } }

/-! ## Clearing (R31, R82) -/

def OpOwner.isEntry : OpOwner → Bool
  | .entry _ => true
  | _ => false

def OpOwner.isMount : OpOwner → Bool
  | .mount _ _ => true
  | _ => false

/-- Every reference of a read record resolves LOST (R82, step 4). -/
def ReadRecord.allLost (r : ReadRecord) : ReadRecord :=
  { r with
    bad := if r.complete then r.bad else r.bad + r.refs.countP ReadRef.pins
    refs := r.refs.map fun x => if x.pins then { x with cond := .bad .lost } else x }

/-- SC empties itself, for eject or INITIALISE, after CMU has dealt with its entries (R82, steps 2 to 5). -/
def clearCache (s : State) : State :=
  let s1 := withdrawAll OpOwner.isEntry s
  let s2 := { s1 with sc := { s1.sc with
      entries := [], freeList := s1.sc.freeList ++ s1.sc.entries.flatMap Entry.buffers, recency := [] } }
  freeingEvent (completeReads (fun _ => true) (mapReads ReadRecord.allLost s2))

/-- Both streams become CLOSED (R145). -/
def closeBothStreams (s : State) : State := { s with su := ⟨Stream.closed, Stream.closed⟩ }

/-- Every lock is removed (R152). -/
def removeAllLocks (s : State) : State := { s with cu := { s.cu with locks := [] } }

/-- The mount progress is cleared (R20, R22, R31). -/
def clearMount (s : State) : State := { s with cc := { s.cc with mount := clearedMount } }

/-- The part is cleared for eject (R31; the order is log entry 26). -/
def clearPart (s : State) : State :=
  unloadTable
    (clearMount
      (withdrawAll OpOwner.isMount
        (removeAllLocks (clearCache (clearCommit (closeBothStreams s))))))

/-! ## Out of the drive (R30 to R33) -/

/-- The eject request's report is posted, and the request becomes absent (R26, R33). -/
def endEject (status : ReportStatus) (s : State) : State :=
  let s1 := match s.cc.eject with
    | some (.channel ch tag) => postReport ch tag .eject status 0 false s
    | _ => s
  { s1 with cc := { s1.cc with eject := none } }

/-- The initialise request's report is posted, and the request becomes absent (R26, R35). -/
def endInitialise (status : ReportStatus) (s : State) : State :=
  let s1 := match s.cc.initialise with
    | some r => postReport r.channel r.tag .initialise status 0 false s
    | none => s
  { s1 with cc := { s1.cc with initialise := none } }

/-- The opening switch ends EJECTING (R33). -/
def enterEmpty (s : State) : State :=
  let s1 := cancelLimit s
  endEject .ok
    (enterCartState .empty
      { s1 with cc := { s1.cc with tab := false }, outputs := { s1.outputs with ejectFired := false } })

/-- EJECTING is entered; with the switch already open, EMPTY follows at once (R33). -/
def enterEjecting (s : State) : State :=
  let s1 := startLimit .switch
    { s with outputs := { s.outputs with ejectFired := true }
             lines := { s.lines with hubClamped := false } }
  let s2 := enterCartState .ejecting s1
  if s.lines.switchClosed then s2 else enterEmpty s2

/-- The motor stops, the STOP limit starts and SPINNING_DOWN is entered; with the spindle at rest, EJECTING
follows at once (R30, R32, R33). -/
def enterSpinningDown (s : State) : State :=
  let s1 := enterCartState .spinningDown (startLimit .stop (stopMotor s))
  if s.lines.spindleAtRest then enterEjecting s1 else s1

/-- The drain condition (R30). -/
def drainMet (s : State) : Bool :=
  s.cmu.tasks.isEmpty && s.cmu.tableTasks.isEmpty && (s.rmt.state == .clean || s.rmt.fault) &&
    s.links.a.dataPhase.isNone && s.links.b.dataPhase.isNone

/-- CC judges the drain condition in DRAINING (R30). -/
def drainCheck (s : State) : State :=
  if s.cc.state = .draining ∧ drainMet s = true then enterSpinningDown (stopEngine (clearPart s)) else s

/-- CC records an accepted eject: a drain, or in UNUSABLE and FAILED a forced eject (R28, R29, R32). -/
def startEject (r : EjectRequest) (s : State) : State :=
  let s1 := { s with cc := { s.cc with eject := some r } }
  match s.cc.state with
  | .unusable => enterSpinningDown (stopEngine (clearPart s1))
  | .failed => enterSpinningDown (clearPart s1)
  | _ => drainCheck (enterCartState .draining s1)

/-! ## FAILED (R26) -/

/-- A READ not yet complete completes with MEDIUM_FAULT; its detail is a free value (R26, log entry 9). -/
def failRead (s : State) (r : ReadRecord) : State :=
  postReport r.channel r.tag .read .mediumFault (Config.freeReadDetail s.freeCount).toNat false
    { s with freeCount := s.freeCount + 1 }

/-- Every PENDING read record is removed, its READ completing with MEDIUM_FAULT (R26, R82, R195). -/
def failReads (s : State) : State :=
  (s.sc.reads.filter fun r => !r.complete).foldl failRead
    { s with sc := { s.sc with reads := s.sc.reads.filter ReadRecord.complete } }

/-- One entry in READING is removed at entry to FAILED (R82). -/
def dropReading (s : State) (e : Entry) : State :=
  refsBad e.lba .lost (removeEntry e (withdraw (.entry e.lba) s))

/-- Every entry in READING is removed (R26, R82), in slot order: R82 does not say in which order their buffers join
the free list at entry to FAILED. DESIGN CHOICE, log entry 33. -/
def dropAllReading (s : State) : State :=
  (s.sc.entries.filter fun e => e.state == .reading).foldl dropReading s

/-- On entry to FAILED an OPEN stream with positions not yet prefetched faults at its prefetch cursor
(R140). -/
def failStream (ch : Channel) (s : State) : State :=
  let t := s.su.get ch
  if t.state = .opened ∧ t.prefetchCursor < t.positions then faultStream ch t.prefetchCursor .lost s else s

/-- The other blocks complete the accepted work of both channels (R26, step 2; log entry 17). -/
def failWork (s : State) : State :=
  freeingEvent
    (endInitialise .mediumFault
      (endEject .mediumFault
        (endAllWaiters (failStream .b (failStream .a (dropAllReading (failReads s)))))))

/-- CC enters FAILED (R26). -/
def enterFailed (s : State) : State :=
  let s1 := stopEngine (stopMotor (cancelLimit s))
  failWork
    (enterCartState .failed
      { s1 with cc := { s1.cc with prior := none }
                outputs := { s1.outputs with clampCommand := false, ejectFired := false } })

/-! ## Mechanism faults and recovery (R24, R25) -/

/-- A mechanism fault (R24). -/
def mechanismFault (s : State) : State :=
  if s.cc.state.isLocked then
    let s1 := stopEngine s
    let s2 := { s1 with cc := { s1.cc with recoveryCount := s1.cc.recoveryCount + 1 } }
    if s2.cc.recoveryCount ≤ 2 then
      enterCartState .recovering
        (startLimit .lock
          (startMotor { s2 with cc := { s2.cc with prior := some s2.cc.state, lockRun := 0 } }))
    else enterFailed s2
  else s

/-- The operation offered for a mount read (R21). -/
def mountOp (c : TableCopy) (i : Nat) : DueOp := ⟨.mount c i, .read, ⟨c.track, i⟩⟩

/-- The 56 mount reads are offered, copy A's before copy B's (R20, R25). -/
def offerMountReads (s : State) : State :=
  offerAll ((List.range 28).map (mountOp .a) ++ (List.range 28).map (mountOp .b)) s

/-- The mount progress and both assembly areas are cleared (R20, R25, R51). -/
def restartMount (s : State) : State := emptyAssembly (clearMount (withdrawAll OpOwner.isMount s))

/-- Lock in SPINNING_UP (R20). -/
def lockInSpinUp (s : State) : State :=
  let s1 := cancelLimit s
  let s2 := { s1 with cc := { s1.cc with recoveryCount := 0 }, timer := { s1.timer with revolution := 0 } }
  offerMountReads (startEngine (enterCartState .mounting (restartMount s2)))

/-- Lock in RECOVERING (R25). A return to DRAINING judges the drain condition (R30). -/
def lockInRecovery (s : State) : State :=
  let back := s.cc.prior.getD .mounting
  let s1 := cancelLimit s
  let s2 := startEngine (enterCartState back { s1 with cc := { s1.cc with prior := none } })
  if back = .mounting then offerMountReads (restartMount s2) else drainCheck s2

/-- The spindle monitor acts on a measured period (R19); lock is reached at a run of 8. -/
def judgePeriod (period : Nat) (s : State) : State :=
  if s.cc.state = .spinningUp ∨ s.cc.state = .recovering then
    let run := if 19800 ≤ period ∧ period ≤ 20200 then s.cc.lockRun + 1 else 0
    let s1 := { s with cc := { s.cc with lockRun := Nat.min run 8 } }
    if 8 ≤ run then
      if s.cc.state = .spinningUp then lockInSpinUp s1 else lockInRecovery s1
    else s1
  else s

/-! ## Mounting (R21, R22) -/

/-- The state a mount choice leads to (R22). -/
def mountedState (tab : Bool) : MountChoice → CartState
  | .load _ _ => if tab then .readOnly else .ready
  | .unformatted => .unformatted
  | .unusable => .unusable

/-- RMT acts on its mount choice (R53). -/
def MountChoice.table (c : MountChoice) (t : RemapTable) : RemapTable :=
  match c with
  | .load gen entries => t.load gen entries
  | _ => RemapTable.unloaded

/-- The 56th control sector is resolved (R22). -/
def endMount (s : State) : State :=
  let c := mountChoice s
  enterCartState (mountedState s.cc.tab c)
    (clearMount (withdrawAll OpOwner.isMount { s with rmt := c.table s.rmt }))

/-- The record of a control sector. -/
def mountRecord (c : TableCopy) (i : Nat) (s : State) : MountSector :=
  (s.cc.mount[mountIndex c i]?).getD ⟨0, none⟩

/-- Set the record of a control sector. -/
def setMountRecord (c : TableCopy) (i : Nat) (r : MountSector) (s : State) : State :=
  { s with cc := { s.cc with mount := s.cc.mount.setIfInBounds (mountIndex c i) r } }

/-- A control sector is resolved: its read is no longer due (R21, R22). -/
def resolveMount (c : TableCopy) (i : Nat) (o : MountOutcome) (s : State) : State :=
  let r := mountRecord c i s
  let s1 := withdraw (.mount c i) (setMountRecord c i { r with outcome := some o } s)
  if s1.cc.mount.toList.all fun x => x.outcome.isSome then endMount s1 else s1

/-- A mount read's outcome (R21). -/
def mountOutcome (c : TableCopy) (i : Nat) (o : PassOutcome) (s : State) : State :=
  let r := mountRecord c i s
  match o with
  | .good p _ => resolveMount c i .good (assemble c i p s)
  | .blank => resolveMount c i .blank s
  | .unreadable =>
    let s1 := setMountRecord c i { r with retries := r.retries + 1 } s
    if s.cu.settings.readRetries < r.retries + 1 then resolveMount c i .unreadable s1 else s1
  | _ => s

/-! ## The ends of flushes as CC hears of them (R23, R30, R35) -/

/-- A flush has ended well (R35, R48). -/
def flushEndedWell (s : State) : State :=
  match s.cc.initialise with
  | some _ => endInitialise .ok (enterCartState .ready s)
  | none => drainCheck s

/-- Both copies of a flush have failed (R23, R35, R49). -/
def tableFaultReported (s : State) : State :=
  match s.cc.initialise with
  | some _ => endInitialise .tableFault (enterCartState .unusable s)
  | none => if s.cc.state = .ready then enterCartState .readOnly s else drainCheck s

/-! ## Gating (R27, R28, R34) -/

/-- Some stream is not CLOSED. -/
def someStreamOpen (s : State) : Bool := s.su.a.state != .closed || s.su.b.state != .closed

/-- CC's objection to an EJECT (R27, R28). -/
def ejectObjection (s : State) : Option RefusalReason :=
  match s.cc.state with
  | .ready | .readOnly | .unformatted =>
    if !s.cu.locks.isEmpty || someStreamOpen s then some .inUse
    else if s.cc.initialise.isSome then some .busy
    else none
  | .unusable | .failed => none
  | .empty => some .notReady
  | _ => some .busy

/-- READY holds no work that bars INITIALISE (R34). -/
def readyForInitialise (s : State) : Bool :=
  s.cmu.tasks.isEmpty && s.cmu.tableTasks.isEmpty &&
    !(s.sc.entries.any fun e => e.state.isCommitting) && s.cu.locks.isEmpty && !someStreamOpen s &&
    s.links.a.dataPhase.isNone && s.links.b.dataPhase.isNone

/-- CC's objection to an INITIALISE (R27, R34). -/
def initialiseObjection (s : State) : Option RefusalReason :=
  match s.cc.state with
  | .unformatted =>
    if s.cc.tab then some .writeProtected
    else if s.cc.initialise.isSome then some .busy
    else none
  | .ready => if readyForInitialise s then none else some .inUse
  | .failed => some .mediumFault
  | _ => some .notReady

/-- The column of R27 for READ. -/
def readObjection : CartState → Option RefusalReason
  | .ready | .readOnly | .draining => none
  | .unformatted => some .notFormatted
  | .unusable | .failed => some .mediumFault
  | _ => some .notReady

/-- The column of R27 for FLUSH, OPEN_STREAM and LOCK. -/
def workObjection : CartState → Option RefusalReason
  | .ready | .readOnly => none
  | .unformatted => some .notFormatted
  | .unusable | .failed => some .mediumFault
  | _ => some .notReady

/-- The column of R27 for WRITE. -/
def writeObjection : CartState → Option RefusalReason
  | .readOnly => some .writeProtected
  | st => workObjection st

/-- CC's answer to the links' consultation (R27). -/
def gate (k : FrameKind) (s : State) : Option RefusalReason :=
  match k with
  | .read => readObjection s.cc.state
  | .write => writeObjection s.cc.state
  | .flush | .openStream | .lock => workObjection s.cc.state
  | .eject => ejectObjection s
  | .initialise => initialiseObjection s
  | _ => none

/-- CC acts on an accepted INITIALISE (R34). -/
def startInitialise (ch : Channel) (tag : Byte) (s : State) : State :=
  let s1 := { s with cc := { s.cc with initialise := some ⟨ch, tag⟩ } }
  startNewTable
    (if s.cc.state = .ready then enterCartState .unformatted (clearCache s1) else s1)

/-! ## Loading (R18) -/

/-- Clamp-complete in LOADING (R18). -/
def clampDone (s : State) : State :=
  let s1 := startMotor
    { s with cc := { s.cc with tab := s.lines.tabSet, lockRun := 0 }
             outputs := { s.outputs with clampCommand := false } }
  enterCartState .spinningUp (startLimit .lock s1)

/-- LOADING is entered; with the hub already clamped, SPINNING_UP follows at once (R18). -/
def enterLoading (s : State) : State :=
  let s1 := enterCartState .loading
    (startLimit .clamp { s with outputs := { s.outputs with clampCommand := true } })
  if s.lines.hubClamped then clampDone s1 else s1

/-! ## Power-up reset and master clear (R36) -/

/-- A link's record after a reset; the link-reset input is not the part's to set (R163, log entry 5). -/
def Link.afterReset (l : Link) : Link :=
  { Link.atReset with resetAsserted := l.resetAsserted, discardTail := l.discardTail }

/-- Every block at its reset values, with the mechanism's lines as found and the commands to it released
(R36, R84, R105, R130, R158, R163, R178). -/
def blocksReset (found : MechanismFound) (strapHigh : Bool) (s : State) : State :=
  { State.reset with
    clock := s.clock
    lines := ⟨found.switchClosed, found.hubClamped, found.tabSet, !found.spindleTurning, strapHigh⟩
    links := ⟨s.links.a.afterReset, s.links.b.afterReset⟩
    freeCount := s.freeCount
    pending := s.pending }

/-- CC takes its state from the mechanism (R36). A hub found clamped brings SPINNING_UP at once, by way of
LOADING after a power-up reset. -/
def resetPart (found : MechanismFound) (strapHigh : Bool) (s : State) : State :=
  let s1 := blocksReset found strapHigh s
  if found.switchClosed then enterLoading s1 else s1

end Sys2Proof.Machine
end

