-- ==== Sys2Proof/Machine/Flushes.lean ====
section
/-! DEFINITION. Table tasks' outcomes and the ends of flushes (R46 to R49, R93). -/

namespace Sys2Proof.Machine

/-- The table task of a copy and sector. -/
def tableTaskAt (s : State) (c : TableCopy) (i : Nat) : Option TableTask :=
  s.cmu.tableTasks.find? fun t => t.copy == c && t.sector == i

/-- Change a table task. -/
def updTableTask (c : TableCopy) (i : Nat) (g : TableTask → TableTask) (s : State) : State :=
  { s with cmu := { s.cmu with
      tableTasks := s.cmu.tableTasks.map fun t => if t.copy == c && t.sector == i then g t else t } }

/-- A table task is removed and its operation withdrawn (R88, R89). -/
def removeTableTask (c : TableCopy) (i : Nat) (s : State) : State :=
  withdraw (.table c i)
    { s with cmu := { s.cmu with
        tableTasks := s.cmu.tableTasks.filter fun t => !(t.copy == c && t.sector == i) } }

/-- A table task changes its stage: its old operation is withdrawn and the new one offered (R89). -/
def restageTable (t : TableTask) (s : State) : State :=
  offer t.op (withdraw (.table t.copy t.sector) (updTableTask t.copy t.sector (fun _ => t) s))

/-! ## The copies of a flush (R46, R47) -/

/-- The status of a copy. -/
def FlushProgress.get (p : FlushProgress) : TableCopy → CopyStatus
  | .a => p.copyA
  | .b => p.copyB

/-- Set the status of a copy. -/
def FlushProgress.set (p : FlushProgress) (c : TableCopy) (x : CopyStatus) : FlushProgress :=
  match c with
  | .a => { p with copyA := x }
  | .b => { p with copyB := x }

/-- Set the status of a copy in the flush progress. -/
def setCopy (c : TableCopy) (x : CopyStatus) (s : State) : State :=
  { s with rmt := { s.rmt with progress := s.rmt.progress.map fun p => p.set c x } }

/-- An owner's record is a table task of a copy. -/
def OpOwner.isTableOf (c : TableCopy) : OpOwner → Bool
  | .table d _ => d == c
  | _ => false

/-- CMU removes every table task of a failed copy (R93). -/
def withdrawCopy (c : TableCopy) (s : State) : State :=
  withdrawAll (OpOwner.isTableOf c)
    { s with cmu := { s.cmu with tableTasks := s.cmu.tableTasks.filter fun t => t.copy != c } }

/-- Copy B becomes WRITING and its tasks become due (R47, R93). -/
def releaseCopyB (s : State) : State :=
  let tasks := s.cmu.tableTasks.map fun t => if t.copy = .b then { t with held := false } else t
  offerAll ((tasks.filter fun t => t.copy == .b).map TableTask.op)
    (setCopy .b (.writing 0) { s with cmu := { s.cmu with tableTasks := tasks } })

/-- The verified generation becomes the flush's, and CMU is told (R47). -/
def raiseVerified (s : State) : State :=
  tableVerified s.rmt.generation { s with rmt := { s.rmt with verifiedGen := s.rmt.generation } }

/-! ## The flush's end (R48, R49) -/

/-- A flush in which at least one copy verified ends (R48). -/
def endFlushWell (s : State) : State :=
  let s1 := { s with rmt := { s.rmt with progress := none } }
  flushEndedWell
    (if s.rmt.changedAgain then startFlush s1 else { s1 with rmt := { s1.rmt with state := .clean } })

/-- A flush in which both copies failed ends with a table fault (R49). -/
def endFlushFaulted (s : State) : State :=
  tableFaultReported
    (tableFaulted s.rmt.generation
      { s with rmt := { s.rmt with progress := none, changedAgain := false, fault := true,
                                   state := .dirty } })

/-- Copy A leaves WRITING (R47). -/
def copyALeaves (verified : Bool) (s : State) : State :=
  if verified then releaseCopyB (raiseVerified (setCopy .a .verified s))
  else releaseCopyB (setCopy .a .failed s)

/-- Copy B leaves WRITING, and the flush ends (R47). -/
def copyBLeaves (verified : Bool) (s : State) : State :=
  let aVerified := (s.rmt.progress.map fun p => p.copyA == .verified).getD false
  if verified then
    let s1 := setCopy .b .verified s
    endFlushWell (if aVerified then s1 else raiseVerified s1)
  else
    let s1 := setCopy .b .failed s
    if aVerified then endFlushWell s1 else endFlushFaulted s1

/-- A copy leaves WRITING (R47). -/
def copyLeaves (c : TableCopy) (verified : Bool) (s : State) : State :=
  match c with
  | .a => copyALeaves verified s
  | .b => copyBLeaves verified s

/-- RMT is told that a sector of a copy is verified (R46). -/
def sectorVerified (c : TableCopy) (s : State) : State :=
  match (s.rmt.progress.map (FlushProgress.get · c) : Option CopyStatus) with
  | some (.writing n) => if n + 1 = 28 then copyLeaves c true s else setCopy c (.writing (n + 1)) s
  | _ => s

/-- RMT is told that a sector of a copy is abandoned (R46). -/
def sectorAbandoned (c : TableCopy) (s : State) : State :=
  match (s.rmt.progress.map (FlushProgress.get · c) : Option CopyStatus) with
  | some (.writing _) => copyLeaves c false (withdrawCopy c s)
  | _ => s

/-! ## Table tasks' outcomes (R90, R91, R93) -/

/-- The outcome of a table task's pass at its stage (R90, R91, R93). -/
def tableStageOutcome (t : TableTask) (o : PassOutcome) (s : State) : State :=
  match t.stage, o with
  | .eraseDue, .done => restageTable { t with stage := .writeDue } s
  | .writeDue, .done => restageTable { t with stage := .verifyDue } s
  | .verifyDue, .pass => sectorVerified t.copy (removeTableTask t.copy t.sector s)
  | .verifyDue, .fail =>
    if t.restarts < 2 then restageTable { t with stage := .eraseDue, restarts := t.restarts + 1 } s
    else sectorAbandoned t.copy (removeTableTask t.copy t.sector s)
  | _, _ => s

/-- CMU acts on a table task's outcome only at the stage of the pass (R89). -/
def tableOutcome (c : TableCopy) (i : Nat) (k : PassKind) (o : PassOutcome) (s : State) : State :=
  match tableTaskAt s c i with
  | some t => if t.stage.pass = k then tableStageOutcome t o s else s
  | none => s

end Sys2Proof.Machine
end

