-- ==== Sys2Proof/Machine/Passes.lean ====
section
/-! DEFINITION. Sector ends, outcomes and marks (R68, R69, R89 to R95, R111 to R115, R125 to R128). -/

namespace Sys2Proof.Machine

/-! ## Outcomes at their owners -/

/-- A READING entry has received data: it is CLEAN, and its references become ready (R68). -/
def readArrived (e : Entry) (p : Payload) (blank : Bool) (s : State) : State :=
  let s1 := refsReady e.lba
    (withdraw (.entry e.lba)
      (updEntry e.lba (fun x => { x with state := .clean, blank := blank, retries := 0 })
        (fillBuffer e.current p s)))
  if isUnpinnedClean s1 e.lba then freeingEvent s1 else s1

/-- SC gives up a READING entry (R69). -/
def readGivenUp (e : Entry) (s : State) : State :=
  freeingEvent (refsBad e.lba .unreadable (withdraw (.entry e.lba) (removeEntry e s)))

/-- A READ outcome for a cache entry (R68, R69); discarded when the entry is no longer READING there. -/
def entryOutcome (lba : Nat) (addr : Phys) (o : PassOutcome) (s : State) : State :=
  match entryAt s lba with
  | none => s
  | some e =>
    if e.state = .reading ∧ e.addr = addr then
      match o with
      | .good p _ => readArrived e p false s
      | .blank => readArrived e 0 true s
      | .unreadable =>
        if s.cu.settings.readRetries < e.retries + 1 then readGivenUp e s
        else updEntry lba (fun x => { x with retries := x.retries + 1 }) s
      | _ => s
    else s

/-- A WRITE outcome DONE for a commit task (R91). -/
def writeDone (t : CommitTask) (s : State) : State :=
  let t1 := { t with takeAtMark := none }
  if t.takeAtMark = some t.take then
    match t.policy with
    | .always => restage { t1 with stage := .verifyDue } s
    | .never => finishTask t1 s
  else updTask t.lba (fun _ => t1) s

/-- The outcome of a commit task's pass at its stage (R90, R91, R92, R94). -/
def stageOutcome (t : CommitTask) (o : PassOutcome) (s : State) : State :=
  match t.stage, o with
  | .eraseDue, .done => restage { t with stage := .writeDue } s
  | .writeDue, .done => writeDone t s
  | .verifyDue, .pass => finishTask t s
  | .verifyDue, .fail => verifyFailed t s
  | _, _ => s

/-- CMU acts on a commit task's outcome only at the stage and sector of the pass (R89); a finish or failure
is a drain event (R30). -/
def taskOutcome (lba : Nat) (addr : Phys) (k : PassKind) (o : PassOutcome) (s : State) : State :=
  match taskAt s lba with
  | some t => if t.stage.pass = k ∧ t.addr = addr then drainCheck (stageOutcome t o s) else s
  | none => s

/-- CC acts on a mount read's outcome while the sector is not resolved (R21). -/
def mountDelivered (c : TableCopy) (i : Nat) (o : PassOutcome) (s : State) : State :=
  if (mountRecord c i s).outcome.isNone then mountOutcome c i o s else s

/-- PE delivers an outcome to the owner of its operation (R113, step 3). -/
def deliver (op : DueOp) (o : PassOutcome) (s : State) : State :=
  match op.owner with
  | .entry lba => entryOutcome lba op.addr o s
  | .task lba => taskOutcome lba op.addr op.kind o s
  | .table c i => tableOutcome c i op.kind o s
  | .mount c i => mountDelivered c i o s

/-! ## Watch slots (R128, R186) -/

/-- The outcome as the console names it (R185). -/
def PassOutcome.shown : PassOutcome → ShownOutcome
  | .good _ n => .good n
  | .unreadable => .unreadable
  | .blank => .blank
  | .done => .done
  | .pass => .pass
  | .fail => .fail

/-- A slot lists a kind of pass. -/
def KindSet.has (k : KindSet) : PassKind → Bool
  | .read => k.read
  | .erase => k.erase
  | .write => k.write
  | .verify => k.verify

/-- A watch slot. -/
def Console.watchSlot (m : Console) (n : Nat) : Option WatchSlot := if n = 0 then m.watch0 else m.watch1

/-- Set a watch slot. -/
def Console.setWatch (n : Nat) (w : Option WatchSlot) (m : Console) : Console :=
  if n = 0 then { m with watch0 := w } else { m with watch1 := w }

/-- A slot matches a pass (R128). -/
def WatchSlot.matches (w : WatchSlot) (op : DueOp) : Bool :=
  w.armed && w.addr == op.addr && w.kinds.has op.kind

/-- The console's record after a match: the line, and for HOLD the hold request and the disarmed slot
(R128, R186). -/
def Console.watched (n : Nat) (w : WatchSlot) (op : DueOp) (o : ShownOutcome) (stamp : BitVec 16)
    (m : Console) : Console :=
  let m1 := m.noticed (.watchMatch n w.action op.kind op.addr o stamp)
  match w.action with
  | .note => m1
  | .hold => { m1.setWatch n (some { w with armed := false }) with hold := true }

/-- PE judges a watch slot against a pass (R128). -/
def judgeWatch (n : Nat) (op : DueOp) (o : ShownOutcome) (s : State) : State :=
  match s.mci.watchSlot n with
  | some w => if w.matches op then { s with mci := s.mci.watched n w op o s.timer.revolution } else s
  | none => s

/-! ## The end of a pass (R113) -/

/-- The outcome of a pass as the console names it; DISCARDED for a withdrawn pass (R128, R185). -/
def CurrentPass.shown (c : CurrentPass) (f : Found) : ShownOutcome :=
  if c.withdrawn then .discarded else (outcomeOf c.op.kind f).shown

/-- The current pass ends with what the head found (R113). Slot 0 is judged, and its line queued, before slot
1, an order that R128 and R186 leave open: DESIGN CHOICE, log entry 29. -/
def endPass (found : Found) (s : State) : State :=
  match s.pe.pass with
  | none => s
  | some c =>
    let s1 := { s with pe := { s.pe with pass := none } }
    let s2 := judgeWatch 1 c.op (c.shown found) (judgeWatch 0 c.op (c.shown found) s1)
    if c.withdrawn then clearTakeAtMark c.op.owner s2 else deliver c.op (outcomeOf c.op.kind found) s2

/-- The current pass ends, or is cut off by an early index (R113, R115). -/
def closePass (cut : Bool) (found : Found) (s : State) : State :=
  if cut then cutOffPass s else endPass found s

/-! ## The hold or the choice (R111, R125 to R127) -/

/-- A pending hold is taken, or the choice is made, as the state requires (R111, step 2). -/
def holdOrChoice (s : State) : State :=
  match s.pe.state with
  | .dwelling => if s.mci.hold then takeHold s else makeChoice s
  | .idle => if s.mci.hold then takeHold s else s
  | _ => s

/-- The step line of a pass that ended as a step; none for a pass cut off (R185, log entry 14). -/
def stepLine (cut : Bool) (found : Found) (c : CurrentPass) (s : State) : State :=
  if cut then s
  else queueNotice (.stepEnd c.op.kind c.op.addr (c.shown found) s.timer.revolution) s

/-- The end of a sector in HELD (R125, R127). A GO that waits leaves HELD by the choice (R126). A step pass whose
own outcome puts the engine into STOPPED has ended, and its line is queued: DESIGN CHOICE, log entry 35. -/
def heldSectorEnd (cut : Bool) (found : Found) (s : State) : State :=
  let s1 := { s with mci := { s.mci with hold := false } }
  match s.pe.pass with
  | none => s1
  | some c =>
    let s2 := stepLine cut found c (closePass cut found s1)
    let s3 := { s2 with mci := { s2.mci with stepReq := false }, pe := { s2.pe with goWaiting := false } }
    if s2.pe.goWaiting && s2.pe.state == .held then makeChoice s3 else s3

/-- The end of a sector: steps 1 and 2 of R111. -/
def sectorEnds (cut : Bool) (found : Found) (s : State) : State :=
  match s.pe.state with
  | .held => heldSectorEnd cut found s
  | .dwelling | .idle => holdOrChoice (closePass cut found s)
  | .stopped | .moving => s

/-! ## The mark (R112, R127) -/

/-- A mark is settled: the settle point is absent or at least 16 angle units back (R14, R112). -/
def isSettled (settle : Option SettlePoint) (markAngle : Nat) : Bool :=
  match settle with
  | none => true
  | some p => p.angle + lead ≤ markAngle + 4096 * p.wraps

/-- The data drawn at the mark of a WRITE (R112). -/
def drawData (op : DueOp) (s : State) : Option Payload :=
  match op.kind, op.owner with
  | .write, .task lba => (taskAt s lba).map fun t => bufferData s t.buffer
  | .write, .table _ i => (s.rmt.image[i]?).join
  | _, _ => none

/-- CMU records the take at the mark of a commit task's WRITE pass (R91). -/
def recordTakeAtMark (op : DueOp) (s : State) : State :=
  match op.kind, op.owner with
  | .write, .task lba => updTask lba (fun t => { t with takeAtMark := some t.take }) s
  | _, _ => s

/-- PE begins a pass (R112). -/
def beginPass (op : DueOp) (s : State) : State :=
  recordTakeAtMark op
    { s with pe := { s.pe with pass := some ⟨op, false, drawData op s⟩ } }

/-- The operation a mark begins: compatible, on this sector, offered earliest (R112). -/
def opAtMark (sector : Nat) (s : State) : Option DueOp :=
  s.pe.due.find? fun op => op.addr == ⟨s.pe.headTrack, sector⟩ && op.kind.compatible s.pe.polarity

/-- PE begins passes at marks: in DWELLING, and in HELD for a pending step (R107, R127). -/
def performs (s : State) : Bool :=
  match s.pe.state with
  | .dwelling => true
  | .held => s.mci.stepReq
  | _ => false

/-- The settle point after a mark in DWELLING or HELD: absent once a mark is settled (R112, R126). -/
def settledAt (markAngle : Nat) (s : State) : State :=
  if isSettled s.pe.settle markAngle && (s.pe.state == .dwelling || s.pe.state == .held) then
    { s with pe := { s.pe with settle := none } }
  else s

/-- The mark of a sector: step 3 of R111, judged by R112. -/
def sectorMark (sector markAngle : Nat) (s : State) : State :=
  let s1 := settledAt markAngle s
  if performs s && isSettled s.pe.settle markAngle then
    match opAtMark sector s1 with
    | some op => beginPass op s1
    | none => s1
  else s1

/-- PE is at rest on a track: marks and ends concern it (R107). -/
def EngineState.onTrack : EngineState → Bool
  | .idle | .dwelling | .held => true
  | .stopped | .moving => false

end Sys2Proof.Machine
end

