-- ==== Sys2Proof/Machine/Links.lean ====
section
/-! DEFINITION. The Channel Links (Section 9): the judgement of a frame, attach and detach, events, reports,
INQUIRE, and the meanings of the link-owned commands. -/

namespace Sys2Proof.Machine

/-! ## Judging a frame (R164 to R166) -/

/-- The kinds judged in either attach state (R164, step 3). -/
def FrameKind.whileDetached : FrameKind → Bool
  | .attach | .inquire | .pullReport | .pullEvents => true
  | _ => false

/-- The queued requests (R161). -/
def FrameKind.isQueued : FrameKind → Bool
  | .read | .write | .flush | .eject | .initialise => true
  | _ => false

/-- The read record of a channel and tag. -/
def readRecord (s : State) (ch : Channel) (tag : Byte) : Option ReadRecord :=
  s.sc.reads.find? fun r => r.channel == ch && r.tag == tag

/-- A queued request's tag is in use (R165). -/
def tagInUse (s : State) (ch : Channel) (tag : Byte) : Bool :=
  ((s.links.get ch).outstanding.any fun o => o.tag == tag) || (readRecord s ch tag).isSome

/-- Outstanding requests plus unread reports (R166). -/
def Link.load (l : Link) : Nat := l.outstanding.length + l.reports.length

/-- The answers of R164. -/
inductive Verdict where
  /-- discarded by the link-reset input, without a response (R175) -/
  | discarded
  /-- the write in progress is abandoned and the frame refused (R74) -/
  | abandons (r : RefusalReason)
  | refused (r : RefusalReason)
  | toOwner
  deriving DecidableEq, Repr

/-- Steps 2 to 7 of R164, outside a data phase. -/
def judgeIdle (ch : Channel) (k : FrameKind) (f : Frame) (s : State) : Verdict :=
  let l := s.links.get ch
  if !frameWellFormed k f then .refused .frameError
  else if !l.attached && !k.whileDetached then .refused .notAttached
  else if k = .data then .refused .sequence
  else if k.isQueued && tagInUse s ch f.tag then .refused .tagInUse
  else if k.isQueued && 32 ≤ l.load then .refused .queueFull
  else
    match gate k s with
    | some r => .refused r
    | none => .toOwner

/-- The judgement of a frame (R164, R175). -/
def judgeFrame (ch : Channel) (k : FrameKind) (f : Frame) (s : State) : Verdict :=
  let l := s.links.get ch
  if l.resetAsserted || l.discardTail then .discarded
  else if l.dataPhase.isSome then
    if k = .data then .toOwner else .abandons .sequence
  else judgeIdle ch k f s

/-- A frame is discarded up to its end; a frame begun before the release of link reset is now past (R175). -/
def discardFrame (ch : Channel) (s : State) : State :=
  updLink ch (fun l => { l with response := none, discardTail := l.resetAsserted && l.discardTail }) s

/-- REFUSED with a reason (R162). -/
def refuse (ch : Channel) (tag : Byte) (r : RefusalReason) (s : State) : State :=
  respond ch tag (.refused r) s

/-- ACCEPTED (R161). -/
def accept (ch : Channel) (tag : Byte) (x : Acceptance) (s : State) : State :=
  respond ch tag (.accepted x) s

/-- EMPTY, with its marks (R191). -/
def answerEmpty (ch : Channel) (tag : Byte) (noRead isPending : Bool) (s : State) : State :=
  respond ch tag (.empty noRead isPending) s

/-- The data phase ends. -/
def endDataPhase (ch : Channel) (s : State) : State := updLink ch (fun l => { l with dataPhase := none }) s

/-- A write in progress is abandoned: its buffers are freed in reservation order, its slots released, its
request leaves the outstanding set; a freeing event and a drain event (R74). -/
def abandonWrite (ch : Channel) (s : State) : State :=
  match (s.links.get ch).dataPhase with
  | none => s
  | some d =>
    drainCheck (freeingEvent
      (dropOutstanding ch d.tag .write (endDataPhase ch (freeBuffers d.buffers s))))

/-- A frame is judged, and handed to its owner where it passes (R159, R164). Offers that reach an idle
engine make the choice (R116). -/
def answerFrame (ch : Channel) (k : FrameKind) (f : Frame) (owner : State → State) (s : State) : State :=
  workArrival
    (match judgeFrame ch k f s with
    | .discarded => discardFrame ch s
    | .abandons r => refuse ch f.tag r (abandonWrite ch s)
    | .refused r => refuse ch f.tag r s
    | .toOwner => owner s)

/-! ## Frames of no known kind (R160, R164) -/

/-- The tag a malformed frame is refused with (R160). -/
def malformedTag : Malformed → Byte
  | .shortHeader => 0
  | .unknownKind _ f => f.tag

/-- The reason with which a malformed frame is refused in a data phase (R74). -/
def malformedReason : Malformed → RefusalReason
  | .shortHeader => .frameError
  | .unknownKind _ _ => .sequence

/-- A frame that ends in its header, or of an unknown kind (R74, R160, R164). -/
def answerMalformed (ch : Channel) (m : Malformed) (s : State) : State :=
  let l := s.links.get ch
  workArrival
    (if l.resetAsserted || l.discardTail then discardFrame ch s
    else if l.dataPhase.isSome then refuse ch (malformedTag m) (malformedReason m) (abandonWrite ch s)
    else refuse ch (malformedTag m) .frameError s)

/-! ## Attach and detach (R174 to R176) -/

/-- ATTACH (R174). -/
def attachChannel (ch : Channel) (tag : Byte) (s : State) : State :=
  let l := s.links.get ch
  if l.attached then accept ch tag (.attach ch false) s
  else
    accept ch tag (.attach ch l.restarted)
      (updLink ch (fun l => { l with attached := true, restarted := false }) s)

/-- SC's part of the teardown (R83). -/
def detachCache (ch : Channel) (s : State) : State :=
  setWant ch none
    { s with sc := { s.sc with reads := s.sc.reads.filter fun r => r.channel != ch } }

/-- The buffers of a dropped write data phase are freed (R83). -/
def dropReservation (ch : Channel) (s : State) : State :=
  match (s.links.get ch).dataPhase with
  | some d => freeBuffers d.buffers s
  | none => s

/-- CU's part of the teardown (R152, R155). -/
def detachCoordination (ch : Channel) (s : State) : State :=
  let box := s.cu.inbox.get ch
  { s with cu := { s.cu with
      locks := s.cu.locks.filter fun e => e.owner != ch
      inbox := s.cu.inbox.set ch { box with full := false, overrun := false } } }

/-- The link's own record at a detach (R176); the restarted mark is not changed. -/
def Link.detached (l : Link) : Link :=
  { l with attached := false, outstanding := [], reports := [], flags := 0, mask := 0,
           style := .pullClear, dataPhase := none }

/-- The channel is DETACHED before its teardown (R175, R176): a freeing event, and a drain event where a data
phase was dropped. -/
def detachChannel (ch : Channel) (s : State) : State :=
  let dropped := (s.links.get ch).dataPhase.isSome
  let s1 := updLink ch Link.detached (dropReservation ch s)
  let s2 := freeingEvent
    (detachCoordination ch
      (updStream ch (fun _ => Stream.closed) (detachCommit ch (detachCache ch s1))))
  if dropped then drainCheck s2 else s2

/-- LINK_RESET: the input is asserted; an attached channel is detached at once (R175). -/
def linkResetAsserted (ch : Channel) (s : State) : State :=
  let s1 := updLink ch (fun l => { l with resetAsserted := true, response := none, discardTail := false }) s
  if (s.links.get ch).attached then detachChannel ch s1 else s1

/-- LINK_RESET_RELEASE: the rest of a frame begun before the release is to be discarded (R175). -/
def linkResetReleased (ch : Channel) (midFrame : Bool) (s : State) : State :=
  updLink ch
    (fun l => if l.resetAsserted then { l with resetAsserted := false, discardTail := midFrame } else l) s

/-! ## Events, reports, INQUIRE (R168, R171, R172, R177) -/

/-- SET_EVENTS (R171). -/
def setEvents (ch : Channel) (f : Frame) (s : State) : State :=
  let s1 := updLink ch (fun l => { l with mask := flagMask f, style := clearStyle f }) s
  accept ch f.tag (.events (s1.links.get ch).eventWord) s1

/-- CLEAR_EVENTS (R172). -/
def clearEvents (ch : Channel) (f : Frame) (s : State) : State :=
  let s1 := updLink ch (Link.cleared (flagMask f)) s
  accept ch f.tag (.events (s1.links.get ch).eventWord) s1

/-- PULL_EVENTS (R172). -/
def pullEvents (ch : Channel) (tag : Byte) (s : State) : State :=
  let w := (s.links.get ch).eventWord
  respond ch tag (.events w)
    (match w.style with
    | .pullClear => updLink ch (Link.cleared w.flags) s
    | .explicit => s)

/-- PULL_REPORT (R168). -/
def pullReport (ch : Channel) (tag : Byte) (s : State) : State :=
  match (s.links.get ch).reports with
  | [] => answerEmpty ch tag false false s
  | r :: rest => respond ch tag (.report r) (updLink ch (fun l => { l with reports := rest }) s)

/-- The entries in a state (R85). -/
def countEntries (s : State) (st : EntryState) : Nat := s.sc.entries.countP fun e => e.state == st

/-- The INQUIRE record (R177). -/
def inquireRecord (ch : Channel) (s : State) : InquireRecord :=
  { cartridge := s.cc.state, tab := s.cc.tab, engine := s.pe.state, stream := (s.su.get ch).state
    table := s.rmt.state, fault := s.rmt.fault
    attachedA := s.links.a.attached, attachedB := s.links.b.attached
    generation := s.rmt.generation, entryCount := s.rmt.entries.length, freeSpares := s.rmt.freeSpares
    reading := countEntries s .reading, clean := countEntries s .clean
    committing := countEntries s .committing, newer := countEntries s .committingNewer
    freeSlots := (freeSlots s).length, freeBuffers := s.sc.freeList.length
    committingOwn := committingCount s ch, dirtyLimit := s.cu.settings.dirtyLimit
    outstanding := (s.links.get ch).outstanding.length, unread := (s.links.get ch).reports.length }

/-- INQUIRE changes nothing but the response (R177). -/
def inquire (ch : Channel) (tag : Byte) (s : State) : State :=
  accept ch tag (.inquire (inquireRecord ch s)) s

/-! ## The meanings -/

def execAttach (ch : Channel) (f : Frame) (s : State) : Host.Outcome State Fault Refusal :=
  .next (answerFrame ch .attach f (attachChannel ch f.tag) s)

def execDetach (ch : Channel) (f : Frame) (s : State) : Host.Outcome State Fault Refusal :=
  .next (answerFrame ch .detach f (fun s => accept ch f.tag .plain (detachChannel ch s)) s)

def execInquire (ch : Channel) (f : Frame) (s : State) : Host.Outcome State Fault Refusal :=
  .next (answerFrame ch .inquire f (inquire ch f.tag) s)

def execSetEvents (ch : Channel) (f : Frame) (s : State) : Host.Outcome State Fault Refusal :=
  .next (answerFrame ch .setEvents f (setEvents ch f) s)

def execClearEvents (ch : Channel) (f : Frame) (s : State) : Host.Outcome State Fault Refusal :=
  .next (answerFrame ch .clearEvents f (clearEvents ch f) s)

def execPullReport (ch : Channel) (f : Frame) (s : State) : Host.Outcome State Fault Refusal :=
  .next (answerFrame ch .pullReport f (pullReport ch f.tag) s)

def execPullEvents (ch : Channel) (f : Frame) (s : State) : Host.Outcome State Fault Refusal :=
  .next (answerFrame ch .pullEvents f (pullEvents ch f.tag) s)

def execMalformedFrame (ch : Channel) (m : Malformed) (s : State) : Host.Outcome State Fault Refusal :=
  .next (answerMalformed ch m s)

def execLinkReset (ch : Channel) (s : State) : Host.Outcome State Fault Refusal :=
  .next (workArrival (linkResetAsserted ch s))

def execLinkResetRelease (ch : Channel) (midFrame : Bool) (s : State) : Host.Outcome State Fault Refusal :=
  .next (linkResetReleased ch midFrame s)

end Sys2Proof.Machine
end

