-- ==== Sys2Proof/Machine/Coordination.lean ====
section
/-! DEFINITION. The Coordination Unit (Section 8): locks, mailboxes, Drive Settings, and the meanings of LOCK,
UNLOCK, POST_MAIL, PULL_MAIL and SET_DRIVE. -/

namespace Sys2Proof.Machine

/-! ## The Extent Lock Table (R148 to R151) -/

/-- Two runs of LBAs have an LBA in common. -/
def runsMeet (f1 c1 f2 c2 : Nat) : Bool := f1 < f2 + c2 && f2 < f1 + c1

/-- A lock's range has an LBA in common with a run. -/
def LockEntry.meets (e : LockEntry) (first count : Nat) : Bool := runsMeet e.first e.count first count

/-- An entry of the other channel, of a mode that bars, stands in the way of a run (R151). -/
def isLockedFor (s : State) (ch : Channel) (bars : LockMode → Bool) (first count : Nat) : Bool :=
  s.cu.locks.any fun e => e.owner == other ch && bars e.mode && e.meets first count

/-- FULL_GUARD bars READ and OPEN_STREAM; WRITE_GUARD does not (R151). -/
def LockMode.barsReads : LockMode → Bool
  | .fullGuard => true
  | .writeGuard => false

/-- Either mode bars a WRITE header (R151). -/
def LockMode.barsWrites : LockMode → Bool := fun _ => true

/-- The lowest handle held by no entry (R149). -/
def lowestHandle (locks : List LockEntry) : Nat :=
  ((List.range 16).find? fun h => !(locks.any fun e => e.handle == h)).getD 16

/-- An entry takes its place in order of first LBA (R148). -/
def insertLock (e : LockEntry) : List LockEntry → List LockEntry
  | [] => [e]
  | x :: rest => if e.first < x.first then e :: x :: rest else x :: insertLock e rest

/-- A run of 1 to 65,535 sectors within the LBAs (R101, R134, R149). -/
def isExtent (first count : Nat) : Bool := 1 ≤ count && count ≤ 65535 && inLbaRange first count

/-- CU's objection to a LOCK (R149). -/
def lockObjection (ch : Channel) (f : Frame) (s : State) : Option RefusalReason :=
  if !isExtent (field32 f 0) (field16 f 2) then some .range
  else if (lockMode f).isNone then some .range
  else if 8 ≤ s.cu.locks.countP fun e => e.owner == ch then some .limit
  else if s.cu.locks.any fun e => e.meets (field32 f 0) (field16 f 2) then some .conflict
  else none

/-- The entry an accepted LOCK adds (R149). -/
def newLock (ch : Channel) (f : Frame) (s : State) : LockEntry :=
  { owner := ch, first := field32 f 0, count := field16 f 2,
    mode := (lockMode f).getD .writeGuard, handle := lowestHandle s.cu.locks }

/-- LOCK (R149). -/
def lockExtent (ch : Channel) (f : Frame) (s : State) : State :=
  match lockObjection ch f s with
  | some r => refuse ch f.tag r s
  | none =>
    let e := newLock ch f s
    accept ch f.tag (.handle e.handle)
      { s with cu := { s.cu with locks := insertLock e s.cu.locks } }

/-- The entry an UNLOCK names: its handle, owned by the requesting channel (R150). -/
def namedLock (ch : Channel) (f : Frame) (s : State) : Option LockEntry :=
  s.cu.locks.find? fun e => e.handle == field16 f 0 && e.owner == ch

/-- UNLOCK (R150). -/
def unlockExtent (ch : Channel) (f : Frame) (s : State) : State :=
  match namedLock ch f s with
  | some e =>
    accept ch f.tag (.unlocked e.first e.count e.mode)
      { s with cu := { s.cu with locks := s.cu.locks.erase e } }
  | none => refuse ch f.tag .conflict s

/-! ## Mailboxes (R153, R154) -/

/-- A mailbox after a post (R153). -/
def Mailbox.posted (value : BitVec 32) (m : Mailbox) : Mailbox :=
  { value := value, full := true, overrun := m.overrun || m.full }

/-- The mailbox addressed to a channel becomes another. -/
def setMailbox (ch : Channel) (m : Mailbox) (s : State) : State :=
  { s with cu := { s.cu with inbox := s.cu.inbox.set ch m } }

/-- POST_MAIL (R153). -/
def postMail (ch : Channel) (f : Frame) (s : State) : State :=
  let box := s.cu.inbox.get (other ch)
  notify (other ch) .mail
    (accept ch f.tag (.mail box.full (s.links.get (other ch)).attached)
      (setMailbox (other ch) (box.posted (BitVec.ofNat 32 (field32 f 0))) s))

/-- PULL_MAIL (R154). -/
def pullMail (ch : Channel) (tag : Byte) (s : State) : State :=
  let box := s.cu.inbox.get ch
  if box.full then
    respond ch tag (.mail box.value box.overrun)
      (setMailbox ch { box with full := false, overrun := false } s)
  else answerEmpty ch tag false false s

/-! ## Drive Settings (R156) -/

/-- A setting named replaces the one held, as clamped; KEEP leaves it (R156). -/
def chosen {α : Type} (clamp : Nat → α) (given : Option Nat) (held : α) : α :=
  match given with
  | some v => clamp v
  | none => held

/-- A code naming neither policy is ALWAYS (R156). -/
def policyOf (v : Nat) : VerifyPolicy := if v = 1 then .never else .always

/-- The settings after a write of the four (R156). -/
def Settings.written (retries limit policy dirty : Option Nat) (x : Settings) : Settings :=
  { readRetries := chosen (fun v => Nat.min v 7) retries x.readRetries
    reassignLimit := chosen (fun v => Nat.min v 3) limit x.reassignLimit
    verifyPolicy := chosen policyOf policy x.verifyPolicy
    dirtyLimit := chosen (fun v => Nat.max 8 (Nat.min v 64)) dirty x.dirtyLimit }

/-- CU writes the settings and posts SETTINGS to both links; a raised dirty limit is a freeing event
(R80, R156, R157). -/
def writeSettings (x : Settings) (s : State) : State :=
  let s1 := notifyBoth .settings { s with cu := { s.cu with settings := x } }
  if s.cu.settings.dirtyLimit < x.dirtyLimit then freeingEvent s1 else s1

/-- The settings a SET_DRIVE asks for (R156, R190). -/
def settingsAsked (f : Frame) (x : Settings) : Settings :=
  x.written (settingField f 0) (settingField f 1) (settingField f 2) (settingField f 3)

/-- SET_DRIVE (R156). -/
def setDrive (ch : Channel) (f : Frame) (s : State) : State :=
  let x := settingsAsked f s.cu.settings
  accept ch f.tag (.settings x) (writeSettings x s)

/-! ## The meanings -/

def execLock (ch : Channel) (f : Frame) (s : State) : Host.Outcome State Fault Refusal :=
  .next (answerFrame ch .lock f (lockExtent ch f) s)

def execUnlock (ch : Channel) (f : Frame) (s : State) : Host.Outcome State Fault Refusal :=
  .next (answerFrame ch .unlock f (unlockExtent ch f) s)

def execPostMail (ch : Channel) (f : Frame) (s : State) : Host.Outcome State Fault Refusal :=
  .next (answerFrame ch .postMail f (postMail ch f) s)

def execPullMail (ch : Channel) (f : Frame) (s : State) : Host.Outcome State Fault Refusal :=
  .next (answerFrame ch .pullMail f (pullMail ch f.tag) s)

def execSetDrive (ch : Channel) (f : Frame) (s : State) : Host.Outcome State Fault Refusal :=
  .next (answerFrame ch .setDrive f (setDrive ch f) s)

end Sys2Proof.Machine
end

