-- ==== Sys2Proof/Machine/Requests.lean ====
section
/-! DEFINITION. The requests of the cache, the Commit Unit and the Cartridge Controller: READ, PULL_DATA,
DISCARD, WRITE, DATA, FLUSH, PULL_FAULTS, EJECT and INITIALISE. -/

namespace Sys2Proof.Machine

/-! ## READ (R66, R67) -/

/-- A run of 1 to 32 sectors within the LBAs (R66, R73). -/
def isRequestRun (first count : Nat) : Bool := 1 ≤ count && count ≤ 32 && inLbaRange first count

/-- The LBAs of a run, ascending. -/
def runLbas (first count : Nat) : List Nat := (List.range count).map fun i => first + i

/-- The misses of a READ: its LBAs with no entry (R66). -/
def missCount (s : State) (first count : Nat) : Nat :=
  (runLbas first count).countP fun lba => (entryAt s lba).isNone

/-- An LBA lies in a run. -/
def inRun (first count lba : Nat) : Bool := first ≤ lba && lba < first + count

/-- SC's objection to a READ before it looks for space (R66). -/
def readObjections (ch : Channel) (first count : Nat) (s : State) : Option RefusalReason :=
  if !isRequestRun first count then some .range
  else if isLockedFor s ch LockMode.barsReads first count then some .locked
  else if 32 ≤ s.sc.reads.countP fun r => r.channel == ch then some .limit
  else none

/-- One LBA of an accepted READ: a hit moves to the most-recent end, a miss creates a READING entry (R67). -/
def referTo (s : State) (lba : Nat) : State :=
  match entryAt s lba with
  | some _ => touch lba s
  | none => createReading lba s

/-- The condition of a new reference: ready on an entry with data, else waiting (R67). -/
def referenceTo (s : State) (lba : Nat) : ReadRef :=
  match entryAt s lba with
  | some e => ⟨lba, if e.state.hasData then .ready else .waiting⟩
  | none => ⟨lba, .waiting⟩

/-- SC acts on an accepted READ (R67, R70). -/
def startRead (ch : Channel) (tag : Byte) (first count : Nat) (s : State) : State :=
  let lbas := runLbas first count
  let s1 := lbas.foldl referTo (makeSpace (missCount s first count) (inRun first count) s)
  let r : ReadRecord :=
    { channel := ch, tag := tag, first := first, count := count, refs := lbas.map (referenceTo s1),
      bad := 0, complete := false }
  afterEvictions s
    (completeReads (fun x => x.channel == ch && x.tag == tag)
      { s1 with sc := { s1.sc with reads := s1.sc.reads ++ [r] } })

/-- READ (R66, R67). A record that completes at acceptance posts its report before the response (R195). -/
def readRequest (ch : Channel) (tag : Byte) (first count : Nat) (s : State) : State :=
  match readObjections ch first count s with
  | some r => refuse ch tag r s
  | none =>
    if spaceFor (missCount s first count) (inRun first count) s then
      accept ch tag .plain (startRead ch tag first count (addOutstanding ch tag .read s))
    else refuse ch tag .retry (setWant ch (some ⟨.read, missCount s first count⟩) s)

/-! ## PULL_DATA and DISCARD (R71, R72, R169) -/

/-- The frame of a delivered sector with data (R71, R141, R191). -/
def dataFrame (s : State) (e : Entry) (stream : Bool) (place : Nat) : SectorFrame :=
  { lba := e.lba, status := .ok, blank := e.blank, stream := stream, take := e.take.getD 0,
    place := place, data := some (newestData s e) }

/-- The frame of a sector that resolved bad (R71, R142, R191). -/
def badFrame (lba : Nat) (b : BadStatus) (stream : Bool) (place : Nat) : SectorFrame :=
  { lba := lba, status := .bad b, blank := false, stream := stream, take := 0, place := place,
    data := none }

/-- A record after the delivery of its first undelivered sector; it is removed with its last (R71). -/
def deliverFrom (r : ReadRecord) (rest : List ReadRef) (s : State) : State :=
  let same := fun (x : ReadRecord) => x.channel == r.channel && x.tag == r.tag
  let left := if rest.isEmpty then s.sc.reads.filter fun x => !same x
    else s.sc.reads.map fun x => if same x then { x with refs := rest } else x
  { s with sc := { s.sc with reads := left } }

/-- A ready sector is delivered: its pin is released and its entry becomes most recent (R71). -/
def deliverReady (ch : Channel) (tag : Byte) (r : ReadRecord) (x : ReadRef) (rest : List ReadRef)
    (s : State) : State :=
  match entryAt s x.lba with
  | some e =>
    afterRelease [x.lba]
      (touch x.lba
        (deliverFrom r rest (respond ch tag (.sector (dataFrame s e false (x.lba - r.first))) s)))
  | none => respond ch tag (.sector (badFrame x.lba .lost false (x.lba - r.first))) (deliverFrom r rest s)

/-- PULL_DATA on a COMPLETE record (R71). -/
def pullComplete (ch : Channel) (tag : Byte) (r : ReadRecord) (s : State) : State :=
  match r.refs with
  | [] => answerEmpty ch tag true false s
  | x :: rest =>
    match x.cond with
    | .bad b =>
      respond ch tag (.sector (badFrame x.lba b false (x.lba - r.first))) (deliverFrom r rest s)
    | _ => deliverReady ch tag r x rest s

/-- PULL_DATA (R71, R169). -/
def pullData (ch : Channel) (tag : Byte) (s : State) : State :=
  match readRecord s ch tag with
  | none => answerEmpty ch tag true false s
  | some r => if r.complete then pullComplete ch tag r s else answerEmpty ch tag false true s

/-- The LBAs a record holds pins on. -/
def ReadRecord.pinned (r : ReadRecord) : List Nat := (r.refs.filter ReadRef.pins).map ReadRef.lba

/-- A read record is removed, its pins released. -/
def removeRead (r : ReadRecord) (s : State) : State :=
  { s with sc := { s.sc with
      reads := s.sc.reads.filter fun x => !(x.channel == r.channel && x.tag == r.tag) } }

/-- DISCARD (R72, R169): a PENDING READ completes with CANCELLED. -/
def discardRead (ch : Channel) (tag : Byte) (s : State) : State :=
  match readRecord s ch tag with
  | none => accept ch tag (.pins 0) s
  | some r =>
    let s1 := removeRead r s
    let s2 := if r.complete then s1 else postReport ch tag .read .cancelled 0 false s1
    accept ch tag (.pins r.pinned.length) (afterRelease r.pinned s2)

/-! ## WRITE (R73) -/

/-- The highest take number (R57). -/
def maxTake : Nat := 281474976710655

/-- SC's objection to a WRITE header before it looks for room (R73, R190). -/
def writeObjections (ch : Channel) (f : Frame) (s : State) : Option RefusalReason :=
  if !isRequestRun (field32 f 0) (field16 f 2) || (writeMode f).isNone then some .range
  else if isLockedFor s ch LockMode.barsWrites (field32 f 0) (field16 f 2) then some .locked
  else if maxTake < s.sc.takes + field16 f 2 then some .limit
  else none

/-- There is room for a WRITE of a count: the dirty limit, then slots and buffers (R73). -/
def writeRoom (ch : Channel) (count : Nat) (s : State) : Bool :=
  committingCount s ch + count ≤ s.cu.settings.dirtyLimit && spaceFor count (fun _ => false) s

/-- The write reservation (R73). -/
def reservation (f : Frame) (s : State) : DataPhase :=
  { tag := f.tag, first := field32 f 0, count := field16 f 2, mode := (writeMode f).getD .deferred,
    received := 0, buffers := s.sc.freeList.take (field16 f 2),
    slots := (freeSlots s).take (field16 f 2) }

/-- The link enters the write data phase with its reservation (R73). -/
def startWrite (ch : Channel) (f : Frame) (s : State) : State :=
  let s1 := makeSpace (field16 f 2) (fun _ => false) s
  afterEvictions s
    (updLink ch (fun l => { l with dataPhase := some (reservation f s1) }) (takeBuffers (field16 f 2) s1))

/-- WRITE (R73). -/
def writeHeader (ch : Channel) (f : Frame) (s : State) : State :=
  match writeObjections ch f s with
  | some r => refuse ch f.tag r s
  | none =>
    if writeRoom ch (field16 f 2) s then
      accept ch f.tag .plain (startWrite ch f (addOutstanding ch f.tag .write s))
    else refuse ch f.tag .retry (setWant ch (some ⟨.write, field16 f 2⟩) s)

/-! ## DATA and the take (R74 to R78) -/

/-- The entry a take makes for an LBA with none (R76). -/
def takenEntry (s : State) (ch : Channel) (lba buffer take slot : Nat) : Entry :=
  { slot := slot, lba := lba, addr := s.rmt.translate lba, state := .committing, blank := false,
    current := buffer, newer := none, writer := some ch, take := some take, retries := 0 }

/-- A take with no entry: one is made in the lowest reserved slot (R76). -/
def takeNew (ch : Channel) (lba buffer take : Nat) (s : State) : State :=
  let slot := ((s.links.get ch).reservedSlots).headD 0
  let e := takenEntry s ch lba buffer take slot
  let s1 := updLink ch
    (fun l => { l with dataPhase := l.dataPhase.map fun d => { d with slots := d.slots.tail } }) s
  createTask lba e.addr buffer take (addEntry e s1)

/-- The entry's current buffer is freed and the reserved buffer takes its place (R76, R77). -/
def replaceCurrent (e : Entry) (buffer : Nat) (s : State) : State :=
  updEntry e.lba (fun x => { x with current := buffer, state := .committing, retries := 0 })
    (freeBuffers [e.current] s)

/-- A take into a READING entry (R76). -/
def takeReading (e : Entry) (buffer take : Nat) (s : State) : State :=
  refsReady e.lba
    (createTask e.lba e.addr buffer take (replaceCurrent e buffer (withdraw (.entry e.lba) s)))

/-- A take into a CLEAN entry (R76). -/
def takeClean (e : Entry) (buffer take : Nat) (s : State) : State :=
  createTask e.lba e.addr buffer take (replaceCurrent e buffer s)

/-- A take into a COMMITTING entry: before VERIFY_DUE it replaces the task's data, at VERIFY_DUE it waits as
the newer buffer (R77). -/
def takeCommitting (e : Entry) (buffer take : Nat) (s : State) : State :=
  match (taskAt s e.lba).map CommitTask.stage with
  | some .verifyDue => updEntry e.lba (fun x => { x with state := .committingNewer, newer := some buffer }) s
  | _ =>
    updTask e.lba (fun t => { t with buffer := buffer, take := take })
      (updEntry e.lba (fun x => { x with current := buffer }) (freeBuffers [e.current] s))

/-- A take into a COMMITTING_NEWER entry replaces the newer buffer (R77). -/
def takeNewer (e : Entry) (buffer : Nat) (s : State) : State :=
  updEntry e.lba (fun x => { x with newer := some buffer }) (freeBuffers e.newer.toList s)

/-- A take finds its case (R76, R77). -/
def takeCase (ch : Channel) (lba buffer take : Nat) (s : State) : State :=
  match entryAt s lba with
  | none => takeNew ch lba buffer take s
  | some e =>
    match e.state with
    | .reading => takeReading e buffer take s
    | .clean => takeClean e buffer take s
    | .committing => takeCommitting e buffer take s
    | .committingNewer => takeNewer e buffer s

/-- One sector of a take (R62, R75). R73 tests each header against the counter alone, so two reservations can
together pass the counter's highest value of R57; the counter then goes on as a plain number: DESIGN CHOICE, log
entry 34. -/
def takeSector (ch : Channel) (s : State) (x : Nat × Nat) : State :=
  let take := s.sc.takes + 1
  let s1 := takeCase ch x.1 x.2 take { s with sc := { s.sc with takes := take } }
  touch x.1
    (updEntry x.1 (fun e => { e with writer := some ch, take := some take, blank := false }) s1)

/-- The sync waiter of a taken write whose first take number is `take` (R100). -/
def syncWaiter (ch : Channel) (d : DataPhase) (take : Nat) : Waiter :=
  { kind := .sync, channel := ch, tag := d.tag, first := d.first, count := d.count,
    sectors := (List.range d.count).map fun i => ⟨d.first + i, take + i, .pending, false⟩ }

/-- A waiter is registered behind the others (R100, R101, R194). -/
def addWaiter (w : Waiter) (s : State) : State :=
  { s with cmu := { s.cmu with waiters := s.cmu.waiters ++ [w] } }

/-- The report or the sync waiter of a taken write (R75, R78). -/
def answerTake (ch : Channel) (d : DataPhase) (take : Nat) (s : State) : State :=
  match d.mode with
  | .deferred => postReport ch d.tag .write .ok d.count false s
  | .sync =>
    if s.cc.state = .failed then postReport ch d.tag .write .mediumFault d.first false s
    else addWaiter (syncWaiter ch d take) s

/-- The take with a table loaded (R75 to R77). -/
def takeLoaded (ch : Channel) (d : DataPhase) (s : State) : State :=
  let s1 := ((runLbas d.first d.count).zip d.buffers).foldl (takeSector ch) s
  answerTake ch d (s.sc.takes + 1) (endDataPhase ch s1)

/-- The take with the table unloaded (R78). -/
def takeUnloaded (ch : Channel) (d : DataPhase) (s : State) : State :=
  postReport ch d.tag .write .mediumFault d.first false (endDataPhase ch (freeBuffers d.buffers s))

/-- The take: a freeing event and a drain event (R75, R78). -/
def makeTake (ch : Channel) (d : DataPhase) (s : State) : State :=
  drainCheck (freeingEvent (if s.rmt.loaded then takeLoaded ch d s else takeUnloaded ch d s))

/-- The payload is placed in the next reserved buffer (R74). -/
def placeData (ch : Channel) (d : DataPhase) (f : Frame) (s : State) : State :=
  updLink ch (fun l => { l with dataPhase := some { d with received := d.received + 1 } })
    (fillBuffer (d.buffers.getD d.received 0) (dataPayload f) s)

/-- A DATA frame in a data phase (R74). -/
def dataFrameReceived (ch : Channel) (f : Frame) (s : State) : State :=
  match (s.links.get ch).dataPhase with
  | none => refuse ch f.tag .sequence s
  | some d =>
    if isFullData f then
      let s1 := placeData ch d f s
      accept ch f.tag .plain (if d.received + 1 < d.count then s1 else makeTake ch d s1)
    else refuse ch f.tag .frameError (abandonWrite ch s)

/-! ## FLUSH and PULL_FAULTS (R97, R101) -/

/-- The waiting sectors of a FLUSH (R101). -/
def flushSectors (s : State) (first count : Nat) : List WaitSector :=
  (s.sc.entries.filter fun e => e.state.isCommitting && inRun first count e.lba).map fun e =>
    ⟨e.lba, e.take.getD 0, .pending, false⟩

/-- CMU acts on an accepted FLUSH (R101). -/
def startFlushRequest (ch : Channel) (tag : Byte) (first count : Nat) (s : State) : State :=
  let sectors := flushSectors s first count
  if sectors.isEmpty then postReport ch tag .flush .ok 0 false s
  else addWaiter ⟨.flush, ch, tag, first, count, sectors⟩ s

/-- FLUSH (R101). -/
def flushRequest (ch : Channel) (tag : Byte) (first count : Nat) (s : State) : State :=
  if isExtent first count then
    accept ch tag .plain (startFlushRequest ch tag first count (addOutstanding ch tag .flush s))
  else refuse ch tag .range s

/-- PULL_FAULTS (R97). -/
def pullFaults (ch : Channel) (tag : Byte) (s : State) : State :=
  let l := s.cmu.faults.get ch
  if l.records.isEmpty && !l.more then answerEmpty ch tag false false s
  else
    respond ch tag (.faults l.records l.more)
      { s with cmu := { s.cmu with faults := s.cmu.faults.set ch ⟨[], false⟩ } }

/-! ## EJECT and INITIALISE (R28, R32, R34) -/

/-- EJECT, past the gate (R28, R32). -/
def ejectRequest (ch : Channel) (tag : Byte) (s : State) : State :=
  accept ch tag .plain (startEject (.channel ch tag) (addOutstanding ch tag .eject s))

/-- INITIALISE, past the gate (R34). -/
def initialiseRequest (ch : Channel) (tag : Byte) (s : State) : State :=
  accept ch tag .plain (startInitialise ch tag (addOutstanding ch tag .initialise s))

/-! ## The meanings -/

def execRead (ch : Channel) (f : Frame) (s : State) : Host.Outcome State Fault Refusal :=
  .next (answerFrame ch .read f (readRequest ch f.tag (field32 f 0) (field16 f 2)) s)

def execPullData (ch : Channel) (f : Frame) (s : State) : Host.Outcome State Fault Refusal :=
  .next (answerFrame ch .pullData f (pullData ch f.tag) s)

def execDiscard (ch : Channel) (f : Frame) (s : State) : Host.Outcome State Fault Refusal :=
  .next (answerFrame ch .discard f (discardRead ch f.tag) s)

def execWrite (ch : Channel) (f : Frame) (s : State) : Host.Outcome State Fault Refusal :=
  .next (answerFrame ch .write f (writeHeader ch f) s)

def execData (ch : Channel) (f : Frame) (s : State) : Host.Outcome State Fault Refusal :=
  .next (answerFrame ch .data f (dataFrameReceived ch f) s)

def execFlush (ch : Channel) (f : Frame) (s : State) : Host.Outcome State Fault Refusal :=
  .next (answerFrame ch .flush f (flushRequest ch f.tag (field32 f 0) (field16 f 2)) s)

def execPullFaults (ch : Channel) (f : Frame) (s : State) : Host.Outcome State Fault Refusal :=
  .next (answerFrame ch .pullFaults f (pullFaults ch f.tag) s)

def execEject (ch : Channel) (f : Frame) (s : State) : Host.Outcome State Fault Refusal :=
  .next (answerFrame ch .eject f (ejectRequest ch f.tag) s)

def execInitialise (ch : Channel) (f : Frame) (s : State) : Host.Outcome State Fault Refusal :=
  .next (answerFrame ch .initialise f (initialiseRequest ch f.tag) s)

end Sys2Proof.Machine
end

