-- ==== Sys2Proof/Machine/Streams.lean ====
section
/-! DEFINITION. The Stream Unit's requests (Section 7): OPEN_STREAM, CLOSE_STREAM and PULL_STREAM. -/

namespace Sys2Proof.Machine

/-- The prefetch of a stream, then the other stream's try where the prefetch evicted (R80, R136). -/
def prefetchRun (ch : Channel) (s : State) : State := afterEvictions s (prefetch ch s)

/-! ## OPEN_STREAM (R134) -/

/-- No two extents have an LBA in common (R134). -/
def extentsDisjoint : List Extent → Bool
  | [] => true
  | x :: rest => (rest.all fun y => !runsMeet x.first x.count y.first y.count) && extentsDisjoint rest

/-- SU's objection to an OPEN_STREAM (R134). -/
def streamObjection (ch : Channel) (extents : List Extent) (s : State) : Option RefusalReason :=
  if (s.su.get ch).state ≠ .closed then some .inUse
  else if extents.length = 0 ∨ 8 < extents.length then some .range
  else if extents.any fun x => !isExtent x.first x.count then some .range
  else if !extentsDisjoint extents then some .range
  else if extents.any fun x => isLockedFor s ch LockMode.barsReads x.first x.count then some .locked
  else none

/-- The depth applied (R134, step 1). -/
def clampDepth (d : Nat) : Nat := Nat.max 1 (Nat.min d 16)

/-- The context of an opened stream (R134, steps 1 and 2). -/
def openedStream (extents : List Extent) (depth lowWater : Nat) : Stream :=
  { state := .opened, extents := extents, positions := (extents.map Extent.count).sum,
    prefetchCursor := 0, deliveryCursor := 0, depth := clampDepth depth,
    lowWater := Nat.min lowWater (clampDepth depth - 1), refs := [], faultPosition := none,
    faultStatus := none, prefetchWaiting := false }

/-- OPEN_STREAM (R134). -/
def openStream (ch : Channel) (f : Frame) (s : State) : State :=
  match streamObjection ch (streamExtents f) s with
  | some r => refuse ch f.tag r s
  | none =>
    let t := openedStream (streamExtents f) (field16 f 0) (field16 f 1)
    prefetchRun ch
      (accept ch f.tag (.stream t.depth t.lowWater t.positions) (updStream ch (fun _ => t) s))

/-! ## CLOSE_STREAM (R144) -/

/-- CLOSE_STREAM (R144). -/
def closeStream (ch : Channel) (tag : Byte) (s : State) : State :=
  let lbas := (s.su.get ch).refs.map StreamRef.lba
  accept ch tag (.pins lbas.length) (afterRelease lbas (updStream ch (fun _ => Stream.closed) s))

/-! ## PULL_STREAM (R141, R142) -/

/-- The reference at the delivery cursor. -/
def Stream.nextRef (t : Stream) : Option StreamRef := t.refs.find? fun x => x.position == t.deliveryCursor

/-- The stream after a ready reference was delivered (R141, steps 2 and 3). -/
def Stream.delivered (t : Stream) : Stream :=
  { t with refs := t.refs.filter fun x => x.position != t.deliveryCursor,
           deliveryCursor := t.deliveryCursor + 1 }

/-- Steps 4 to 6 of R141, in OPEN: the end, or the low-water notice and the prefetch. `before` is the level
before the delivery. -/
def afterDelivery (ch : Channel) (before : Nat) (s : State) : State :=
  let t := s.su.get ch
  if t.deliveryCursor = t.positions then
    notify ch .streamEnd (updStream ch (fun t => { t with state := .ended }) s)
  else
    prefetchRun ch (if before = t.lowWater then notify ch .streamLow s else s)

/-- The delivery of a ready position: the frame, the release, the cursor (R141, steps 1 to 3). The release's
freeing event (R80) is judged here, before steps 4 to 6: DESIGN CHOICE, log entry 30. -/
def deliverPosition (ch : Channel) (tag : Byte) (e : Entry) (s : State) : State :=
  let t := s.su.get ch
  let s1 := respond ch tag (.sector (dataFrame s e true t.deliveryCursor)) s
  afterRelease [e.lba] (touch e.lba (updStream ch Stream.delivered s1))

/-- PULL_STREAM in OPEN, and in FAULTED below the fault position (R141, R142). -/
def pullPosition (ch : Channel) (tag : Byte) (s : State) : State :=
  let t := s.su.get ch
  match t.nextRef with
  | none => answerEmpty ch tag false false s
  | some x =>
    if x.ready then
      match entryAt s x.lba with
      | some e =>
        let s1 := deliverPosition ch tag e s
        if t.state = .opened then afterDelivery ch t.level s1 else s1
      | none => answerEmpty ch tag false false s
    else answerEmpty ch tag false false s

/-- The stream after its fault position was delivered (R142). -/
def Stream.faultDelivered (p : Nat) (t : Stream) : Stream :=
  { t with deliveryCursor := p + 1,
           prefetchCursor := if t.prefetchCursor = p then p + 1 else t.prefetchCursor }

/-- PULL_STREAM at a FAULTED stream's fault position (R142). -/
def pullFault (ch : Channel) (tag : Byte) (p : Nat) (s : State) : State :=
  let t := s.su.get ch
  respond ch tag (.sector (badFrame (positionLba t.extents p) (t.faultStatus.getD .lost) true p))
    (updStream ch (Stream.faultDelivered p) s)

/-- PULL_STREAM in FAULTED (R142). -/
def pullFaulted (ch : Channel) (tag : Byte) (s : State) : State :=
  let t := s.su.get ch
  match t.faultPosition with
  | some p =>
    if t.deliveryCursor < p then pullPosition ch tag s
    else if t.deliveryCursor = p then pullFault ch tag p s
    else answerEmpty ch tag false false s
  | none => answerEmpty ch tag false false s

/-- PULL_STREAM (R141, R142). -/
def pullStream (ch : Channel) (tag : Byte) (s : State) : State :=
  match (s.su.get ch).state with
  | .opened => pullPosition ch tag s
  | .faulted => pullFaulted ch tag s
  | .ended | .closed => answerEmpty ch tag false false s

/-! ## The meanings -/

def execOpenStream (ch : Channel) (f : Frame) (s : State) : Host.Outcome State Fault Refusal :=
  .next (answerFrame ch .openStream f (openStream ch f) s)

def execCloseStream (ch : Channel) (f : Frame) (s : State) : Host.Outcome State Fault Refusal :=
  .next (answerFrame ch .closeStream f (closeStream ch f.tag) s)

def execPullStream (ch : Channel) (f : Frame) (s : State) : Host.Outcome State Fault Refusal :=
  .next (answerFrame ch .pullStream f (pullStream ch f.tag) s)

end Sys2Proof.Machine
end

