-- ==== Sys2Proof/Machine/Console.lean ====
section
/-! DEFINITION. The Maintenance Console Interface (Section 10): lines in and out, display, hold, GO, STEP, watch
slots, setting entry and the console's master clear. -/

namespace Sys2Proof.Machine

/-! ## Answering an ended line (R180, R181) -/

/-- Change the console's record. -/
def updConsole (g : Console → Console) (s : State) : State := { s with mci := g s.mci }

/-- The input line is emptied and the overlong mark cleared (R179). -/
def Console.lineEnded (m : Console) : Console := { m with line := [], overlong := false }

/-- What a command's rule makes of a line: absent for an error, else the state and the response line. -/
abbrev LineAnswer := Option (State × Reply)

/-- An accepted command's response, after which its letter is the last accepted one (R180). -/
def acceptLine (letter : ConsoleLetter) (r : Reply) (s : State) : State :=
  updConsole (fun m => { m.replied r with last := some letter }) s

/-- The error reply (R180). -/
def errorLine (s : State) : State := updConsole (fun m => m.replied (.error m.last)) s

/-- An ended line is judged by `judge` (R179 to R181): between "?" and its clear, and where no response line
has room, it is discarded. -/
def answerEnded (judge : State → State) (s : State) : State :=
  if s.mci.clearing ≠ .none then s
  else
    let s1 := updConsole Console.lineEnded s
    if s.mci.hasReplyRoom then if s.mci.overlong then errorLine s1 else judge s1 else s1

/-- A line of a known command (R180). -/
def answerCommand (letter : ConsoleLetter) (act : State → LineAnswer) (s : State) : State :=
  match act s with
  | some x => acceptLine letter x.2 x.1
  | none => errorLine s

/-! ## Display (R182, R183) -/

/-- The elements of item 4: commit tasks, then table tasks, copy A's before copy B's (R86, R182). -/
def tableTasksShown (s : State) : List TableTask :=
  (s.cmu.tableTasks.filter fun t => t.copy == .a) ++ (s.cmu.tableTasks.filter fun t => t.copy == .b)

/-- The size of a collection item; absent for an item of one record (R182). -/
def collectionSize (s : State) (item : Nat) : Option Nat :=
  match item with
  | 3 => some 128
  | 4 => some (s.cmu.tasks.length + s.cmu.tableTasks.length)
  | 5 => some (if s.rmt.loaded then s.rmt.entries.length else 0)
  | 6 => some s.cu.locks.length
  | 12 => some 2
  | _ => none

/-- The fields of a channel (R183, items 7 and 8): requests, reports, reads and fault records are shown as
counts (DESIGN CHOICE, log entry 32). -/
def shownChannel (ch : Channel) (s : State) : ShownChannel :=
  let l := s.links.get ch
  { attached := l.attached, restarted := l.restarted, outstanding := l.outstanding.length
    unread := l.reports.length, flags := l.flags, mask := l.mask, style := l.style
    phase := l.dataPhase.map fun d => (d.tag, d.count, d.received)
    reads := s.sc.reads.countP fun r => r.channel == ch
    committing := committingCount s ch
    faults := (s.cmu.faults.get ch).records.length, more := (s.cmu.faults.get ch).more
    want := s.sc.wants.get ch }

/-- Item 2 (R183). -/
def shownCache (s : State) : Shown :=
  .cache (countEntries s .reading) (countEntries s .clean) (countEntries s .committing)
    (countEntries s .committingNewer) (freeSlots s).length s.sc.freeList.length
    s.links.a.reservedSlots.length s.links.b.reservedSlots.length s.sc.takes

/-- What item 3 shows of an entry (R183). -/
def shownEntry (e : Entry) (s : State) : ShownEntry :=
  { lba := e.lba, addr := e.addr, state := e.state, blank := e.blank, writer := e.writer
    pins := pinCount s e.lba, take := e.take, retries := e.retries }

/-- Item 3 at a slot (R183). -/
def shownSlot (n : Nat) (s : State) : Shown :=
  match s.sc.entries.find? fun e => e.slot == n with
  | some e => .slotEntry n (shownEntry e s)
  | none => if (reservedSlots s).contains n then .slotReserved n else .slotFree n

/-- What item 4 shows of a commit task (R183). -/
def CommitTask.shown (t : CommitTask) : ShownTask :=
  { lba := t.lba, addr := t.addr, stage := t.stage, take := t.take, policy := t.policy, used := t.used
    reassignGen := t.reassignGen }

/-- Item 4 at an index (R183). -/
def shownTask (n : Nat) (s : State) : Shown :=
  match s.cmu.tasks[n]? with
  | some t => .commitTask n t.shown
  | none =>
    match (tableTasksShown s)[n - s.cmu.tasks.length]? with
    | some t => .tableTask n t
    | none => .empty 4

/-- What item 5 shows of a remap entry (R183). -/
def RemapEntry.shown (e : RemapEntry) : ShownRemap :=
  { active := e.home?.isSome, home := e.home?, spare := e.spare, zone := e.zone, index := e.index
    generation := e.generation }

/-- Item 5 at an index (R183). -/
def shownRemap (n : Nat) (s : State) : Shown :=
  match s.rmt.entries[n]? with
  | some e => .remap n e.shown
  | none => .empty 5

/-- Item 6 at an index (R183). -/
def shownLock (n : Nat) (s : State) : Shown :=
  match s.cu.locks[n]? with
  | some e => .lock n e
  | none => .empty 6

/-- The fields of a stream that the console shows (R146). -/
def Stream.shown (t : Stream) : ShownStream :=
  { state := t.state, positions := t.positions, prefetchCursor := t.prefetchCursor
    deliveryCursor := t.deliveryCursor, depth := t.depth, lowWater := t.lowWater, level := t.level
    inFlight := t.inFlight, faultPosition := t.faultPosition, faultStatus := t.faultStatus
    prefetchWaiting := t.prefetchWaiting }

/-- An item, at an index for a collection (R183). -/
def shownItem (item index : Nat) (s : State) : Shown :=
  match item with
  | 0 => .cartridge s.cc.state s.cc.tab s.cc.recoveryCount s.cc.prior (s.cc.limit.map MechLimit.kind)
  | 1 => .engine s.pe.headTrack s.angle s.pe.polarity s.pe.state
  | 2 => shownCache s
  | 3 => shownSlot index s
  | 4 => shownTask index s
  | 5 => shownRemap index s
  | 6 => shownLock index s
  | 7 => .channel .a (shownChannel .a s)
  | 8 => .channel .b (shownChannel .b s)
  | 9 => .stream .a s.su.a.shown
  | 10 => .stream .b s.su.b.shown
  | 11 => .settings s.cu.settings
  | _ => .watch index (s.mci.watchSlot index)

/-- The selected item is displayed; a collection's index is held within it (R182). -/
def displayItem (s : State) : State × Reply :=
  let show_ := fun (i : Nat) =>
    (updConsole (fun m => { m with index := i }) s, Reply.shown (shownItem s.mci.item i s))
  match collectionSize s s.mci.item with
  | none => show_ s.mci.index
  | some 0 => (updConsole (fun m => { m with index := 0 }) s, .shown (.empty s.mci.item))
  | some (n + 1) => show_ (Nat.min s.mci.index n)

/-- S stores an item and an index, and displays (R182). -/
def selectItem (item index : Nat) (s : State) : LineAnswer :=
  if item ≤ 12 then some (displayItem (updConsole (fun m => { m with item := item, index := index }) s))
  else none

/-- S i nnnn (R182). -/
def lineS (fields : Fields) (s : State) : LineAnswer :=
  match fields with
  | [i] => (hexNumber 1 i).bind fun item => selectItem item 0 s
  | [i, n] => (hexNumber 1 i).bind fun item => (hexNumber 4 n).bind fun index => selectItem item index s
  | _ => none

/-- N (R182). -/
def lineN (fields : Fields) (s : State) : LineAnswer :=
  match fields with
  | [] => some (displayItem (updConsole (fun m => { m with index := Nat.min (m.index + 1) 0xffff }) s))
  | _ => none

/-- D (R182). -/
def lineD (fields : Fields) (s : State) : LineAnswer :=
  match fields with
  | [] => some (displayItem s)
  | _ => none

/-! ## Hold, GO, STEP (R184, R185) -/

/-- H (R184). -/
def lineH (fields : Fields) (s : State) : LineAnswer :=
  match fields with
  | [] =>
    some (updConsole (fun m => { m with hold := true }) s,
      if s.pe.state = .held then .held else .holdPending)
  | _ => none

/-- GO in HELD: the choice at once, or at the end of the step pass under way (R126). -/
def goHeld (s : State) : State :=
  if stepUnderWay s then { s with pe := { s.pe with goWaiting := true } }
  else makeChoice (updConsole (fun m => { m with stepReq := false }) s)

/-- G (R126, R184). -/
def lineG (fields : Fields) (s : State) : LineAnswer :=
  match fields with
  | [] =>
    if s.pe.state = .held then some (goHeld s, .go)
    else if s.mci.hold then some (updConsole (fun m => { m with hold := false }) s, .holdCancelled)
    else some (s, .running)
  | _ => none

/-- T (R127, R185). -/
def lineT (fields : Fields) (s : State) : LineAnswer :=
  match fields with
  | [] =>
    if s.pe.state = .held && !s.mci.stepReq && compatibleHere s then
      some (updConsole (fun m => { m with stepReq := true }) s, .step)
    else none
  | _ => none

/-! ## Watch slots (R186) -/

/-- The slot a W line sets (R186). -/
def watchSlotOf (kinds action track sector : List Char) : Option WatchSlot := do
  let k ← watchKinds kinds
  let a ← watchAction action
  let t ← hexNumber 4 track
  let n ← hexNumber 2 sector
  if t ≤ 0x4e21 ∧ n < sectorsOn t then some ⟨⟨t, n⟩, k, a, true⟩ else none

/-- W (R186). -/
def lineW (fields : Fields) (s : State) : LineAnswer :=
  match fields with
  | [n, kinds, action, track, sector] =>
    (slotNumber n).bind fun i => (watchSlotOf kinds action track sector).map fun w =>
      (updConsole (Console.setWatch i (some w)) s, .watch i)
  | _ => none

/-- C n (R186). -/
def lineC (fields : Fields) (s : State) : LineAnswer :=
  match fields with
  | [n] => (slotNumber n).map fun i => (updConsole (Console.setWatch i none) s, .clearWatch i)
  | _ => none

/-! ## Setting entry (R187) -/

/-- The settings after one is entered; an id above 3 names none (R187). -/
def settingsEntered (id value : Nat) (x : Settings) : Option Settings :=
  match id with
  | 0 => some (x.written (some value) none none none)
  | 1 => some (x.written none (some value) none none)
  | 2 => some (x.written none none (some value) none)
  | 3 => some (x.written none none none (some value))
  | _ => none

/-- The value applied of a setting (R187), the verify policy by its code as entered: DESIGN CHOICE, log entry 19. -/
def settingValue (id : Nat) (x : Settings) : Nat :=
  match id with
  | 0 => x.readRetries
  | 1 => x.reassignLimit
  | 2 => x.verifyPolicy.code
  | _ => x.dirtyLimit

/-- E (R187). -/
def lineE (fields : Fields) (s : State) : LineAnswer :=
  match fields with
  | [i, v] =>
    (hexNumber 1 i).bind fun id => (hexNumber 4 v).bind fun value =>
      (settingsEntered id value s.cu.settings).map fun x =>
        (writeSettings x s, .setting id (settingValue id x))
  | _ => none

/-! ## Master clear from the console (R188) -/

/-- "?" with the strap high: only a line being sent stays before "> CLEAR" (R188). -/
def lineQuestion (fields : Fields) (s : State) : LineAnswer :=
  match fields with
  | [] =>
    if s.lines.strapHigh then
      some (updConsole (fun m => { m with queue := m.queue.take 1, clearing := .lineQueued }) s, .clear)
    else none
  | _ => none

/-- CONSOLE_LINE_SENT: the line whose last character has been sent leaves the queue (R181, R188). -/
def Console.sent (m : Console) : Console :=
  match m.queue with
  | [] => m
  | line :: rest =>
    { m with
      queue := rest
      clearing := if m.clearing = .lineQueued ∧ line = .reply .clear then .lineSent else m.clearing }

/-! ## Characters (R179) -/

/-- The command of a letter (R180). -/
def commandOf (letter : ConsoleLetter) (fields : Fields) : State → LineAnswer :=
  match letter with
  | .s => lineS fields
  | .n => lineN fields
  | .d => lineD fields
  | .h => lineH fields
  | .g => lineG fields
  | .t => lineT fields
  | .w => lineW fields
  | .c => lineC fields
  | .e => lineE fields
  | .question => lineQuestion fields

/-- The fields of an ended line are judged; a line with none is answered ">" (R179, R180). -/
def judgeFields (fields : Fields) (s : State) : State :=
  match fields with
  | [] => updConsole (Console.replied .prompt) s
  | first :: rest =>
    match commandLetter first with
    | some letter => answerCommand letter (commandOf letter rest) s
    | none => errorLine s

/-- A printable character joins a line of fewer than 40 (R179). -/
def Console.typed (c : Char) (m : Console) : Console :=
  if m.line.length < 40 then { m with line := m.line ++ [c] } else { m with overlong := true }

/-- A backspace (R179). -/
def Console.backspaced (m : Console) : Console :=
  if m.overlong then m else { m with line := m.line.dropLast }

/-- A character is received (R179). -/
def characterReceived (c : ConsoleChar) (s : State) : State :=
  if s.mci.clearing ≠ .none then s
  else
    match c with
    | .carriageReturn => answerEnded (judgeFields (splitFields s.mci.line)) s
    | .lineFeed => s
    | .backspace => updConsole Console.backspaced s
    | .printable x => updConsole (Console.typed x) s
    | .otherControl | .framingError => updConsole (fun m => { m with overlong := true }) s

/-! ## The meanings. Each row of a command letter is an ended line of that letter (log entry 19). -/

def execConsoleCharacter (c : ConsoleChar) (s : State) : Host.Outcome State Fault Refusal :=
  .next (workArrival (characterReceived c s))

def execSelectDisplay (fields : Fields) (s : State) : Host.Outcome State Fault Refusal :=
  .next (answerEnded (answerCommand .s (lineS fields)) s)

def execNextDisplay (fields : Fields) (s : State) : Host.Outcome State Fault Refusal :=
  .next (answerEnded (answerCommand .n (lineN fields)) s)

def execDisplay (fields : Fields) (s : State) : Host.Outcome State Fault Refusal :=
  .next (answerEnded (answerCommand .d (lineD fields)) s)

def execHold (fields : Fields) (s : State) : Host.Outcome State Fault Refusal :=
  .next (answerEnded (answerCommand .h (lineH fields)) s)

def execGo (fields : Fields) (s : State) : Host.Outcome State Fault Refusal :=
  .next (answerEnded (answerCommand .g (lineG fields)) s)

def execStep (fields : Fields) (s : State) : Host.Outcome State Fault Refusal :=
  .next (answerEnded (answerCommand .t (lineT fields)) s)

def execWatch (fields : Fields) (s : State) : Host.Outcome State Fault Refusal :=
  .next (answerEnded (answerCommand .w (lineW fields)) s)

def execClearWatch (fields : Fields) (s : State) : Host.Outcome State Fault Refusal :=
  .next (answerEnded (answerCommand .c (lineC fields)) s)

def execSettingEntry (fields : Fields) (s : State) : Host.Outcome State Fault Refusal :=
  .next (workArrival (answerEnded (answerCommand .e (lineE fields)) s))

def execConsoleClear (fields : Fields) (s : State) : Host.Outcome State Fault Refusal :=
  .next (answerEnded (answerCommand .question (lineQuestion fields)) s)

def execConsoleLineSent (s : State) : Host.Outcome State Fault Refusal :=
  .next (updConsole Console.sent s)

end Sys2Proof.Machine
end

