-- ==== Sys2Proof/Machine/Lines.lean ====
section
/-! DEFINITION. How the console's lines read on the terminal (R179 to R188). Separators, the words for marks and
the order within a field of several values are the model's: DESIGN CHOICE, log entry 19. -/

namespace Sys2Proof.Machine

/-- A run of characters. -/
abbrev Text := List Char

/-! ## Numbers and absent values (R179, R183) -/

/-- A hexadecimal digit, in capitals. -/
def hexChar (d : Nat) : Char := if d < 10 then Char.ofNat (48 + d) else Char.ofNat (55 + d)

/-- The digits of a number before those already written; the first argument bounds how many. -/
def hexDigits : Nat → Nat → Text → Text
  | 0, _, written => written
  | k + 1, n, written =>
    if n < 16 then hexChar n :: written else hexDigits k (n / 16) (hexChar (n % 16) :: written)

/-- A number as the console prints it: hexadecimal, without leading zeros (R179). -/
def hexText (n : Nat) : Text := hexDigits (n + 1) n []

/-- An absent value shows as "-" (R183). -/
def orDash {α : Type} (g : α → Text) : Option α → Text
  | none => ['-']
  | some x => g x

/-- Words with one space between them. -/
def spaced (words : List Text) : Text := [' '].intercalate words

/-- A list of words; none shows as "-". -/
def listed (words : List Text) : Text := if words.isEmpty then ['-'] else spaced words

/-- A physical address shows as track and sector (R183). -/
def Phys.text (p : Phys) : Text := spaced [hexText p.track, hexText p.sector]

/-- The revolution stamp. -/
def stampText (stamp : BitVec 16) : Text := hexText stamp.toNat

/-! ## States, modes and statuses show by their names (R183) -/

/-- A mark that is set or clear; the words are log entry 19's. -/
def markText (set : Bool) : Text := (if set then "SET" else "CLEAR").toList

/-- A value that is yes or no (R88), whose word R183 does not spell: DESIGN CHOICE, log entry 19. -/
def yesText (yes : Bool) : Text := (if yes then "YES" else "NO").toList

def CartState.text : CartState → Text
  | .empty => "EMPTY".toList | .loading => "LOADING".toList | .spinningUp => "SPINNING_UP".toList
  | .mounting => "MOUNTING".toList | .ready => "READY".toList | .readOnly => "READ_ONLY".toList
  | .unformatted => "UNFORMATTED".toList | .unusable => "UNUSABLE".toList | .draining => "DRAINING".toList
  | .spinningDown => "SPINNING_DOWN".toList | .ejecting => "EJECTING".toList
  | .recovering => "RECOVERING".toList | .failed => "FAILED".toList

def LimitKind.text : LimitKind → Text
  | .clamp => "CLAMP".toList | .lock => "LOCK".toList | .stop => "STOP".toList | .switch => "SWITCH".toList

def Polarity.text : Polarity → Text
  | .erase => "ERASE".toList | .write => "WRITE".toList

def EngineState.text : EngineState → Text
  | .stopped => "STOPPED".toList | .idle => "IDLE".toList | .moving => "MOVING".toList
  | .dwelling => "DWELLING".toList | .held => "HELD".toList

def EntryState.text : EntryState → Text
  | .reading => "READING".toList | .clean => "CLEAN".toList | .committing => "COMMITTING".toList
  | .committingNewer => "COMMITTING_NEWER".toList

def channelText : Channel → Text
  | .a => ['A']
  | .b => ['B']

def Stage.text : Stage → Text
  | .eraseDue => "ERASE_DUE".toList | .writeDue => "WRITE_DUE".toList | .verifyDue => "VERIFY_DUE".toList

def VerifyPolicy.text : VerifyPolicy → Text
  | .always => "ALWAYS".toList | .never => "NEVER".toList

def TableCopy.text : TableCopy → Text
  | .a => ['A']
  | .b => ['B']

def LockMode.text : LockMode → Text
  | .writeGuard => "WRITE_GUARD".toList | .fullGuard => "FULL_GUARD".toList

def ClearStyle.text : ClearStyle → Text
  | .pullClear => "PULL_CLEAR".toList | .explicit => "EXPLICIT".toList

def StreamState.text : StreamState → Text
  | .closed => "CLOSED".toList | .opened => "OPEN".toList | .ended => "ENDED".toList
  | .faulted => "FAULTED".toList

def BadStatus.text : BadStatus → Text
  | .unreadable => "UNREADABLE".toList | .lost => "LOST".toList

def EventFlag.text : EventFlag → Text
  | .report => "REPORT".toList | .mail => "MAIL".toList | .streamData => "STREAM_DATA".toList
  | .streamLow => "STREAM_LOW".toList | .streamEnd => "STREAM_END".toList
  | .streamFault => "STREAM_FAULT".toList | .space => "SPACE".toList | .cartridge => "CARTRIDGE".toList
  | .settings => "SETTINGS".toList | .deferredFault => "DEFERRED_FAULT".toList | .held => "HELD".toList

/-- The event flags in the order of their bits (R191). -/
def EventFlag.all : List EventFlag :=
  [.report, .mail, .streamData, .streamLow, .streamEnd, .streamFault, .space, .cartridge, .settings,
   .deferredFault, .held]

/-- The flags of a set, by name. -/
def flagsText (flags : BitVec 11) : Text :=
  listed ((EventFlag.all.filter fun e => flags.getLsbD e.index).map EventFlag.text)

def PassKind.text : PassKind → Text
  | .read => "READ".toList | .erase => "ERASE".toList | .write => "WRITE".toList
  | .verify => "VERIFY".toList

/-- The kinds a watch slot lists. -/
def KindSet.text (k : KindSet) : Text :=
  listed (([PassKind.read, .erase, .write, .verify].filter k.has).map PassKind.text)

/-- The letter of a watch action, in a watch line (R186). -/
def WatchAction.letter : WatchAction → Text
  | .hold => ['H']
  | .note => ['N']

def WatchAction.text : WatchAction → Text
  | .hold => "HOLD".toList | .note => "NOTE".toList

def WantKind.text : WantKind → Text
  | .read => "READ".toList | .write => "WRITE".toList

/-- The outcome of a pass; GOOD with its correction count (R185). -/
def ShownOutcome.text : ShownOutcome → Text
  | .good n => spaced ["GOOD".toList, hexText n]
  | .unreadable => "UNREADABLE".toList | .blank => "BLANK".toList | .done => "DONE".toList
  | .pass => "PASS".toList | .fail => "FAIL".toList | .discarded => "DISCARDED".toList

/-! ## Display lines (R182, R183) -/

/-- The values of a channel's items, in the order of R183. -/
def ShownChannel.values (x : ShownChannel) : List Text :=
  [(if x.attached then "ATTACHED" else "DETACHED").toList, markText x.restarted, hexText x.outstanding,
   hexText x.unread, flagsText x.flags, flagsText x.mask, x.style.text,
   orDash (fun p => spaced [hexText p.1.toNat, hexText p.2.1, hexText p.2.2]) x.phase,
   hexText x.reads, hexText x.committing, hexText x.faults, markText x.more,
   orDash (fun w => spaced [w.kind.text, hexText w.count]) x.want]

/-- The values of a stream's items, in the order of R146. -/
def ShownStream.values (x : ShownStream) : List Text :=
  [x.state.text, hexText x.positions, hexText x.prefetchCursor, hexText x.deliveryCursor, hexText x.depth,
   hexText x.lowWater, hexText x.level, hexText x.inFlight, orDash hexText x.faultPosition,
   orDash BadStatus.text x.faultStatus, markText x.prefetchWaiting]

/-- The fields' values of a display, in the order of R183. -/
def Shown.values : Shown → List Text
  | .empty _ | .slotFree _ | .slotReserved _ | .watch _ none => []
  | .cartridge state tab recovery prior limit =>
    [state.text, markText tab, hexText recovery, orDash CartState.text prior, orDash LimitKind.text limit]
  | .engine track angle polarity state => [hexText track, hexText angle, polarity.text, state.text]
  | .cache reading clean committing newer freeSlots freeBuffers reservedA reservedB takes =>
    [hexText reading, hexText clean, hexText committing, hexText newer, hexText freeSlots,
     hexText freeBuffers, hexText reservedA, hexText reservedB, hexText takes]
  | .slotEntry _ x =>
    [hexText x.lba, x.addr.text, x.state.text, (if x.blank then "BLANK" else "DATA").toList,
     orDash channelText x.writer, hexText x.pins, orDash hexText x.take, hexText x.retries]
  | .commitTask _ x =>
    [hexText x.lba, x.addr.text, x.stage.text, hexText x.take, x.policy.text, hexText x.used,
     orDash hexText x.reassignGen]
  | .tableTask _ x =>
    [x.copy.text, hexText x.sector, x.stage.text, hexText x.restarts, yesText x.held]
  | .remap _ x =>
    [(if x.active then "ACTIVE" else "SPENT").toList, orDash Phys.text x.home,
     spaced [x.spare.text, hexText x.zone, hexText x.index], hexText x.generation]
  | .lock _ x => [channelText x.owner, hexText x.first, hexText x.count, x.mode.text, hexText x.handle]
  | .channel _ x => x.values
  | .stream _ x => x.values
  | .settings x =>
    [hexText x.readRetries, hexText x.reassignLimit, x.verifyPolicy.text, hexText x.dirtyLimit]
  | .watch _ (some w) =>
    [hexText w.addr.track, hexText w.addr.sector, w.kinds.text, w.action.text,
     (if w.armed then "ARMED" else "DISARMED").toList]

/-- The item a display shows (R182). -/
def Shown.item : Shown → Nat
  | .empty item => item
  | .cartridge .. => 0
  | .engine .. => 1
  | .cache .. => 2
  | .slotEntry .. | .slotFree _ | .slotReserved _ => 3
  | .commitTask .. | .tableTask .. => 4
  | .remap .. => 5
  | .lock .. => 6
  | .channel .a _ => 7
  | .channel .b _ => 8
  | .stream .a _ => 9
  | .stream .b _ => 10
  | .settings _ => 11
  | .watch .. => 12

/-- The index a collection's display shows (R183). -/
def Shown.index : Shown → Option Nat
  | .slotEntry i _ | .slotFree i | .slotReserved i | .commitTask i _ | .tableTask i _ | .remap i _
  | .lock i _ | .watch i _ => some i
  | _ => none

/-- The place of a display's first field among its item's names; a table task's follow a commit task's. -/
def Shown.firstName : Shown → Nat
  | .tableTask .. => 7
  | _ => 0

/-- Each field is a short name, which no rule spells, followed by its value (R183). -/
def Shown.fields (x : Shown) : List Text :=
  (x.values.zipIdx x.firstName).flatMap fun v => [Config.fieldName x.item v.2, v.1]

/-- A display line after its ">" (R182, R183). -/
def Shown.text (x : Shown) : Text :=
  match x with
  | .empty _ => "NONE".toList
  | .slotFree _ => spaced ([hexText x.item] ++ (x.index.map hexText).toList ++ ["FREE".toList])
  | .slotReserved _ => spaced ([hexText x.item] ++ (x.index.map hexText).toList ++ ["RESERVED".toList])
  | .watch _ none => spaced ([hexText x.item] ++ (x.index.map hexText).toList ++ ["ABSENT".toList])
  | _ => spaced ([hexText x.item] ++ (x.index.map hexText).toList ++ x.fields)

/-! ## Response lines and unsolicited lines (R180, R181, R184 to R188) -/

def ConsoleLetter.char : ConsoleLetter → Char
  | .s => 'S' | .n => 'N' | .d => 'D' | .h => 'H' | .g => 'G' | .t => 'T' | .w => 'W' | .c => 'C'
  | .e => 'E' | .question => '?'

/-- A response line: ">" and the words of its command, or "*" and the last accepted letter (R180). -/
def Reply.text : Reply → Text
  | .prompt => ['>']
  | .error last => '*' :: (last.map ConsoleLetter.char).toList
  | .shown x => spaced [['>'], x.text]
  | .held => "> HELD".toList
  | .holdPending => "> HOLD PENDING".toList
  | .go => "> GO".toList
  | .holdCancelled => "> HOLD CANCELLED".toList
  | .running => "> RUNNING".toList
  | .step => "> STEP".toList
  | .watch slot => spaced ["> W".toList, hexText slot]
  | .clearWatch slot => spaced ["> C".toList, hexText slot]
  | .setting id value => spaced ["> E".toList, hexText id, hexText value]
  | .clear => "> CLEAR".toList

/-- An unsolicited line after its "=" (R184 to R186). -/
def ConsoleNotice.words : ConsoleNotice → List Text
  | .heldAt track stamp => ["HELD".toList, hexText track, stampText stamp]
  | .stepEnd kind addr outcome stamp => [['T'], kind.text, addr.text, outcome.text, stampText stamp]
  | .watchMatch slot action kind addr outcome stamp =>
    [['W'], hexText slot, action.letter, kind.text, addr.text, outcome.text, stampText stamp]

/-- A line of the output queue; "+" stands directly after "=" (R181). -/
def ConsoleLine.text : ConsoleLine → Text
  | .reply r => r.text
  | .notice plus x => spaced ((if plus then ['=', '+'] else ['=']) :: x.words)

/-- The characters of the line being sent, ended with a carriage return and a line feed (R181); none while the
output queue is empty. -/
def Console.sending (m : Console) : Text :=
  match m.queue with
  | [] => []
  | line :: _ => line.text ++ [Char.ofNat 13, Char.ofNat 10]

end Sys2Proof.Machine
end

