-- ==== Sys2Proof/Machine/Mechanism.lean ====
section
/-! DEFINITION. The mechanism's events, the part's timers and the resets: the meanings of the commands that
come from neither a link nor the console. -/

namespace Sys2Proof.Machine

/-! ## Cartridge switch, clamp, spindle, eject button (R18, R26, R29, R33) -/

/-- CARTRIDGE_SWITCH_CLOSES: LOADING from EMPTY, and ignored elsewhere (R18). -/
def switchCloses (hubClamped tabSet : Bool) (s : State) : State :=
  let s1 := { s with lines := { s.lines with
      switchClosed := true, hubClamped := hubClamped, tabSet := tabSet } }
  if s.cc.state = .empty then enterLoading s1 else s1

/-- CARTRIDGE_SWITCH_OPENS (R18, R26, R33). -/
def switchOpens (s : State) : State :=
  let s1 := { s with lines := { s.lines with switchClosed := false } }
  match s.cc.state with
  | .empty | .failed => s1
  | .loading =>
    enterCartState .empty
      (cancelLimit { s1 with outputs := { s1.outputs with clampCommand := false } })
  | .ejecting => enterEmpty s1
  | _ => enterFailed s1

/-- CLAMP_COMPLETE: SPINNING_UP from LOADING, and ignored elsewhere (R18). -/
def clampReported (tabSet : Bool) (s : State) : State :=
  let s1 := { s with lines := { s.lines with hubClamped := true, tabSet := tabSet } }
  if s.cc.state = .loading then clampDone (cancelLimit s1) else s1

/-- SPINDLE_STOPPED: EJECTING from SPINNING_DOWN, and ignored elsewhere (R33). The spindle then stays at rest until
the motor starts; with the motor on, an ignored report leaves nothing behind (log entry 20). -/
def spindleStops (s : State) : State :=
  let s1 := { s with lines := { s.lines with spindleAtRest := true } }
  if s.cc.state = .spinningDown then enterEjecting (cancelLimit s1)
  else if s.outputs.motorOn then s else s1

/-- EJECT_BUTTON: an EJECT with source BUTTON, ignored where an EJECT would be refused (R29). -/
def buttonPressed (s : State) : State :=
  match ejectObjection s with
  | some _ => s
  | none => startEject .button s

/-! ## Rotation (R10, R11, R12, R24, R111) -/

/-- The timer and the revolution counter at an index event (R10, R12, R19; order: log entry 12; the count at
lock: log entry 10). -/
def indexTimer (elapsed : Nat) (s : State) : State :=
  let s1 := passUntil elapsed s
  let s2 := { s1 with timer := { s1.timer with revolution := s1.timer.revolution + 1 } }
  let s3 := if s1.timer.indexSeen then
      judgePeriod s1.timer.elapsed { s2 with timer := { s2.timer with period := s1.timer.elapsed } }
    else s2
  let locked := s.cc.state == .spinningUp && s3.cc.state == .mounting
  { s3 with
    timer := { s3.timer with
      elapsed := 0, indexSeen := true
      revolution := if locked && Config.lockIndexCounted then 1 else s3.timer.revolution }
    pe := { s3.pe with settle := s3.pe.settle.map fun p => { p with wraps := p.wraps + 1 } } }

/-- The current pass does not lie on the last sector of the head track: an early index cuts it off (R11). -/
def cutByIndex (s : State) : Bool :=
  match s.pe.pass with
  | some c => c.op.addr.sector + 1 != sectorsOn s.pe.headTrack
  | none => false

/-- INDEX_EVENT: the timer's work, then the end of the sector and the mark of sector 0 (R10, R11, R111). -/
def indexArrives (elapsed : Nat) (found : Found) (s : State) : State :=
  sectorMark 0 0 (sectorEnds (cutByIndex s) found (indexTimer elapsed s))

/-- INDEX_LOSS in a locked state (R24). -/
def indexLost (s : State) : State :=
  if s.cc.state.isLocked then mechanismFault (passUntil 60000 s) else s

/-- The angle at which a sector of the reckoned track ends. -/
def endAngle (s : State) : Nat := startAngle (sectorsOn (reckonedTrack s)) (sectorUnderHead s + 1)

/-- The sector under the head is the last of its track: its end is the index event (R11). -/
def inLastSector (s : State) : Bool := sectorsOn (reckonedTrack s) ≤ sectorUnderHead s + 1

/-- SECTOR_END: the angle reaches the next sector's start; then R111 (R11, log entry 2). -/
def sectorPasses (found : Found) (s : State) : State :=
  if inLastSector s then s
  else
    sectorMark (sectorUnderHead s + 1) (endAngle s)
      (sectorEnds false found (passUntil (s.timer.reaches (endAngle s)) s))

/-! ## Moves (R121, R122) -/

/-- The seek part of the move is done (R121). -/
def seekIsDone (s : State) : State :=
  endMoveIfDone { s with pe := { s.pe with move := s.pe.move.map fun m => { m with seekDone := true } } }

/-- The flip part of the move is done (R121). -/
def flipIsDone (s : State) : State :=
  endMoveIfDone { s with pe := { s.pe with move := s.pe.move.map fun m => { m with flipDone := true } } }

/-- The retry target recorded at a first seek fault (R122). -/
def retryAfter (m : Move) (retry : Option Target) : Option Target :=
  match m.kind with
  | .target => some ⟨m.track, m.polarity⟩
  | .recalibrate => retry

/-- A seek fault of a move (R122). -/
def seekFaulted (m : Move) (s : State) : State :=
  if s.pe.seekFaults = 0 then
    let retry := retryAfter m s.pe.retry
    startRecalibrate ((retry.map Target.polarity).getD .erase)
      { s with pe := { s.pe with seekFaults := 1, retry := retry } }
  else mechanismFault s

/-- A report of the mechanism about the move under way; one for a cancelled command, or with no move under
way, is ignored (R121, R122). -/
def moveReport (elapsed : Nat) (cancelled : Bool) (act : Move → State → State) (s : State) : State :=
  match s.pe.state, s.pe.move with
  | .moving, some m => if cancelled then s else act m (passUntil elapsed s)
  | _, _ => s

/-- The move limit, in µs (R122). -/
def moveLimit : Nat := 100000

/-- MOVE_LIMIT_EXPIRY: a seek fault (R122). -/
def moveLimitExpires (s : State) : State :=
  match s.pe.state, s.pe.move with
  | .moving, some m => seekFaulted m (passToClock (m.startedAt + moveLimit) s)
  | _, _ => s

/-! ## Mechanism limits (R26, R33) -/

/-- The expiry of a mechanism limit, acted on while that limit runs (R26, log entry 22). -/
def limitExpires (k : LimitKind) (s : State) : State :=
  match s.cc.limit with
  | some l => if l.kind = k then enterFailed (passToClock l.deadline s) else s
  | none => s

/-! ## Time with no command waiting (log entry 1) -/

/-- A mechanism limit has reached its deadline. -/
def limitDue (s : State) : Bool :=
  match s.cc.limit with
  | some l => l.deadline ≤ s.clock
  | none => false

/-- A move has reached its limit (R122). -/
def moveDue (s : State) : Bool :=
  match s.pe.state, s.pe.move with
  | .moving, some m => m.startedAt + moveLimit ≤ s.clock
  | _, _ => false

/-- The next sector end is the next microsecond's, on a track where PE is at rest (R11). -/
def sectorEndDue (s : State) : Bool :=
  s.pe.state.onTrack && !inLastSector s && s.timer.reaches (endAngle s) ≤ s.timer.elapsed + 1

/-- MCI raises master clear: "> CLEAR" has been sent (R188). -/
def clearDue (s : State) : Bool := s.mci.clearing == .lineSent

/-- An event of the table is due at this instant: only its command moves time past it. -/
def eventDue (s : State) : Bool :=
  limitDue s || moveDue s || sectorEndDue s || clearDue s ||
    (s.cc.state.isLocked && 60000 ≤ s.timer.elapsed)

/-- One microsecond passes with no command waiting, unless an event is due (R10; DESIGN CHOICE, log
entry 1). -/
def idleTick (s : State) : State :=
  if eventDue s then s
  else { s with clock := s.clock + 1, timer := { s.timer with elapsed := s.timer.elapsed + 1 } }

/-! ## The meanings -/

def execCartridgeSwitchCloses (hubClamped tabSet : Bool) (s : State) : Host.Outcome State Fault Refusal :=
  .next (switchCloses hubClamped tabSet s)

def execCartridgeSwitchOpens (s : State) : Host.Outcome State Fault Refusal := .next (switchOpens s)

def execClampComplete (tabSet : Bool) (s : State) : Host.Outcome State Fault Refusal :=
  .next (clampReported tabSet s)

def execSpindleStopped (s : State) : Host.Outcome State Fault Refusal := .next (spindleStops s)

def execEjectButton (s : State) : Host.Outcome State Fault Refusal := .next (workArrival (buttonPressed s))

def execIndexEvent (elapsed : Nat) (found : Found) (s : State) : Host.Outcome State Fault Refusal :=
  .next (workArrival (indexArrives elapsed found s))

def execIndexLoss (s : State) : Host.Outcome State Fault Refusal := .next (indexLost s)

def execSectorEnd (found : Found) (s : State) : Host.Outcome State Fault Refusal :=
  .next (workArrival (sectorPasses found s))

def execSeekComplete (elapsed : Nat) (cancelled : Bool) (s : State) : Host.Outcome State Fault Refusal :=
  .next (moveReport elapsed cancelled (fun _ => seekIsDone) s)

def execPolaritySettled (elapsed : Nat) (cancelled : Bool) (s : State) :
    Host.Outcome State Fault Refusal :=
  .next (moveReport elapsed cancelled (fun _ => flipIsDone) s)

def execSeekFault (elapsed : Nat) (cancelled : Bool) (s : State) : Host.Outcome State Fault Refusal :=
  .next (moveReport elapsed cancelled seekFaulted s)

def execMoveLimitExpiry (s : State) : Host.Outcome State Fault Refusal := .next (moveLimitExpires s)

def execClampLimitExpiry (s : State) : Host.Outcome State Fault Refusal := .next (limitExpires .clamp s)

def execLockLimitExpiry (s : State) : Host.Outcome State Fault Refusal := .next (limitExpires .lock s)

def execStopLimitExpiry (s : State) : Host.Outcome State Fault Refusal := .next (limitExpires .stop s)

def execSwitchLimitExpiry (s : State) : Host.Outcome State Fault Refusal := .next (limitExpires .switch s)

def execPowerUpReset (found : MechanismFound) (strapHigh : Bool) (s : State) :
    Host.Outcome State Fault Refusal :=
  .next (resetPart found strapHigh s)

def execMasterClear (found : MechanismFound) (s : State) : Host.Outcome State Fault Refusal :=
  .next (resetPart found s.lines.strapHigh s)

def execConsoleMasterClear (found : MechanismFound) (s : State) : Host.Outcome State Fault Refusal :=
  .next (if s.mci.clearing = .lineSent then resetPart found s.lines.strapHigh s else s)

end Sys2Proof.Machine
end

