-- ==== Sys2Proof/Machine/Dispatch.lean ====
section
/-! DEFINITION. The one dispatch from a command to its meaning. -/

namespace Sys2Proof.Machine

def exec (i : Instr) (s : State) : Host.Outcome State Fault Refusal :=
  match i with
  | .attach ch f => Sys2Proof.Machine.execAttach ch f s
  | .detach ch f => Sys2Proof.Machine.execDetach ch f s
  | .inquire ch f => Sys2Proof.Machine.execInquire ch f s
  | .setEvents ch f => Sys2Proof.Machine.execSetEvents ch f s
  | .clearEvents ch f => Sys2Proof.Machine.execClearEvents ch f s
  | .read ch f => Sys2Proof.Machine.execRead ch f s
  | .write ch f => Sys2Proof.Machine.execWrite ch f s
  | .data ch f => Sys2Proof.Machine.execData ch f s
  | .flush ch f => Sys2Proof.Machine.execFlush ch f s
  | .discard ch f => Sys2Proof.Machine.execDiscard ch f s
  | .eject ch f => Sys2Proof.Machine.execEject ch f s
  | .initialise ch f => Sys2Proof.Machine.execInitialise ch f s
  | .openStream ch f => Sys2Proof.Machine.execOpenStream ch f s
  | .closeStream ch f => Sys2Proof.Machine.execCloseStream ch f s
  | .lock ch f => Sys2Proof.Machine.execLock ch f s
  | .unlock ch f => Sys2Proof.Machine.execUnlock ch f s
  | .postMail ch f => Sys2Proof.Machine.execPostMail ch f s
  | .setDrive ch f => Sys2Proof.Machine.execSetDrive ch f s
  | .pullReport ch f => Sys2Proof.Machine.execPullReport ch f s
  | .pullData ch f => Sys2Proof.Machine.execPullData ch f s
  | .pullStream ch f => Sys2Proof.Machine.execPullStream ch f s
  | .pullMail ch f => Sys2Proof.Machine.execPullMail ch f s
  | .pullEvents ch f => Sys2Proof.Machine.execPullEvents ch f s
  | .pullFaults ch f => Sys2Proof.Machine.execPullFaults ch f s
  | .malformedFrame ch m => Sys2Proof.Machine.execMalformedFrame ch m s
  | .linkReset ch => Sys2Proof.Machine.execLinkReset ch s
  | .linkResetRelease ch midFrame => Sys2Proof.Machine.execLinkResetRelease ch midFrame s
  | .powerUpReset found strapHigh => Sys2Proof.Machine.execPowerUpReset found strapHigh s
  | .masterClear found => Sys2Proof.Machine.execMasterClear found s
  | .cartridgeSwitchCloses hubClamped tabSet => Sys2Proof.Machine.execCartridgeSwitchCloses hubClamped tabSet s
  | .cartridgeSwitchOpens => Sys2Proof.Machine.execCartridgeSwitchOpens s
  | .clampComplete tabSet => Sys2Proof.Machine.execClampComplete tabSet s
  | .spindleStopped => Sys2Proof.Machine.execSpindleStopped s
  | .ejectButton => Sys2Proof.Machine.execEjectButton s
  | .indexEvent elapsed found => Sys2Proof.Machine.execIndexEvent elapsed found s
  | .indexLoss => Sys2Proof.Machine.execIndexLoss s
  | .sectorEnd found => Sys2Proof.Machine.execSectorEnd found s
  | .seekComplete elapsed cancelled => Sys2Proof.Machine.execSeekComplete elapsed cancelled s
  | .polaritySettled elapsed cancelled => Sys2Proof.Machine.execPolaritySettled elapsed cancelled s
  | .seekFault elapsed cancelled => Sys2Proof.Machine.execSeekFault elapsed cancelled s
  | .moveLimitExpiry => Sys2Proof.Machine.execMoveLimitExpiry s
  | .clampLimitExpiry => Sys2Proof.Machine.execClampLimitExpiry s
  | .lockLimitExpiry => Sys2Proof.Machine.execLockLimitExpiry s
  | .stopLimitExpiry => Sys2Proof.Machine.execStopLimitExpiry s
  | .switchLimitExpiry => Sys2Proof.Machine.execSwitchLimitExpiry s
  | .consoleCharacter c => Sys2Proof.Machine.execConsoleCharacter c s
  | .selectDisplay fields => Sys2Proof.Machine.execSelectDisplay fields s
  | .nextDisplay fields => Sys2Proof.Machine.execNextDisplay fields s
  | .display fields => Sys2Proof.Machine.execDisplay fields s
  | .hold fields => Sys2Proof.Machine.execHold fields s
  | .go fields => Sys2Proof.Machine.execGo fields s
  | .step fields => Sys2Proof.Machine.execStep fields s
  | .watch fields => Sys2Proof.Machine.execWatch fields s
  | .clearWatch fields => Sys2Proof.Machine.execClearWatch fields s
  | .settingEntry fields => Sys2Proof.Machine.execSettingEntry fields s
  | .consoleClear fields => Sys2Proof.Machine.execConsoleClear fields s
  | .consoleLineSent => Sys2Proof.Machine.execConsoleLineSent s
  | .consoleMasterClear found => Sys2Proof.Machine.execConsoleMasterClear found s

end Sys2Proof.Machine
end

