-- ==== Sys2Proof/Safety.lean ====
section
/-! DEFINITION. What a safe run keeps, and the words the statements use. -/

namespace Sys2Proof.Machine

/-! ## What every step keeps -/

/-- ATTN of each link is driven exactly while R173 says. -/
def AttnJudged (s : State) : Prop := ∀ ch, (s.links.get ch).attn = (s.links.get ch).attnDue

/-- IDLE: "at lock, nothing due" (R107, R119). -/
def IdleHasNothingDue (s : State) : Prop := s.pe.state = .idle → s.pe.due = []

/-- A lock entry's fields lie in the ranges of R148. -/
def LockEntry.InRange (e : LockEntry) : Prop :=
  1 ≤ e.count ∧ e.count ≤ 65535 ∧ e.first + e.count ≤ lbaCount ∧ e.handle ≤ 15

/-- The Extent Lock Table as R148 requires it. -/
structure LocksWellFormed (locks : List LockEntry) : Prop where
  inRange  : ∀ e ∈ locks, e.InRange
  /-- in ascending order of first LBA, and pairwise disjoint -/
  ordered  : locks.Pairwise fun x y => x.first + x.count ≤ y.first
  handles  : (locks.map LockEntry.handle).Nodup
  /-- at most 8 belong to one channel -/
  owned    : ∀ ch, locks.countP (fun e => e.owner == ch) ≤ 8

/-- Outstanding queued requests plus unread reports number at most 32 on each channel (R166). -/
def LoadBounded (s : State) : Prop := ∀ ch, (s.links.get ch).load ≤ 32

/-- The Drive Settings lie in their ranges (R147). -/
def Settings.InRange (x : Settings) : Prop :=
  x.readRetries ≤ 7 ∧ x.reassignLimit ≤ 3 ∧ 8 ≤ x.dirtyLimit ∧ x.dirtyLimit ≤ 64

/-- What a detached link holds (R163, R176). -/
def Link.Bare (l : Link) : Prop :=
  l.outstanding = [] ∧ l.reports = [] ∧ l.flags = 0 ∧ l.mask = 0 ∧ l.style = .pullClear ∧
    l.dataPhase = none

/-- A detached link holds nothing of an attachment (R163, R174, R176). -/
def DetachedBare (s : State) : Prop := ∀ ch, (s.links.get ch).attached = false → (s.links.get ch).Bare

/-- The remap entries as R38 and R39 require them: in table order, no spare used twice, no home moved twice,
each spare in the spare band of a zone. -/
structure EntriesSound (entries : List RemapEntry) : Prop where
  ordered : entries.Pairwise fun x y => x.precedes y = true
  spares  : (entries.map fun e => (e.zone, e.index)).Nodup
  homes   : (entries.filterMap RemapEntry.home?).Nodup
  inBand  : ∀ e ∈ entries, e.zone < 16 ∧ e.index < sparesIn e.zone

/-- An entry that a record of the image can hold under a header generation (R38, R52). -/
structure RemapEntry.Recordable (e : RemapEntry) (gmax : Nat) : Prop where
  zone       : e.zone < 16
  index      : e.index < sparesIn e.zone
  generation : 1 ≤ e.generation ∧ e.generation ≤ gmax
  /-- an ACTIVE entry's home is a user address of its spare's zone -/
  home       : ∀ h, e.kind = .active h → h.isUser = true ∧ zoneOfTrack h.track = e.zone

/-- What R131 and R132 say of a stream context in each state. -/
def Stream.StateFits (t : Stream) : Prop :=
  match t.state with
  | .closed => t = Stream.closed
  | .opened =>
    t.refs.map StreamRef.position = List.range' t.deliveryCursor (t.prefetchCursor - t.deliveryCursor)
  | .ended => t.refs = [] ∧ t.deliveryCursor = t.positions
  | .faulted =>
    ∃ p, t.faultPosition = some p ∧ p < t.positions ∧ p ≤ t.prefetchCursor ∧ t.deliveryCursor ≤ p + 1 ∧
      t.refs.map StreamRef.position = List.range' t.deliveryCursor (p - t.deliveryCursor)

/-- The laws of a stream context (R131, R133): its cursors in order, level plus in flight within the depth, one
reference for each prefetched position not yet delivered, in order. -/
structure Stream.InStep (t : Stream) : Prop where
  behind : t.deliveryCursor ≤ t.prefetchCursor
  within : t.prefetchCursor ≤ t.positions
  depth  : t.level + t.inFlight ≤ t.depth
  fits   : t.StateFits

/-- No mount read is due or under way (R21). -/
def MountQuiet (s : State) : Prop :=
  (∀ op ∈ s.pe.due, op.owner.isMount = false) ∧ (∀ c, s.pe.pass = some c → c.op.owner.isMount = false)

/-- The mechanism limit that runs in a cartridge state (R18, R20, R25, R33). -/
def limitOf : CartState → Option LimitKind
  | .loading => some .clamp
  | .spinningUp | .recovering => some .lock
  | .spinningDown => some .stop
  | .ejecting => some .switch
  | _ => none

/-- The cartridge state, and in RECOVERING the state to return to (R16, R25). -/
def State.heldState (s : State) : CartState :=
  match s.cc.prior with
  | some p => p
  | none => s.cc.state

/-- The controller's record and the engine agree with the cartridge state (R16, R17, R33, R107). -/
structure CartSound (s : State) : Prop where
  limit       : s.cc.limit.map MechLimit.kind = limitOf s.cc.state
  engine      : s.pe.state = .stopped ↔ s.cc.state.isLocked = false
  pass        : s.pe.state = .stopped → s.pe.pass = none
  prior       : s.cc.prior.isSome = true ↔ s.cc.state = .recovering
  priorLocked : ∀ p, s.cc.prior = some p → p.isLocked = true
  initialise  : s.cc.initialise.isSome = true → s.heldState = .unformatted
  mount       : MountQuiet s ∨ s.heldState = .mounting ∨ s.cc.state = .failed

/-! ## Words of the statements -/

/-- The state with one field of one link changed: the response sent last. -/
def State.answered (s : State) (ch : Channel) (tag : Byte) (body : ResponseBody) : State :=
  { s with links := s.links.set ch { s.links.get ch with response := some ⟨tag, body⟩ } }

/-- The state with one link's record replaced. -/
def State.withLink (s : State) (ch : Channel) (l : Link) : State := { s with links := s.links.set ch l }

/-- The buffers a link's write reservation holds (R73). -/
def Link.reservedBuffers (l : Link) : List Nat :=
  match l.dataPhase with | some d => d.buffers | none => []

/-- What the teardown of a detach leaves, by the rows of the table of R176, before the freeing event that
follows it. -/
def State.tornDown (s : State) (ch : Channel) : State :=
  { s with
    links := s.links.set ch
      { s.links.get ch with
        attached := false, outstanding := [], reports := [], flags := 0, mask := 0, style := .pullClear,
        dataPhase := none, attn := false }
    sc := { s.sc with
      freeList := s.sc.freeList ++ (s.links.get ch).reservedBuffers
      reads := s.sc.reads.filter fun r => r.channel != ch
      wants := s.sc.wants.set ch none }
    cmu := { s.cmu with
      waiters := s.cmu.waiters.filter fun w => w.channel != ch
      faults := s.cmu.faults.set ch ⟨[], false⟩ }
    su := s.su.set ch Stream.closed
    cu := { s.cu with
      locks := s.cu.locks.filter fun e => e.owner != ch
      inbox := s.cu.inbox.set ch { s.cu.inbox.get ch with full := false, overrun := false } } }

/-- A link after a notice, its ATTN judged: an attached link sets the flag, a detached one discards the notice
(R170, R173). -/
def Link.told (e : EventFlag) (l : Link) : Link :=
  if l.attached then
    { l with flags := l.flags ||| e.bit, attn := (l.flags ||| e.bit) &&& l.mask != 0 }
  else l

/-- Both links told. -/
def State.told (e : EventFlag) (s : State) : State :=
  { s with links := ⟨s.links.a.told e, s.links.b.told e⟩ }

/-- The row of a console command letter (R180). -/
def consoleCommand (letter : ConsoleLetter) (fields : Fields) : Instr :=
  match letter with
  | .s => .selectDisplay fields | .n => .nextDisplay fields | .d => .display fields | .h => .hold fields
  | .g => .go fields | .t => .step fields | .w => .watch fields | .c => .clearWatch fields
  | .e => .settingEntry fields | .question => .consoleClear fields

/-- The console after an ended line is answered (R179 to R181): the line is empty, and the response joins the
output queue. -/
def Console.answered (r : Reply) (m : Console) : Console :=
  { m with line := [], overlong := false, queue := m.queue ++ [.reply r] }

/-- The console's input line is judged when it ends: no clear is under way, the line is not marked overlong,
and its answer has room (R179, R181, R188). -/
structure Console.Ready (m : Console) : Prop where
  noClear : m.clearing = .none
  whole   : m.overlong = false
  room    : m.queue.length < 8

/-- The link takes frames, and no write is in its data phase (R164, R175). -/
structure Listens (s : State) (ch : Channel) : Prop where
  released : (s.links.get ch).resetAsserted = false
  noTail   : (s.links.get ch).discardTail = false
  noPhase  : (s.links.get ch).dataPhase = none

/-- A run's ordinary states: what every step keeps of ATTN and of an idle engine. -/
structure Steady (s : State) : Prop where
  attn : AttnJudged s
  idle : IdleHasNothingDue s

/-- An attached link takes a well-formed frame of a kind in a steady state. -/
structure Takes (s : State) (ch : Channel) (k : FrameKind) (f : Frame) : Prop where
  listens    : Listens s ch
  attached   : (s.links.get ch).attached = true
  wellFormed : frameWellFormed k f = true
  steady     : Steady s

/-- A queued request passes the link's checks of tag and room, and the gate (R164, steps 5 to 7). -/
structure Admitted (s : State) (ch : Channel) (k : FrameKind) (f : Frame) : Prop where
  takes  : Takes s ch k f
  tag    : tagInUse s ch f.tag = false
  room   : (s.links.get ch).load < 32
  gate   : gate k s = none

end Sys2Proof.Machine
end

