-- ==== Sys2Proof/Certificates/Slice0/Obligations.lean ====
section
/-! DEFINITION. The statements for the provers. Each says what the commands or the whole part do, from the
numbered rules of spec/; a clause that rests on a choice of the model names its log entry. -/

open Sys2Proof Sys2Proof.Machine

/-! ## The step -/

/-- A step runs the command at the front of the queue on the rest of the state (the row's queue). With no command
waiting a microsecond passes, unless an event of the table is due at this instant: a limit at its deadline, a move at
its 100 ms, a sector end on a track where the engine is at rest, the console's clear, or 60 ms without an index in a
locked state. What a step does on an empty queue is the model's choice, log entry 1. -/
def Obligations.StepRunsTheFrontCommand : Prop :=
  (∀ (c : Instr) (s : State), step { s with pending := c :: s.pending } = exec c s) ∧
  ∀ s : State,
    (s.pending = [] →
      step s = .next (if eventDue s then s else
        { s with clock := s.clock + 1, timer := { s.timer with elapsed := s.timer.elapsed + 1 } })) ∧
    (eventDue s = true ↔
      (∃ l, s.cc.limit = some l ∧ l.deadline ≤ s.clock) ∨
      (s.pe.state = .moving ∧ ∃ m, s.pe.move = some m ∧ m.startedAt + 100000 ≤ s.clock) ∨
      (s.pe.state ∈ [EngineState.idle, .dwelling, .held] ∧ inLastSector s = false ∧
        s.timer.reaches (endAngle s) ≤ s.timer.elapsed + 1) ∨
      s.mci.clearing = .lineSent ∨ (s.cc.state.isLocked = true ∧ 60000 ≤ s.timer.elapsed))

/-- Every command has an effect on every state (log entry 27): it answers a next state, leaves the commands
that wait behind it alone, and never turns the clock back. -/
def Obligations.EveryCommandCompletesAndLeavesTheQueue : Prop :=
  ∀ (c : Instr) (s : State), ∃ t, exec c s = .next t ∧ t.pending = s.pending ∧ s.clock ≤ t.clock

/-! ## What every step keeps -/

/-- R173: ATTN is driven exactly while the channel is attached with a flag both set and enabled. R107, R119:
an engine in IDLE has nothing due. -/
def Obligations.EveryStepKeepsAttnJudgedAndIdleEmpty : Prop :=
  ∀ s t : State, Steady s → step s = .next t → Steady t

/-- R166: outstanding requests plus unread reports number at most 32. R163, R176: a detached link holds nothing
of an attachment. R148: the lock ranges stay in order, disjoint, named by distinct handles, at most 8 to a
channel. R147: the Drive Settings stay in their ranges. -/
def Obligations.EveryStepKeepsLinksLocksAndSettingsBounded : Prop :=
  ∀ s t : State,
    LoadBounded s ∧ DetachedBare s ∧ LocksWellFormed s.cu.locks ∧ s.cu.settings.InRange →
    step s = .next t →
    LoadBounded t ∧ DetachedBare t ∧ LocksWellFormed t.cu.locks ∧ t.cu.settings.InRange

/-- R38, R39: the remap entries stay in table order, no spare used twice, no home moved twice, each spare in the
spare band of a zone. -/
def Obligations.EveryStepKeepsTheRemapEntriesSound : Prop :=
  ∀ s t : State, EntriesSound s.rmt.entries → step s = .next t → EntriesSound t.rmt.entries

/-- R131 to R133: both stream contexts keep their cursors in order, hold no more than the depth, and hold one
reference for each prefetched position not yet delivered. -/
def Obligations.EveryStepKeepsTheStreamsInStep : Prop :=
  ∀ s t : State, (∀ ch, (s.su.get ch).InStep) → step s = .next t → ∀ ch, (t.su.get ch).InStep

/-- R16, R17, R33, R35, R107: the mechanism limit, the prior state, the initialise request, the mount reads and
the engine agree with the cartridge state. -/
def Obligations.EveryStepKeepsTheControllerSound : Prop :=
  ∀ s t : State, CartSound s → step s = .next t → CartSound t

/-- The state after reset meets every law that the steps keep (R36, R37, R106, R131, R147, R163). -/
def Obligations.ResetMeetsTheLawsThatStepsKeep : Prop :=
  Steady State.reset ∧ LoadBounded State.reset ∧ DetachedBare State.reset ∧
    LocksWellFormed State.reset.cu.locks ∧ State.reset.cu.settings.InRange ∧
    EntriesSound State.reset.rmt.entries ∧ (∀ ch, (State.reset.su.get ch).InStep) ∧ CartSound State.reset

/-! ## Addresses, rotation and cost -/

/-- R5, R7: every LBA has a user address for its home, and every user address (t, s) in zone z with index k is
the home of exactly one LBA, B(z) + k × S(z) + s. R9: every spare index of a zone has a spare address, and every
spare address (t, s) in zone z is exactly one spare index, (k − 1,240) × S(z) + s of zone z. -/
def Obligations.HomeAndSpareAddressesAreBijections : Prop :=
  (∀ lba, lba < lbaCount → (homeOf lba).isUser = true) ∧
  (∀ p : Phys, p.isUser = true →
    ∀ lba, (lba < lbaCount ∧ homeOf lba = p) ↔
      lba = firstLba ((p.track - 2) / 1250) +
        ((p.track - 2) % 1250) * (29 - (p.track - 2) / 1250) + p.sector) ∧
  (∀ z j, z < 16 → j < 10 * (29 - z) → (spareAt z j).isSpare = true) ∧
  ∀ p : Phys, p.isSpare = true →
    ∀ z j, (z < 16 ∧ j < 10 * (29 - z) ∧ spareAt z j = p) ↔
      (z = (p.track - 2) / 1250 ∧
        j = ((p.track - 2) % 1250 - 1240) * (29 - (p.track - 2) / 1250) + p.sector)

/-- R10: the angle is 0 at an index event, and else the elapsed time in units of the period, held at 4,095. R11: at
any angle the sector under the head is the one whose bounds hold that angle. R13: a seek takes nothing to the same
track and 256 units and a quarter of the distance, rounded up, to any other; a flip takes 512 beside it. R15: the cost
lies between m + 16 and m + 4,111, and that much rotation from the present angle brings the candidate's start. -/
def Obligations.SectorsAndCostsFollowTheAngle : Prop :=
  (∀ t : RotationTimer,
    (t.elapsed = 0 → t.angle = 0) ∧ (t.period ≠ 0 → t.angle = min (t.elapsed * 4096 / t.period) 4095) ∧
      t.angle ≤ 4095) ∧
  (seekTime 0 = 0 ∧ (∀ d, 1 ≤ d → seekTime d = 256 + (d + 3) / 4) ∧
    ∀ d, moveTime d false = seekTime d ∧ moveTime d true = max (seekTime d) 512) ∧
  (∀ n a, 1 ≤ n → a < 4096 →
    sectorAtAngle n a < n ∧ sectorAtAngle n a * 4096 / n ≤ a ∧ a < (sectorAtAngle n a + 1) * 4096 / n) ∧
  ∀ a m θ, m + 16 ≤ accessCost a m θ ∧ accessCost a m θ ≤ m + 4111 ∧
    (a + accessCost a m θ) % 4096 = θ % 4096

/-! ## The table image -/

/-- R45, R52, R192, R193: a copy that holds the image of a sound table is valid, and the mount reads from it
exactly the generation and the entries that the flush wrote. -/
def Obligations.TableImagesRoundTrip : Prop :=
  ∀ (gen : Nat) (entries : List RemapEntry), 1 ≤ gen → gen ≤ maxGeneration → entries.length ≤ 3440 →
    EntriesSound entries → (∀ e ∈ entries, e.Recordable gen) →
    decodeCopy (tableImage gen entries) = some (gen, entries)

/-- R52, R53: the mount loads the valid copy of the higher generation, copy A where they are equal, and the one
valid copy where the other has a sector not GOOD; all sectors BLANK is UNFORMATTED, and no copy whole with some
sector not BLANK is UNUSABLE. -/
def Obligations.TheMountLoadsTheNewestValidCopy : Prop :=
  ∀ (s : State) (g h : Nat) (x y : List RemapEntry),
    let sound := fun (gen : Nat) (entries : List RemapEntry) =>
      1 ≤ gen ∧ gen ≤ maxGeneration ∧ entries.length ≤ 3440 ∧ EntriesSound entries ∧
        ∀ e ∈ entries, e.Recordable gen
    let outcome := fun (j : Nat) => (s.cc.mount[j]?).bind MountSector.outcome
    let goodA := ∀ j < 28, outcome j = some .good
    let goodB := ∀ j < 28, outcome (28 + j) = some .good
    let holdsA := sound g x ∧ s.rmt.image = imageArea (tableImage g x)
    let holdsB := sound h y ∧ s.rmt.assemblyB = imageArea (tableImage h y)
    (goodA → goodB → holdsA → holdsB → mountChoice s = if g < h then .load h y else .load g x) ∧
    (goodA → ¬ goodB → holdsA → mountChoice s = .load g x) ∧
    (¬ goodA → goodB → holdsB → mountChoice s = .load h y) ∧
    ((∀ j < 56, outcome j = some .blank) → mountChoice s = .unformatted) ∧
    (¬ goodA → ¬ goodB → (∃ j < 56, outcome j ≠ some .blank) → mountChoice s = .unusable)

/-- R21: a mount read GOOD is placed in its copy's area, one UNREADABLE is counted and above the read-retries
setting resolved; a resolved sector is no longer due. R22: the 56th resolved ends the mount: READY, READ_ONLY with
the tab, UNFORMATTED or UNUSABLE, with the table loaded or not. -/
def Obligations.MountReadsAreResolvedAndTheLastEndsTheMount : Prop :=
  ∀ (c : TableCopy) (i : Nat) (s : State), i < 28 → (mountRecord c i s).outcome = none →
    let retries := (mountRecord c i s).retries
    let recorded := fun (r : MountSector) (t : State) =>
      { t with cc := { t.cc with mount := t.cc.mount.setIfInBounds (mountIndex c i) r } }
    let resolved := fun (n : Nat) (o : MountOutcome) (t : State) =>
      recorded ⟨n, some o⟩
        { t with pe := { t.pe with
            due := t.pe.due.filter fun op => op.owner != .mount c i
            pass := t.pe.pass.map fun p => if p.op.owner = .mount c i then { p with withdrawn := true } else p } }
    let placed := fun (p : Payload) =>
      match c with
      | .a => { s with rmt := { s.rmt with image := s.rmt.image.setIfInBounds i (some p) } }
      | .b => { s with rmt := { s.rmt with assemblyB := s.rmt.assemblyB.setIfInBounds i (some p) } }
    let outcome := fun (j : Nat) => (s.cc.mount[j]?).bind MountSector.outcome
    (retries < s.cu.settings.readRetries →
      mountDelivered c i .unreadable s = recorded ⟨retries + 1, none⟩ s) ∧
    ((∃ j < 56, j ≠ mountIndex c i ∧ outcome j = none) →
      mountDelivered c i .blank s = resolved retries .blank s ∧
      (∀ p n, mountDelivered c i (.good p n) s = resolved retries .good (placed p)) ∧
      (s.cu.settings.readRetries ≤ retries →
        mountDelivered c i .unreadable s = resolved (retries + 1) .unreadable s)) ∧
    ((∀ j < 56, j ≠ mountIndex c i → outcome j ≠ none) → AttnJudged s →
      let ended := fun (t : State) (st : CartState) (table : RemapTable) =>
        State.told .cartridge
          { t with
            cc := { t.cc with state := st, mount := clearedMount }
            rmt := table
            pe := { t.pe with
              due := t.pe.due.filter fun op => !op.owner.isMount
              pass := t.pe.pass.map fun p => if p.op.owner.isMount then { p with withdrawn := true } else p } }
      ∀ p n, let last := resolved retries .good (placed p)
        (∀ g x, mountChoice last = .load g x →
          mountDelivered c i (.good p n) s =
            ended last (if s.cc.tab then .readOnly else .ready)
              { loaded := true, entries := x, state := .clean, changedAgain := false, fault := false
                generation := g, verifiedGen := g, progress := none, image := emptyArea
                assemblyB := emptyArea }) ∧
        (mountChoice last = .unusable →
          mountDelivered c i (.good p n) s = ended last .unusable RemapTable.unloaded) ∧
        (mountChoice (resolved retries .blank s) = .unformatted →
          mountDelivered c i .blank s =
            ended (resolved retries .blank s) .unformatted RemapTable.unloaded))

/-! ## The judgement of frames (Section 9) -/

/-- R160, R164 to R166: outside a data phase the first step of the link's table that refuses decides the
response, for every kind of frame, and the refusal changes nothing but the response. -/
def Obligations.TheLinkRefusesFramesInTheOrderOfItsTable : Prop :=
  ∀ (k : FrameKind) (ch : Channel) (f : Frame) (s : State), Listens s ch → Steady s →
    let l := s.links.get ch
    let queued := k ∈ [FrameKind.read, .write, .flush, .eject, .initialise]
    let tagTaken := (∃ o ∈ l.outstanding, o.tag = f.tag) ∨ ∃ r ∈ s.sc.reads, r.channel = ch ∧ r.tag = f.tag
    let refusedFor := fun (r : RefusalReason) =>
      exec (frameCommand k ch f) s = .next (s.answered ch f.tag (.refused r))
    (frameWellFormed k f = false → refusedFor .frameError) ∧
    (frameWellFormed k f = true →
      (l.attached = false → k ∉ [FrameKind.attach, .inquire, .pullReport, .pullEvents] →
        refusedFor .notAttached) ∧
      (l.attached = true →
        (k = .data → refusedFor .sequence) ∧
        (queued → tagTaken → refusedFor .tagInUse) ∧
        (queued → ¬ tagTaken → 32 ≤ l.outstanding.length + l.reports.length → refusedFor .queueFull) ∧
        ((queued → ¬ tagTaken ∧ l.outstanding.length + l.reports.length < 32) →
          ∀ r, gate k s = some r → refusedFor r)))

/-- R74, R164 step 1: in a data phase any frame but a full DATA frame abandons the write. Its buffers return in
reservation order, its slots are free, its request leaves the outstanding set without a report; then the freeing
event, the drain event and the refusal. -/
def Obligations.AFrameInADataPhaseAbandonsTheWrite : Prop :=
  ∀ (ch : Channel) (s : State) (d : DataPhase), AttnJudged s → (s.links.get ch).resetAsserted = false →
    (s.links.get ch).discardTail = false → (s.links.get ch).dataPhase = some d →
    let l := s.links.get ch
    let dropped : State :=
      { s with
        links := s.links.set ch { l with dataPhase := none, outstanding := l.outstanding.erase ⟨d.tag, .write⟩ }
        sc := { s.sc with freeList := s.sc.freeList ++ d.buffers } }
    let refusedWith := fun (c : Instr) (tag : Byte) (r : RefusalReason) =>
      exec c s = .next (workArrival (refuse ch tag r (drainCheck (freeingEvent dropped))))
    (∀ k f, k ≠ .data → refusedWith (frameCommand k ch f) f.tag .sequence) ∧
    (∀ f, isFullData f = false → refusedWith (.data ch f) f.tag .frameError) ∧
    (∀ code f, refusedWith (.malformedFrame ch (.unknownKind code f)) f.tag .sequence) ∧
    refusedWith (.malformedFrame ch .shortHeader) 0 .frameError

/-- R189: the kind code of received words names the frame, a code outside the table an unknown kind. R160: a
frame of no known kind is refused FRAME_ERROR with its own tag, one that ends in its header with tag 0. R175: while
link reset is asserted, and for the rest of a frame begun before its release, every frame is discarded without a
response. -/
def Obligations.ReceivedWordsNameTheirFrameAndUnknownKindsAreRefused : Prop :=
  (∀ (ch : Channel) (f : Frame),
    let table := [(FrameKind.attach, (0x01 : Byte)), (.detach, 0x02), (.inquire, 0x03), (.setEvents, 0x04),
      (.clearEvents, 0x05), (.read, 0x10), (.write, 0x11), (.data, 0x12), (.flush, 0x13), (.discard, 0x14),
      (.eject, 0x18), (.initialise, 0x19), (.openStream, 0x20), (.closeStream, 0x21), (.lock, 0x28),
      (.unlock, 0x29), (.postMail, 0x2a), (.setDrive, 0x2b), (.pullReport, 0x30), (.pullData, 0x31),
      (.pullStream, 0x32), (.pullMail, 0x33), (.pullEvents, 0x34), (.pullFaults, 0x35)]
    (∀ row ∈ table, commandOfWords ch ((row.2 ++ f.tag) :: f.length :: f.words) = frameCommand row.1 ch f) ∧
    (∀ code : Byte, (∀ row ∈ table, row.2 ≠ code) →
      commandOfWords ch ((code ++ f.tag) :: f.length :: f.words) =
        .malformedFrame ch (.unknownKind code f)) ∧
    ∀ words : List Word16, words.length < 2 →
      commandOfWords ch words = .malformedFrame ch .shortHeader) ∧
  (∀ (ch : Channel) (s : State), Listens s ch → Steady s →
    (∀ code f, exec (.malformedFrame ch (.unknownKind code f)) s =
      .next (s.answered ch f.tag (.refused .frameError))) ∧
    exec (.malformedFrame ch .shortHeader) s = .next (s.answered ch 0 (.refused .frameError))) ∧
  ∀ (ch : Channel) (s : State), Steady s →
    ((s.links.get ch).resetAsserted = true ∨ (s.links.get ch).discardTail = true) →
    let discarded := s.withLink ch
      { s.links.get ch with
        response := none
        discardTail := (s.links.get ch).resetAsserted && (s.links.get ch).discardTail }
    (∀ k f, exec (frameCommand k ch f) s = .next discarded) ∧
    ∀ m, exec (.malformedFrame ch m) s = .next discarded

/-- R27: the columns of the gate that the cartridge state alone decides; the kinds that are not gated pass. R28,
R32: an EJECT is let through in UNUSABLE and FAILED whatever stands, and in READY, READ_ONLY and UNFORMATTED exactly
with no lock, both streams CLOSED and no INITIALISE, else refused IN_USE or BUSY; elsewhere it is refused BUSY, and in
EMPTY NOT_READY. R34: an INITIALISE is let through in an UNFORMATTED writable cartridge without one, else refused
WRITE_PROTECTED or BUSY, and in READY with no work, lock or stream, else refused IN_USE; elsewhere it is refused
NOT_READY, and in FAILED MEDIUM_FAULT. -/
def Obligations.TheGateFollowsTheCartridgeState : Prop :=
  ∀ s : State,
    (∀ row ∈ [(CartState.empty, some RefusalReason.notReady, some RefusalReason.notReady, some RefusalReason.notReady),
        (.loading, some .notReady, some .notReady, some .notReady),
        (.spinningUp, some .notReady, some .notReady, some .notReady),
        (.mounting, some .notReady, some .notReady, some .notReady),
        (.ready, none, none, none),
        (.readOnly, none, some .writeProtected, none),
        (.unformatted, some .notFormatted, some .notFormatted, some .notFormatted),
        (.unusable, some .mediumFault, some .mediumFault, some .mediumFault),
        (.draining, none, some .notReady, some .notReady),
        (.spinningDown, some .notReady, some .notReady, some .notReady),
        (.ejecting, some .notReady, some .notReady, some .notReady),
        (.recovering, some .notReady, some .notReady, some .notReady),
        (.failed, some .mediumFault, some .mediumFault, some .mediumFault)],
      s.cc.state = row.1 →
        gate .read s = row.2.1 ∧ gate .write s = row.2.2.1 ∧ gate .flush s = row.2.2.2 ∧
        gate .openStream s = row.2.2.2 ∧ gate .lock s = row.2.2.2) ∧
    (∀ k, k ∉ [FrameKind.read, .write, .flush, .openStream, .lock, .eject, .initialise] → gate k s = none) ∧
    let closed := s.su.a.state = .closed ∧ s.su.b.state = .closed
    (gate .eject s = none ↔
      s.cc.state = .unusable ∨ s.cc.state = .failed ∨
      (s.cc.state ∈ [CartState.ready, .readOnly, .unformatted] ∧ s.cu.locks = [] ∧ closed ∧
        s.cc.initialise = none)) ∧
    (s.cc.state ∈ [CartState.ready, .readOnly, .unformatted] →
      (s.cu.locks ≠ [] ∨ ¬ closed → gate .eject s = some .inUse) ∧
      (s.cu.locks = [] → closed → s.cc.initialise ≠ none → gate .eject s = some .busy)) ∧
    (s.cc.state = .empty → gate .eject s = some .notReady) ∧
    (s.cc.state ∈ [CartState.loading, .spinningUp, .mounting, .draining, .spinningDown, .ejecting, .recovering] →
      gate .eject s = some .busy) ∧
    let unused := s.cmu.tasks = [] ∧ s.cmu.tableTasks = [] ∧
      (∀ e ∈ s.sc.entries, e.state ≠ .committing ∧ e.state ≠ .committingNewer) ∧ s.cu.locks = [] ∧
      closed ∧ s.links.a.dataPhase = none ∧ s.links.b.dataPhase = none
    (gate .initialise s = none ↔
      (s.cc.state = .unformatted ∧ s.cc.tab = false ∧ s.cc.initialise = none) ∨
      (s.cc.state = .ready ∧ unused)) ∧
    (s.cc.state = .unformatted →
      (s.cc.tab = true → gate .initialise s = some .writeProtected) ∧
      (s.cc.tab = false → s.cc.initialise ≠ none → gate .initialise s = some .busy)) ∧
    (s.cc.state = .ready → ¬ unused → gate .initialise s = some .inUse) ∧
    (s.cc.state = .failed → gate .initialise s = some .mediumFault) ∧
    (s.cc.state ∉ [CartState.ready, .unformatted, .failed] → gate .initialise s = some .notReady)

/-! ## The link's own commands (Section 9) -/

/-- R174: ATTACH of a detached channel attaches it and carries the restarted mark, which is then cleared; of an
attached channel it changes nothing and carries the mark clear. R176: DETACH makes the teardown, a freeing event
follows, and the response is ACCEPTED. R175, R176: the link-reset input detaches an attached channel at once, data
phase or not, and without a response; asserted while detached it makes no teardown. Its release is all that lets
frames in again; that a release while not asserted changes nothing, and that `midFrame` alone says whether the rest of
a frame is discarded, is the model's choice (log entry 5). -/
def Obligations.AttachDetachAndLinkResetChangeTheAttachState : Prop :=
  (∀ (ch : Channel) (f : Frame) (s : State), Listens s ch → frameWellFormed .attach f = true → Steady s →
     DetachedBare s →
     let l := s.links.get ch
     (l.attached = true →
       exec (.attach ch f) s = .next (s.answered ch f.tag (.accepted (.attach ch false)))) ∧
     (l.attached = false →
       exec (.attach ch f) s = .next (s.withLink ch
         { l with
           attached := true, restarted := false,
           response := some ⟨f.tag, .accepted (.attach ch l.restarted)⟩ }))) ∧
  (∀ (ch : Channel) (f : Frame) (s : State), Takes s ch .detach f →
     exec (.detach ch f) s =
       .next (workArrival (accept ch f.tag .plain (freeingEvent (s.tornDown ch))))) ∧
  ∀ (ch : Channel) (s : State),
    let l := s.links.get ch
    let held := s.withLink ch { l with resetAsserted := true, discardTail := false, response := none }
    (l.attached = true → l.dataPhase = none →
      exec (.linkReset ch) s = .next (workArrival (freeingEvent (held.tornDown ch)))) ∧
    (l.attached = true → l.dataPhase ≠ none →
      exec (.linkReset ch) s = .next (workArrival (drainCheck (freeingEvent (held.tornDown ch))))) ∧
    (l.attached = false → Steady s → exec (.linkReset ch) s = .next held) ∧
    (AttnJudged s → ∀ midFrame,
      (l.resetAsserted = true → exec (.linkResetRelease ch midFrame) s =
        .next (s.withLink ch { l with resetAsserted := false, discardTail := midFrame })) ∧
      (l.resetAsserted = false → exec (.linkResetRelease ch midFrame) s = .next s))

/-- R177: INQUIRE, in either attach state, answers with each item as it stands and changes nothing but the
response. That all items are read at one instant, where R177 lets items of different blocks straddle an event, is
the model's choice (log entry 25). -/
def Obligations.InquireAnswersWithTheStateAsItStands : Prop :=
  ∀ (ch : Channel) (f : Frame) (s : State), Listens s ch → frameWellFormed .inquire f = true → Steady s →
    exec (.inquire ch f) s = .next (s.answered ch f.tag (.accepted (.inquire
      { cartridge := s.cc.state, tab := s.cc.tab, engine := s.pe.state, stream := (s.su.get ch).state
        table := s.rmt.state, fault := s.rmt.fault
        attachedA := s.links.a.attached, attachedB := s.links.b.attached
        generation := s.rmt.generation, entryCount := s.rmt.entries.length
        freeSpares := if s.rmt.loaded then 3440 - s.rmt.entries.length else 0
        reading := s.sc.entries.countP fun e => e.state == .reading
        clean := s.sc.entries.countP fun e => e.state == .clean
        committing := s.sc.entries.countP fun e => e.state == .committing
        newer := s.sc.entries.countP fun e => e.state == .committingNewer
        freeSlots := (freeSlots s).length, freeBuffers := s.sc.freeList.length
        committingOwn :=
          (s.sc.entries.countP fun e =>
            (e.state == .committing || e.state == .committingNewer) && e.writer == some ch) +
          (match (s.links.get ch).dataPhase with | some d => d.count | none => 0)
        dirtyLimit := s.cu.settings.dirtyLimit
        outstanding := (s.links.get ch).outstanding.length
        unread := (s.links.get ch).reports.length })))

/-- R171 to R173: SET_EVENTS replaces mask and style, CLEAR_EVENTS clears the flags named, PULL_EVENTS returns
the word and in PULL_CLEAR clears what it returned; each judges ATTN anew and changes nothing else. -/
def Obligations.EventCommandsActOnTheEventWord : Prop :=
  ∀ (ch : Channel) (f : Frame) (s : State),
    let l := s.links.get ch
    let mask := BitVec.ofNat 11 (field16 f 0)
    let style := if field16 f 1 = 1 then ClearStyle.explicit else .pullClear
    (Takes s ch .setEvents f →
      exec (.setEvents ch f) s = .next (s.withLink ch
        { l with
          mask := mask, style := style, attn := l.flags &&& mask != 0,
          response := some ⟨f.tag, .accepted (.events ⟨l.flags, mask, style⟩)⟩ })) ∧
    (Takes s ch .clearEvents f →
      exec (.clearEvents ch f) s = .next (s.withLink ch
        { l with
          flags := l.flags &&& ~~~mask, attn := l.flags &&& ~~~mask &&& l.mask != 0,
          response := some ⟨f.tag, .accepted (.events ⟨l.flags &&& ~~~mask, l.mask, l.style⟩)⟩ })) ∧
    (Listens s ch → frameWellFormed .pullEvents f = true → Steady s →
      (l.style = .explicit →
        exec (.pullEvents ch f) s = .next (s.answered ch f.tag (.events ⟨l.flags, l.mask, l.style⟩))) ∧
      (l.style = .pullClear →
        exec (.pullEvents ch f) s = .next (s.withLink ch
          { l with
            flags := 0, attn := false,
            response := some ⟨f.tag, .events ⟨l.flags, l.mask, l.style⟩⟩ })))

/-- R167, R12: a posted report, stamped with the revolution counter, moves from the outstanding set to the queue
and sets REPORT; on a detached channel, or with the request no longer outstanding, it is dropped. R168: PULL_REPORT
removes and delivers the oldest report, or answers EMPTY and changes nothing; the REPORT flag stays. -/
def Obligations.ReportsAreQueuedInOrderAndPulledOnce : Prop :=
  (∀ (ch : Channel) (f : Frame) (s : State), Listens s ch → frameWellFormed .pullReport f = true → Steady s →
    let l := s.links.get ch
    (l.reports = [] → exec (.pullReport ch f) s = .next (s.answered ch f.tag (.empty false false))) ∧
    ∀ r rest, l.reports = r :: rest →
      exec (.pullReport ch f) s =
        .next (s.withLink ch { l with reports := rest, response := some ⟨f.tag, .report r⟩ })) ∧
  ∀ (ch : Channel) (tag : Byte) (kind : QueuedKind) (status : ReportStatus) (detail : Nat) (mark : Bool)
    (s : State),
    let l := s.links.get ch
    let flags := l.flags ||| 1
    (l.attached = true → ⟨tag, kind⟩ ∈ l.outstanding →
      postReport ch tag kind status detail mark s = s.withLink ch
        { l with
          outstanding := l.outstanding.erase ⟨tag, kind⟩
          reports := l.reports ++ [⟨tag, kind, status, detail, mark, s.timer.revolution⟩]
          flags := flags, attn := flags &&& l.mask != 0 }) ∧
    (AttnJudged s → l.attached = false ∨ ⟨tag, kind⟩ ∉ l.outstanding →
      postReport ch tag kind status detail mark s = s)

/-! ## Locks, mailboxes and settings (Section 8) -/

/-- R149: a LOCK over free LBAs by a channel with fewer than 8 entries takes the lowest handle held by no entry,
and its entry joins the table in LBA order. Any other is refused RANGE, RANGE, LIMIT or CONFLICT by the first case
that applies, and changes nothing but the response. -/
def Obligations.LocksAreGrantedOrRefusedByTheFirstCaseThatApplies : Prop :=
  (∀ (ch : Channel) (f : Frame) (s : State) (mode : LockMode), Takes s ch .lock f →
     s.cc.state ∈ [CartState.ready, .readOnly] → LocksWellFormed s.cu.locks → lockMode f = some mode →
     let first := field32 f 0
     let count := field16 f 2
     1 ≤ count → first + count ≤ lbaCount → (s.cu.locks.countP fun e => e.owner == ch) < 8 →
     (∀ e ∈ s.cu.locks, e.first + e.count ≤ first ∨ first + count ≤ e.first) →
     ∃ h locks, h ≤ 15 ∧ (∀ e ∈ s.cu.locks, e.handle ≠ h) ∧ (∀ k < h, ∃ e ∈ s.cu.locks, e.handle = k) ∧
       locks.Perm (⟨ch, first, count, mode, h⟩ :: s.cu.locks) ∧ LocksWellFormed locks ∧
       exec (.lock ch f) s =
         .next (State.answered { s with cu := { s.cu with locks := locks } } ch f.tag (.accepted (.handle h)))) ∧
  ∀ (ch : Channel) (f : Frame) (s : State), Takes s ch .lock f → s.cc.state ∈ [CartState.ready, .readOnly] →
    let first := field32 f 0
    let count := field16 f 2
    let owned := s.cu.locks.countP fun e => e.owner == ch
    let refusedFor := fun (r : RefusalReason) => exec (.lock ch f) s = .next (s.answered ch f.tag (.refused r))
    (count = 0 ∨ lbaCount < first + count → refusedFor .range) ∧
    (1 ≤ count → first + count ≤ lbaCount →
      (1 < field16 f 3 → refusedFor .range) ∧
      (field16 f 3 ≤ 1 →
        (8 ≤ owned → refusedFor .limit) ∧
        (owned < 8 → (∃ e ∈ s.cu.locks, e.first < first + count ∧ first < e.first + e.count) →
          refusedFor .conflict)))

/-- R150: UNLOCK of a handle of the channel's own entry removes that entry and carries it; any other handle is
refused CONFLICT and changes nothing but the response. -/
def Obligations.UnlockRemovesOnlyTheChannelsOwnEntry : Prop :=
  ∀ (ch : Channel) (f : Frame) (s : State), Takes s ch .unlock f → LocksWellFormed s.cu.locks →
    (∀ e ∈ s.cu.locks, e.owner = ch → e.handle = field16 f 0 →
      exec (.unlock ch f) s =
        .next (State.answered { s with cu := { s.cu with locks := s.cu.locks.erase e } } ch f.tag
          (.accepted (.unlocked e.first e.count e.mode)))) ∧
    ((∀ e ∈ s.cu.locks, e.owner = ch → e.handle ≠ field16 f 0) →
      exec (.unlock ch f) s = .next (s.answered ch f.tag (.refused .conflict)))

/-- R153, R170: POST_MAIL fills the other channel's mailbox, marks an overrun where it was full, and sets the
other channel's MAIL flag where that channel is attached. R154: PULL_MAIL delivers a full mailbox once; an empty
one is answered EMPTY. -/
def Obligations.MailIsDeliveredOnceAndOverrunsAreMarked : Prop :=
  ∀ (ch : Channel) (f : Frame) (s : State),
    (Takes s ch .postMail f →
      let box := s.cu.inbox.get (other ch)
      let far := s.links.get (other ch)
      exec (.postMail ch f) s = .next
        { s with
          cu := { s.cu with
            inbox := s.cu.inbox.set (other ch) ⟨BitVec.ofNat 32 (field32 f 0), true, box.overrun || box.full⟩ }
          links := (s.links.set ch
            { s.links.get ch with response := some ⟨f.tag, .accepted (.mail box.full far.attached)⟩ }).set
              (other ch) (far.told .mail) }) ∧
    (Takes s ch .pullMail f →
      let box := s.cu.inbox.get ch
      (box.full = true → exec (.pullMail ch f) s = .next (State.answered
        { s with cu := { s.cu with inbox := s.cu.inbox.set ch ⟨box.value, false, false⟩ } } ch f.tag
        (.mail box.value box.overrun))) ∧
      (box.full = false → exec (.pullMail ch f) s = .next (s.answered ch f.tag (.empty false false))))

/-- R156, R190: SET_DRIVE applies each value given, clamped, keeps each setting marked KEEP, carries the four
that then stand, and sets SETTINGS on each attached link. R80: a raised dirty limit is a freeing event. -/
def Obligations.SetDriveAppliesEachSettingClamped : Prop :=
  ∀ (ch : Channel) (f : Frame) (s : State), Takes s ch .setDrive f →
    let held := s.cu.settings
    let given := fun (i : Nat) => if field16 f i = 65535 then none else some (field16 f i)
    let now : Settings :=
      { readRetries := match given 0 with | some v => if 7 < v then 7 else v | none => held.readRetries
        reassignLimit := match given 1 with | some v => if 3 < v then 3 else v | none => held.reassignLimit
        verifyPolicy :=
          match given 2 with | some v => if v = 1 then .never else .always | none => held.verifyPolicy
        dirtyLimit :=
          match given 3 with | some v => if v < 8 then 8 else if 64 < v then 64 else v | none => held.dirtyLimit }
    let written := State.told .settings { s with cu := { s.cu with settings := now } }
    (now.dirtyLimit ≤ held.dirtyLimit →
      exec (.setDrive ch f) s = .next (written.answered ch f.tag (.accepted (.settings now)))) ∧
    (held.dirtyLimit < now.dirtyLimit →
      exec (.setDrive ch f) s =
        .next (workArrival (accept ch f.tag (.settings now) (freeingEvent written))))

/-! ## Reads and writes (Section 4) -/

/-- R66, R67, R70, R195: a READ whose sectors are all held completes at acceptance. Its record holds a ready
reference to each sector, its entries become most recent in LBA order, and its OK report is queued. R108: a READ of
one sector not held takes the lowest free slot and the first free buffer for a READING entry, offers its READ pass,
waits on it, and stays outstanding; an idle engine then chooses. R64: a READ of any count that must wait first evicts
for its misses, sparing its hits, and then refers to its sectors in ascending LBA order: a held one becomes most recent,
also one in READING, whose read then serves both, and a missing one gets its READING entry. Its record waits on the
sectors that were missing or in READING and is ready on the others. That the marks are checked before the request takes
its room, and the streams that wait are told of its evictions afterwards, is the model's choice (log entry 8). -/
def Obligations.AcceptedReadsReferToHeldSectorsAndFetchMissingOnes : Prop :=
  (∀ (ch : Channel) (f : Frame) (s : State), Admitted s ch .read f →
     let first := field32 f 0
     let count := field16 f 2
     let lbas := (List.range count).map fun i => first + i
     let l := s.links.get ch
     1 ≤ count → count ≤ 32 → first + count ≤ lbaCount →
     (∀ e ∈ s.cu.locks, e.owner = other ch → e.mode = .fullGuard →
       e.first + e.count ≤ first ∨ first + count ≤ e.first) →
     (s.sc.reads.countP fun r => r.channel == ch) < 32 →
     (∀ lba ∈ lbas, ∃ e, entryAt s lba = some e ∧ e.state ≠ .reading) →
     exec (.read ch f) s = .next
       { s with
         sc := { s.sc with
           reads := s.sc.reads ++ [⟨ch, f.tag, first, count, lbas.map fun lba => ⟨lba, .ready⟩, 0, true⟩]
           recency := lbas.foldl (fun r lba => r.erase lba ++ [lba]) s.sc.recency }
         links := s.links.set ch
           { l with
             reports := l.reports ++ [⟨f.tag, .read, .ok, count, false, s.timer.revolution⟩]
             flags := l.flags ||| 1, attn := (l.flags ||| 1) &&& l.mask != 0
             response := some ⟨f.tag, .accepted .plain⟩ } }) ∧
  (∀ (ch : Channel) (f : Frame) (s : State) (slot buffer : Nat) (slots buffers : List Nat),
    Admitted s ch .read f →
    let lba := field32 f 0
    let l := s.links.get ch
    let place := s.rmt.translate lba
    field16 f 2 = 1 → lba < lbaCount →
    (∀ e ∈ s.cu.locks, e.owner = other ch → e.mode = .fullGuard → e.first + e.count ≤ lba ∨ lba < e.first) →
    (s.sc.reads.countP fun r => r.channel == ch) < 32 →
    entryAt s lba = none → freeSlots s = slot :: slots → s.sc.freeList = buffer :: buffers →
    exec (.read ch f) s = .next (workArrival
      { s with
        sc := { s.sc with
          entries := insertBySlot ⟨slot, lba, place, .reading, false, buffer, none, none, none, 0⟩ s.sc.entries
          freeList := buffers
          recency := s.sc.recency.erase lba ++ [lba]
          reads := s.sc.reads ++ [⟨ch, f.tag, lba, 1, [⟨lba, .waiting⟩], 0, false⟩] }
        pe := { s.pe with due := s.pe.due ++ [⟨.entry lba, .read, place⟩] }
        links := s.links.set ch
          { l with
            outstanding := l.outstanding ++ [⟨f.tag, .read⟩]
            response := some ⟨f.tag, .accepted .plain⟩ } })) ∧
  ∀ (ch : Channel) (f : Frame) (s : State), Admitted s ch .read f →
    let first := field32 f 0
    let count := field16 f 2
    let lbas := (List.range count).map fun i => first + i
    let misses := lbas.countP fun lba => (entryAt s lba).isNone
    let hit := fun (lba : Nat) => first ≤ lba && lba < first + count
    let l := s.links.get ch
    let ready := fun (lba : Nat) => ∃ e, entryAt s lba = some e ∧ e.state ≠ .reading
    1 ≤ count → count ≤ 32 → first + count ≤ lbaCount →
    (∀ e ∈ s.cu.locks, e.owner = other ch → e.mode = .fullGuard →
      e.first + e.count ≤ first ∨ first + count ≤ e.first) →
    (s.sc.reads.countP fun r => r.channel == ch) < 32 →
    Nat.max (misses - (freeSlots s).length) (misses - s.sc.freeList.length) ≤
      (s.sc.recency.filter fun lba => isUnpinnedClean s lba && !hit lba).length →
    (∃ lba ∈ lbas, ¬ ready lba) →
    let queued := s.withLink ch { l with outstanding := l.outstanding ++ [⟨f.tag, .read⟩] }
    let placed := lbas.foldl
      (fun (r : State) lba =>
        let recent := r.sc.recency.erase lba ++ [lba]
        match entryAt r lba with
        | some _ => { r with sc := { r.sc with recency := recent } }
        | none =>
          { r with
            sc := { r.sc with
              entries := insertBySlot
                ⟨(freeSlots r).headD 0, lba, r.rmt.translate lba, .reading, false, r.sc.freeList.headD 0, none, none,
                  none, 0⟩ r.sc.entries
              freeList := r.sc.freeList.drop 1, recency := recent }
            pe := { r.pe with due := r.pe.due ++ [⟨.entry lba, .read, r.rmt.translate lba⟩] } })
      (makeSpace misses hit queued)
    ∃ refs : List ReadRef, refs.map ReadRef.lba = lbas ∧
      (∀ x ∈ refs, (ready x.lba → x.cond = .ready) ∧ (¬ ready x.lba → x.cond = .waiting)) ∧
      exec (.read ch f) s = .next (workArrival (accept ch f.tag .plain (afterEvictions queued
        { placed with sc := { placed.sc with
          reads := placed.sc.reads ++ [⟨ch, f.tag, first, count, refs, 0, false⟩] } })))

/-- R66, R73, R80, R151: READ and WRITE are refused RANGE, LOCKED, LIMIT or RETRY by the first case that applies;
RETRY leaves the wants-space mark, and a refusal changes nothing else but the response. -/
def Obligations.ReadsAndWritesAreRefusedByTheFirstCaseThatApplies : Prop :=
  ∀ (ch : Channel) (f : Frame) (s : State),
    let first := field32 f 0
    let count := field16 f 2
    let misses := ((List.range count).map fun i => first + i).countP fun lba => (entryAt s lba).isNone
    let hit := fun (lba : Nat) => first ≤ lba && lba < first + count
    let inRange := 1 ≤ count ∧ count ≤ 32 ∧ first + count ≤ lbaCount
    let barred := fun (modes : List LockMode) =>
      ∃ e ∈ s.cu.locks, e.owner = other ch ∧ e.mode ∈ modes ∧ e.first < first + count ∧ first < e.first + e.count
    let reads := s.sc.reads.countP fun r => r.channel == ch
    let noSpace := fun (m : Nat) (held : Nat → Bool) =>
      (s.sc.recency.filter fun lba => isUnpinnedClean s lba && !held lba).length <
        Nat.max (m - (freeSlots s).length) (m - s.sc.freeList.length)
    let marked := fun (w : Want) => { s with sc := { s.sc with wants := s.sc.wants.set ch (some w) } }
    (Admitted s ch .read f →
      let refusedIn := fun (t : State) (r : RefusalReason) =>
        exec (.read ch f) s = .next (t.answered ch f.tag (.refused r))
      (¬ inRange → refusedIn s .range) ∧
      (inRange → barred [.fullGuard] → refusedIn s .locked) ∧
      (inRange → ¬ barred [.fullGuard] → 32 ≤ reads → refusedIn s .limit) ∧
      (inRange → ¬ barred [.fullGuard] → reads < 32 → noSpace misses hit →
        refusedIn (marked ⟨.read, misses⟩) .retry)) ∧
    (Admitted s ch .write f →
      let refusedIn := fun (t : State) (r : RefusalReason) =>
        exec (.write ch f) s = .next (t.answered ch f.tag (.refused r))
      let full := maxTake < s.sc.takes + count
      (¬ inRange ∨ 1 < field16 f 3 → refusedIn s .range) ∧
      (inRange → field16 f 3 ≤ 1 →
        (barred [.writeGuard, .fullGuard] → refusedIn s .locked) ∧
        (¬ barred [.writeGuard, .fullGuard] → full → refusedIn s .limit) ∧
        (¬ barred [.writeGuard, .fullGuard] → ¬ full →
          s.cu.settings.dirtyLimit < committingCount s ch + count ∨ noSpace count (fun _ => false) →
          refusedIn (marked ⟨.write, count⟩) .retry)))

/-- R64: space is found by evicting unpinned CLEAN entries, least recent first, no more than are needed, sparing
the hits of the request; their buffers return in that order. R80: a mark is met when its space could be found, for a
WRITE within the dirty limit too; a met mark posts SPACE and becomes absent. R136: a stream that waits then tries
again, two in either order. Released pins are a freeing event when they leave an entry evictable. That a READ or a
WRITE has the marks checked before it takes its room, and that the waiting streams are told of evictions once the
room is taken, is the model's choice (log entry 8). -/
def Obligations.SpaceIsFoundByEvictingAndFreeingEventsAreTold : Prop :=
  (∀ (m : Nat) (isHit : Nat → Bool) (s : State), s.sc.recency.Nodup →
    let gone := (s.sc.recency.filter fun lba => isUnpinnedClean s lba && !isHit lba).take
      (Nat.max (m - (freeSlots s).length) (m - s.sc.freeList.length))
    let freed :=
      { s with sc := { s.sc with
          entries := s.sc.entries.filter fun e => !gone.contains e.lba
          freeList := s.sc.freeList ++ gone.flatMap fun lba =>
            match entryAt s lba with | some e => e.buffers | none => []
          recency := s.sc.recency.filter fun lba => !gone.contains lba } }
    (gone = [] → evictFor m isHit s = s ∧ makeSpace m isHit s = s) ∧
    (gone ≠ [] → evictFor m isHit s = freed ∧ makeSpace m isHit s = checkWants freed)) ∧
  (∀ (ch : Channel) (s : State),
    (s.sc.wants.get ch = none → checkWant ch s = s) ∧
    ∀ w, s.sc.wants.get ch = some w →
      let met :=
        Nat.max (w.count - (freeSlots s).length) (w.count - s.sc.freeList.length) ≤
          (s.sc.recency.filter fun lba => isUnpinnedClean s lba).length ∧
        (w.kind = .write → committingCount s ch + w.count ≤ s.cu.settings.dirtyLimit)
      (met → checkWant ch s =
        notify ch .space { s with sc := { s.sc with wants := s.sc.wants.set ch none } }) ∧
      (¬ met → checkWant ch s = s)) ∧
  ∀ s : State,
    freeingEvent s = retryPrefetches (checkWant .b (checkWant .a s)) ∧
    ((∀ ch, (s.su.get ch).prefetchWaiting = false) → retryPrefetches s = s) ∧
    (∀ ch, (s.su.get ch).prefetchWaiting = true → (s.su.get (other ch)).prefetchWaiting = false →
      retryPrefetches s = prefetch ch s) ∧
    ((∀ ch, (s.su.get ch).prefetchWaiting = true) → ∃ ch,
      retryPrefetches s =
        retryPrefetch (other ch) (retryPrefetch ch { s with freeCount := s.freeCount + 1 })) ∧
    (∀ ch, ((s.su.get ch).prefetchWaiting = true → retryPrefetch ch s = prefetch ch s) ∧
      ((s.su.get ch).prefetchWaiting = false → retryPrefetch ch s = s)) ∧
    (∀ before : State,
      ((∃ e ∈ before.sc.entries, e ∉ s.sc.entries) → afterEvictions before s = retryPrefetches s) ∧
      ((∀ e ∈ before.sc.entries, e ∈ s.sc.entries) → afterEvictions before s = s)) ∧
    ∀ lbas : List Nat,
      ((∃ lba ∈ lbas, ∃ e, entryAt s lba = some e ∧ e.state = .clean ∧ pinCount s lba = 0) →
        afterRelease lbas s = freeingEvent s) ∧
      ((∀ lba ∈ lbas, ∀ e, entryAt s lba = some e → e.state ≠ .clean ∨ pinCount s lba ≠ 0) →
        afterRelease lbas s = s)

/-- R71, R169: PULL_DATA of a complete read delivers its lowest undelivered sector, with its data and place, or
with the status it resolved to; the last one ends the record. A pending read is answered EMPTY marked PENDING, and
no read EMPTY marked NO_READ. R72, R169: DISCARD removes the read and releases its pins, which the response counts;
a pending READ is reported CANCELLED. With no read of that tag it releases none. -/
def Obligations.PullDataDeliversAndDiscardReleases : Prop :=
  (∀ (ch : Channel) (f : Frame) (s : State), Takes s ch .pullData f →
    (readRecord s ch f.tag = none → exec (.pullData ch f) s = .next (s.answered ch f.tag (.empty true false))) ∧
    ∀ r, readRecord s ch f.tag = some r →
      (r.complete = false → exec (.pullData ch f) s = .next (s.answered ch f.tag (.empty false true))) ∧
      ∀ x rest, r.complete = true → r.refs = x :: rest →
        let left := if rest = [] then s.sc.reads.filter fun y => !(y.channel == ch && y.tag == f.tag)
          else s.sc.reads.map fun y => if y.channel = ch ∧ y.tag = f.tag then { y with refs := rest } else y
        (∀ b, x.cond = .bad b →
          exec (.pullData ch f) s = .next (State.answered { s with sc := { s.sc with reads := left } } ch f.tag
            (.sector ⟨x.lba, .bad b, false, false, 0, x.lba - r.first, none⟩))) ∧
        (∀ e, x.cond = .ready → entryAt s x.lba = some e →
          exec (.pullData ch f) s = .next (workArrival (afterRelease [x.lba] (State.answered
            { s with sc := { s.sc with reads := left, recency := s.sc.recency.erase x.lba ++ [x.lba] } } ch f.tag
            (.sector ⟨x.lba, .ok, e.blank, false, e.take.getD 0, x.lba - r.first,
              some (if e.blank then 0 else bufferData s (e.newer.getD e.current))⟩)))))) ∧
  ∀ (ch : Channel) (f : Frame) (s : State), Takes s ch .discard f →
    (readRecord s ch f.tag = none →
      exec (.discard ch f) s = .next (s.answered ch f.tag (.accepted (.pins 0)))) ∧
    ∀ r, readRecord s ch f.tag = some r →
      let held := (r.refs.filter fun x => x.cond == .waiting || x.cond == .ready).map ReadRef.lba
      let removed := { s with sc := { s.sc with
        reads := s.sc.reads.filter fun y => !(y.channel == ch && y.tag == f.tag) } }
      let reported := if r.complete then removed else postReport ch f.tag .read .cancelled 0 false removed
      exec (.discard ch f) s =
        .next (workArrival (accept ch f.tag (.pins held.length) (afterRelease held reported)))

/-- R73, R163: an accepted WRITE reserves its buffers from the head of the free list and the lowest free slots,
stays outstanding, and opens the data phase. R74: a full DATA frame that is not the last fills the next reserved
buffer. R75, R76: the last one makes the take, in ascending LBA order, and ends the data phase; a write of one sector
not held becomes a COMMITTING entry in its reserved slot, with its take number, its commit task and its ERASE pass. A
DEFERRED write's report is posted before the response; a SYNC write registers a waiter with one PENDING sector for each
LBA (R100). R78: in FAILED a SYNC write completes MEDIUM_FAULT at its first LBA without a waiter, and with the table
unloaded a write of either mode does, its buffers freed and nothing taken. That a take goes on past the highest take
number of R57 is the model's choice (log entry 34). -/
def Obligations.AWriteReservesItsSpaceIsFilledAndTaken : Prop :=
  (∀ (ch : Channel) (f : Frame) (s : State) (mode : WriteMode), Admitted s ch .write f →
     let first := field32 f 0
     let count := field16 f 2
     let l := s.links.get ch
     1 ≤ count → count ≤ 32 → first + count ≤ lbaCount → writeMode f = some mode →
     (∀ e ∈ s.cu.locks, e.owner = other ch → e.first + e.count ≤ first ∨ first + count ≤ e.first) →
     s.sc.takes + count ≤ maxTake → committingCount s ch + count ≤ s.cu.settings.dirtyLimit →
     count ≤ (freeSlots s).length → count ≤ s.sc.freeList.length →
     exec (.write ch f) s = .next
       { s with
         sc := { s.sc with freeList := s.sc.freeList.drop count }
         links := s.links.set ch
           { l with
             outstanding := l.outstanding ++ [⟨f.tag, .write⟩]
             dataPhase := some
               ⟨f.tag, first, count, mode, 0, s.sc.freeList.take count, (freeSlots s).take count⟩
             response := some ⟨f.tag, .accepted .plain⟩ } }) ∧
  ∀ (ch : Channel) (f : Frame) (s : State) (d : DataPhase), AttnJudged s → IdleHasNothingDue s →
    (s.links.get ch).resetAsserted = false → (s.links.get ch).discardTail = false →
    (s.links.get ch).dataPhase = some d → isFullData f = true →
    let l := s.links.get ch
    let filled := s.sc.buffers.setIfInBounds (d.buffers.getD d.received 0) (dataPayload f)
    (d.received + 1 < d.count →
      exec (.data ch f) s = .next
        { s with
          sc := { s.sc with buffers := filled }
          links := s.links.set ch
            { l with
              dataPhase := some { d with received := d.received + 1 }
              response := some ⟨f.tag, .accepted .plain⟩ } }) ∧
    let closed := fun (r : State) =>
      { r with links := r.links.set ch { r.links.get ch with dataPhase := none } }
    let finished := fun (r : State) =>
      exec (.data ch f) s = .next (workArrival (accept ch f.tag .plain (drainCheck (freeingEvent r))))
    let reported := fun (status : ReportStatus) (detail : Nat) (r : State) =>
      postReport ch d.tag .write status detail false r
    let answered := fun (r : State) =>
      (d.mode = .deferred → finished (reported .ok d.count r)) ∧
      (d.mode = .sync → s.cc.state = .failed → finished (reported .mediumFault d.first r)) ∧
      (d.mode = .sync → s.cc.state ≠ .failed → finished
        { r with cmu := { r.cmu with waiters := r.cmu.waiters ++ [⟨.sync, ch, d.tag, d.first, d.count,
            (List.range d.count).map fun i => ⟨d.first + i, s.sc.takes + 1 + i, .pending, false⟩⟩] } })
    (d.count ≤ d.received + 1 →
      let whole : State :=
        { s with
          sc := { s.sc with buffers := filled }
          links := s.links.set ch { l with dataPhase := some { d with received := d.received + 1 } } }
      (s.rmt.loaded = true →
        answered (closed ((((List.range d.count).map fun i => d.first + i).zip d.buffers).foldl
          (takeSector ch) whole))) ∧
      (s.rmt.loaded = false → finished (reported .mediumFault d.first (closed
        { whole with sc := { whole.sc with freeList := s.sc.freeList ++ d.buffers } })))) ∧
    ∀ buffer slot, d = ⟨d.tag, d.first, 1, d.mode, 0, [buffer], [slot]⟩ → s.rmt.loaded = true →
      entryAt s d.first = none → d.first ∉ s.sc.recency →
      let take := s.sc.takes + 1
      let place := s.rmt.translate d.first
      answered
        { s with
          sc := { s.sc with
            buffers := filled, takes := take
            entries := insertBySlot
              ⟨slot, d.first, place, .committing, false, buffer, none, some ch, some take, 0⟩ s.sc.entries
            recency := s.sc.recency ++ [d.first] }
          cmu := { s.cmu with tasks := s.cmu.tasks ++
            [⟨d.first, place, .eraseDue, buffer, take, s.cu.settings.verifyPolicy, 0,
              s.rmt.unverifiedMove place, none⟩] }
          pe := { s.pe with due := s.pe.due ++ [⟨.task d.first, .erase, place⟩] }
          links := s.links.set ch { l with dataPhase := none } }

/-- R75 to R77: a take of an LBA with an entry raises the take counter and stamps the entry. A READING entry's
pass is withdrawn, its buffer replaced, and its references become ready; a CLEAN one gets the new buffer; both get a
task. A COMMITTING one before VERIFY_DUE gives the task the new data; at VERIFY_DUE, and in COMMITTING_NEWER, the
new data waits as the newer buffer. Each replaced buffer is freed. That the counter goes on past its highest value of
R57 is the model's choice (log entry 34). -/
def Obligations.ATakeActsByTheStateOfItsEntry : Prop :=
  ∀ (ch : Channel) (s : State) (lba buffer : Nat) (e : Entry), entryAt s lba = some e →
    let take := s.sc.takes + 1
    let taken := fun (change : Entry → Entry) (freed : List Nat) =>
      { s with sc := { s.sc with
          takes := take
          entries := s.sc.entries.map fun x => if x.lba = lba then
            { change x with writer := some ch, take := some take, blank := false } else x
          freeList := s.sc.freeList ++ freed
          recency := s.sc.recency.erase lba ++ [lba] } }
    (e.state = .reading →
      let r := refsReady lba
        { s with
          sc := { s.sc with
            takes := take
            entries := s.sc.entries.map fun x => if x.lba = lba then
              { x with state := .committing, current := buffer, retries := 0 } else x
            freeList := s.sc.freeList ++ [e.current] }
          cmu := { s.cmu with tasks := s.cmu.tasks ++
            [⟨lba, e.addr, .eraseDue, buffer, take, s.cu.settings.verifyPolicy, 0,
              s.rmt.unverifiedMove e.addr, none⟩] }
          pe := { s.pe with
            due := (s.pe.due.filter fun op => op.owner != .entry lba) ++ [⟨.task lba, .erase, e.addr⟩]
            pass := s.pe.pass.map fun c => if c.op.owner = .entry lba then { c with withdrawn := true } else c } }
      takeSector ch s (lba, buffer) =
        { r with sc := { r.sc with
            entries := r.sc.entries.map fun x => if x.lba = lba then
              { x with writer := some ch, take := some take, blank := false } else x
            recency := r.sc.recency.erase lba ++ [lba] } }) ∧
    (e.state = .clean →
      let t := taken (fun x => { x with state := .committing, current := buffer, retries := 0 }) [e.current]
      takeSector ch s (lba, buffer) =
        { t with
          cmu := { s.cmu with tasks := s.cmu.tasks ++
            [⟨lba, e.addr, .eraseDue, buffer, take, s.cu.settings.verifyPolicy, 0,
              s.rmt.unverifiedMove e.addr, none⟩] }
          pe := { s.pe with due := s.pe.due ++ [⟨.task lba, .erase, e.addr⟩] } }) ∧
    (∀ task, e.state = .committing → taskAt s lba = some task →
      (task.stage ≠ .verifyDue →
        let t := taken (fun x => { x with current := buffer }) [e.current]
        takeSector ch s (lba, buffer) =
          { t with cmu := { s.cmu with tasks := s.cmu.tasks.map fun y =>
              if y.lba = lba then { y with buffer := buffer, take := take } else y } }) ∧
      (task.stage = .verifyDue →
        takeSector ch s (lba, buffer) =
          taken (fun x => { x with state := .committingNewer, newer := some buffer }) [])) ∧
    (e.state = .committingNewer →
      takeSector ch s (lba, buffer) = taken (fun x => { x with newer := some buffer }) e.newer.toList)

/-- R101: a FLUSH waits for the committing sectors of its run with the takes they hold now; with none it reports
OK at once; a run outside the LBAs is refused RANGE. R97: PULL_FAULTS delivers and empties the channel's
deferred-fault list, or answers EMPTY. -/
def Obligations.FlushWaitsForWhatIsCommittingAndFaultsArePulled : Prop :=
  ∀ (ch : Channel) (f : Frame) (s : State),
    let l := s.links.get ch
    (Admitted s ch .flush f →
      let first := field32 f 0
      let count := field16 f 2
      let sectors := (s.sc.entries.filter fun e =>
        (e.state == .committing || e.state == .committingNewer) && (first ≤ e.lba && e.lba < first + count)).map
          fun e => (⟨e.lba, e.take.getD 0, .pending, false⟩ : WaitSector)
      (count = 0 ∨ lbaCount < first + count →
        exec (.flush ch f) s = .next (s.answered ch f.tag (.refused .range))) ∧
      (1 ≤ count → first + count ≤ lbaCount → sectors = [] →
        exec (.flush ch f) s = .next (s.withLink ch
          { l with
            reports := l.reports ++ [⟨f.tag, .flush, .ok, 0, false, s.timer.revolution⟩]
            flags := l.flags ||| 1, attn := (l.flags ||| 1) &&& l.mask != 0
            response := some ⟨f.tag, .accepted .plain⟩ })) ∧
      (1 ≤ count → first + count ≤ lbaCount → sectors ≠ [] →
        exec (.flush ch f) s = .next
          { s with
            cmu := { s.cmu with waiters := s.cmu.waiters ++ [⟨.flush, ch, f.tag, first, count, sectors⟩] }
            links := s.links.set ch
              { l with
                outstanding := l.outstanding ++ [⟨f.tag, .flush⟩]
                response := some ⟨f.tag, .accepted .plain⟩ } })) ∧
    (Takes s ch .pullFaults f →
      let held := s.cmu.faults.get ch
      (held = ⟨[], false⟩ → exec (.pullFaults ch f) s = .next (s.answered ch f.tag (.empty false false))) ∧
      (held ≠ ⟨[], false⟩ → exec (.pullFaults ch f) s = .next (State.answered
        { s with cmu := { s.cmu with faults := s.cmu.faults.set ch ⟨[], false⟩ } } ch f.tag
        (.faults held.records held.more))))

/-! ## Eject and INITIALISE (Section 2) -/

/-- R28 to R30: an EJECT let through while work remains records its source and enters DRAINING, and so does the
eject button; a press where an EJECT would be refused changes nothing. R31, R32: an EJECT with nothing to drain, and
any EJECT from UNUSABLE or FAILED, clears the part and stops the spindle under the STOP limit. Mail and settings
stay, and the request is answered ACCEPTED. -/
def Obligations.AnEjectDrainsThePartOrClearsIt : Prop :=
  (∀ (ch : Channel) (f : Frame) (s : State),
     let work := s.cmu.tasks ≠ [] ∨ s.cmu.tableTasks ≠ [] ∨ (s.rmt.state ≠ .clean ∧ s.rmt.fault = false) ∨
       s.links.a.dataPhase ≠ none ∨ s.links.b.dataPhase ≠ none
     let draining := fun (from_ : EjectRequest) (t : State) =>
       State.told .cartridge { t with cc := { t.cc with state := .draining, eject := some from_ } }
     (Admitted s ch .eject f → s.cc.state ∈ [CartState.ready, .readOnly, .unformatted] → work →
       exec (.eject ch f) s = .next ((draining (.channel ch f.tag) (s.withLink ch
         { s.links.get ch with
           outstanding := (s.links.get ch).outstanding ++ [⟨f.tag, .eject⟩] })).answered ch f.tag
         (.accepted .plain))) ∧
     (Steady s →
       (gate .eject s ≠ none → exec .ejectButton s = .next s) ∧
       (gate .eject s = none → s.cc.state ∈ [CartState.ready, .readOnly, .unformatted] → work →
         exec .ejectButton s = .next (draining .button s)))) ∧
  ∀ (ch : Channel) (f : Frame) (s : State), Admitted s ch .eject f → CartSound s →
    s.lines.spindleAtRest = false →
    (s.cc.state ∈ [CartState.ready, .readOnly, .unformatted] → drainMet s = true) →
    ∃ t, exec (.eject ch f) s = .next t ∧
      t.cc.state = .spinningDown ∧ t.cc.limit = some ⟨.stop, s.clock + 5000000⟩ ∧
      t.cc.eject = some (.channel ch f.tag) ∧ t.cc.mount = clearedMount ∧ t.outputs.motorOn = false ∧
      t.pe.state = .stopped ∧ t.pe.due = [] ∧ t.rmt = RemapTable.unloaded ∧
      t.sc.entries = [] ∧ t.sc.recency = [] ∧
      t.sc.freeList = s.sc.freeList ++ s.sc.entries.flatMap Entry.buffers ∧
      (∀ r ∈ t.sc.reads, r.complete = true) ∧
      t.cmu.tasks = [] ∧ t.cmu.tableTasks = [] ∧ t.cmu.waiters = [] ∧
      t.su = ⟨Stream.closed, Stream.closed⟩ ∧ t.cu = { s.cu with locks := [] } ∧
      (t.links.get ch).response = some ⟨f.tag, .accepted .plain⟩ ∧ t.pending = s.pending

/-- R34, R45, R54, R88, R89: INITIALISE of an UNFORMATTED cartridge records the request and starts the flush of an
empty table of generation 1. Its 56 table tasks exist, copy A's ERASE passes are due and copy B's are held back. In
READY the cache is emptied first and the state becomes UNFORMATTED. -/
def Obligations.InitialiseStartsAnEmptyTable : Prop :=
  ∀ (ch : Channel) (f : Frame) (s : State), Admitted s ch .initialise f →
    let l := s.links.get ch
    let table : RemapTable :=
      { loaded := true, entries := [], state := .flushing, changedAgain := false, fault := false, generation := 1
        verifiedGen := 0, progress := some ⟨.writing 0, .waiting⟩, image := imageArea (tableImage 1 [])
        assemblyB := s.rmt.assemblyB }
    let tasks := s.cmu.tableTasks ++ ((List.range 28).map fun i => ⟨.a, i, .eraseDue, 0, false⟩) ++
      (List.range 28).map fun i => ⟨.b, i, .eraseDue, 0, true⟩
    let offered := (List.range 28).map fun i => (⟨.table .a i, .erase, ⟨0, i⟩⟩ : DueOp)
    (s.cc.state = .unformatted →
      exec (.initialise ch f) s = .next (workArrival
        { s with
          cc := { s.cc with initialise := some ⟨ch, f.tag⟩ }
          rmt := table
          cmu := { s.cmu with tableTasks := tasks }
          pe := { s.pe with due := s.pe.due ++ offered }
          links := s.links.set ch
            { l with
              outstanding := l.outstanding ++ [⟨f.tag, .initialise⟩]
              response := some ⟨f.tag, .accepted .plain⟩ } })) ∧
    (s.cc.state = .ready →
      ∃ t, exec (.initialise ch f) s = .next (workArrival t) ∧ t.cc.state = .unformatted ∧
        t.cc.initialise = some ⟨ch, f.tag⟩ ∧ t.rmt = table ∧ t.cmu.tableTasks = tasks ∧
        t.sc.entries = [] ∧ t.sc.recency = [] ∧ (∀ r ∈ t.sc.reads, r.complete = true) ∧
        t.sc.freeList = s.sc.freeList ++ s.sc.entries.flatMap Entry.buffers ∧
        t.pe.due = (s.pe.due.filter fun op => !op.owner.isEntry) ++ offered ∧
        (t.links.get ch).response = some ⟨f.tag, .accepted .plain⟩)

/-! ## Streams (Section 7) -/

/-- R134: an accepted OPEN_STREAM opens the context with the depth and low-water mark applied, answers, and then
prefetches; one of a channel whose stream is not CLOSED is refused IN_USE, one with no extent, more than 8, an extent
out of range or two that meet RANGE, and one that the other channel's FULL_GUARD bars LOCKED, by the first case that
applies. R144: CLOSE_STREAM releases every reference and closes the context; of a CLOSED stream it changes nothing.
That the other stream, where it waits, is told of the prefetch's evictions once the prefetch has taken its room is the
model's choice (log entry 8). -/
def Obligations.StreamsOpenAreRefusedAndClose : Prop :=
  ∀ (ch : Channel) (f : Frame) (s : State),
    (Takes s ch .openStream f → s.cc.state ∈ [CartState.ready, .readOnly] →
      let extents := streamExtents f
      let depth := max 1 (min (field16 f 0) 16)
      let low := min (field16 f 1) (depth - 1)
      let positions := (extents.map Extent.count).sum
      let inRange := 1 ≤ extents.length ∧ extents.length ≤ 8 ∧
        (∀ x ∈ extents, 1 ≤ x.count ∧ x.count ≤ 65535 ∧ x.first + x.count ≤ lbaCount) ∧
        extents.Pairwise fun x y => x.first + x.count ≤ y.first ∨ y.first + y.count ≤ x.first
      let barred := ∃ e ∈ s.cu.locks, e.owner = other ch ∧ e.mode = .fullGuard ∧
        ∃ x ∈ extents, e.first < x.first + x.count ∧ x.first < e.first + e.count
      let opened := State.answered
        { s with
          su := s.su.set ch
            { state := .opened, extents := extents, positions := positions, prefetchCursor := 0
              deliveryCursor := 0, depth := depth, lowWater := low, refs := [], faultPosition := none
              faultStatus := none, prefetchWaiting := false } } ch f.tag
        (.accepted (.stream depth low positions))
      let refusedFor := fun (r : RefusalReason) =>
        exec (.openStream ch f) s = .next (s.answered ch f.tag (.refused r))
      ((s.su.get ch).state = .closed → inRange → ¬ barred →
        exec (.openStream ch f) s =
          .next (workArrival (afterEvictions opened (prefetch ch opened)))) ∧
      ((s.su.get ch).state ≠ .closed → refusedFor .inUse) ∧
      ((s.su.get ch).state = .closed → ¬ inRange → refusedFor .range) ∧
      ((s.su.get ch).state = .closed → inRange → barred → refusedFor .locked)) ∧
    (Takes s ch .closeStream f →
      let held := (s.su.get ch).refs.map StreamRef.lba
      exec (.closeStream ch f) s = .next (workArrival (accept ch f.tag (.pins held.length)
        (afterRelease held { s with su := s.su.set ch Stream.closed }))) ∧
      (s.su.get ch = Stream.closed →
        exec (.closeStream ch f) s = .next (s.answered ch f.tag (.accepted (.pins 0)))))

/-- R135: one prefetch refers to a held sector, ready when it has data, or creates a READING entry for a missing
one and offers its pass, evicting where no room is free (R64), with no SPACE event; without space the stream
waits. The prefetch of a stream repeats it while the stream is OPEN with positions left and level plus in flight below
the depth, and stops at a miss without space. -/
def Obligations.APrefetchTakesThePositionAtItsCursor : Prop :=
  ∀ (ch : Channel) (s : State),
    let t := s.su.get ch
    let lba := positionLba t.extents t.prefetchCursor
    let place := s.rmt.translate lba
    let fetched := fun (ready : Bool) => s.su.set ch
      { t with
        refs := t.refs ++ [⟨t.prefetchCursor, lba, ready⟩], prefetchCursor := t.prefetchCursor + 1
        prefetchWaiting := false }
    let recent := s.sc.recency.erase lba ++ [lba]
    (∀ e, entryAt s lba = some e →
      let held := fun (ready : Bool) => { s with su := fetched ready, sc := { s.sc with recency := recent } }
      (e.state = .reading → prefetchOne ch s = held false) ∧
      (e.state ≠ .reading → t.level ≠ 0 → prefetchOne ch s = held true) ∧
      (e.state ≠ .reading → t.level = 0 → AttnJudged s →
        prefetchOne ch s = (held true).withLink ch ((s.links.get ch).told .streamData))) ∧
    (entryAt s lba = none →
      (∀ slot slots buffer buffers, freeSlots s = slot :: slots → s.sc.freeList = buffer :: buffers →
        prefetchOne ch s =
          { s with
            su := fetched false
            sc := { s.sc with
              entries := insertBySlot ⟨slot, lba, place, .reading, false, buffer, none, none, none, 0⟩ s.sc.entries
              freeList := buffers, recency := recent }
            pe := { s.pe with due := s.pe.due ++ [⟨.entry lba, .read, place⟩] } }) ∧
      (freeSlots s = [] ∨ s.sc.freeList = [] → (∃ v ∈ s.sc.recency, isUnpinnedClean s v = true) →
        prefetchOne ch s =
          { createReading lba (evictFor 1 (fun _ => false) s) with su := fetched false } ∧
        (prefetchOne ch s).links = s.links ∧ (prefetchOne ch s).sc.wants = s.sc.wants) ∧
      (freeSlots s = [] ∨ s.sc.freeList = [] → (∀ v ∈ s.sc.recency, isUnpinnedClean s v = false) →
        prefetchOne ch s = { s with su := s.su.set ch { t with prefetchWaiting := true } })) ∧
    let goesOn := t.state = .opened ∧ t.prefetchCursor < t.positions ∧ t.level + t.inFlight < t.depth
    let once := prefetchOne ch s
    (¬ goesOn → prefetch ch s = s) ∧
    (goesOn → (once.su.get ch).prefetchWaiting = true → prefetch ch s = once) ∧
    (goesOn → (once.su.get ch).prefetchWaiting = false → prefetch ch s = prefetch ch once)

/-- R141: in OPEN a ready position is delivered with its data, its pin released; the last one ends the stream, and
before it the low-water notice and the prefetch follow. R142: a FAULTED stream delivers its bad position once. All else
is answered EMPTY. That the freeing event of the released pin comes before the notice and the prefetch is the model's
choice (log entry 30), and so is that the other stream, where it waits, is told of the prefetch's evictions once the
prefetch has taken its room (log entry 8). -/
def Obligations.PullStreamDeliversInOrder : Prop :=
  ∀ (ch : Channel) (f : Frame) (s : State), Takes s ch .pullStream f →
    let t := s.su.get ch
    let empty := exec (.pullStream ch f) s = .next (s.answered ch f.tag (.empty false false))
    let released := fun (rest : List StreamRef) (e : Entry) =>
      afterRelease [e.lba] (State.answered
        { s with
          su := s.su.set ch { t with refs := rest, deliveryCursor := t.deliveryCursor + 1 }
          sc := { s.sc with recency := s.sc.recency.erase e.lba ++ [e.lba] } } ch f.tag
        (.sector ⟨e.lba, .ok, e.blank, true, e.take.getD 0, t.deliveryCursor,
          some (if e.blank then 0 else bufferData s (e.newer.getD e.current))⟩))
    let fetched := fun (r : State) => exec (.pullStream ch f) s = .next (workArrival (afterEvictions r (prefetch ch r)))
    (t.state = .closed ∨ t.state = .ended → empty) ∧
    (t.state = .opened → (∀ x ∈ t.refs, x.position ≠ t.deliveryCursor) → empty) ∧
    (∀ x rest e, t.InStep → t.refs = x :: rest →
      (x.ready = false → empty) ∧
      (x.ready = true → entryAt s x.lba = some e →
        (t.state = .opened →
          (t.deliveryCursor + 1 = t.positions →
            exec (.pullStream ch f) s = .next (workArrival (notify ch .streamEnd
              (updStream ch (fun y => { y with state := .ended }) (released rest e))))) ∧
          (t.deliveryCursor + 1 < t.positions → t.level = t.lowWater →
            fetched (notify ch .streamLow (released rest e))) ∧
          (t.deliveryCursor + 1 < t.positions → t.level ≠ t.lowWater → fetched (released rest e))) ∧
        (t.state = .faulted → exec (.pullStream ch f) s = .next (workArrival (released rest e))))) ∧
    (∀ p status, t.state = .faulted → t.faultPosition = some p → t.faultStatus = some status →
      (t.deliveryCursor = p →
        exec (.pullStream ch f) s = .next (State.answered
          { s with
            su := s.su.set ch
              { t with
                deliveryCursor := p + 1
                prefetchCursor := if t.prefetchCursor = p then p + 1 else t.prefetchCursor } } ch f.tag
          (.sector ⟨positionLba t.extents p, .bad status, false, true, 0, p, none⟩))) ∧
      (p < t.deliveryCursor → empty))

/-! ## The cartridge in the drive (Section 2) -/

/-- R18: in EMPTY a closing switch starts the clamp and its limit, and clamp-complete in LOADING samples the tab
and starts the spindle under the LOCK limit; a hub found clamped brings both at once. In any other state each moves
only the lines it reports. R18, R26, R33: an opening switch in LOADING returns to EMPTY, in EJECTING it ends the eject
and posts its report, in EMPTY and FAILED only the line moves, and anywhere else the cartridge fails. A spindle at
rest in SPINNING_DOWN fires the eject actuator under the SWITCH limit, or, with the switch already open, ends the eject
at once; reported anywhere else it is ignored, and with the motor off the at-rest line moves. That the clamp command
drops at clamp-complete, that a started spindle is off its rest, that a clamped hub is acted on within the same
command, that the actuator is released in EMPTY, that firing it unclamps the hub and when the at-rest line moves is
the model's reading (log entry 20). -/
def Obligations.ACartridgeEntersAndLeavesTheDrive : Prop :=
  (∀ (hub tab : Bool) (s : State), AttnJudged s →
     let closed := { s with lines := { s.lines with switchClosed := true, hubClamped := hub, tabSet := tab } }
     let spun := fun (t : State) =>
       State.told .cartridge
         { t with
           cc := { t.cc with
             state := .spinningUp, tab := tab, lockRun := 0, limit := some ⟨.lock, s.clock + 6000000⟩ }
           outputs := { t.outputs with clampCommand := false, motorOn := true }
           timer := { t.timer with indexSeen := false }
           lines := { t.lines with spindleAtRest := false } }
     (s.cc.state = .empty →
       exec (.cartridgeSwitchCloses hub tab) s = .next
         (if hub then spun closed
         else State.told .cartridge
           { closed with
             cc := { s.cc with state := .loading, limit := some ⟨.clamp, s.clock + 2000000⟩ }
             outputs := { s.outputs with clampCommand := true } })) ∧
     (s.cc.state ≠ .empty → exec (.cartridgeSwitchCloses hub tab) s = .next closed) ∧
     (s.cc.state = .loading →
       exec (.clampComplete tab) s = .next
         (spun { s with lines := { s.lines with hubClamped := true, tabSet := tab } })) ∧
     (s.cc.state ≠ .loading →
       exec (.clampComplete tab) s = .next
         { s with lines := { s.lines with hubClamped := true, tabSet := tab } })) ∧
  ∀ s : State, AttnJudged s →
    let opened := { s with lines := { s.lines with switchClosed := false } }
    let rested := { s with lines := { s.lines with spindleAtRest := true } }
    let emptied := State.told .cartridge
      { opened with
        cc := { s.cc with state := .empty, limit := none, tab := false }
        outputs := { s.outputs with ejectFired := false } }
    (s.cc.state = .empty ∨ s.cc.state = .failed → exec .cartridgeSwitchOpens s = .next opened) ∧
    (s.cc.state = .loading →
      exec .cartridgeSwitchOpens s = .next (State.told .cartridge
        { opened with
          cc := { s.cc with state := .empty, limit := none }
          outputs := { s.outputs with clampCommand := false } })) ∧
    (s.cc.state = .ejecting → s.cc.eject = some .button →
      exec .cartridgeSwitchOpens s = .next { emptied with cc := { emptied.cc with eject := none } }) ∧
    (∀ ch tag, s.cc.state = .ejecting → s.cc.eject = some (.channel ch tag) →
      let reported := postReport ch tag .eject .ok 0 false emptied
      exec .cartridgeSwitchOpens s = .next { reported with cc := { reported.cc with eject := none } }) ∧
    (s.cc.state ∉ [CartState.empty, .loading, .ejecting, .failed] →
      ∃ t, exec .cartridgeSwitchOpens s = .next t ∧ t.cc.state = .failed ∧ t.cc.limit = none ∧
        t.outputs.motorOn = false ∧ t.pe.state = .stopped ∧ t.cc.eject = none ∧ t.cc.initialise = none) ∧
    (s.cc.state = .spinningDown → s.lines.switchClosed = true →
      exec .spindleStopped s = .next (State.told .cartridge
        { rested with
          cc := { s.cc with state := .ejecting, limit := some ⟨.switch, s.clock + 2000000⟩ }
          outputs := { s.outputs with ejectFired := true }
          lines := { rested.lines with hubClamped := false } })) ∧
    (s.cc.state = .spinningDown → s.lines.switchClosed = false →
      let gone := State.told .cartridge
        { rested with
          cc := { s.cc with state := .empty, limit := none, tab := false }
          outputs := { s.outputs with ejectFired := false }
          lines := { rested.lines with hubClamped := false } }
      (s.cc.eject = some .button →
        exec .spindleStopped s = .next { gone with cc := { gone.cc with eject := none } }) ∧
      ∀ ch tag, s.cc.eject = some (.channel ch tag) →
        let reported := postReport ch tag .eject .ok 0 false gone
        exec .spindleStopped s = .next { reported with cc := { reported.cc with eject := none } }) ∧
    (s.cc.state ≠ .spinningDown →
      (s.outputs.motorOn = true → exec .spindleStopped s = .next s) ∧
      (s.outputs.motorOn = false → exec .spindleStopped s = .next rested))

/-- R26, R82, R102: the expiry of the limit that runs fails the cartridge. The motor and the clamp are released,
the engine is STOPPED, every read and waiter is completed and every READING entry removed, the eject and the
initialise are ended, and the tasks, the table and the locks are kept. R115, R124: a pass under way is cut off without
an outcome; a task not withdrawn keeps its stage and loses its take at mark, and its operation stays due. R24: 60 ms without an index in a locked
state is a mechanism fault. The first two since lock bring RECOVERING with the present state as the prior state, the
spindle restarted under the LOCK limit, the engine STOPPED and every other block's work kept; the third fails the
cartridge. Elsewhere nothing happens. Where a limit does not run, its expiry does nothing, and an expiry moves the
clock to its deadline (log entry 22). That the eject actuator is released too and that a started spindle is off its
rest is the model's reading (log entry 20); that index loss itself moves the time to 60 ms is its choice (log entry
2). -/
def Obligations.AnExpiredLimitOrLostIndexFailsTheCartridge : Prop :=
  let cutOff := fun (s : State) =>
    s.cmu.tasks.map fun y => match s.pe.pass with
      | some c => if c.withdrawn = false ∧ c.op.owner = .task y.lba then { y with takeAtMark := none } else y
      | none => y
  (∀ (s : State) (kind : LimitKind) (c : Instr),
     (kind, c) ∈ [(LimitKind.clamp, Instr.clampLimitExpiry), (.lock, .lockLimitExpiry),
       (.stop, .stopLimitExpiry), (.switch, .switchLimitExpiry)] →
     (∀ deadline, s.cc.limit = some ⟨kind, deadline⟩ →
       ∃ t, exec c s = .next t ∧ t.clock = max s.clock deadline ∧
         t.cc.state = .failed ∧ t.cc.limit = none ∧ t.cc.prior = none ∧ t.cc.eject = none ∧
         t.cc.initialise = none ∧ t.outputs = ⟨false, false, false⟩ ∧ t.pe.state = .stopped ∧
         t.pe.move = none ∧ t.pe.pass = none ∧
         (∀ e ∈ t.sc.entries, e.state ≠ .reading) ∧ (∀ r ∈ t.sc.reads, r.complete = true) ∧
         t.cmu.waiters = [] ∧ t.cmu.tasks = cutOff s ∧ t.cmu.tableTasks = s.cmu.tableTasks ∧
         t.rmt = s.rmt ∧ t.cu = s.cu) ∧
     (s.cc.limit.map MechLimit.kind ≠ some kind → exec c s = .next s)) ∧
  ∀ s : State,
    let gone := 60000 - s.timer.elapsed
    (s.cc.state.isLocked = true → s.cc.recoveryCount < 2 → AttnJudged s →
      exec .indexLoss s = .next (State.told .cartridge
        { s with
          clock := s.clock + gone
          timer := { s.timer with elapsed := max s.timer.elapsed 60000, indexSeen := false }
          lines := { s.lines with spindleAtRest := false }
          outputs := { s.outputs with motorOn := true }
          cc := { s.cc with
            state := .recovering, prior := some s.cc.state, recoveryCount := s.cc.recoveryCount + 1
            lockRun := 0, limit := some ⟨.lock, s.clock + gone + 6000000⟩ }
          cmu := { s.cmu with tasks := cutOff s }
          pe := { s.pe with
            state := .stopped, pass := none, move := none, retry := none, settle := none, seekFaults := 0
            goWaiting := false }
          mci := { s.mci with hold := s.mci.hold || s.pe.state == .held, stepReq := false } })) ∧
    (s.cc.state.isLocked = true → 2 ≤ s.cc.recoveryCount →
      ∃ t, exec .indexLoss s = .next t ∧ t.cc.state = .failed ∧ t.pe.state = .stopped ∧ t.pe.pass = none ∧
        t.outputs.motorOn = false ∧ t.cmu.tasks = cutOff s ∧ t.rmt = s.rmt) ∧
    (s.cc.state.isLocked = false → exec .indexLoss s = .next s)

/-- R26, R82, R102, R140: at entry to FAILED, by an expired limit, an opening switch or a third mechanism fault (here
index loss), every READ not complete ends MEDIUM_FAULT and its record is gone, every
sync and flush waiter ends MEDIUM_FAULT at its lowest LBA not SATISFIED, and so do the EJECT and the INITIALISE in
progress. A stream that refers to a READING entry is FAULTED, LOST, at the first such position; one in OPEN that refers
to none and has positions not yet fetched at its prefetch cursor; any other stands. The READING entries are gone and
the others kept. The order of these reports is the model's reading (log entry 17), that the buffers are freed in slot
order is its choice (log entry 33), and the detail of a READ's report is free (log entry 9). -/
def Obligations.EntryToFailedCompletesTheWorkOfBothChannels : Prop :=
  ∀ (s : State) (c : Instr),
    (∃ kind deadline, s.cc.limit = some ⟨kind, deadline⟩ ∧
      (kind, c) ∈ [(LimitKind.clamp, Instr.clampLimitExpiry), (.lock, .lockLimitExpiry),
        (.stop, .stopLimitExpiry), (.switch, .switchLimitExpiry)]) ∨
      (c = .cartridgeSwitchOpens ∧ s.cc.state ∉ [CartState.empty, .loading, .ejecting, .failed]) ∨
      (c = .indexLoss ∧ s.cc.state.isLocked = true ∧ 2 ≤ s.cc.recoveryCount) →
    let lowest := fun (w : Waiter) =>
      ((w.sectors.filter fun x => x.cond != .satisfied).map WaitSector.lba).foldl min lbaCount
    let reading := fun (lba : Nat) => ∃ e ∈ s.sc.entries, e.lba = lba ∧ e.state = .reading
    ∃ (t : State) (detail : Nat → Nat), exec c s = .next t ∧
      (let reads := (s.sc.reads.filter fun r => !r.complete).zipIdx.map fun x =>
          (x.1.channel, x.1.tag, QueuedKind.read, detail x.2)
        let waiters := s.cmu.waiters.map fun w => (w.channel, w.tag, w.kind.queued, lowest w)
        let eject := match s.cc.eject with
          | some (.channel ch tag) => [(ch, tag, QueuedKind.eject, 0)]
          | _ => []
        let initialise := match s.cc.initialise with
          | some r => [(r.channel, r.tag, QueuedKind.initialise, 0)]
          | none => []
        let reported := (reads ++ waiters ++ eject ++ initialise).foldl
          (fun r x => postReport x.1 x.2.1 x.2.2.1 .mediumFault x.2.2.2 false r) s
        ∀ ch, (t.links.get ch).outstanding = (reported.links.get ch).outstanding ∧
          (t.links.get ch).reports = (reported.links.get ch).reports) ∧
      t.sc.reads.map (fun r => (r.channel, r.tag, r.complete)) =
        (s.sc.reads.filter ReadRecord.complete).map (fun r => (r.channel, r.tag, true)) ∧
      ((s.sc.entries.map Entry.lba).Nodup →
        t.sc.entries = s.sc.entries.filter (fun e => e.state != .reading) ∧
        t.sc.freeList = s.sc.freeList ++
          (s.sc.entries.filter fun e => e.state == .reading).flatMap Entry.buffers) ∧
      ∀ ch, (s.su.get ch).InStep →
        let st := s.su.get ch
        let lostAt := fun (p : Nat) =>
          t.su.get ch = { st with
            state := .faulted, refs := st.refs.filter fun y => y.position < p
            faultPosition := some p, faultStatus := some .lost, prefetchWaiting := false }
        ((∀ x ∈ st.refs, ¬ reading x.lba) →
          (st.state = .opened → st.prefetchCursor < st.positions → lostAt st.prefetchCursor) ∧
          (st.state ≠ .opened ∨ st.prefetchCursor = st.positions → t.su.get ch = st)) ∧
        ∀ before x after, st.refs = before ++ x :: after → reading x.lba → (∀ y ∈ before, ¬ reading y.lba) →
          lostAt x.position

/-- R36, R84, R105, R130, R158, R163, R178: the three resets put every block at its reset values and take the
cartridge state from the mechanism: EMPTY, LOADING, or SPINNING_UP where a hub is clamped. The console's comes only
after its line was sent (R188), and is due from then on: no time passes before it (log entry 1). What the outside
drives (the lines, the link-reset inputs) is not reset (log entries 3 and 5). That the buffers read 0 (log entry 21),
the clamp command, the actuator and the at-rest line (log entry 20) and the phase of the console's clear (log entry
19) stand as here is the model's choice. -/
def Obligations.ResetsPutEveryBlockAtItsResetValues : Prop :=
  ∀ (found : MechanismFound) (s : State),
    let kept := fun (l : Link) =>
      { Link.atReset with resetAsserted := l.resetAsserted, discardTail := l.discardTail }
    let cleared := fun (strap : Bool) =>
      { State.reset with
        clock := s.clock, links := ⟨kept s.links.a, kept s.links.b⟩, freeCount := s.freeCount
        pending := s.pending
        lines := ⟨found.switchClosed, found.hubClamped, found.tabSet, !found.spindleTurning, strap⟩ }
    let after := fun (strap : Bool) =>
      if found.switchClosed then
        if found.hubClamped then
          { cleared strap with
            cc := { Controller.atReset with
              state := .spinningUp, tab := found.tabSet, limit := some ⟨.lock, s.clock + 6000000⟩ }
            outputs := ⟨false, true, false⟩
            lines := ⟨true, true, found.tabSet, false, strap⟩ }
        else
          { cleared strap with
            cc := { Controller.atReset with state := .loading, limit := some ⟨.clamp, s.clock + 2000000⟩ }
            outputs := ⟨true, false, false⟩ }
      else cleared strap
    (∀ strap, exec (.powerUpReset found strap) s = .next (after strap)) ∧
    exec (.masterClear found) s = .next (after s.lines.strapHigh) ∧
    (s.mci.clearing = .lineSent → exec (.consoleMasterClear found) s = .next (after s.lines.strapHigh)) ∧
    (s.mci.clearing ≠ .lineSent → exec (.consoleMasterClear found) s = .next s) ∧
    (s.mci.clearing = .lineSent → s.pending = [] → step s = .next s)

/-! ## Rotation and the engine (Sections 1, 2 and 6) -/

/-- R10, R12, R19, R20: an index event with the engine STOPPED starts a revolution and, where an index was seen
before, measures the period. In SPINNING_UP and RECOVERING a period in the window raises the lock run and one outside
clears it; at a run of 8 SPINNING_UP enters MOUNTING with its 56 reads due. R25: RECOVERING returns to the prior
state with the engine recalibrating; a prior MOUNTING offers its reads anew, and a prior DRAINING whose condition is
met spins down (log entry 26). The count of index events in the settle point is the model's (log entry 13). -/
def Obligations.IndexEventsMeasureThePeriodAndReachLock : Prop :=
  ∀ (elapsed : Nat) (found : Found) (s : State), s.pe.state = .stopped → s.timer.elapsed ≤ elapsed →
    let turned := fun (period : Nat) =>
      { s with
        clock := s.clock + (elapsed - s.timer.elapsed)
        timer := ⟨period, 0, true, s.timer.revolution + 1⟩
        pe := { s.pe with settle := s.pe.settle.map fun p => { p with wraps := p.wraps + 1 } } }
    let mountDue := (s.pe.due.filter fun op => !op.owner.isMount) ++
      ((List.range 28).map fun i => (⟨.mount .a i, .read, ⟨0, i⟩⟩ : DueOp)) ++
      (List.range 28).map fun i => (⟨.mount .b i, .read, ⟨1, i⟩⟩ : DueOp)
    (s.timer.indexSeen = false → exec (.indexEvent elapsed found) s = .next (turned s.timer.period)) ∧
    (s.timer.indexSeen = true → s.cc.state ≠ .spinningUp → s.cc.state ≠ .recovering →
      exec (.indexEvent elapsed found) s = .next (turned elapsed)) ∧
    (s.timer.indexSeen = true → s.cc.state = .spinningUp ∨ s.cc.state = .recovering →
      (elapsed < 19800 ∨ 20200 < elapsed →
        exec (.indexEvent elapsed found) s =
          .next { turned elapsed with cc := { s.cc with lockRun := 0 } }) ∧
      (19800 ≤ elapsed → elapsed ≤ 20200 → s.cc.lockRun < 7 →
        exec (.indexEvent elapsed found) s =
          .next { turned elapsed with cc := { s.cc with lockRun := s.cc.lockRun + 1 } })) ∧
    (s.timer.indexSeen = true → 19800 ≤ elapsed → elapsed ≤ 20200 → s.cc.lockRun = 7 →
      (s.cc.state = .spinningUp →
        ∃ t, exec (.indexEvent elapsed found) s = .next t ∧ t.cc.state = .mounting ∧ t.cc.limit = none ∧
          t.cc.recoveryCount = 0 ∧ t.cc.mount = clearedMount ∧ t.timer.period = elapsed ∧
          t.timer.elapsed = 0 ∧ t.pe.state = .moving ∧ t.rmt.image = emptyArea ∧
          t.rmt.assemblyB = emptyArea ∧ t.pe.due = mountDue) ∧
      (∀ back, s.cc.state = .recovering → s.cc.prior = some back → AttnJudged s →
        (back ≠ .mounting → (back = .draining → drainMet s = false) →
          exec (.indexEvent elapsed found) s = .next (State.told .cartridge
            { turned elapsed with
              cc := { s.cc with state := back, prior := none, limit := none, lockRun := 8 }
              pe := { (turned elapsed).pe with
                state := .moving, retry := none, seekFaults := 0
                move := some
                  ⟨.recalibrate, 0, .erase, false, false, s.clock + (elapsed - s.timer.elapsed)⟩ } })) ∧
        (back = .mounting →
          ∃ t, exec (.indexEvent elapsed found) s = .next t ∧ t.cc.state = .mounting ∧ t.cc.prior = none ∧
            t.cc.limit = none ∧ t.cc.mount = clearedMount ∧ t.rmt.image = emptyArea ∧
            t.rmt.assemblyB = emptyArea ∧ t.pe.state = .moving ∧ t.pe.due = mountDue) ∧
        (back = .draining → drainMet s = true → s.lines.spindleAtRest = false →
          ∃ t, exec (.indexEvent elapsed found) s = .next t ∧ t.cc.state = .spinningDown ∧
            t.cc.prior = none ∧ t.pe.state = .stopped ∧ t.outputs.motorOn = false ∧ t.sc.entries = [] ∧
            t.rmt = RemapTable.unloaded)))

/-- R11, R111, R115: an index event with the engine DWELLING is the end of the last sector and the mark of
sector 0. A pass on the last sector ends with its outcome delivered; one on any other sector is cut off, without an
outcome and with its take at mark cleared, and its operation stays due unless it was withdrawn. Then comes the hold
or the choice, and then the mark, where a settled head begins the earliest offered operation and an unsettled one
lets the mark pass (R14, R112). R10, R12, R107: in MOVING only the timer and the revolution counter act; in IDLE a
pending hold is taken. R125 to R127: in HELD the hold request is cleared; a step pass on the last sector ends with its
outcome and its line, and one on any other is cut off, its step cleared without a line (log entry 14); a GO that waits
then leaves HELD by the choice. That the timer's work comes first, and the count of index events in the settle point,
are the model's reading (log entries 12 and 13); that the step line is queued also where the outcome stops the engine is
its choice (log entry 35), and a hold request set in HELD is log entry 15's. -/
def Obligations.AnIndexEventIsASectorEndAndTheMarkOfSectorZero : Prop :=
  ∀ (elapsed : Nat) (found : Found) (s : State), s.timer.elapsed ≤ elapsed →
    s.cc.state ≠ .spinningUp → s.cc.state ≠ .recovering →
    let turned : State :=
      { s with
        clock := s.clock + (elapsed - s.timer.elapsed)
        timer := ⟨if s.timer.indexSeen then elapsed else s.timer.period, 0, true, s.timer.revolution + 1⟩
        pe := { s.pe with settle := s.pe.settle.map fun p => { p with wraps := p.wraps + 1 } } }
    let settled := ∀ p, s.pe.settle = some p → p.angle + 16 ≤ 4096 * (p.wraps + 1)
    (s.pe.state = .dwelling →
      (∀ op, s.pe.pass = none → s.mci.hold = false → (∀ ch, (s.su.get ch).state ≠ .opened) →
        (s.pe.due.find? fun x =>
          x.addr == ⟨s.pe.headTrack, 0⟩ && x.kind.compatible s.pe.polarity) = some op →
        (¬ settled → exec (.indexEvent elapsed found) s = .next turned) ∧
        (settled → op.kind ≠ .write → exec (.indexEvent elapsed found) s =
          .next { turned with pe := { s.pe with settle := none, pass := some ⟨op, false, none⟩ } })) ∧
      ∀ pass, s.pe.pass = some pass →
        let ended := { turned with pe := { turned.pe with pass := none } }
        let goesOn := fun (told : State) =>
          exec (.indexEvent elapsed found) s = .next (workArrival (sectorMark 0 0 (holdOrChoice told)))
        (pass.op.addr.sector + 1 = sectorsOn s.pe.headTrack → s.mci.watch0 = none → s.mci.watch1 = none →
          (pass.withdrawn = true → goesOn (clearTakeAtMark pass.op.owner ended)) ∧
          (pass.withdrawn = false → goesOn (deliver pass.op (outcomeOf pass.op.kind found) ended))) ∧
        (pass.op.addr.sector + 1 ≠ sectorsOn s.pe.headTrack →
          (pass.withdrawn = true → goesOn ended) ∧
          (∀ lba, pass.withdrawn = false → pass.op.owner = .task lba →
            goesOn { ended with cmu := { s.cmu with tasks := s.cmu.tasks.map fun y =>
              if y.lba = lba then { y with takeAtMark := none } else y } }) ∧
          (pass.withdrawn = false → (∀ lba, pass.op.owner ≠ .task lba) → goesOn ended))) ∧
    (s.pe.state = .moving → exec (.indexEvent elapsed found) s = .next turned) ∧
    (s.pe.state = .idle → s.pe.pass = none → s.pe.due = [] →
      (s.mci.hold = false → exec (.indexEvent elapsed found) s = .next turned) ∧
      (s.mci.hold = true → AttnJudged s → exec (.indexEvent elapsed found) s =
        .next (sectorMark 0 0 (State.told .held
          { turned with
            pe := { turned.pe with state := .held }
            mci := { s.mci.noticed (.heldAt s.pe.headTrack (s.timer.revolution + 1)) with hold := false } })))) ∧
    (s.pe.state = .held →
      let ended := { turned with pe := { turned.pe with pass := none }, mci := { s.mci with hold := false } }
      let stepOver := fun (told : State) (m : Console) =>
        let stepped :=
          { told with pe := { told.pe with goWaiting := false }, mci := { m with stepReq := false } }
        exec (.indexEvent elapsed found) s = .next (workArrival (sectorMark 0 0
          (if told.pe.goWaiting = true ∧ told.pe.state = .held then makeChoice stepped else stepped)))
      (s.pe.pass = none → exec (.indexEvent elapsed found) s = .next (sectorMark 0 0 ended)) ∧
      ∀ pass, s.pe.pass = some pass →
        (pass.op.addr.sector + 1 = sectorsOn s.pe.headTrack → s.mci.watch0 = none → s.mci.watch1 = none →
          let told :=
            if pass.withdrawn then clearTakeAtMark pass.op.owner ended
            else deliver pass.op (outcomeOf pass.op.kind found) ended
          let shown := if pass.withdrawn then .discarded else (outcomeOf pass.op.kind found).shown
          stepOver told (told.mci.noticed (.stepEnd pass.op.kind pass.op.addr shown told.timer.revolution))) ∧
        (pass.op.addr.sector + 1 ≠ sectorsOn s.pe.headTrack →
          let told := if pass.withdrawn then ended else clearTakeAtMark pass.op.owner ended
          stepOver told told.mci))

/-- R121, R123: a move to a target ends with the later of its two parts, on the target and unsettled, and the
engine dwells; a recalibration ends on track 0, and there starts the move to be retried, if any (one to track 0 ends
at once: log entry 16). A report of a cancelled command, or with no move under way, changes nothing. R122: a first
seek fault, reported or by the 100 ms limit, records the target to retry and recalibrates, with both parts of that
move still to be done whatever the bias (log entry 16); a second in a row is a mechanism fault (R24), which brings
RECOVERING, or FAILED at the third since lock. That the move limit's expiry with no move under way changes nothing,
and that it moves the clock to its deadline, is the model's choice (log entry 22); that a report moves the time to the
instant it names is log entry 2's. -/
def Obligations.AMoveEndsWithItsLaterPartOrFaults : Prop :=
  (∀ (elapsed : Nat) (s : State) (m : Move), s.pe.state = .moving → s.pe.move = some m →
     let late := passUntil elapsed s
     let dwelling := fun (track : Nat) (retry : Option Target) =>
       { late with pe := { s.pe with
           state := .dwelling, headTrack := track, polarity := m.polarity, settle := some ⟨late.angle, 0⟩
           seekFaults := 0, retry := retry, move := none } }
     let ended := fun (c : Instr) =>
       (m.kind = .target → exec c s = .next (dwelling m.track none)) ∧
       (m.kind = .recalibrate → s.pe.retry = none → exec c s = .next (dwelling 0 none)) ∧
       (∀ t, m.kind = .recalibrate → s.pe.retry = some t → t.polarity = m.polarity →
         exec c s = .next (if t.track = 0 then dwelling 0 none else
           { late with pe := { s.pe with
               headTrack := 0, polarity := m.polarity, settle := some ⟨late.angle, 0⟩
               move := some ⟨.target, t.track, t.polarity, false, true, late.clock⟩ } }))
     (m.flipDone = true → ended (.seekComplete elapsed false)) ∧
     (m.seekDone = true → ended (.polaritySettled elapsed false)) ∧
     (m.flipDone = false → exec (.seekComplete elapsed false) s =
       .next { late with pe := { s.pe with move := some { m with seekDone := true } } }) ∧
     (m.seekDone = false → exec (.polaritySettled elapsed false) s =
       .next { late with pe := { s.pe with move := some { m with flipDone := true } } }) ∧
     (exec (.seekComplete elapsed true) s = .next s ∧ exec (.polaritySettled elapsed true) s = .next s ∧
       exec (.seekFault elapsed true) s = .next s) ∧
     ∀ t : State, t.pe.state ≠ .moving → ∀ cancelled,
       exec (.seekComplete elapsed cancelled) t = .next t ∧
       exec (.polaritySettled elapsed cancelled) t = .next t ∧
       exec (.seekFault elapsed cancelled) t = .next t ∧ exec .moveLimitExpiry t = .next t) ∧
  ∀ (elapsed : Nat) (s : State) (m : Move), s.pe.state = .moving → s.pe.move = some m →
    let retry := if m.kind = .target then some ⟨m.track, m.polarity⟩ else s.pe.retry
    let bias := match retry with | some t => t.polarity | none => .erase
    let recalibrating := fun (t : State) =>
      { t with pe := { s.pe with
          seekFaults := 1, retry := retry, state := .moving
          move := some ⟨.recalibrate, 0, bias, false, false, t.clock⟩ } }
    (s.pe.seekFaults = 0 →
      exec (.seekFault elapsed false) s = .next (recalibrating (passUntil elapsed s)) ∧
      exec .moveLimitExpiry s = .next (recalibrating (passToClock (m.startedAt + 100000) s))) ∧
    (s.pe.seekFaults ≠ 0 → s.cc.state.isLocked = true → s.cc.recoveryCount < 2 → ∀ c : Instr,
      c = .seekFault elapsed false ∨ c = .moveLimitExpiry →
      ∃ t, exec c s = .next t ∧ t.cc.state = .recovering ∧ t.cc.prior = some s.cc.state ∧
        t.cc.recoveryCount = s.cc.recoveryCount + 1 ∧ t.pe.state = .stopped ∧ t.pe.move = none ∧
        t.pe.due = s.pe.due ∧ t.sc = s.sc ∧ t.rmt = s.rmt) ∧
    (s.pe.seekFaults ≠ 0 → s.cc.state.isLocked = true → 2 ≤ s.cc.recoveryCount → ∀ c : Instr,
      c = .seekFault elapsed false ∨ c = .moveLimitExpiry →
      ∃ t, exec c s = .next t ∧ t.cc.state = .failed ∧ t.pe.state = .stopped ∧ t.pe.move = none ∧
        t.outputs.motorOn = false ∧ t.rmt = s.rmt)

/-- R111 to R113, R118: at a sector end inside the revolution, on a dwelling head with no stream to feed and a due
operation on its track, the engine stays and begins the earliest offered operation on the sector whose mark it is;
a WRITE draws its data and its take then. A mark less than 16 units after the settle point is passed over (R14); one
further on begins the pass and clears the settle point. A pass under way first ends and its outcome goes to its owner,
and then comes the hold, the choice or neither. That the event itself moves the time to the sector's boundary (log
entry 2), that the data drawn stands in the pass (log entry 4) and that the settle point counts the index events since
(log entry 13) are the model's choice. -/
def Obligations.SectorEndsEndAPassAndTheMarkBeginsOne : Prop :=
  (∀ (found : Found) (s : State), s.pe.state = .dwelling → s.mci.hold = false → inLastSector s = false →
    let sector := sectorUnderHead s + 1
    let late := passUntil (s.timer.reaches (endAngle s)) s
    let markAngle := sector * 4096 / sectorsOn s.pe.headTrack
    let settled := ∀ p, s.pe.settle = some p → p.angle + 16 ≤ markAngle + 4096 * p.wraps
    (∀ op, s.pe.pass = none →
      (∀ ch, (s.su.get ch).state ≠ .opened) →
      (s.pe.due.find? fun x => x.addr == ⟨s.pe.headTrack, sector⟩ && x.kind.compatible s.pe.polarity) = some op →
      (¬ settled → exec (.sectorEnd found) s = .next late) ∧
      (settled → op.kind ≠ .write →
        exec (.sectorEnd found) s =
          .next { late with pe := { s.pe with settle := none, pass := some ⟨op, false, none⟩ } }) ∧
      (∀ copy i, settled → op.kind = .write → op.owner = .table copy i →
        exec (.sectorEnd found) s =
          .next { late with pe := { s.pe with settle := none, pass := some ⟨op, false, (s.rmt.image[i]?).join⟩ } }) ∧
      (∀ lba task, settled → op.kind = .write → op.owner = .task lba → taskAt s lba = some task →
        exec (.sectorEnd found) s = .next
          { late with
            pe := { s.pe with settle := none, pass := some ⟨op, false, some (bufferData s task.buffer)⟩ }
            cmu := { s.cmu with tasks := s.cmu.tasks.map fun y =>
              if y.lba = lba then { y with takeAtMark := some y.take } else y } })) ∧
    ∀ pass, s.pe.pass = some pass → s.mci.watch0 = none → s.mci.watch1 = none →
      let ended := { late with pe := { s.pe with pass := none } }
      let told :=
        if pass.withdrawn then clearTakeAtMark pass.op.owner ended
        else deliver pass.op (outcomeOf pass.op.kind found) ended
      exec (.sectorEnd found) s =
        .next (workArrival (sectorMark sector (endAngle s) (holdOrChoice told)))) ∧
  (∀ (settle : Option SettlePoint) (markAngle : Nat),
    isSettled settle markAngle = true ↔ ∀ p, settle = some p → p.angle + 16 ≤ markAngle + 4096 * p.wraps) ∧
  (∀ s : State,
    (s.pe.state = .dwelling → s.mci.hold = false → holdOrChoice s = makeChoice s) ∧
    (s.pe.state = .dwelling ∨ s.pe.state = .idle → s.mci.hold = true → AttnJudged s →
      holdOrChoice s = State.told .held
        { s with
          pe := { s.pe with state := .held }
          mci := { s.mci.noticed (.heldAt s.pe.headTrack s.timer.revolution) with hold := false } }) ∧
    (s.pe.state = .idle → s.mci.hold = false → holdOrChoice s = s) ∧
    (s.pe.state ∉ [EngineState.dwelling, .idle] → holdOrChoice s = s)) ∧
  ∀ (sector markAngle : Nat) (s : State),
    let settled := ∀ p, s.pe.settle = some p → p.angle + 16 ≤ markAngle + 4096 * p.wraps
    let passed := sectorMark sector markAngle s
    let arrived := { s with pe := { s.pe with settle := none } }
    let here := fun (op : DueOp) => op.addr = ⟨s.pe.headTrack, sector⟩ ∧ op.kind.compatible s.pe.polarity = true
    (s.pe.state ∉ [EngineState.dwelling, .held] → passed = s) ∧
    (s.pe.state ∈ [EngineState.dwelling, .held] →
      (¬ settled → passed = s) ∧
      (settled → (∀ op ∈ s.pe.due, ¬ here op) ∨ (s.pe.state = .held ∧ s.mci.stepReq = false) → passed = arrived) ∧
      ∀ earlier op later, settled → s.pe.due = earlier ++ op :: later → here op → (∀ x ∈ earlier, ¬ here x) →
        s.pe.state = .dwelling ∨ s.mci.stepReq = true →
        (op.kind ≠ .write → passed = { arrived with pe := { arrived.pe with pass := some ⟨op, false, none⟩ } }) ∧
        (∀ lba task, op.kind = .write → op.owner = .task lba → taskAt s lba = some task →
          passed =
            { arrived with
              pe := { arrived.pe with pass := some ⟨op, false, some (bufferData s task.buffer)⟩ }
              cmu := { s.cmu with tasks := s.cmu.tasks.map fun y =>
                if y.lba = lba then { y with takeAtMark := some y.take } else y } }) ∧
        ∀ copy i, op.kind = .write → op.owner = .table copy i →
          passed = { arrived with pe := { arrived.pe with pass := some ⟨op, false, (s.rmt.image[i]?).join⟩ } })

/-- R125 to R128, R184 to R186: at a sector end in DWELLING or IDLE a pending hold is taken, with its notice and
its line; in HELD it is cleared. In HELD a pending step begins the earliest offered pass of the mark, and at that
pass's end the outcome is delivered, the step line queued and the step cleared; the engine stays HELD unless a GO
waits. Each watch slot that matches a pass queues its line, slot 0's first (log entry 29), and with HOLD is disarmed
and stops the engine at that same sector end. The time of the event is log entry 2's, a hold request set in HELD log
entry 15's; that the step line is queued also where the outcome stops the engine is the model's choice (log entry
35). -/
def Obligations.HoldsStepsAndWatchesActAtTheSectorEnd : Prop :=
  (∀ (found : Found) (s : State), inLastSector s = false →
    let sector := sectorUnderHead s + 1
    let late := passUntil (s.timer.reaches (endAngle s)) s
    let settled := if isSettled s.pe.settle (endAngle s) then none else s.pe.settle
    let stamp := s.timer.revolution
    let held := fun (m : Console) => State.told .held
      { late with
        pe := { s.pe with state := .held, pass := none, settle := settled }
        mci := { m.noticed (.heldAt s.pe.headTrack stamp) with hold := false } }
    (s.pe.state = .dwelling ∨ s.pe.state = .idle → s.mci.hold = true → s.mci.stepReq = false →
      s.pe.pass = none → AttnJudged s → exec (.sectorEnd found) s = .next (held s.mci)) ∧
    (s.pe.state = .held → s.pe.pass = none → s.mci.stepReq = false →
      exec (.sectorEnd found) s =
        .next { late with pe := { s.pe with settle := settled }, mci := { s.mci with hold := false } }) ∧
    (∀ op, s.pe.state = .held → s.pe.pass = none → s.mci.stepReq = true →
      (s.pe.due.find? fun x =>
        x.addr == ⟨s.pe.headTrack, sector⟩ && x.kind.compatible s.pe.polarity) = some op →
      (isSettled s.pe.settle (endAngle s) = false →
        exec (.sectorEnd found) s = .next { late with mci := { s.mci with hold := false } }) ∧
      (isSettled s.pe.settle (endAngle s) = true → op.kind ≠ .write →
        exec (.sectorEnd found) s = .next
          { late with
            pe := { s.pe with settle := none, pass := some ⟨op, false, none⟩ }
            mci := { s.mci with hold := false } })) ∧
    (∀ pass, s.pe.state = .held → s.pe.pass = some pass → s.mci.watch0 = none → s.mci.watch1 = none →
      let ended := { late with pe := { s.pe with pass := none }, mci := { s.mci with hold := false } }
      let told :=
        if pass.withdrawn then clearTakeAtMark pass.op.owner ended
        else deliver pass.op (outcomeOf pass.op.kind found) ended
      let shown := if pass.withdrawn then .discarded else (outcomeOf pass.op.kind found).shown
      let stepped :=
        { told with
          pe := { told.pe with goWaiting := false }
          mci := { told.mci.noticed (.stepEnd pass.op.kind pass.op.addr shown told.timer.revolution) with
            stepReq := false } }
      exec (.sectorEnd found) s = .next (workArrival (sectorMark sector (endAngle s)
        (if told.pe.goWaiting = true ∧ told.pe.state = .held then makeChoice stepped else stepped)))) ∧
    ∀ pass lba w, s.pe.state = .dwelling → s.pe.pass = some pass → pass.withdrawn = true →
      pass.op.owner = .entry lba → s.mci.watch0 = some w → s.mci.watch1 = none → w.matches pass.op = true →
      w.action = .hold → s.mci.stepReq = false → AttnJudged s →
      exec (.sectorEnd found) s = .next (held
        { s.mci.noticed (.watchMatch 0 .hold pass.op.kind pass.op.addr .discarded stamp) with
          watch0 := some { w with armed := false } })) ∧
  (∀ (found : Found) (s : State) (pass : CurrentPass), s.pe.pass = some pass →
    let shown := if pass.withdrawn then .discarded else (outcomeOf pass.op.kind found).shown
    let judged := judgeWatch 1 pass.op shown
      (judgeWatch 0 pass.op shown { s with pe := { s.pe with pass := none } })
    endPass found s =
      if pass.withdrawn then clearTakeAtMark pass.op.owner judged
      else deliver pass.op (outcomeOf pass.op.kind found) judged) ∧
  ∀ (n : Nat) (op : DueOp) (shown : ShownOutcome) (s : State),
    let slot := if n = 0 then s.mci.watch0 else s.mci.watch1
    let listed := fun (k : KindSet) =>
      match op.kind with | .read => k.read | .erase => k.erase | .write => k.write | .verify => k.verify
    let line := fun (a : WatchAction) =>
      s.mci.noticed (.watchMatch n a op.kind op.addr shown s.timer.revolution)
    (slot = none → judgeWatch n op shown s = s) ∧
    ∀ w, slot = some w →
      (w.armed = false ∨ w.addr ≠ op.addr ∨ listed w.kinds = false → judgeWatch n op shown s = s) ∧
      (w.armed = true → w.addr = op.addr → listed w.kinds = true →
        (w.action = .note → judgeWatch n op shown s = { s with mci := line .note }) ∧
        (w.action = .hold → judgeWatch n op shown s = { s with mci :=
          { line .hold with
            hold := true
            watch0 := if n = 0 then some { w with armed := false } else s.mci.watch0
            watch1 := if n = 0 then s.mci.watch1 else some { w with armed := false } } }))

/-- R15, R116 to R120: the choice. A starving stream whose oldest READING sector lies off the head track is urgent,
and of the starving streams' oldest sectors the one of lower level, then lower cost, then Channel A's, is chosen. With
none urgent the engine stays for a compatible operation on its track. Else the operation of lowest cost is chosen,
ties by track, then sector, then the order of offering. A choice elsewhere starts a move of its two parts, with the
bias of an ERASE or WRITE that is not compatible. With nothing due the engine is IDLE, and one offer then makes the
choice. -/
def Obligations.TheChoiceIsUrgentThenStayThenBest : Prop :=
  ∀ s : State,
    let starving := fun (ch : Channel) =>
      let t := s.su.get ch
      t.state = .opened ∧ t.deliveryCursor < t.positions ∧ t.level < t.lowWater
    let oldest := fun (ch : Channel) =>
      ((s.su.get ch).refs.find? fun r => !r.ready).bind fun r => (entryAt s r.lba).map Entry.addr
    let distance := fun (p : Phys) => (p.track - s.pe.headTrack) + (s.pe.headTrack - p.track)
    let feedCost := fun (p : Phys) => accessCost s.angle (seekTime (distance p)) p.angle
    let goesTo := fun (track : Nat) (polarity : Polarity) =>
      makeChoice s = { s with pe := { s.pe with
        state := .moving
        move := some ⟨.target, track, polarity, track == s.pe.headTrack, polarity == s.pe.polarity, s.clock⟩ } }
    let stays := makeChoice s = { s with pe := { s.pe with state := .dwelling } }
    let goesToFeed := fun (p : Phys) =>
      (p.track ≠ s.pe.headTrack → goesTo p.track s.pe.polarity) ∧ (p.track = s.pe.headTrack → stays)
    let calm := ∀ ch p, starving ch → oldest ch = some p → p.track = s.pe.headTrack
    let here := fun (op : DueOp) => op.addr.track = s.pe.headTrack ∧ op.kind.compatible s.pe.polarity = true
    (∀ ch p, starving ch → oldest ch = some p → p.track ≠ s.pe.headTrack →
      ¬ starving (other ch) ∨ oldest (other ch) = none → goesToFeed p) ∧
    (∀ p q, starving .a → starving .b → oldest .a = some p → oldest .b = some q →
      p.track ≠ s.pe.headTrack ∨ q.track ≠ s.pe.headTrack →
      let level := fun (ch : Channel) => (s.su.get ch).level
      (level .b < level .a ∨ (level .b = level .a ∧ feedCost q < feedCost p) → goesToFeed q) ∧
      (level .a < level .b ∨ (level .a = level .b ∧ feedCost p ≤ feedCost q) → goesToFeed p)) ∧
    (calm → (∃ op ∈ s.pe.due, here op) → stays) ∧
    (calm → (∀ op ∈ s.pe.due, ¬ here op) → ∀ earlier op later, s.pe.due = earlier ++ op :: later →
      let cost := fun (x : DueOp) => accessCost s.angle
        (if x.kind.compatible s.pe.polarity then seekTime (distance x.addr)
          else if distance x.addr = 0 then 512 else max (seekTime (distance x.addr)) 512) x.addr.angle
      let better := fun (x y : DueOp) => cost x < cost y ∨ (cost x = cost y ∧
        (x.addr.track < y.addr.track ∨ (x.addr.track = y.addr.track ∧ x.addr.sector < y.addr.sector)))
      (∀ x ∈ earlier, better op x) → (∀ x ∈ later, ¬ better x op) →
      goesTo op.addr.track
        (match op.kind with | .erase => .erase | .write => .write | .read | .verify => s.pe.polarity)) ∧
    (calm → s.pe.due = [] → makeChoice s = { s with pe := { s.pe with state := .idle } }) ∧
    (s.pe.state ≠ .idle ∨ s.pe.due = [] → workArrival s = s) ∧
    (∀ op, s.pe.state = .idle → s.pe.due = [op] → workArrival s = makeChoice s)

/-- R4: a READ is GOOD at 0 to 16 corrections, BLANK on an erased sector, else UNREADABLE; a VERIFY is PASS at 0 to 4
corrections and FAIL otherwise; an ERASE or a WRITE is DONE. R89, R113: a sector's outcome goes to its cache entry, a
task's to the task that still stands at the stage and the sector of the pass, and else nowhere, a mount read's to the
mount while it is not resolved (R21). After a commit task's outcome the drain condition is judged, and once met in
DRAINING it clears the part and stops the spindle (R30). R91: a discarded WRITE clears its take at mark. -/
def Obligations.OutcomesAreJudgedAndReachTheirOwners : Prop :=
  ((∀ (data : Payload) (n : Nat),
      (n ≤ 16 → outcomeOf .read (.decoded data n) = .good data n) ∧
      (16 < n → outcomeOf .read (.decoded data n) = .unreadable) ∧
      (n ≤ 4 → outcomeOf .verify (.decoded data n) = .pass) ∧
      (4 < n → outcomeOf .verify (.decoded data n) = .fail)) ∧
    outcomeOf .read .uncorrectable = .unreadable ∧ outcomeOf .read .erased = .blank ∧
    outcomeOf .verify .uncorrectable = .fail ∧ outcomeOf .verify .erased = .fail ∧
    ∀ found, outcomeOf .erase found = .done ∧ outcomeOf .write found = .done) ∧
  (∀ (op : DueOp) (o : PassOutcome) (s : State),
    let pass := fun (stage : Stage) =>
      match stage with
      | .eraseDue => PassKind.erase
      | .writeDue => .write
      | .verifyDue => .verify
    (∀ lba, op.owner = .entry lba → deliver op o s = entryOutcome lba op.addr o s) ∧
    (∀ lba, op.owner = .task lba →
      (taskAt s lba = none → deliver op o s = s) ∧
      ∀ t, taskAt s lba = some t →
        (pass t.stage = op.kind → t.addr = op.addr → deliver op o s = drainCheck (stageOutcome t o s)) ∧
        (pass t.stage ≠ op.kind ∨ t.addr ≠ op.addr → deliver op o s = s)) ∧
    (∀ c i, op.owner = .table c i →
      (tableTaskAt s c i = none → deliver op o s = s) ∧
      ∀ t, tableTaskAt s c i = some t →
        (pass t.stage = op.kind → deliver op o s = tableStageOutcome t o s) ∧
        (pass t.stage ≠ op.kind → deliver op o s = s)) ∧
    ∀ c i, op.owner = .mount c i →
      ((mountRecord c i s).outcome = none →
        deliver op o s = mountOutcome c i o s ∧ mountDelivered c i o s = mountOutcome c i o s) ∧
      ((mountRecord c i s).outcome ≠ none → deliver op o s = s ∧ mountDelivered c i o s = s)) ∧
  (∀ s : State,
    let met := s.cmu.tasks = [] ∧ s.cmu.tableTasks = [] ∧ (s.rmt.state = .clean ∨ s.rmt.fault = true) ∧
      s.links.a.dataPhase = none ∧ s.links.b.dataPhase = none
    (s.cc.state ≠ .draining ∨ ¬ met → drainCheck s = s) ∧
    (s.cc.state = .draining → met → s.lines.spindleAtRest = false →
      let t := drainCheck s
      t.cc.state = .spinningDown ∧ t.cc.limit = some ⟨.stop, s.clock + 5000000⟩ ∧ t.cc.eject = s.cc.eject ∧
        t.cc.mount = clearedMount ∧ t.outputs.motorOn = false ∧ t.pe.state = .stopped ∧ t.pe.pass = none ∧
        t.pe.due = [] ∧ t.rmt = RemapTable.unloaded ∧ t.sc.entries = [] ∧ t.cmu.waiters = [] ∧
        t.su = ⟨Stream.closed, Stream.closed⟩ ∧ t.cu = { s.cu with locks := [] })) ∧
  ∀ (o : OpOwner) (s : State),
    (∀ lba, o = .task lba → clearTakeAtMark o s =
      { s with cmu := { s.cmu with tasks := s.cmu.tasks.map fun y =>
          if y.lba = lba then { y with takeAtMark := none } else y } }) ∧
    ((∀ lba, o ≠ .task lba) → clearTakeAtMark o s = s)

/-- R8, R40: while a table is loaded an LBA translates to the spare of the ACTIVE entry of its home, and else to its
home. R41: a spare request is refused TABLE_FAULT or NO_SPARE by the first case that applies, and else granted the
lowest spare index of the zone that no entry has. R38, R42: a grant to a home without an ACTIVE entry adds one, in its
place in table order. R43: a grant to a home that has one puts the new spare into it and adds a SPENT entry for the old
spare, in its place. R44: both carry generation G + 1; from a CLEAN table a flush of that generation starts (R45), in a
FLUSHING one the change is marked changed again. From then on the home translates to the spare. R87: a new task at the
spare of an ACTIVE entry not yet in a verified copy carries that entry's generation, any other none. -/
def Obligations.SparesAreGrantedAndTranslated : Prop :=
  (∀ (table : RemapTable) (lba : Nat),
    (table.loaded = false → table.translate lba = homeOf lba) ∧
    (table.loaded = true → (∀ e ∈ table.entries, e.kind ≠ .active (homeOf lba)) →
      table.translate lba = homeOf lba) ∧
    ∀ e ∈ table.entries, table.loaded = true → EntriesSound table.entries → e.kind = .active (homeOf lba) →
      table.translate lba = spareAt e.zone e.index) ∧
  (∀ (table : RemapTable) (z : Nat),
    let barred := table.loaded = false ∨ table.fault = true ∨ table.generation = 4294967295
    let used := fun (j : Nat) => ∃ e ∈ table.entries, e.zone = z ∧ e.index = j
    (barred → table.judgeSpare z = .error .tableFault) ∧
    (¬ barred → (∀ j < 10 * (29 - z), used j) → table.judgeSpare z = .error .noSpare) ∧
    ∀ j < 10 * (29 - z), ¬ barred → ¬ used j → (∀ k < j, used k) → table.judgeSpare z = .ok j) ∧
  (∀ (table : RemapTable) (home : Phys) (z j : Nat), EntriesSound table.entries →
    let before := fun (p q : Phys) => p.track < q.track ∨ (p.track = q.track ∧ p.sector < q.sector)
    let follows := fun (y x : RemapEntry) => match x.kind, y.kind with
      | .active h, .active k => before h k
      | .active _, .spent => True
      | .spent, .active _ => False
      | .spent, .spent => before (spareAt x.zone x.index) (spareAt y.zone y.index)
    let added := fun (now : List RemapEntry) (x : RemapEntry) =>
      ∃ earlier later, now = earlier ++ later ∧ table.granted home z j = earlier ++ x :: later ∧
        (∀ y ∈ earlier, follows x y) ∧ ∀ y ∈ later, follows y x
    ((∀ e ∈ table.entries, e.kind ≠ .active home) →
      added table.entries ⟨.active home, z, j, table.generation + 1⟩) ∧
    ∀ old ∈ table.entries, old.kind = .active home →
      added
        (table.entries.map fun e =>
          if e.kind = .active home then ⟨.active home, z, j, table.generation + 1⟩ else e)
        ⟨.spent, old.zone, old.index, table.generation + 1⟩) ∧
  (∀ (home : Phys) (z j : Nat) (s : State),
    let table := { s.rmt with entries := s.rmt.granted home z j }
    let next := min (s.rmt.generation + 1) 4294967295
    (s.rmt.state = .clean →
      grantSpare home z j s =
        { s with
          rmt := { table with
            state := .flushing, generation := next, image := imageArea (tableImage next table.entries)
            changedAgain := false, progress := some ⟨.writing 0, .waiting⟩ }
          cmu := { s.cmu with tableTasks := s.cmu.tableTasks ++
            ((List.range 28).map fun i => ⟨.a, i, .eraseDue, 0, false⟩) ++
            (List.range 28).map fun i => ⟨.b, i, .eraseDue, 0, true⟩ }
          pe := { s.pe with
            due := s.pe.due ++ (List.range 28).map fun i => ⟨.table .a i, .erase, ⟨0, i⟩⟩ } }) ∧
    (s.rmt.state = .flushing → grantSpare home z j s = { s with rmt := { table with changedAgain := true } }) ∧
    ∀ lba, s.rmt.loaded = true → homeOf lba = home → (grantSpare home z j s).rmt.translate lba = spareAt z j) ∧
  ∀ (table : RemapTable) (addr : Phys),
    ((∀ e ∈ table.entries, e.kind = .spent ∨ spareAt e.zone e.index ≠ addr) → table.unverifiedMove addr = none) ∧
    ∀ e ∈ table.entries, EntriesSound table.entries → e.kind ≠ .spent → spareAt e.zone e.index = addr →
      (table.verifiedGen < e.generation → table.unverifiedMove addr = some e.generation) ∧
      (e.generation ≤ table.verifiedGen → table.unverifiedMove addr = none)

/-- R90 to R92, R94: an ERASE done makes the WRITE due and a WRITE of the task's own data the VERIFY; a WRITE of
older data stays due; a VERIFY that passes, or the WRITE under policy NEVER, finishes the task: its entry becomes
CLEAN, or its newer data is promoted to a task of its own, and the waiters are judged. One that fails with
reassignments left and a spare granted starts over at the spare, with the newer data where there is some. -/
def Obligations.CommitStagesFollowTheirOutcomes : Prop :=
  ∀ (t : CommitTask) (s : State), taskAt s t.lba = some t →
    let without :=
      { s.pe with
        due := s.pe.due.filter fun op => op.owner != .task t.lba
        pass := s.pe.pass.map fun c => if c.op.owner = .task t.lba then { c with withdrawn := true } else c }
    let restaged := fun (now : CommitTask) (kind : PassKind) (r : State) =>
      { r with
        cmu := { r.cmu with tasks := r.cmu.tasks.map fun y => if y.lba = t.lba then now else y }
        pe := { r.pe with
          due := (r.pe.due.filter fun op => op.owner != .task t.lba) ++ [⟨.task t.lba, kind, now.addr⟩]
          pass := r.pe.pass.map fun c => if c.op.owner = .task t.lba then { c with withdrawn := true } else c } }
    let finished := fun (r : State) => judgeFinish ⟨t.lba, t.take, t.reassignGen⟩ (freeingEvent r)
    let left := s.cmu.tasks.filter fun y => y.lba != t.lba
    (t.stage = .eraseDue →
      stageOutcome t .done s = restaged { t with stage := .writeDue } .write s) ∧
    (t.stage = .writeDue → t.policy = .always → t.takeAtMark = some t.take →
      stageOutcome t .done s = restaged { t with stage := .verifyDue, takeAtMark := none } .verify s) ∧
    (t.stage = .writeDue → t.takeAtMark ≠ some t.take →
      stageOutcome t .done s =
        { s with cmu := { s.cmu with tasks := s.cmu.tasks.map fun y =>
            if y.lba = t.lba then { t with takeAtMark := none } else y } }) ∧
    (∀ e o, (t.stage = .verifyDue ∧ o = .pass) ∨
        (t.stage = .writeDue ∧ o = .done ∧ t.policy = .never ∧ t.takeAtMark = some t.take) →
      entryAt s t.lba = some e →
      (e.state = .committing →
        stageOutcome t o s = finished
          { s with
            cmu := { s.cmu with tasks := left }
            sc := { s.sc with entries := s.sc.entries.map fun x =>
              if x.lba = t.lba then { x with state := .clean } else x }
            pe := without }) ∧
      (∀ b, e.state = .committingNewer → e.newer = some b →
        stageOutcome t o s = finished
          { s with
            cmu := { s.cmu with tasks := left ++
              [⟨t.lba, e.addr, .eraseDue, b, e.take.getD 0, s.cu.settings.verifyPolicy, 0,
                s.rmt.unverifiedMove e.addr, none⟩] }
            sc := { s.sc with
              entries := s.sc.entries.map fun x =>
                if x.lba = t.lba then { x with state := .committing, current := b, newer := none } else x
              freeList := s.sc.freeList ++ [e.current] }
            pe := { without with due := without.due ++ [⟨.task t.lba, .erase, e.addr⟩] } })) ∧
    (∀ e j, t.stage = .verifyDue → t.used < s.cu.settings.reassignLimit → entryAt s t.lba = some e →
      s.rmt.judgeSpare (zoneOfLba t.lba) = .ok j →
      let spare := spareAt (zoneOfLba t.lba) j
      let granted := grantSpare (homeOf t.lba) (zoneOfLba t.lba) j s
      let moved :=
        { t with
          addr := spare, stage := .eraseDue, used := t.used + 1, reassignGen := some (s.rmt.generation + 1)
          takeAtMark := none }
      (e.state = .committing →
        stageOutcome t .fail s = restaged moved .erase
          { granted with sc := { s.sc with entries := s.sc.entries.map fun x =>
              if x.lba = t.lba then { x with addr := spare } else x } }) ∧
      (∀ b, e.state = .committingNewer → e.newer = some b →
        stageOutcome t .fail s = freeingEvent (restaged { moved with buffer := b, take := e.take.getD 0 } .erase
          { granted with sc := { s.sc with
              entries := s.sc.entries.map fun x => if x.lba = t.lba then
                { x with addr := spare, state := .committing, current := b, newer := none } else x
              freeList := s.sc.freeList ++ [e.current] } })))

/-- R41, R94 to R96, R81: a task whose VERIFY fails at the reassign limit, or with no spare to be had, fails. The
waiters that hold its LBA open complete WRITE_FAULT; the writer's record, unless a sync waiter of the writer stood
for it, joins the list of an attached channel, or sets MORE on a full one, with its notice; the task and its entry
are removed and the references resolve LOST. -/
def Obligations.AFailedTaskEndsItsWaitersAndLeavesARecord : Prop :=
  let recorded := fun (ch : Channel) (x : FaultRecord) (r : State) =>
    if (r.links.get ch).attached then
      let l := r.cmu.faults.get ch
      let listed : FaultList :=
        if l.records.length < 16 then { l with records := l.records ++ [x] } else { l with more := true }
      notify ch .deferredFault { r with cmu := { r.cmu with faults := r.cmu.faults.set ch listed } }
    else r
  ∀ (t : CommitTask) (e : Entry) (s : State) (reason : FaultReason), t.stage = .verifyDue →
    entryAt s t.lba = some e →
    let z := zoneOfLba t.lba
    let barred := s.rmt.loaded = false ∨ s.rmt.fault = true ∨ s.rmt.generation = maxGeneration
    (s.cu.settings.reassignLimit ≤ t.used ∧ reason = .verifyLimit) ∨
      (t.used < s.cu.settings.reassignLimit ∧ barred ∧ reason = .tableFault) ∨
      (t.used < s.cu.settings.reassignLimit ∧ ¬ barred ∧ reason = .noSpare ∧
        ∀ j < 10 * (29 - z), ∃ r ∈ s.rmt.entries, r.zone = z ∧ r.index = j) →
    let holds := fun (w : Waiter) => w.sectors.any fun x => x.lba == t.lba && x.cond != .satisfied
    let told : State := (s.cmu.waiters.filter holds).foldl
      (fun r w => postReport w.channel w.tag w.kind.queued .writeFault t.lba false r)
      { s with cmu := { s.cmu with waiters := s.cmu.waiters.filter fun w => !holds w } }
    let known : State := match e.writer with
      | some ch =>
        if s.cmu.waiters.any fun (w : Waiter) => w.kind == .sync && w.channel == ch && holds w then told
        else recorded ch ⟨t.lba, reason⟩ told
      | none => told
    stageOutcome t .fail s = freeingEvent (refsBad t.lba .lost
      { known with
        cmu := { known.cmu with tasks := s.cmu.tasks.filter fun y => y.lba != t.lba }
        pe := { s.pe with
          due := s.pe.due.filter fun op => op.owner != .task t.lba
          pass := s.pe.pass.map fun c =>
            if c.op.owner = .task t.lba then { c with withdrawn := true } else c }
        sc := { s.sc with
          entries := s.sc.entries.filter fun x => x.lba != t.lba
          recency := s.sc.recency.erase t.lba
          freeList := s.sc.freeList ++ e.buffers } })

/-- R82, R103: at the clearing for eject each committing entry, in slot order, ends the waiters that hold its LBA
open, MEDIUM_FAULT at their lowest LBA not SATISFIED, and leaves a record EJECTED for an attached writer unless a sync
waiter of the writer held the LBA open when the clearing began (log entry 18). Every other waiter then ends the same
way, and the tasks are gone. The cache is emptied, its buffers freed in slot order, every reference resolves LOST, and
each PENDING read record completes, DEGRADED with its bad count, oldest accepted first; a freeing event follows. The
order of the blocks is the model's reading (log entry 26). -/
def Obligations.TheClearingForEjectEndsTheWork : Prop :=
  ∀ s : State,
    let recorded := fun (ch : Channel) (x : FaultRecord) (r : State) =>
      if (r.links.get ch).attached then
        let l := r.cmu.faults.get ch
        let listed : FaultList :=
          if l.records.length < 16 then { l with records := l.records ++ [x] } else { l with more := true }
        notify ch .deferredFault { r with cmu := { r.cmu with faults := r.cmu.faults.set ch listed } }
      else r
    let holds := fun (lba : Nat) (w : Waiter) => w.sectors.any fun x => x.lba == lba && x.cond != .satisfied
    let lowest := fun (w : Waiter) =>
      ((w.sectors.filter fun x => x.cond != .satisfied).map WaitSector.lba).foldl min lbaCount
    let ended := fun (gone : Waiter → Bool) (r : State) =>
      (r.cmu.waiters.filter gone).foldl
        (fun r w => postReport w.channel w.tag w.kind.queued .mediumFault (lowest w) false r)
        { r with cmu := { r.cmu with waiters := r.cmu.waiters.filter fun w => !gone w } }
    let synced := fun (ch : Channel) (lba : Nat) =>
      s.cmu.waiters.any fun w => w.kind == .sync && w.channel == ch && holds lba w
    let dealt := fun (r : State) (e : Entry) =>
      match e.writer with
      | some ch =>
        if synced ch e.lba then ended (holds e.lba) r else recorded ch ⟨e.lba, .ejected⟩ (ended (holds e.lba) r)
      | none => ended (holds e.lba) r
    let committing := s.sc.entries.filter fun e => e.state == .committing || e.state == .committingNewer
    let known := ended (fun _ => true) (committing.foldl dealt s)
    let lost := fun (x : ReadRef) => x.cond == .waiting || x.cond == .ready
    let bad := fun (r : ReadRecord) => r.bad + r.refs.countP lost
    let without := fun (gone : OpOwner → Bool) (pe : Engine) =>
      { pe with
        due := pe.due.filter fun op => !gone op.owner
        pass := pe.pass.map fun c => if gone c.op.owner then { c with withdrawn := true } else c }
    clearCommit s =
      { known with
        cmu := { known.cmu with tasks := [], tableTasks := [] }
        pe := without OpOwner.isCommit s.pe } ∧
    clearCache s = freeingEvent
      ((s.sc.reads.filter fun r => !r.complete).foldl
        (fun t r =>
          if bad r = 0 then postReport r.channel r.tag .read .ok r.count false t
          else postReport r.channel r.tag .read .degraded (bad r) false t)
        { s with
          pe := without OpOwner.isEntry s.pe
          sc := { s.sc with
            entries := [], recency := [], freeList := s.sc.freeList ++ s.sc.entries.flatMap Entry.buffers
            reads := s.sc.reads.map fun r =>
              { r with
                complete := true
                bad := if r.complete then r.bad else bad r
                refs := r.refs.map fun x => if lost x then { x with cond := .bad .lost } else x } } }) ∧
    let cleared := clearCache (clearCommit { s with su := ⟨Stream.closed, Stream.closed⟩ })
    clearPart s =
      { cleared with
        cc := { cleared.cc with mount := clearedMount }, cu := { cleared.cu with locks := [] }
        rmt := RemapTable.unloaded, pe := without OpOwner.isMount cleared.pe }

/-- R98 to R101, R194: a finishing record judges every PENDING sector of its LBA taken no later: SATISFIED, marked
superseded where taken earlier, or AWAITING_TABLE while its reassignment is not covered, which under the fault mark
ends the waiter TABLE_FAULT. A verified generation satisfies the sectors it covers, and a table fault ends the waiters
it concerns with their lowest such LBA. A waiter whose every sector is SATISFIED reports OK. All are judged, and
report, in order of registration. -/
def Obligations.WaitersAreSatisfiedByFinishesAndVerifiedTables : Prop :=
  let done := fun (w : Waiter) => w.sectors.all fun x => x.cond == .satisfied
  let ok := fun (w : Waiter) =>
    match w.kind with
    | .sync => (ReportStatus.ok, w.count, w.sectors.any WaitSector.superseded)
    | .flush => (ReportStatus.ok, w.sectors.length, false)
  let judged := fun (after : Waiter → Waiter) (ended : Waiter → Option (ReportStatus × Nat × Bool)) (s : State) =>
    s.cmu.waiters.foldl
      (fun r w => match ended w with
        | some x => postReport w.channel w.tag w.kind.queued x.1 x.2.1 x.2.2 r
        | none => r)
      { s with cmu := { s.cmu with
          waiters := (s.cmu.waiters.filter fun w => (ended w).isNone).map after } }
  (∀ (lba take : Nat) (gen : Option Nat) (s : State),
    let covered := ∀ g, gen = some g → g ≤ s.rmt.verifiedGen
    let judges := fun (x : WaitSector) => x.lba == lba && x.cond == .pending && decide (x.take ≤ take)
    let settle := fun (cond : WaitCond) (x : WaitSector) =>
      if judges x then { x with cond := cond, superseded := x.superseded || x.take < take } else x
    let after := fun (cond : WaitCond) (w : Waiter) => { w with sectors := w.sectors.map (settle cond) }
    (covered →
      judgeFinish ⟨lba, take, gen⟩ s = judged (after .satisfied)
        (fun w => if done (after .satisfied w) then some (ok (after .satisfied w)) else none) s) ∧
    ∀ g, gen = some g → ¬ covered →
      (s.rmt.fault = false → judgeFinish ⟨lba, take, gen⟩ s = judged (after (.awaitingTable g))
        (fun w => if done (after (.awaitingTable g) w) then some (ok (after (.awaitingTable g) w)) else none)
        s) ∧
      (s.rmt.fault = true → judgeFinish ⟨lba, take, gen⟩ s = judged (after (.awaitingTable g))
        (fun w =>
          if w.sectors.any judges then some (.tableFault, lba, false)
          else if done w then some (ok w) else none) s)) ∧
  ∀ (v : Nat) (s : State),
    let release := fun (x : WaitSector) =>
      match x.cond with
      | .awaitingTable g => if g ≤ v then { x with cond := .satisfied } else x
      | _ => x
    let after := fun (w : Waiter) => { w with sectors := w.sectors.map release }
    let awaits := fun (x : WaitSector) => match x.cond with | .awaitingTable g => v ≤ g | _ => false
    tableVerified v s = judged after (fun w => if done (after w) then some (ok (after w)) else none) s ∧
    tableFaulted v s = judged id
      (fun w =>
        if w.sectors.any awaits then
          some (.tableFault, ((w.sectors.filter awaits).map WaitSector.lba).foldl min lbaCount, false)
        else none) s

/-- R46, R90, R93: a table task goes from ERASE to WRITE to VERIFY and, when its VERIFY fails, starts over at most
twice; a verified sector is counted. R47: the last sector of the first copy to verify raises the verified generation,
which is told to the waiters; copy A verified or abandoned makes copy B's tasks due. R48, R49: a flush with a copy
verified ends CLEAN, or, changed again, is followed by one of the next generation, and an INITIALISE with it READY;
with both copies failed the table is DIRTY with its fault mark, the waiters are told, a READY cartridge is READ_ONLY,
and an INITIALISE ends UNUSABLE with TABLE_FAULT (R35). Elsewhere the drain condition is judged (R30). -/
def Obligations.TableTasksVerifyTheirCopiesAndFlushesEnd : Prop :=
  ∀ (t : TableTask) (s : State), tableTaskAt s t.copy t.sector = some t →
    let without := fun (gone : OpOwner → Bool) =>
      { s.pe with
        due := s.pe.due.filter fun op => !gone op.owner
        pass := s.pe.pass.map fun c => if gone c.op.owner then { c with withdrawn := true } else c }
    let mine := fun (o : OpOwner) => o == .table t.copy t.sector
    let restaged := fun (now : TableTask) (kind : PassKind) =>
      { s with
        cmu := { s.cmu with tableTasks := s.cmu.tableTasks.map fun y =>
          if y.copy = t.copy ∧ y.sector = t.sector then now else y }
        pe := { without mine with
          due := (without mine).due ++ [⟨.table t.copy t.sector, kind, ⟨t.copy.track, t.sector⟩⟩] } }
    let others := s.cmu.tableTasks.filter fun y => y.copy != t.copy
    let verified := fun (table : RemapTable) =>
      { s with
        cmu := { s.cmu with tableTasks := s.cmu.tableTasks.filter fun y =>
          !(y.copy == t.copy && y.sector == t.sector) }
        pe := without mine
        rmt := table }
    let abandoned := fun (table : RemapTable) =>
      { s with
        cmu := { s.cmu with tableTasks := others }
        pe := without fun o => o.isTableOf t.copy
        rmt := table }
    let copyBStarts := fun (a : CopyStatus) (r : State) =>
      { r with
        cmu := { r.cmu with tableTasks :=
          r.cmu.tableTasks.map fun y => if y.copy = .b then { y with held := false } else y }
        pe := { r.pe with due := r.pe.due ++ (r.cmu.tableTasks.filter fun y => y.copy == .b).map TableTask.op }
        rmt := { r.rmt with progress := some ⟨a, .writing 0⟩ } }
    let clean := fun (r : State) => { r with rmt := { r.rmt with progress := none, state := .clean } }
    (t.stage = .eraseDue → tableStageOutcome t .done s = restaged { t with stage := .writeDue } .write) ∧
    (t.stage = .writeDue → tableStageOutcome t .done s = restaged { t with stage := .verifyDue } .verify) ∧
    (t.stage = .verifyDue → t.restarts < 2 →
      tableStageOutcome t .fail s =
        restaged { t with stage := .eraseDue, restarts := t.restarts + 1 } .erase) ∧
    ∀ p, s.rmt.progress = some p → t.stage = .verifyDue →
      let raised := fun (now : FlushProgress) => tableVerified s.rmt.generation
        (verified { s.rmt with verifiedGen := s.rmt.generation, progress := some now })
      (∀ n, p.get t.copy = .writing n → n < 27 →
        tableStageOutcome t .pass s =
          verified { s.rmt with progress := some (p.set t.copy (.writing (n + 1))) }) ∧
      (t.copy = .a → p.copyA = .writing 27 →
        tableStageOutcome t .pass s = copyBStarts .verified (raised { p with copyA := .verified })) ∧
      (∀ n, t.copy = .a → p.copyA = .writing n → 2 ≤ t.restarts →
        tableStageOutcome t .fail s = copyBStarts .failed (abandoned s.rmt)) ∧
      (t.copy = .b →
        let ends := fun (o : PassOutcome) (r : State) =>
          let next := min (s.rmt.generation + 1) maxGeneration
          let again : State :=
            { r with
              rmt := { r.rmt with
                generation := next, image := imageArea (tableImage next s.rmt.entries), changedAgain := false
                progress := some ⟨.writing 0, .waiting⟩, state := .flushing }
              cmu := { r.cmu with tableTasks := r.cmu.tableTasks ++
                ((List.range 28).map fun i => ⟨.a, i, .eraseDue, 0, false⟩) ++
                (List.range 28).map fun i => ⟨.b, i, .eraseDue, 0, true⟩ }
              pe := { r.pe with
                due := r.pe.due ++ (List.range 28).map fun i => ⟨.table .a i, .erase, ⟨0, i⟩⟩ } }
          let endState := if s.rmt.changedAgain then again else clean r
          (s.cc.initialise = none → tableStageOutcome t o s = drainCheck endState) ∧
          (s.cc.initialise = none → s.cc.state ≠ .draining → tableStageOutcome t o s = endState) ∧
          (∀ ch tag, s.cc.initialise = some ⟨ch, tag⟩ → AttnJudged s →
            let told := postReport ch tag .initialise .ok 0 false
              (State.told .cartridge { endState with cc := { endState.cc with state := .ready } })
            tableStageOutcome t o s = { told with cc := { told.cc with initialise := none } })
        (p = ⟨.verified, .writing 27⟩ → ends .pass (verified s.rmt)) ∧
        (p = ⟨.failed, .writing 27⟩ → ends .pass (raised ⟨.failed, .verified⟩)) ∧
        ∀ n, p = ⟨.verified, .writing n⟩ → 2 ≤ t.restarts → ends .fail (abandoned s.rmt)) ∧
      (∀ n, t.copy = .b → p = ⟨.failed, .writing n⟩ → 2 ≤ t.restarts → AttnJudged s →
        let r := tableFaulted s.rmt.generation (abandoned
          { s.rmt with progress := none, changedAgain := false, fault := true, state := .dirty })
        let entered := fun (st : CartState) => State.told .cartridge { r with cc := { r.cc with state := st } }
        (s.cc.initialise = none → s.cc.state = .ready → tableStageOutcome t .fail s = entered .readOnly) ∧
        (s.cc.initialise = none → s.cc.state ≠ .ready → tableStageOutcome t .fail s = drainCheck r) ∧
        ∀ ch tag, s.cc.initialise = some ⟨ch, tag⟩ →
          let told := postReport ch tag .initialise .tableFault 0 false (entered .unusable)
          tableStageOutcome t .fail s = { told with cc := { told.cc with initialise := none } })

/-- R68, R70, R138, R195: when an entry receives data every waiting reference to it becomes ready; a PENDING read
record whose last waiting reference that was completes, OK with its count or DEGRADED with its bad count, oldest
accepted first; a stream whose level goes from 0 to 1 posts STREAM_DATA. R69, R139: when an entry is removed its
references resolve bad and count as bad in a PENDING record, which is judged likewise; a stream becomes FAULTED at the
first position that refers to it, drops the references at and above it and posts STREAM_FAULT. R170: a notice sets its
flag on an attached link. -/
def Obligations.ReferencesBecomeReadyOrResolveBad : Prop :=
  (∀ (ch : Channel) (e : EventFlag) (s : State), AttnJudged s →
    notify ch e s = s.withLink ch ((s.links.get ch).told e)) ∧
  ∀ (lba : Nat) (status : BadStatus) (s : State),
    let completed := fun (after : ReadRecord → ReadRecord) =>
      let ends := fun (r : ReadRecord) =>
        !r.complete && (r.refs.any fun x => x.lba == lba) && r.refs.all fun x => x.cond != .waiting
      let judged := s.sc.reads.map after
      (judged.filter ends).foldl
        (fun t r =>
          if r.bad = 0 then postReport r.channel r.tag .read .ok r.count false t
          else postReport r.channel r.tag .read .degraded r.bad false t)
        { s with sc := { s.sc with
            reads := judged.map fun r => if ends r then { r with complete := true } else r } }
    let pinned := fun (x : ReadRef) => x.lba == lba && (x.cond == .waiting || x.cond == .ready)
    refsReady lba s =
      streamReadied .b lba (streamReadied .a lba (completed fun r =>
        { r with refs := r.refs.map fun x =>
            if x.lba = lba ∧ x.cond = .waiting then { x with cond := .ready } else x })) ∧
    refsBad lba status s =
      streamSpoiled .b lba status (streamSpoiled .a lba status (completed fun r =>
        { r with
          bad := if r.complete then r.bad else r.bad + r.refs.countP pinned
          refs := r.refs.map fun x => if pinned x then { x with cond := .bad status } else x })) ∧
    ∀ ch : Channel,
      let t := s.su.get ch
      let refs := t.refs.map fun x => if x.lba = lba then { x with ready := true } else x
      let level := refs.countP StreamRef.ready
      let readied := { s with su := s.su.set ch { t with refs := refs } }
      (t.level = 0 → level = 1 → streamReadied ch lba s = notify ch .streamData readied) ∧
      (t.level ≠ 0 ∨ level ≠ 1 → streamReadied ch lba s = readied) ∧
      ((∀ x ∈ t.refs, x.lba ≠ lba) → streamSpoiled ch lba status s = s) ∧
      ∀ before x after, t.refs = before ++ x :: after → x.lba = lba → (∀ y ∈ before, y.lba ≠ lba) →
        let faulted : Stream :=
          { t with
            state := .faulted, refs := t.refs.filter fun y => y.position < x.position
            faultPosition := some x.position, faultStatus := some status, prefetchWaiting := false }
        streamSpoiled ch lba status s = notify ch .streamFault { s with su := s.su.set ch faulted }

/-- R68, R69: a READ outcome with data, or BLANK, makes its READING entry CLEAN, its references ready and its
operation no longer due. An UNREADABLE one is counted, and above the read-retries setting it removes the entry, its
references resolving UNREADABLE. An outcome for an entry no longer READING there is discarded. -/
def Obligations.ReadOutcomesReachTheirEntries : Prop :=
  ∀ (e : Entry) (s : State), entryAt s e.lba = some e →
    let settled := fun (data : Payload) (blank : Bool) =>
      { s with
        sc := { s.sc with
          buffers := s.sc.buffers.setIfInBounds e.current data
          entries := s.sc.entries.map fun x =>
            if x.lba = e.lba then { x with state := .clean, blank := blank, retries := 0 } else x }
        pe := { s.pe with
          due := s.pe.due.filter fun op => op.owner != .entry e.lba
          pass := s.pe.pass.map fun c =>
            if c.op.owner = .entry e.lba then { c with withdrawn := true } else c } }
    let arrived := fun (r : State) => if isUnpinnedClean r e.lba then freeingEvent r else r
    (e.state = .reading →
      (∀ data n, entryOutcome e.lba e.addr (.good data n) s =
        arrived (refsReady e.lba (settled data false))) ∧
      entryOutcome e.lba e.addr .blank s = arrived (refsReady e.lba (settled 0 true)) ∧
      (e.retries < s.cu.settings.readRetries →
        entryOutcome e.lba e.addr .unreadable s =
          { s with sc := { s.sc with entries := s.sc.entries.map fun x =>
              if x.lba = e.lba then { x with retries := x.retries + 1 } else x } }) ∧
      (s.cu.settings.readRetries ≤ e.retries →
        entryOutcome e.lba e.addr .unreadable s = freeingEvent (refsBad e.lba .unreadable
          { s with
            sc := { s.sc with
              entries := s.sc.entries.filter fun x => x.lba != e.lba
              recency := s.sc.recency.erase e.lba
              freeList := s.sc.freeList ++ e.buffers }
            pe := { s.pe with
              due := s.pe.due.filter fun op => op.owner != .entry e.lba
              pass := s.pe.pass.map fun c =>
                if c.op.owner = .entry e.lba then { c with withdrawn := true } else c } }))) ∧
    (∀ addr o, e.state ≠ .reading ∨ e.addr ≠ addr → entryOutcome e.lba addr o s = s)

/-! ## The console (Section 10) -/

/-- R179 to R183: S stores an item and an index and displays, N moves the index on and displays, D displays; the
index is held within its collection, and an empty collection shows none. A line whose fields the command does not
take is answered with the error line and changes nothing else. Every item shows the fields listed for it and no other
(a stream those of R146); that a channel's requests, reports, reads and fault records are shown as counts is the
model's choice (log entry 32). -/
def Obligations.DisplayCommandsShowTheSelectedItem : Prop :=
  ∀ s : State, s.mci.Ready →
    let shown := fun (letter : ConsoleLetter) (item index : Nat) =>
      let at_ := match collectionSize s item with
        | none => index
        | some 0 => 0
        | some (n + 1) => min index n
      let x := if collectionSize s item = some 0 then Shown.empty item else shownItem item at_ s
      { s with mci := { s.mci.answered (.shown x) with item := item, index := at_, last := some letter } }
    let error := { s with mci := s.mci.answered (.error s.mci.last) }
    (∀ i item, hexNumber 1 i = some item → item ≤ 12 →
      exec (.selectDisplay [i]) s = .next (shown .s item 0)) ∧
    (∀ i n item index, hexNumber 1 i = some item → item ≤ 12 → hexNumber 4 n = some index →
      exec (.selectDisplay [i, n]) s = .next (shown .s item index)) ∧
    (∀ i item, hexNumber 1 i = some item → 12 < item → exec (.selectDisplay [i]) s = .next error) ∧
    exec (.selectDisplay []) s = .next error ∧
    exec (.nextDisplay []) s = .next (shown .n s.mci.item (min (s.mci.index + 1) 65535)) ∧
    exec (.display []) s = .next (shown .d s.mci.item s.mci.index) ∧
    (∀ field rest, exec (.nextDisplay (field :: rest)) s = .next error ∧
      exec (.display (field :: rest)) s = .next error) ∧
    (∀ n e, (s.sc.entries.find? fun e => e.slot == n) = some e → shownItem 3 n s = .slotEntry n
      ⟨e.lba, e.addr, e.state, e.blank, e.writer, pinCount s e.lba, e.take, e.retries⟩) ∧
    let count := fun (st : EntryState) => s.sc.entries.countP fun e => e.state == st
    let reserved := fun (ch : Channel) => match (s.links.get ch).dataPhase with | some d => d.slots | none => []
    (∀ n, shownItem 0 n s = .cartridge s.cc.state s.cc.tab s.cc.recoveryCount s.cc.prior
        (s.cc.limit.map MechLimit.kind) ∧
      shownItem 1 n s = .engine s.pe.headTrack s.angle s.pe.polarity s.pe.state ∧
      shownItem 2 n s = .cache (count .reading) (count .clean) (count .committing) (count .committingNewer)
        (freeSlots s).length s.sc.freeList.length (reserved .a).length (reserved .b).length s.sc.takes ∧
      shownItem 11 n s = .settings s.cu.settings ∧
      shownItem 12 n s = .watch n (if n = 0 then s.mci.watch0 else s.mci.watch1)) ∧
    (∀ n, (∀ e ∈ s.sc.entries, e.slot ≠ n) →
      (n ∈ reserved .a ∨ n ∈ reserved .b → shownItem 3 n s = .slotReserved n) ∧
      (n ∉ reserved .a → n ∉ reserved .b → shownItem 3 n s = .slotFree n)) ∧
    (∀ n t, s.cmu.tasks[n]? = some t → shownItem 4 n s = .commitTask n
      ⟨t.lba, t.addr, t.stage, t.take, t.policy, t.used, t.reassignGen⟩) ∧
    (∀ n t, ((s.cmu.tableTasks.filter fun y => y.copy == .a) ++
        s.cmu.tableTasks.filter fun y => y.copy == .b)[n]? = some t →
      shownItem 4 (s.cmu.tasks.length + n) s = .tableTask (s.cmu.tasks.length + n) t) ∧
    (∀ n e, s.cu.locks[n]? = some e → shownItem 6 n s = .lock n e) ∧
    (∀ ch n, shownItem (match ch with | .a => 7 | .b => 8) n s =
      let l := s.links.get ch
      .channel ch
        { attached := l.attached, restarted := l.restarted, outstanding := l.outstanding.length
          unread := l.reports.length, flags := l.flags, mask := l.mask, style := l.style
          phase := l.dataPhase.map fun d => (d.tag, d.count, d.received)
          reads := s.sc.reads.countP fun r => r.channel == ch
          committing :=
            (s.sc.entries.countP fun e =>
              (e.state == .committing || e.state == .committingNewer) && e.writer == some ch) +
            (match l.dataPhase with | some d => d.count | none => 0)
          faults := (s.cmu.faults.get ch).records.length, more := (s.cmu.faults.get ch).more
          want := s.sc.wants.get ch }) ∧
    (∀ n e, s.rmt.entries[n]? = some e → shownItem 5 n s = .remap n
      ⟨e.home?.isSome, e.home?, spareAt e.zone e.index, e.zone, e.index, e.generation⟩) ∧
    ∀ ch n, shownItem (match ch with | .a => 9 | .b => 10) n s =
      let t := s.su.get ch
      .stream ch ⟨t.state, t.positions, t.prefetchCursor, t.deliveryCursor, t.depth, t.lowWater, t.level,
        t.inFlight, t.faultPosition, t.faultStatus, t.prefetchWaiting⟩

/-- R125 to R127, R184, R185: H sets the hold request and says whether the engine is held; G leaves HELD by a
choice, or cancels a hold that waits, or reports that the engine runs; T asks for a step only in HELD, with none
asked and a compatible operation due on the head track. R186, R187: W sets and arms a watch slot, C clears one, and E
writes one setting, clamped, with the notice to both links. A slot other than 0 and 1, a sector that does not exist
and an id above 3 are errors. That a GO in HELD leaves a hold request that stands set is the model's reading (log
entry 15); that the response to E shows the verify policy applied by its code is its choice (log entry 19). -/
def Obligations.EngineWatchAndSettingLinesAreAnswered : Prop :=
  (∀ s : State, s.mci.Ready →
     let error := exec (.step []) s = .next { s with mci := s.mci.answered (.error s.mci.last) }
     let here := ∃ op ∈ s.pe.due, op.addr.track = s.pe.headTrack ∧ op.kind.compatible s.pe.polarity = true
     exec (.hold []) s = .next { s with mci :=
       { s.mci.answered (if s.pe.state = .held then .held else .holdPending) with
         hold := true, last := some .h } } ∧
     (s.pe.state = .held → s.pe.pass = none →
       exec (.go []) s = .next { makeChoice s with mci :=
         { s.mci.answered .go with stepReq := false, last := some .g } }) ∧
     (s.pe.state = .held → s.pe.pass ≠ none →
       exec (.go []) s = .next
         { s with
           pe := { s.pe with goWaiting := true }
           mci := { s.mci.answered .go with last := some .g } }) ∧
     (s.pe.state ≠ .held → s.mci.hold = true →
       exec (.go []) s = .next { s with mci :=
         { s.mci.answered .holdCancelled with hold := false, last := some .g } }) ∧
     (s.pe.state ≠ .held → s.mci.hold = false →
       exec (.go []) s = .next { s with mci := { s.mci.answered .running with last := some .g } }) ∧
     (s.pe.state = .held → s.mci.stepReq = false → here →
       exec (.step []) s = .next { s with mci :=
         { s.mci.answered .step with stepReq := true, last := some .t } }) ∧
     (s.pe.state ≠ .held ∨ s.mci.stepReq = true ∨ ¬ here → error)) ∧
  ∀ s : State, s.mci.Ready → Steady s →
    let error := { s with mci := s.mci.answered (.error s.mci.last) }
    (∀ kinds action track sector k a t n, watchKinds kinds = some k → watchAction action = some a →
      hexNumber 4 track = some t → hexNumber 2 sector = some n →
      (t ≤ 20001 → n < sectorsOn t →
        exec (.watch [['0'], kinds, action, track, sector]) s = .next { s with mci :=
          { s.mci.answered (.watch 0) with watch0 := some ⟨⟨t, n⟩, k, a, true⟩, last := some .w } } ∧
        exec (.watch [['1'], kinds, action, track, sector]) s = .next { s with mci :=
          { s.mci.answered (.watch 1) with watch1 := some ⟨⟨t, n⟩, k, a, true⟩, last := some .w } }) ∧
      (20001 < t ∨ sectorsOn t ≤ n → ∀ slot,
        exec (.watch [slot, kinds, action, track, sector]) s = .next error)) ∧
    (∀ slot kinds action track sector, slot ≠ ['0'] → slot ≠ ['1'] →
      exec (.watch [slot, kinds, action, track, sector]) s = .next error) ∧
    exec (.clearWatch [['0']]) s = .next { s with mci :=
      { s.mci.answered (.clearWatch 0) with watch0 := none, last := some .c } } ∧
    exec (.clearWatch [['1']]) s = .next { s with mci :=
      { s.mci.answered (.clearWatch 1) with watch1 := none, last := some .c } } ∧
    (∀ slot, slot ≠ ['0'] → slot ≠ ['1'] → exec (.clearWatch [slot]) s = .next error) ∧
    ∀ i v id value, hexNumber 1 i = some id → hexNumber 4 v = some value →
      let written := fun (now : Settings) (applied : Nat) =>
        { State.told .settings { s with cu := { s.cu with settings := now } } with mci :=
          { s.mci.answered (.setting id applied) with last := some .e } }
      (id = 0 → exec (.settingEntry [i, v]) s =
        .next (written { s.cu.settings with readRetries := min value 7 } (min value 7))) ∧
      (id = 1 → exec (.settingEntry [i, v]) s =
        .next (written { s.cu.settings with reassignLimit := min value 3 } (min value 3))) ∧
      (id = 2 → exec (.settingEntry [i, v]) s =
        .next (written { s.cu.settings with verifyPolicy := if value = 1 then .never else .always }
          (if value = 1 then 1 else 0))) ∧
      (id = 3 → max 8 (min value 64) ≤ s.cu.settings.dirtyLimit → exec (.settingEntry [i, v]) s =
        .next (written { s.cu.settings with dirtyLimit := max 8 (min value 64) } (max 8 (min value 64)))) ∧
      (id = 3 → s.cu.settings.dirtyLimit < max 8 (min value 64) → exec (.settingEntry [i, v]) s =
        .next (workArrival
          { freeingEvent (State.told .settings
              { s with cu := { s.cu with settings := { s.cu.settings with dirtyLimit := max 8 (min value 64) } } })
            with mci :=
              { s.mci.answered (.setting id (max 8 (min value 64))) with last := some .e } })) ∧
      (3 < id → exec (.settingEntry [i, v]) s = .next error)

/-- R179, R181, R188: characters build the line, a line ended by a carriage return is judged as the row of its
letter, one with no fields is answered ">", one of an unknown letter or marked overlong with the error line, and a
sent line leaves the queue. "?" with the strap high queues "> CLEAR" behind a line being sent and stops the console
until the clear; with the strap low it is an error. R181: an unsolicited line joins a queue of fewer than 8 lines, with
"+" where one was lost before it, and is lost at a full one. At a full queue a response line displaces the oldest
unsolicited line not being sent, and the lost mark is set; with none to displace the ended line is discarded unjudged.
That rows are ended lines, the phases of the clear, and that the oldest line of the queue is the one being sent, which
decides what is displaced and what is discarded, are the model's choice (log entry 19). -/
def Obligations.ConsoleLinesAreBuiltJudgedQueuedAndDisplaced : Prop :=
  (∀ s : State, Steady s →
     (∀ c, s.mci.clearing ≠ .none → exec (.consoleCharacter c) s = .next s) ∧
     (s.mci.clearing = .none →
       (∀ c, exec (.consoleCharacter (.printable c)) s = .next { s with mci :=
         if s.mci.line.length < 40 then { s.mci with line := s.mci.line ++ [c] }
         else { s.mci with overlong := true } }) ∧
       exec (.consoleCharacter .backspace) s = .next { s with mci :=
         if s.mci.overlong then s.mci else { s.mci with line := s.mci.line.dropLast } } ∧
       exec (.consoleCharacter .lineFeed) s = .next s ∧
       (∀ c ∈ [ConsoleChar.otherControl, .framingError],
         exec (.consoleCharacter c) s = .next { s with mci := { s.mci with overlong := true } })) ∧
     (∀ first rest letter, splitFields s.mci.line = first :: rest → commandLetter first = some letter →
       ∃ t, exec (consoleCommand letter rest) s = .next t ∧
         exec (.consoleCharacter .carriageReturn) s = .next (workArrival t)) ∧
     (s.mci.Ready →
       let answered := fun (r : Reply) =>
         exec (.consoleCharacter .carriageReturn) s = .next { s with mci := s.mci.answered r }
       (splitFields s.mci.line = [] → answered .prompt) ∧
       ∀ first rest, splitFields s.mci.line = first :: rest → commandLetter first = none →
         answered (.error s.mci.last)) ∧
     (s.mci.clearing = .none → s.mci.overlong = true → s.mci.queue.length < 8 →
       exec (.consoleCharacter .carriageReturn) s =
         .next { s with mci := s.mci.answered (.error s.mci.last) }) ∧
     (∀ line rest, s.mci.queue = line :: rest →
       exec .consoleLineSent s = .next { s with mci :=
         { s.mci with
           queue := rest
           clearing := if s.mci.clearing = .lineQueued ∧ line = .reply .clear then .lineSent
             else s.mci.clearing } }) ∧
     (s.mci.queue = [] → exec .consoleLineSent s = .next s) ∧
     (s.mci.Ready →
       exec (.consoleClear []) s = .next
         (if s.lines.strapHigh then
           { s with mci :=
             { s.mci with
               line := [], queue := s.mci.queue.take 1 ++ [.reply .clear], clearing := .lineQueued
               last := some .question } }
         else { s with mci := s.mci.answered (.error s.mci.last) }))) ∧
  (∀ (x : ConsoleNotice) (s : State),
    (s.mci.queue.length < 8 → queueNotice x s =
      { s with mci := { s.mci with queue := s.mci.queue ++ [.notice s.mci.lost x], lost := false } }) ∧
    (8 ≤ s.mci.queue.length → queueNotice x s = { s with mci := { s.mci with lost := true } })) ∧
  (∀ s : State, Steady s → s.mci.clearing = .none → 8 ≤ s.mci.queue.length →
    let ended := { s.mci with line := [], overlong := false }
    (∀ sending waiting, s.mci.queue = sending :: waiting → (∀ line ∈ waiting, line.isNotice = false) →
      exec (.consoleCharacter .carriageReturn) s = .next { s with mci := ended } ∧
      ∀ letter fields, exec (consoleCommand letter fields) s = .next { s with mci := ended }) ∧
    ∀ sending before plus x after,
      s.mci.queue = sending :: before ++ ConsoleLine.notice plus x :: after →
      (∀ line ∈ before, line.isNotice = false) →
      let displaced := fun (r : Reply) =>
        { ended with queue := sending :: before ++ after ++ [.reply r], lost := true }
      (s.mci.overlong = true → ∀ letter fields,
        exec (consoleCommand letter fields) s = .next { s with mci := displaced (.error s.mci.last) }) ∧
      (s.mci.overlong = false →
        exec (.hold []) s = .next { s with mci :=
          { displaced (if s.pe.state = .held then .held else .holdPending) with
            hold := true, last := some .h } } ∧
        ∀ field rest, exec (.hold (field :: rest)) s =
          .next { s with mci := displaced (.error s.mci.last) }))

/-- R179 to R188: numbers are printed in hexadecimal capitals, without leading zeros, and read back as the number.
Every line ends with a carriage return and a line feed. A response
line is ">" with its words, the error line "*" with the last accepted letter, and a display begins with its item and
index, then each field's name and value, states by their names and an absent value as "-". The lines of a hold, a step
and a watch match show their parts in order. That words stand one space apart, the words for marks, and the order of
several values in one field are the model's choice, and the fields' names are free (log entry 19). -/
def Obligations.ConsoleLinesAreSpelled : Prop :=
  let sp := [' ']
  (∀ n : Nat, hexValue 0 (hexText n) = some n ∧
    (0 < n → (hexText n).head? ≠ some '0') ∧
    ∀ c ∈ hexText n, (48 ≤ c.toNat ∧ c.toNat ≤ 57) ∨ (65 ≤ c.toNat ∧ c.toNat ≤ 70)) ∧
  (∀ (m : Console) (line : ConsoleLine) (rest : List ConsoleLine), m.queue = line :: rest →
    m.sending = line.text ++ ['\r', '\n']) ∧
  (∀ (plus : Bool) (stamp : BitVec 16) (p : Phys),
    let start := if plus then "=+ ".toList else "= ".toList
    let place := hexText p.track ++ sp ++ hexText p.sector
    let ending := sp ++ hexText stamp.toNat
    (∀ track, (ConsoleLine.notice plus (.heldAt track stamp)).text =
      start ++ "HELD ".toList ++ hexText track ++ ending) ∧
    (∀ (kind : PassKind) (o : ShownOutcome),
      (ConsoleLine.notice plus (.stepEnd kind p o stamp)).text =
        start ++ "T ".toList ++ kind.text ++ sp ++ place ++ sp ++ o.text ++ ending ∧
      ∀ slot (action : WatchAction),
        (ConsoleLine.notice plus (.watchMatch slot action kind p o stamp)).text =
          start ++ "W ".toList ++ hexText slot ++ sp ++
            (match action with | .hold => ['H'] | .note => ['N']) ++ sp ++ kind.text ++ sp ++ place ++ sp ++
            o.text ++ ending)) ∧
  (∀ row ∈ [(Reply.prompt, ">"), (.error none, "*"), (.error (some .s), "*S"), (.error (some .n), "*N"),
      (.error (some .d), "*D"), (.error (some .h), "*H"), (.error (some .g), "*G"), (.error (some .t), "*T"),
      (.error (some .w), "*W"), (.error (some .c), "*C"), (.error (some .e), "*E"),
      (.error (some .question), "*?"), (.held, "> HELD"), (.holdPending, "> HOLD PENDING"), (.go, "> GO"),
      (.holdCancelled, "> HOLD CANCELLED"), (.running, "> RUNNING"), (.step, "> STEP"), (.clear, "> CLEAR"),
      (.shown (.empty 6), "> NONE")],
    (ConsoleLine.reply row.1).text = row.2.toList) ∧
  (∀ slot, (ConsoleLine.reply (.watch slot)).text = "> W ".toList ++ hexText slot ∧
    (ConsoleLine.reply (.clearWatch slot)).text = "> C ".toList ++ hexText slot) ∧
  (∀ id value, (ConsoleLine.reply (.setting id value)).text =
    "> E ".toList ++ hexText id ++ sp ++ hexText value) ∧
  (∀ row ∈ [(CartState.empty.text, "EMPTY"), (CartState.loading.text, "LOADING"),
      (CartState.spinningUp.text, "SPINNING_UP"), (CartState.mounting.text, "MOUNTING"),
      (CartState.ready.text, "READY"), (CartState.readOnly.text, "READ_ONLY"),
      (CartState.unformatted.text, "UNFORMATTED"), (CartState.unusable.text, "UNUSABLE"),
      (CartState.draining.text, "DRAINING"), (CartState.spinningDown.text, "SPINNING_DOWN"),
      (CartState.ejecting.text, "EJECTING"), (CartState.recovering.text, "RECOVERING"),
      (CartState.failed.text, "FAILED"), (LimitKind.clamp.text, "CLAMP"), (LimitKind.lock.text, "LOCK"),
      (LimitKind.stop.text, "STOP"), (LimitKind.switch.text, "SWITCH"), (Polarity.erase.text, "ERASE"),
      (Polarity.write.text, "WRITE"), (EngineState.stopped.text, "STOPPED"), (EngineState.idle.text, "IDLE"),
      (EngineState.moving.text, "MOVING"), (EngineState.dwelling.text, "DWELLING"), (EngineState.held.text, "HELD"),
      (EntryState.reading.text, "READING"), (EntryState.clean.text, "CLEAN"),
      (EntryState.committing.text, "COMMITTING"), (EntryState.committingNewer.text, "COMMITTING_NEWER"),
      (channelText .a, "A"), (channelText .b, "B"), (Stage.eraseDue.text, "ERASE_DUE"),
      (Stage.writeDue.text, "WRITE_DUE"), (Stage.verifyDue.text, "VERIFY_DUE"),
      (VerifyPolicy.always.text, "ALWAYS"), (VerifyPolicy.never.text, "NEVER"), (TableCopy.a.text, "A"),
      (TableCopy.b.text, "B"), (LockMode.writeGuard.text, "WRITE_GUARD"), (LockMode.fullGuard.text, "FULL_GUARD"),
      (ClearStyle.pullClear.text, "PULL_CLEAR"), (ClearStyle.explicit.text, "EXPLICIT"),
      (StreamState.closed.text, "CLOSED"), (StreamState.opened.text, "OPEN"), (StreamState.ended.text, "ENDED"),
      (StreamState.faulted.text, "FAULTED"), (BadStatus.unreadable.text, "UNREADABLE"), (BadStatus.lost.text, "LOST"),
      (PassKind.read.text, "READ"), (PassKind.erase.text, "ERASE"), (PassKind.write.text, "WRITE"),
      (PassKind.verify.text, "VERIFY"), (ShownOutcome.unreadable.text, "UNREADABLE"),
      (ShownOutcome.blank.text, "BLANK"), (ShownOutcome.done.text, "DONE"), (ShownOutcome.pass.text, "PASS"),
      (ShownOutcome.fail.text, "FAIL"), (ShownOutcome.discarded.text, "DISCARDED"),
      (WatchAction.hold.text, "HOLD"), (WatchAction.note.text, "NOTE"), (WantKind.read.text, "READ"),
      (WantKind.write.text, "WRITE"), (flagsText 0, "-"),
      (flagsText 2047, "REPORT MAIL STREAM_DATA STREAM_LOW STREAM_END STREAM_FAULT SPACE CARTRIDGE SETTINGS " ++
        "DEFERRED_FAULT HELD"),
      (KindSet.text ⟨true, true, true, true⟩, "READ ERASE WRITE VERIFY")],
    row.1 = row.2.toList) ∧
  (∀ n, (ShownOutcome.good n).text = "GOOD ".toList ++ hexText n) ∧
  let mark := fun (set : Bool) => if set then "SET".toList else "CLEAR".toList
  let dash := fun (v : Option Text) => match v with | some x => x | none => ['-']
  let address := fun (p : Phys) => hexText p.track ++ sp ++ hexText p.sector
  let head := fun (item : Nat) (index : Option Nat) =>
    "> ".toList ++ hexText item ++ (match index with | some i => sp ++ hexText i | none => [])
  let shows := fun (x : Shown) (item : Nat) (index : Option Nat) (name : Nat) (values : List Text) =>
    (ConsoleLine.reply (.shown x)).text = head item index ++
      (values.zipIdx name).flatMap fun v => sp ++ Config.fieldName item v.2 ++ sp ++ v.1
  (∀ i, (ConsoleLine.reply (.shown (.slotFree i))).text = head 3 (some i) ++ " FREE".toList ∧
    (ConsoleLine.reply (.shown (.slotReserved i))).text = head 3 (some i) ++ " RESERVED".toList ∧
    (ConsoleLine.reply (.shown (.watch i none))).text = head 12 (some i) ++ " ABSENT".toList) ∧
  (∀ state tab recovery prior limit, shows (.cartridge state tab recovery prior limit) 0 none 0
    [state.text, mark tab, hexText recovery, dash (prior.map CartState.text), dash (limit.map LimitKind.text)]) ∧
  (∀ track angle polarity state, shows (.engine track angle polarity state) 1 none 0
    [hexText track, hexText angle, polarity.text, state.text]) ∧
  (∀ a b c d e f g h i, shows (.cache a b c d e f g h i) 2 none 0 ([a, b, c, d, e, f, g, h, i].map hexText)) ∧
  (∀ n x, shows (.slotEntry n x) 3 (some n) 0
    [hexText x.lba, address x.addr, x.state.text, (if x.blank then "BLANK" else "DATA").toList,
      dash (x.writer.map channelText), hexText x.pins, dash (x.take.map hexText), hexText x.retries]) ∧
  (∀ n x, shows (.commitTask n x) 4 (some n) 0
    [hexText x.lba, address x.addr, x.stage.text, hexText x.take, x.policy.text, hexText x.used,
      dash (x.reassignGen.map hexText)]) ∧
  (∀ n x, shows (.tableTask n x) 4 (some n) 7
    [x.copy.text, hexText x.sector, x.stage.text, hexText x.restarts, (if x.held then "YES" else "NO").toList]) ∧
  (∀ n x, shows (.remap n x) 5 (some n) 0
    [(if x.active then "ACTIVE" else "SPENT").toList, dash (x.home.map address),
      address x.spare ++ sp ++ hexText x.zone ++ sp ++ hexText x.index, hexText x.generation]) ∧
  (∀ n x, shows (.lock n x) 6 (some n) 0
    [channelText x.owner, hexText x.first, hexText x.count, x.mode.text, hexText x.handle]) ∧
  (∀ ch x, shows (.channel ch x) (match ch with | .a => 7 | .b => 8) none 0
    [(if x.attached then "ATTACHED" else "DETACHED").toList, mark x.restarted, hexText x.outstanding,
      hexText x.unread, flagsText x.flags, flagsText x.mask, x.style.text,
      dash (x.phase.map fun p => hexText p.1.toNat ++ sp ++ hexText p.2.1 ++ sp ++ hexText p.2.2),
      hexText x.reads, hexText x.committing, hexText x.faults, mark x.more,
      dash (x.want.map fun w => w.kind.text ++ sp ++ hexText w.count)]) ∧
  (∀ ch x, shows (.stream ch x) (match ch with | .a => 9 | .b => 10) none 0
    [x.state.text, hexText x.positions, hexText x.prefetchCursor, hexText x.deliveryCursor, hexText x.depth,
      hexText x.lowWater, hexText x.level, hexText x.inFlight, dash (x.faultPosition.map hexText),
      dash (x.faultStatus.map BadStatus.text), mark x.prefetchWaiting]) ∧
  (∀ x, shows (.settings x) 11 none 0
    [hexText x.readRetries, hexText x.reassignLimit, x.verifyPolicy.text, hexText x.dirtyLimit]) ∧
  ∀ n w, shows (.watch n (some w)) 12 (some n) 0
    [hexText w.addr.track, hexText w.addr.sector, w.kinds.text, w.action.text,
      (if w.armed then "ARMED" else "DISARMED").toList]
end

