-- ==== Sys2Proof/Laws/State.lean ====
section
/-! SUPPORT. One lemma per field per named update, true by unfolding, so that no proof unfolds a record. -/

set_option Elab.async false

namespace Sys2Proof.Machine

/-! ## One value per channel -/

@[simp] theorem PerChannel.get_set_self {α : Type} (p : PerChannel α) (ch : Channel) (x : α) :
    (p.set ch x).get ch = x := by cases ch <;> rfl

@[simp] theorem PerChannel.get_set_other {α : Type} (p : PerChannel α) (ch : Channel) (x : α) :
    (p.set ch x).get (other ch) = p.get (other ch) := by cases ch <;> rfl

@[simp] theorem PerChannel.get_other_set {α : Type} (p : PerChannel α) (ch : Channel) (x : α) :
    (p.set (other ch) x).get ch = p.get ch := by cases ch <;> rfl

@[simp] theorem PerChannel.set_set {α : Type} (p : PerChannel α) (ch : Channel) (x y : α) :
    (p.set ch x).set ch y = p.set ch y := by cases ch <;> rfl

@[simp] theorem PerChannel.set_get {α : Type} (p : PerChannel α) (ch : Channel) :
    p.set ch (p.get ch) = p := by cases ch <;> rfl

theorem PerChannel.get_set {α : Type} (p : PerChannel α) (c d : Channel) (x : α) :
    (p.set c x).get d = if d = c then x else p.get d := by cases c <;> cases d <;> rfl

@[simp] theorem other_other (ch : Channel) : other (other ch) = ch := by cases ch <;> rfl

@[simp] theorem other_ne (ch : Channel) : other ch ≠ ch := by cases ch <;> decide

/-! ## Links -/

@[simp] theorem Link.judged_attn (l : Link) : l.judged.attn = l.attnDue := rfl
@[simp] theorem Link.judged_attnDue (l : Link) : l.judged.attnDue = l.attnDue := rfl
@[simp] theorem Link.judged_attached (l : Link) : l.judged.attached = l.attached := rfl
@[simp] theorem Link.judged_restarted (l : Link) : l.judged.restarted = l.restarted := rfl
@[simp] theorem Link.judged_outstanding (l : Link) : l.judged.outstanding = l.outstanding := rfl
@[simp] theorem Link.judged_reports (l : Link) : l.judged.reports = l.reports := rfl
@[simp] theorem Link.judged_flags (l : Link) : l.judged.flags = l.flags := rfl
@[simp] theorem Link.judged_mask (l : Link) : l.judged.mask = l.mask := rfl
@[simp] theorem Link.judged_style (l : Link) : l.judged.style = l.style := rfl
@[simp] theorem Link.judged_dataPhase (l : Link) : l.judged.dataPhase = l.dataPhase := rfl
@[simp] theorem Link.judged_response (l : Link) : l.judged.response = l.response := rfl
@[simp] theorem Link.judged_resetAsserted (l : Link) : l.judged.resetAsserted = l.resetAsserted := rfl
@[simp] theorem Link.judged_discardTail (l : Link) : l.judged.discardTail = l.discardTail := rfl
@[simp] theorem Link.judged_load (l : Link) : l.judged.load = l.load := rfl
@[simp] theorem Link.judged_judged (l : Link) : l.judged.judged = l.judged := rfl

/-- A link whose ATTN stands as judged is left alone by the judging. -/
theorem Link.judged_eq (l : Link) (h : l.attn = l.attnDue) : l.judged = l := by
  cases l; simp only [Link.judged]; rw [← h]

@[simp] theorem updLink_links (ch : Channel) (g : Link → Link) (s : State) :
    (updLink ch g s).links = s.links.set ch (g (s.links.get ch)).judged := rfl
@[simp] theorem updLink_clock (ch : Channel) (g : Link → Link) (s : State) :
    (updLink ch g s).clock = s.clock := rfl
@[simp] theorem updLink_timer (ch : Channel) (g : Link → Link) (s : State) :
    (updLink ch g s).timer = s.timer := rfl
@[simp] theorem updLink_lines (ch : Channel) (g : Link → Link) (s : State) :
    (updLink ch g s).lines = s.lines := rfl
@[simp] theorem updLink_outputs (ch : Channel) (g : Link → Link) (s : State) :
    (updLink ch g s).outputs = s.outputs := rfl
@[simp] theorem updLink_cc (ch : Channel) (g : Link → Link) (s : State) : (updLink ch g s).cc = s.cc := rfl
@[simp] theorem updLink_rmt (ch : Channel) (g : Link → Link) (s : State) :
    (updLink ch g s).rmt = s.rmt := rfl
@[simp] theorem updLink_sc (ch : Channel) (g : Link → Link) (s : State) : (updLink ch g s).sc = s.sc := rfl
@[simp] theorem updLink_cmu (ch : Channel) (g : Link → Link) (s : State) :
    (updLink ch g s).cmu = s.cmu := rfl
@[simp] theorem updLink_pe (ch : Channel) (g : Link → Link) (s : State) : (updLink ch g s).pe = s.pe := rfl
@[simp] theorem updLink_su (ch : Channel) (g : Link → Link) (s : State) : (updLink ch g s).su = s.su := rfl
@[simp] theorem updLink_cu (ch : Channel) (g : Link → Link) (s : State) : (updLink ch g s).cu = s.cu := rfl
@[simp] theorem updLink_mci (ch : Channel) (g : Link → Link) (s : State) :
    (updLink ch g s).mci = s.mci := rfl
@[simp] theorem updLink_freeCount (ch : Channel) (g : Link → Link) (s : State) :
    (updLink ch g s).freeCount = s.freeCount := rfl
@[simp] theorem updLink_pending (ch : Channel) (g : Link → Link) (s : State) :
    (updLink ch g s).pending = s.pending := rfl

/-! ## Streams, console, due set -/

@[simp] theorem updStream_su (ch : Channel) (g : Stream → Stream) (s : State) :
    (updStream ch g s).su = s.su.set ch (g (s.su.get ch)) := rfl
@[simp] theorem updStream_links (ch : Channel) (g : Stream → Stream) (s : State) :
    (updStream ch g s).links = s.links := rfl
@[simp] theorem updStream_sc (ch : Channel) (g : Stream → Stream) (s : State) :
    (updStream ch g s).sc = s.sc := rfl
@[simp] theorem updStream_pe (ch : Channel) (g : Stream → Stream) (s : State) :
    (updStream ch g s).pe = s.pe := rfl
@[simp] theorem updStream_cu (ch : Channel) (g : Stream → Stream) (s : State) :
    (updStream ch g s).cu = s.cu := rfl
@[simp] theorem updStream_cc (ch : Channel) (g : Stream → Stream) (s : State) :
    (updStream ch g s).cc = s.cc := rfl
@[simp] theorem updConsole_mci (g : Console → Console) (s : State) :
    (updConsole g s).mci = g s.mci := rfl
@[simp] theorem updConsole_pe (g : Console → Console) (s : State) : (updConsole g s).pe = s.pe := rfl
@[simp] theorem updConsole_links (g : Console → Console) (s : State) :
    (updConsole g s).links = s.links := rfl
@[simp] theorem updConsole_cu (g : Console → Console) (s : State) : (updConsole g s).cu = s.cu := rfl
@[simp] theorem offer_due (op : DueOp) (s : State) : (offer op s).pe.due = s.pe.due ++ [op] := rfl
@[simp] theorem offer_links (op : DueOp) (s : State) : (offer op s).links = s.links := rfl
@[simp] theorem offer_sc (op : DueOp) (s : State) : (offer op s).sc = s.sc := rfl
@[simp] theorem withdrawAll_due (p : OpOwner → Bool) (s : State) :
    (withdrawAll p s).pe.due = s.pe.due.filter fun op => !p op.owner := rfl
@[simp] theorem withdrawAll_state (p : OpOwner → Bool) (s : State) :
    (withdrawAll p s).pe.state = s.pe.state := rfl

/-! ## Time -/

@[simp] theorem passUntil_clock (e : Nat) (s : State) :
    (passUntil e s).clock = s.clock + (e - s.timer.elapsed) := rfl
@[simp] theorem passUntil_pe (e : Nat) (s : State) : (passUntil e s).pe = s.pe := rfl
@[simp] theorem passUntil_links (e : Nat) (s : State) : (passUntil e s).links = s.links := rfl
@[simp] theorem passUntil_cc (e : Nat) (s : State) : (passUntil e s).cc = s.cc := rfl
@[simp] theorem passToClock_pe (d : Nat) (s : State) : (passToClock d s).pe = s.pe := rfl
@[simp] theorem passToClock_links (d : Nat) (s : State) : (passToClock d s).links = s.links := rfl
@[simp] theorem passToClock_cc (d : Nat) (s : State) : (passToClock d s).cc = s.cc := rfl

end Sys2Proof.Machine
end

