-- ==== Sys2Proof/Laws/Keeps.lean ====
section
/-! SUPPORT. What the shared operations keep, said once for each of them. `Keeps r s`: whatever law of
Safety.lean held of r holds of s. `Calm r s` says more: the engine did not stop or start, the controller's
state, prior state and limit are as they were, and no mount read joined the due set. -/

set_option Elab.async false

namespace Sys2Proof.Machine

/-! ## The relations -/

/-- The laws of one link carried from l to m. -/
structure LinkKeeps (l m : Link) : Prop where
  attached : m.attached = l.attached
  restarted : m.restarted = l.restarted
  attn : l.attn = l.attnDue → m.attn = m.attnDue
  load : l.load ≤ 32 → m.load ≤ 32
  bare : l.attached = false → l.Bare → m.Bare

/-- The laws carried from r to s by any operation of the part. -/
structure Keeps (r s : State) : Prop where
  pending : s.pending = r.pending
  clock : r.clock ≤ s.clock
  attn : ∀ ch, (r.links.get ch).attn = (r.links.get ch).attnDue →
    (s.links.get ch).attn = (s.links.get ch).attnDue
  load : ∀ ch, (r.links.get ch).load ≤ 32 → (s.links.get ch).load ≤ 32
  bare : ∀ ch, ((r.links.get ch).attached = false → (r.links.get ch).Bare) →
    (s.links.get ch).attached = false → (s.links.get ch).Bare
  locks : LocksWellFormed r.cu.locks → LocksWellFormed s.cu.locks
  settings : r.cu.settings.InRange → s.cu.settings.InRange
  streams : ∀ ch, (r.su.get ch).InStep → (s.su.get ch).InStep
  remap : EntriesSound r.rmt.entries → EntriesSound s.rmt.entries

/-- An operation that neither stops nor starts the engine and leaves the controller's state. -/
structure Calm (r s : State) : Prop extends Keeps r s where
  engine : s.pe.state = .stopped ↔ r.pe.state = .stopped
  cart : s.cc.state = r.cc.state
  prior : s.cc.prior = r.cc.prior
  limit : s.cc.limit = r.cc.limit
  init : s.cc.initialise.isSome → r.cc.initialise.isSome
  mount : MountQuiet r → MountQuiet s
  links : ∀ ch, (s.links.get ch).attached = (r.links.get ch).attached
  phases : ∀ ch, (r.links.get ch).dataPhase = none → (s.links.get ch).dataPhase = none
  pass : (r.pe.state = .stopped → r.pe.pass = none) → s.pe.state = .stopped → s.pe.pass = none

theorem Keeps.refl (s : State) : Keeps s s :=
  ⟨rfl, le_rfl, fun _ h => h, fun _ h => h, fun _ h => h, fun h => h, fun h => h, fun _ h => h, fun h => h⟩

theorem Keeps.trans {q r s : State} (h : Keeps q r) (k : Keeps r s) : Keeps q s where
  pending := k.pending.trans h.pending
  clock := h.clock.trans k.clock
  attn ch x := k.attn ch (h.attn ch x)
  load ch x := k.load ch (h.load ch x)
  bare ch x := k.bare ch (h.bare ch x)
  locks x := k.locks (h.locks x)
  settings x := k.settings (h.settings x)
  streams ch x := k.streams ch (h.streams ch x)
  remap x := k.remap (h.remap x)

theorem Calm.refl (s : State) : Calm s s where
  toKeeps := Keeps.refl s
  engine := .rfl
  cart := rfl
  prior := rfl
  limit := rfl
  init h := h
  mount h := h
  links _ := rfl
  phases _ h := h
  pass h := h

theorem Calm.trans {q r s : State} (h : Calm q r) (k : Calm r s) : Calm q s where
  toKeeps := h.toKeeps.trans k.toKeeps
  engine := k.engine.trans h.engine
  cart := k.cart.trans h.cart
  prior := k.prior.trans h.prior
  limit := k.limit.trans h.limit
  init x := h.init (k.init x)
  mount x := k.mount (h.mount x)
  links ch := (k.links ch).trans (h.links ch)
  phases ch x := k.phases ch (h.phases ch x)
  pass x := k.pass (h.pass x)

theorem Keeps.calm {q r s : State} (h : Keeps q r) (k : Calm r s) : Keeps q s := h.trans k.toKeeps

/-- A change of none of the fields the laws speak of. -/
theorem Keeps.same {q r s : State} (h : Keeps q r) (hp : s.pending = r.pending := by rfl)
    (hc : s.clock = r.clock := by rfl) (hl : s.links = r.links := by rfl) (hu : s.cu = r.cu := by rfl)
    (hs : s.su = r.su := by rfl) (hr : s.rmt.entries = r.rmt.entries := by rfl) : Keeps q s :=
  h.trans
    { pending := hp, clock := hc.ge, attn := by rw [hl]; exact fun _ x => x
      load := by rw [hl]; exact fun _ x => x, bare := by rw [hl]; exact fun _ x => x
      locks := by rw [hu]; exact fun x => x, settings := by rw [hu]; exact fun x => x
      streams := by rw [hs]; exact fun _ x => x, remap := by rw [hr]; exact fun x => x }

/-- A change of none of the fields the laws speak of. -/
theorem Calm.same {q r s : State} (h : Calm q r) (hp : s.pending = r.pending := by rfl)
    (hc : s.clock = r.clock := by rfl) (hl : s.links = r.links := by rfl) (hu : s.cu = r.cu := by rfl)
    (hs : s.su = r.su := by rfl) (hr : s.rmt.entries = r.rmt.entries := by rfl)
    (he : s.pe.state = r.pe.state := by rfl) (hx : s.cc.state = r.cc.state := by rfl)
    (hy : s.cc.prior = r.cc.prior := by rfl) (hz : s.cc.limit = r.cc.limit := by rfl)
    (hi : s.cc.initialise = r.cc.initialise := by rfl) (hd : s.pe.due = r.pe.due := by rfl)
    (hw : s.pe.pass = r.pe.pass := by rfl) : Calm q s :=
  h.trans
    { toKeeps := (Keeps.refl r).same hp hc hl hu hs hr
      engine := by rw [he], cart := hx, prior := hy, limit := hz, init := by rw [hi]; exact fun x => x
      mount := fun m => ⟨by rw [hd]; exact m.1, by rw [hw]; exact m.2⟩
      links := by rw [hl]; exact fun _ => rfl, phases := by rw [hl]; exact fun _ x => x
      pass := by rw [he, hw]; exact fun x => x }

theorem Keeps.foldl {α : Type} {f : State → α → State} (hf : ∀ s x, Keeps s (f s x)) {q : State}
    (xs : List α) : ∀ {s : State}, Keeps q s → Keeps q (xs.foldl f s) := by
  induction xs with
  | nil => exact fun h => h
  | cons x xs ih => exact fun h => ih (h.trans (hf _ x))

theorem Calm.foldl {α : Type} {f : State → α → State} (hf : ∀ s x, Calm s (f s x)) {q : State}
    (xs : List α) : ∀ {s : State}, Calm q s → Calm q (xs.foldl f s) := by
  induction xs with
  | nil => exact fun h => h
  | cons x xs ih => exact fun h => ih (h.trans (hf _ x))

/-! ## Links -/

/-- A change of one link that keeps its laws, its attach state and its restarted mark. -/
theorem Calm.upd {q s : State} (h : Calm q s) (ch : Channel) (g : Link → Link)
    (hg : ∀ l : Link, LinkKeeps l (g l).judged)
    (hd : ∀ l : Link, l.dataPhase = none → (g l).dataPhase = none) : Calm q (updLink ch g s) := by
  refine h.trans ?_
  have key : ∀ c, LinkKeeps (s.links.get c) ((updLink ch g s).links.get c) := by
    intro c
    rw [updLink_links, PerChannel.get_set]
    split
    · next e => subst e; exact hg _
    · exact ⟨rfl, rfl, fun x => x, fun x => x, fun _ x => x⟩
  exact
    { pending := rfl, clock := le_rfl, attn := fun c => (key c).attn, load := fun c => (key c).load
      bare := fun c x y => (key c).bare ((key c).attached ▸ y) (x ((key c).attached ▸ y))
      locks := fun x => x, settings := fun x => x, streams := fun _ x => x, remap := fun x => x
      engine := .rfl, cart := rfl, prior := rfl, limit := rfl, init := fun x => x, mount := fun x => x
      links := fun c => (key c).attached
      phases := by
        intro c x
        rw [updLink_links, PerChannel.get_set]
        split
        · next e => subst e; exact hd _ x
        · exact x
      pass := fun x => x }

/-- A judged link is as R173 says. -/
theorem Link.judged_due (l : Link) : l.judged.attn = l.judged.attnDue := rfl

theorem LinkKeeps.noticed (e : EventFlag) (l : Link) : LinkKeeps l (l.noticed e).judged := by
  unfold Link.noticed
  split
  · next h => exact ⟨rfl, rfl, fun _ => rfl, fun x => x, fun x => by simp [h] at x⟩
  · exact ⟨rfl, rfl, fun _ => rfl, fun x => x, fun _ x => x⟩

theorem noticed_dataPhase (e : EventFlag) (l : Link) : (l.noticed e).dataPhase = l.dataPhase := by
  unfold Link.noticed; split <;> rfl

theorem Calm.notify {q s : State} (h : Calm q s) (ch : Channel) (e : EventFlag) :
    Calm q (notify ch e s) :=
  h.upd ch _ (LinkKeeps.noticed e) (fun l x => by rw [noticed_dataPhase]; exact x)

theorem Calm.notifyBoth {q s : State} (h : Calm q s) (e : EventFlag) : Calm q (notifyBoth e s) :=
  (h.notify .a e).notify .b e

theorem Calm.respond {q s : State} (h : Calm q s) (ch : Channel) (tag : Byte) (b : ResponseBody) :
    Calm q (respond ch tag b s) :=
  h.upd ch _ (fun _ => ⟨rfl, rfl, fun _ => rfl, fun x => x, fun _ x => x⟩) (fun _ x => x)

theorem Calm.refuse {q s : State} (h : Calm q s) (ch : Channel) (tag : Byte) (r : RefusalReason) :
    Calm q (refuse ch tag r s) := h.respond ch tag _

theorem Calm.accept {q s : State} (h : Calm q s) (ch : Channel) (tag : Byte) (x : Acceptance) :
    Calm q (accept ch tag x s) := h.respond ch tag _

theorem Calm.answerEmpty {q s : State} (h : Calm q s) (ch : Channel) (tag : Byte) (a b : Bool) :
    Calm q (answerEmpty ch tag a b s) := h.respond ch tag _

theorem Calm.dropOutstanding {q s : State} (h : Calm q s) (ch : Channel) (tag : Byte) (k : QueuedKind) :
    Calm q (dropOutstanding ch tag k s) := by
  refine h.upd ch _ (fun l => ⟨rfl, rfl, fun _ => rfl, fun x => ?_, fun _ x => ?_⟩) (fun _ x => x)
  · refine le_trans ?_ x
    have := List.length_erase_le (a := (⟨tag, k⟩ : Outstanding)) (l := l.outstanding)
    simp only [Link.load, Link.judged]
    omega
  · obtain ⟨a, b, c⟩ := x
    exact ⟨by simp [Link.judged, a], b, c⟩

theorem Calm.posted {q s : State} (h : Calm q s) (ch : Channel) (r : Report) :
    Calm q (updLink ch (Link.posted r) s) := by
  refine h.upd ch _ (fun l => ?_) (fun l x => ?_)
  · unfold Link.posted
    split
    · next hc =>
      simp only [Bool.and_eq_true] at hc
      obtain ⟨ha, hm⟩ := hc
      refine ⟨?_, ?_, fun _ => rfl, fun x => ?_, fun x => by simp [ha] at x⟩
      · simp [Link.noticed, ha, Link.judged]
      · simp [Link.noticed, ha, Link.judged]
      · have e := List.length_erase_of_mem (List.contains_iff_mem.mp hm)
        have p := List.length_pos_of_mem (List.contains_iff_mem.mp hm)
        simp only [Link.load, Link.noticed, ha, Link.judged, if_true, List.length_append,
          List.length_singleton, e] at x ⊢
        omega
    · exact ⟨rfl, rfl, fun _ => rfl, fun x => x, fun _ x => x⟩
  · unfold Link.posted
    split
    · rw [noticed_dataPhase]; exact x
    · exact x

theorem Calm.postReport {q s : State} (h : Calm q s) (ch : Channel) (tag : Byte) (k : QueuedKind)
    (st : ReportStatus) (d : Nat) (b : Bool) : Calm q (postReport ch tag k st d b s) := h.posted ch _

theorem Calm.endDataPhase {q s : State} (h : Calm q s) (ch : Channel) : Calm q (endDataPhase ch s) :=
  h.upd ch _ (fun _ => ⟨rfl, rfl, fun _ => rfl, fun x => x, fun _ x => ⟨x.1, x.2.1, x.2.2.1, x.2.2.2.1,
    x.2.2.2.2.1, rfl⟩⟩) (fun _ _ => rfl)

end Sys2Proof.Machine
end

