-- ==== Sys2Proof/Laws/KeepsSpace.lean ====
section
/-! SUPPORT. What the operations over the cache, the due set, the streams and the Commit Unit's record keep. -/

set_option Elab.async false

namespace Sys2Proof.Machine

/-! ## Cache and due set -/

theorem Calm.updEntry {q s : State} (h : Calm q s) (lba : Nat) (g : Entry → Entry) :
    Calm q (updEntry lba g s) := h.same
theorem Calm.fillBuffer {q s : State} (h : Calm q s) (b : Nat) (p : Payload) :
    Calm q (fillBuffer b p s) := h.same
theorem Calm.freeBuffers {q s : State} (h : Calm q s) (bs : List Nat) : Calm q (freeBuffers bs s) := h.same
theorem Calm.takeBuffers {q s : State} (h : Calm q s) (n : Nat) : Calm q (takeBuffers n s) := h.same
theorem Calm.touch {q s : State} (h : Calm q s) (lba : Nat) : Calm q (touch lba s) := h.same
theorem Calm.addEntry {q s : State} (h : Calm q s) (e : Entry) : Calm q (addEntry e s) := h.same
theorem Calm.removeEntry {q s : State} (h : Calm q s) (e : Entry) : Calm q (removeEntry e s) := h.same
theorem Calm.updTask {q s : State} (h : Calm q s) (lba : Nat) (g : CommitTask → CommitTask) :
    Calm q (updTask lba g s) := h.same
theorem Calm.setWant {q s : State} (h : Calm q s) (ch : Channel) (w : Option Want) :
    Calm q (setWant ch w s) := h.same
theorem Calm.mapReads {q s : State} (h : Calm q s) (g : ReadRecord → ReadRecord) :
    Calm q (mapReads g s) := h.same

/-- A change of the due set alone, by operations that are not the mount's. -/
theorem Calm.dueSet {q s : State} (h : Calm q s) (due : List DueOp)
    (hd : ∀ op ∈ due, op.owner.isMount = false ∨ op ∈ s.pe.due) :
    Calm q { s with pe := { s.pe with due := due } } :=
  h.trans
    { toKeeps := (Keeps.refl s).same
      engine := .rfl, cart := rfl, prior := rfl, limit := rfl, init := fun x => x
      mount := fun m => ⟨fun op ho => (hd op ho).elim id (m.1 op), m.2⟩
      links := fun _ => rfl, phases := fun _ x => x, pass := fun x => x }

theorem Calm.offer {q s : State} (h : Calm q s) (op : DueOp) (ho : op.owner.isMount = false) :
    Calm q (offer op s) :=
  h.dueSet _ fun x hx => by
    rcases List.mem_append.mp hx with h | h
    · exact .inr h
    · rw [List.mem_singleton.mp h]; exact .inl ho

theorem Calm.offerAll {q s : State} (h : Calm q s) (ops : List DueOp)
    (ho : ∀ op ∈ ops, op.owner.isMount = false) : Calm q (offerAll ops s) :=
  h.dueSet _ fun x hx => by
    rcases List.mem_append.mp hx with h | h
    · exact .inr h
    · exact .inl (ho x h)

theorem Keeps.offerAll {q s : State} (h : Keeps q s) (ops : List DueOp) : Keeps q (offerAll ops s) := h.same

theorem Calm.withdrawAll {q s : State} (h : Calm q s) (p : OpOwner → Bool) : Calm q (withdrawAll p s) := by
  refine h.trans
    { toKeeps := (Keeps.refl s).same
      engine := .rfl, cart := rfl, prior := rfl, limit := rfl, init := fun x => x
      mount := fun m => ⟨fun op ho => m.1 op (List.mem_of_mem_filter ho), fun c hc => ?_⟩
      links := fun _ => rfl, phases := fun _ x => x
      pass := fun x y => by
        have := x y
        simp only [Machine.withdrawAll, Engine.withdrawn, this, Option.map_none] }
  simp only [Machine.withdrawAll, Engine.withdrawn, Option.map_eq_some_iff] at hc
  obtain ⟨c', h1, h2⟩ := hc
  have := m.2 c' h1
  subst h2
  split <;> exact this

theorem Calm.withdraw {q s : State} (h : Calm q s) (o : OpOwner) : Calm q (withdraw o s) := h.withdrawAll _

/-! ## Streams -/

theorem Calm.updStream {q s : State} (h : Calm q s) (ch : Channel) (g : Stream → Stream)
    (hg : (s.su.get ch).InStep → (g (s.su.get ch)).InStep) : Calm q (updStream ch g s) :=
  h.trans
    { pending := rfl, clock := le_rfl, attn := fun _ x => x, load := fun _ x => x, bare := fun _ x => x
      locks := fun x => x, settings := fun x => x
      streams := by
        intro c x
        rw [updStream_su, PerChannel.get_set]
        split
        · next e => subst e; exact hg x
        · exact x
      remap := fun x => x, engine := .rfl, cart := rfl, prior := rfl, limit := rfl, init := fun x => x
      mount := fun x => x, links := fun _ => rfl, phases := fun _ x => x, pass := fun x => x }

theorem Stream.closed_inStep : Stream.closed.InStep :=
  ⟨le_rfl, le_rfl, by decide, rfl⟩

/-- The references are exactly the level and those in flight. -/
theorem Stream.level_add_inFlight (t : Stream) : t.level + t.inFlight = t.refs.length := by
  simp only [Stream.level, Stream.inFlight]
  rw [List.length_eq_countP_add_countP (fun x : StreamRef => x.ready) (l := t.refs)]
  congr 1
  refine List.countP_congr fun x _ => ?_
  simp

theorem Stream.readied_inStep (lba : Nat) (t : Stream) (h : t.InStep) :
    ({ t with refs := t.refs.map fun x => if x.lba == lba then { x with ready := true } else x } :
      Stream).InStep := by
  have hmap : (t.refs.map fun x => if x.lba == lba then { x with ready := true } else x).map
      StreamRef.position = t.refs.map StreamRef.position := by
    rw [List.map_map]
    refine List.map_congr_left fun x _ => ?_
    simp only [Function.comp]
    split <;> rfl
  have hd := h.depth
  have hf := h.fits
  refine ⟨h.behind, h.within, ?_, ?_⟩
  · rw [Stream.level_add_inFlight] at hd ⊢
    simpa using hd
  · unfold Stream.StateFits at hf ⊢
    dsimp only
    cases hs : t.state <;> simp only [hs] at hf ⊢
    · rw [hf]; rfl
    · rw [hmap]; exact hf
    · simp [hf.1, hf.2]
    · obtain ⟨p, a, b, c, d, e⟩ := hf
      exact ⟨p, a, b, c, d, by rw [hmap]; exact e⟩

/-- The positions below p of a run. -/
theorem filter_range' (d n p : Nat) (h : p - d ≤ n) :
    (List.range' d n).filter (fun x => x < p) = List.range' d (p - d) := by
  induction n generalizing d with
  | zero =>
    have : p - d = 0 := by omega
    simp [this]
  | succ n ih =>
    rw [List.range'_succ, List.filter_cons]
    by_cases hd : d < p
    · have e : p - d = (p - (d + 1)) + 1 := by omega
      simp only [hd, decide_true, if_true]
      rw [ih (d + 1) (by omega), e, List.range'_succ]
    · have e : p - d = 0 := by omega
      simp only [hd, decide_false, e]
      have := ih (d + 1) (by omega)
      have e2 : p - (d + 1) = 0 := by omega
      rw [e2] at this
      simpa using this

theorem Stream.faulted_inStep (t : Stream) (p : Nat) (st : BadStatus) (h : t.InStep)
    (ho : t.state = .opened ∨ t.state = .faulted) (hp : p < t.positions) (hq : p ≤ t.prefetchCursor)
    (hd : t.deliveryCursor ≤ p)
    (hn : ∀ q, t.faultPosition = some q → t.state = .faulted → p ≤ q) : (t.faultedAt p st).InStep := by
  have hdep := h.depth
  have hf := h.fits
  rw [Stream.level_add_inFlight] at hdep
  refine ⟨h.behind, h.within, ?_, ?_⟩
  · rw [Stream.level_add_inFlight]
    exact le_trans (List.length_filter_le _ _) hdep
  · refine ⟨p, rfl, hp, hq, by simp only [Stream.faultedAt]; omega, ?_⟩
    have hm : ((t.refs.filter fun x => x.position < p).map StreamRef.position) =
        (t.refs.map StreamRef.position).filter (fun x => x < p) := by
      rw [List.filter_map]; rfl
    simp only [Stream.faultedAt]
    rw [hm]
    unfold Stream.StateFits at hf
    rcases ho with ho | ho <;> simp only [ho] at hf
    · rw [hf]; exact filter_range' _ _ _ (by omega)
    · obtain ⟨q, a, b, c, d, e⟩ := hf
      rw [e]; exact filter_range' _ _ _ (by have := hn q a ho; omega)

theorem Calm.streamReadied {q s : State} (h : Calm q s) (ch : Channel) (lba : Nat) :
    Calm q (streamReadied ch lba s) := by
  have k := h.updStream ch (fun _ => { s.su.get ch with refs := (s.su.get ch).refs.map fun x =>
    if x.lba == lba then { x with ready := true } else x }) (Stream.readied_inStep lba _)
  unfold Machine.streamReadied
  dsimp only
  split
  · exact k.notify ch _
  · exact k

theorem Calm.faultStream {q s : State} (h : Calm q s) (ch : Channel) (p : Nat) (st : BadStatus)
    (hg : (s.su.get ch).InStep → ((s.su.get ch).faultedAt p st).InStep) : Calm q (faultStream ch p st s) :=
  (h.updStream ch _ hg).notify ch _

/-- A reference of a stream in step lies below its prefetch cursor and its positions. -/
theorem Stream.ref_bounds (t : Stream) (h : t.InStep) (x : StreamRef) (hx : x ∈ t.refs) :
    (t.state = .opened ∨ t.state = .faulted) ∧ x.position < t.positions ∧
      x.position ≤ t.prefetchCursor ∧ t.deliveryCursor ≤ x.position ∧
      ∀ q, t.faultPosition = some q → t.state = .faulted → x.position ≤ q := by
  have hf := h.fits
  have hb := h.behind
  have hw := h.within
  have hm : x.position ∈ t.refs.map StreamRef.position := List.mem_map_of_mem hx
  unfold Stream.StateFits at hf
  cases hs : t.state <;> simp only [hs] at hf
  · rw [hf] at hx; simp [Stream.closed] at hx
  · rw [hf, List.mem_range'_1] at hm
    exact ⟨.inl rfl, by omega, by omega, by omega, fun _ _ hc => by simp at hc⟩
  · rw [hf.1] at hx; simp at hx
  · obtain ⟨p, a, b, c, d, e⟩ := hf
    rw [e, List.mem_range'_1] at hm
    refine ⟨.inr rfl, by omega, by omega, by omega, fun q hq _ => ?_⟩
    rw [a] at hq
    cases hq
    omega

theorem Calm.streamSpoiled {q s : State} (h : Calm q s) (ch : Channel) (lba : Nat) (st : BadStatus) :
    Calm q (streamSpoiled ch lba st s) := by
  unfold Machine.streamSpoiled
  split
  · next x hx =>
    refine h.faultStream ch _ st fun hi => ?_
    obtain ⟨a, b, c, d, e⟩ := Stream.ref_bounds _ hi x (List.mem_of_find?_eq_some hx)
    exact Stream.faulted_inStep _ _ _ hi a b c d e
  · exact h

/-! ## References, space, prefetch, freeing events -/

theorem Calm.postReadReport {q s : State} (h : Calm q s) (r : ReadRecord) :
    Calm q (postReadReport s r) := by
  unfold Machine.postReadReport; split <;> exact h.postReport ..

theorem Calm.completeReads {q s : State} (h : Calm q s) (p : ReadRecord → Bool) :
    Calm q (completeReads p s) :=
  Calm.foldl (fun s r => (Calm.refl s).postReadReport r) _ h.same

theorem Calm.refsReady {q s : State} (h : Calm q s) (lba : Nat) : Calm q (refsReady lba s) :=
  (((h.mapReads _).completeReads _).streamReadied .a lba).streamReadied .b lba

theorem Calm.refsBad {q s : State} (h : Calm q s) (lba : Nat) (st : BadStatus) :
    Calm q (refsBad lba st s) :=
  (((h.mapReads _).completeReads _).streamSpoiled .a lba st).streamSpoiled .b lba st

theorem Calm.evict {q s : State} (h : Calm q s) (lba : Nat) : Calm q (evict s lba) := by
  unfold Machine.evict; split
  · exact h.removeEntry _
  · exact h

theorem Calm.checkWant {q s : State} (h : Calm q s) (ch : Channel) : Calm q (checkWant ch s) := by
  unfold Machine.checkWant; split
  · split
    · exact (h.setWant ch none).notify ch _
    · exact h
  · exact h

theorem Calm.checkWants {q s : State} (h : Calm q s) : Calm q (checkWants s) :=
  (h.checkWant .a).checkWant .b

/-- All that making space does: nothing, or evictions and then the check of the marks (R64, R80). -/
theorem makeSpace_cases (m : Nat) (p : Nat → Bool) (s : State) :
    (victims m p s = [] ∧ makeSpace m p s = s) ∨
      (victims m p s ≠ [] ∧ makeSpace m p s = checkWants (evictFor m p s)) := by
  unfold makeSpace
  split
  · next h => exact .inl ⟨h, rfl⟩
  · next h => exact .inr ⟨h, rfl⟩

theorem Calm.evictFor {q s : State} (h : Calm q s) (m : Nat) (p : Nat → Bool) : Calm q (evictFor m p s) :=
  Calm.foldl (fun s x => (Calm.refl s).evict x) _ h

theorem Calm.makeSpace {q s : State} (h : Calm q s) (m : Nat) (p : Nat → Bool) :
    Calm q (makeSpace m p s) := by
  obtain ⟨-, e⟩ | ⟨-, e⟩ := makeSpace_cases m p s <;> rw [e]
  · exact h
  · exact (h.evictFor m p).checkWants

theorem Calm.createReading {q s : State} (h : Calm q s) (lba : Nat) : Calm q (createReading lba s) :=
  ((h.takeBuffers 1).addEntry _).offer _ rfl

theorem Stream.prefetched_inStep (lba : Nat) (b : Bool) (t : Stream) (hc : t.canPrefetch = true)
    (h : t.InStep) : (t.prefetched lba b).InStep := by
  simp only [Stream.canPrefetch, Bool.and_eq_true, beq_iff_eq, decide_eq_true_eq] at hc
  obtain ⟨⟨ho, hp⟩, hd⟩ := hc
  rw [Stream.level_add_inFlight] at hd
  have hb := h.behind
  have hf := h.fits
  refine ⟨by simp only [Stream.prefetched]; omega, by simp only [Stream.prefetched]; omega, ?_, ?_⟩
  · rw [Stream.level_add_inFlight]
    simp only [Stream.prefetched, List.length_append, List.length_singleton]
    omega
  · unfold Stream.StateFits at hf ⊢
    simp only [ho] at hf
    simp only [Stream.prefetched, ho]
    rw [List.map_append, hf]
    have e : t.prefetchCursor + 1 - t.deliveryCursor = (t.prefetchCursor - t.deliveryCursor) + 1 := by omega
    rw [e, List.range'_concat]
    have e2 : t.deliveryCursor + 1 * (t.prefetchCursor - t.deliveryCursor) = t.prefetchCursor := by omega
    rw [e2]
    rfl

theorem Stream.prefetchWaiting_inStep (t : Stream) (hc : t.canPrefetch = true) (h : t.InStep) :
    ({ t with prefetchWaiting := true } : Stream).InStep := by
  simp only [Stream.canPrefetch, Bool.and_eq_true, beq_iff_eq, decide_eq_true_eq] at hc
  refine ⟨h.behind, h.within, h.depth, ?_⟩
  have hf := h.fits
  unfold Stream.StateFits at hf ⊢
  simp only [hc.1.1] at hf ⊢
  exact hf

theorem evict_su (s : State) (lba : Nat) : (evict s lba).su = s.su := by
  unfold evict; split <;> rfl

theorem checkWant_su (ch : Channel) (s : State) : (checkWant ch s).su = s.su := by
  unfold checkWant; split
  · split <;> rfl
  · rfl

theorem checkWants_su (s : State) : (checkWants s).su = s.su := by
  rw [checkWants, checkWant_su, checkWant_su]

theorem evictFor_su (m : Nat) (p : Nat → Bool) (s : State) : (evictFor m p s).su = s.su := by
  have h : ∀ (xs : List Nat) (s : State), (xs.foldl evict s).su = s.su := by
    intro xs
    induction xs with
    | nil => exact fun _ => rfl
    | cons x xs ih => exact fun s => by rw [List.foldl_cons, ih, evict_su]
  exact h _ s

theorem Calm.prefetchOne {q s : State} (h : Calm q s) (ch : Channel)
    (hc : (s.su.get ch).canPrefetch = true) : Calm q (prefetchOne ch s) := by
  unfold Machine.prefetchOne
  dsimp only
  split
  · have k : ∀ b, Calm q (Machine.updStream ch (Stream.prefetched
        (positionLba (s.su.get ch).extents (s.su.get ch).prefetchCursor) b)
        (Machine.touch (positionLba (s.su.get ch).extents (s.su.get ch).prefetchCursor) s)) := fun b =>
      (h.touch _).updStream ch _ (Stream.prefetched_inStep _ _ _ hc)
    split
    · exact (k _).notify ch _
    · exact k _
  · split
    · refine (((h.evictFor _ _).createReading _)).updStream ch _ ?_
      have e : ((Machine.createReading (positionLba (s.su.get ch).extents (s.su.get ch).prefetchCursor)
          (Machine.evictFor 1 (fun _ => false) s)).su.get ch) = s.su.get ch := by
        rw [← evictFor_su 1 (fun _ => false) s]; rfl
      rw [e]
      exact Stream.prefetched_inStep _ _ _ hc
    · exact h.updStream ch _ (Stream.prefetchWaiting_inStep _ hc)

theorem Calm.prefetchUpTo {q : State} (ch : Channel) (n : Nat) :
    ∀ {s : State}, Calm q s → Calm q (prefetchUpTo ch n s) := by
  induction n with
  | zero => exact fun h => h
  | succ n ih =>
    intro s h
    unfold Machine.prefetchUpTo
    split
    · next hc =>
      have k := h.prefetchOne ch hc
      dsimp only
      split
      · exact k
      · exact ih k
    · exact h

theorem Calm.prefetch {q s : State} (h : Calm q s) (ch : Channel) : Calm q (prefetch ch s) :=
  Calm.prefetchUpTo ch _ h

theorem Calm.retryPrefetch {q s : State} (h : Calm q s) (ch : Channel) : Calm q (retryPrefetch ch s) := by
  unfold Machine.retryPrefetch; split
  · exact h.prefetch ch
  · exact h

theorem Calm.retryPrefetches {q s : State} (h : Calm q s) : Calm q (retryPrefetches s) := by
  unfold Machine.retryPrefetches
  split
  · have k : Calm q { s with freeCount := s.freeCount + 1 } := h.same
    dsimp only
    split
    · exact (k.retryPrefetch .b).retryPrefetch .a
    · exact (k.retryPrefetch .a).retryPrefetch .b
  · exact (h.retryPrefetch .a).retryPrefetch .b

theorem Calm.freeingEvent {q s : State} (h : Calm q s) : Calm q (freeingEvent s) :=
  h.checkWants.retryPrefetches

/-- All that the end of a request or prefetch does about its evictions: the waiting streams try again when an entry
was evicted, and nothing happens otherwise (R80, R136). -/
theorem afterEvictions_cases (before after : State) :
    (evictedSince before after = true ∧ afterEvictions before after = retryPrefetches after) ∨
      (evictedSince before after = false ∧ afterEvictions before after = after) := by
  unfold afterEvictions
  split
  · next h => exact .inl ⟨h, rfl⟩
  · next h => exact .inr ⟨by simpa using h, rfl⟩

theorem Calm.afterEvictions {q s : State} (h : Calm q s) (before : State) :
    Calm q (afterEvictions before s) := by
  obtain ⟨-, e⟩ | ⟨-, e⟩ := afterEvictions_cases before s <;> rw [e]
  exacts [h.retryPrefetches, h]

theorem Calm.afterRelease {q s : State} (h : Calm q s) (lbas : List Nat) :
    Calm q (afterRelease lbas s) := by
  unfold Machine.afterRelease; split
  · exact h.freeingEvent
  · exact h

/-! ## Commit tasks, waiters, faults -/

theorem Calm.createTask {q s : State} (h : Calm q s) (lba : Nat) (p : Phys) (b t : Nat) :
    Calm q (createTask lba p b t s) :=
  Calm.offer (Calm.same h) _ rfl

theorem Calm.removeTask {q s : State} (h : Calm q s) (lba : Nat) : Calm q (removeTask lba s) :=
  Calm.withdraw (Calm.same h) _

theorem Calm.restage {q s : State} (h : Calm q s) (t : CommitTask) : Calm q (restage t s) :=
  ((h.updTask _ _).withdraw _).offer _ rfl

theorem Calm.postCompletion {q s : State} (h : Calm q s) (x : Waiter × Option Completion) :
    Calm q (postCompletion s x) := by
  unfold Machine.postCompletion; split
  · exact h.postReport ..
  · exact h

theorem Calm.judgeWaiters {q s : State} (h : Calm q s) (j : Waiter → Waiter × Option Completion) :
    Calm q (judgeWaiters j s) :=
  Calm.foldl (fun s x => (Calm.refl s).postCompletion x) _ h.same

theorem Calm.judgeFinish {q s : State} (h : Calm q s) (f : FinishRecord) : Calm q (judgeFinish f s) :=
  h.judgeWaiters _
theorem Calm.tableVerified {q s : State} (h : Calm q s) (v : Nat) : Calm q (tableVerified v s) :=
  h.judgeWaiters _
theorem Calm.tableFaulted {q s : State} (h : Calm q s) (v : Nat) : Calm q (tableFaulted v s) :=
  h.judgeWaiters _
theorem Calm.failWaiters {q s : State} (h : Calm q s) (lba : Nat) : Calm q (failWaiters lba s) :=
  h.judgeWaiters _
theorem Calm.ejectWaiters {q s : State} (h : Calm q s) (lba : Nat) : Calm q (ejectWaiters lba s) :=
  h.judgeWaiters _
theorem Calm.endAllWaiters {q s : State} (h : Calm q s) : Calm q (endAllWaiters s) := h.judgeWaiters _

theorem Calm.addFault {q s : State} (h : Calm q s) (ch : Channel) (r : FaultRecord) :
    Calm q (addFault ch r s) := by
  unfold Machine.addFault; split
  · exact Calm.notify (Calm.same h) ch _
  · exact h

theorem Calm.recordFor {q s : State} (h : Calm q s) (w : Option Channel) (p : Channel → Bool)
    (r : FaultRecord) : Calm q (recordFor w p r s) := by
  unfold Machine.recordFor; split
  · split
    · exact h
    · exact h.addFault _ _
  · exact h

theorem Calm.promote {q s : State} (h : Calm q s) (e : Entry) (b : Nat) : Calm q (promote e b s) :=
  (h.updEntry _ _).freeBuffers _

theorem Calm.finishEntry {q s : State} (h : Calm q s) (e : Entry) : Calm q (finishEntry e s) := by
  unfold Machine.finishEntry; split
  · exact (h.promote _ _).createTask ..
  · exact h.updEntry _ _

theorem Calm.finishTask {q s : State} (h : Calm q s) (t : CommitTask) : Calm q (finishTask t s) := by
  unfold Machine.finishTask
  dsimp only
  refine Calm.judgeFinish ?_ _
  split
  · exact ((h.removeTask _).finishEntry _).freeingEvent
  · exact h.removeTask _

theorem Calm.loseEntry {q s : State} (h : Calm q s) (lba : Nat) : Calm q (loseEntry lba s) := by
  unfold Machine.loseEntry; split
  · exact ((h.removeEntry _).refsBad _ _).freeingEvent
  · exact h

theorem Calm.failTask {q s : State} (h : Calm q s) (t : CommitTask) (r : FaultReason) :
    Calm q (failTask t r s) :=
  (((h.failWaiters _).recordFor _ _ _).removeTask _).loseEntry _

theorem Calm.ejectEntry {q s : State} (h : Calm q s) (z : State) (e : Entry) :
    Calm q (ejectEntry z s e) := (h.ejectWaiters _).recordFor _ _ _

theorem Calm.clearCommit {q s : State} (h : Calm q s) : Calm q (clearCommit s) :=
  Calm.withdrawAll
    (Calm.same (Calm.endAllWaiters (Calm.foldl (fun s e => (Calm.refl s).ejectEntry _ e) _ h))) _

theorem Calm.detachCommit {q s : State} (h : Calm q s) (ch : Channel) : Calm q (detachCommit ch s) := h.same

end Sys2Proof.Machine
end

