-- ==== Sys2Proof/Laws/Remap.lean ====
section
/-! SUPPORT. The laws of the remap entries: table order, grants and the judgement of a loaded copy. -/

set_option Elab.async false

namespace Sys2Proof.Machine

/-! ## Orders -/

theorem Phys.before_iff (p q : Phys) :
    p.before q = true ↔ p.track < q.track ∨ (p.track = q.track ∧ p.sector < q.sector) := by
  simp [Phys.before]

theorem Phys.before_trans {p q r : Phys} (h : p.before q = true) (k : q.before r = true) :
    p.before r = true := by
  rw [Phys.before_iff] at *; omega

theorem Phys.before_total {p q : Phys} (h : p ≠ q) : p.before q = true ∨ q.before p = true := by
  rw [Phys.before_iff, Phys.before_iff]
  by_contra hc
  apply h
  cases p; cases q
  simp only [Phys.mk.injEq] at *
  omega

theorem RemapEntry.precedes_trans {x y z : RemapEntry} (h : x.precedes y = true)
    (k : y.precedes z = true) : x.precedes z = true := by
  unfold RemapEntry.precedes at *
  cases hx : x.kind <;> cases hy : y.kind <;> cases hz : z.kind <;> simp only [hx, hy, hz] at * <;>
    first
      | exact Phys.before_trans h k
      | trivial

/-! ## Spares -/

theorem sectorsIn_pos {z : Nat} (h : z < 16) : 14 ≤ sectorsIn z := by unfold sectorsIn; omega

/-- Different spares of the spare bands have different addresses (R9). -/
theorem spareAt_injective {z j y i : Nat} (hz : z < 16) (hj : j < sparesIn z) (hy : y < 16)
    (hi : i < sparesIn y) (h : spareAt z j = spareAt y i) : z = y ∧ j = i := by
  have hz' := sectorsIn_pos hz
  have hy' := sectorsIn_pos hy
  unfold sparesIn at hj hi
  unfold spareAt at h
  rw [Phys.mk.injEq] at h
  have h1 : j / sectorsIn z < 10 := Nat.div_lt_of_lt_mul (by rw [Nat.mul_comm]; exact hj)
  have h2 : i / sectorsIn y < 10 := Nat.div_lt_of_lt_mul (by rw [Nat.mul_comm]; exact hi)
  obtain ⟨ht, hs⟩ := h
  have e : z = y := by
    generalize j / sectorsIn z = a at *
    generalize i / sectorsIn y = b at *
    omega
  subst e
  refine ⟨rfl, ?_⟩
  have e2 : j / sectorsIn z = i / sectorsIn z := by
    generalize j / sectorsIn z = a at *
    generalize i / sectorsIn z = b at *
    omega
  rw [← Nat.div_add_mod j (sectorsIn z), ← Nat.div_add_mod i (sectorsIn z), e2, hs]

/-- A spare that is judged free is in no entry (R39, R41). -/
theorem RemapTable.judgeSpare_ok {t : RemapTable} {z j : Nat} (h : t.judgeSpare z = .ok j) :
    j < sparesIn z ∧ ∀ e ∈ t.entries, (e.zone, e.index) ≠ (z, j) := by
  unfold RemapTable.judgeSpare at h
  split at h
  · cases h
  · split at h
    · next k hk =>
      cases h
      refine ⟨List.mem_range.mp (List.mem_of_find?_eq_some hk), fun e he hc => ?_⟩
      have := List.find?_some hk
      simp only [RemapTable.spareUsed, Bool.not_eq_true', List.any_eq_false, Bool.and_eq_true,
        beq_iff_eq, not_and] at this
      rw [Prod.mk.injEq] at hc
      exact this e he hc.1 hc.2
    · cases h

/-! ## Table order kept -/

theorem EntriesSound.nil : EntriesSound [] :=
  ⟨List.Pairwise.nil, List.nodup_nil, List.nodup_nil, fun _ h => by simp at h⟩

theorem insertEntry_perm (e : RemapEntry) (l : List RemapEntry) : (insertEntry e l).Perm (e :: l) := by
  induction l with
  | nil => exact List.Perm.refl _
  | cons x l ih =>
    unfold insertEntry
    split
    · exact List.Perm.refl _
    · exact (ih.cons x).trans (List.Perm.swap e x l)

theorem insertEntry_pairwise (e : RemapEntry) (l : List RemapEntry)
    (h : l.Pairwise fun x y => x.precedes y = true)
    (ht : ∀ x ∈ l, e.precedes x = true ∨ x.precedes e = true) :
    (insertEntry e l).Pairwise fun x y => x.precedes y = true := by
  induction l with
  | nil => exact List.pairwise_singleton _ _
  | cons x l ih =>
    rw [List.pairwise_cons] at h
    unfold insertEntry
    split
    · next hp =>
      refine List.pairwise_cons.mpr ⟨fun y hy => ?_, List.pairwise_cons.mpr h⟩
      rcases List.mem_cons.mp hy with rfl | hy
      · exact hp
      · exact RemapEntry.precedes_trans hp (h.1 y hy)
    · next hp =>
      refine List.pairwise_cons.mpr
        ⟨fun y hy => ?_, ih h.2 fun y hy => ht y (List.mem_cons_of_mem _ hy)⟩
      rcases List.mem_cons.mp ((insertEntry_perm e l).mem_iff.mp hy) with rfl | hy
      · exact (ht x List.mem_cons_self).resolve_left hp
      · exact h.1 y hy

/-- An entry joins a sound table when its spare and its home are new (R38, R39). -/
theorem EntriesSound.insert {l : List RemapEntry} (h : EntriesSound l) (e : RemapEntry)
    (hs : ∀ x ∈ l, (x.zone, x.index) ≠ (e.zone, e.index))
    (hh : ∀ p, e.home? = some p → ∀ x ∈ l, x.home? ≠ some p)
    (hb : e.zone < 16 ∧ e.index < sparesIn e.zone) : EntriesSound (insertEntry e l) := by
  have hp := insertEntry_perm e l
  refine ⟨insertEntry_pairwise e l h.ordered fun x hx => ?_, ?_, ?_, fun x hx => ?_⟩
  · unfold RemapEntry.precedes
    cases he : e.kind <;> cases hk : x.kind <;> simp only
    · next p q =>
      refine Phys.before_total fun hc => ?_
      refine hh p (by simp [RemapEntry.home?, he]) x hx (by simp [RemapEntry.home?, hk, hc])
    · simp
    · simp
    · refine Phys.before_total fun hc => ?_
      obtain ⟨a, b⟩ := h.inBand x hx
      obtain ⟨c, d⟩ := spareAt_injective hb.1 hb.2 a b hc
      exact hs x hx (by rw [c, d])
  · rw [(hp.map _).nodup_iff, List.map_cons, List.nodup_cons]
    refine ⟨fun hc => ?_, h.spares⟩
    obtain ⟨x, hx, hx2⟩ := List.mem_map.mp hc
    exact hs x hx hx2
  · rw [(hp.filterMap _).nodup_iff, List.filterMap_cons]
    split
    · exact h.homes
    · next p hp =>
      refine List.nodup_cons.mpr ⟨fun hc => ?_, h.homes⟩
      obtain ⟨x, hx, hx2⟩ := List.mem_filterMap.mp hc
      exact hh p hp x hx hx2
  · rcases List.mem_cons.mp (hp.mem_iff.mp hx) with rfl | hx
    · exact hb
    · exact h.inBand x hx

/-- A grant keeps the table sound (R42, R43). -/
theorem EntriesSound.granted {t : RemapTable} (h : EntriesSound t.entries) (home : Phys) (z j : Nat)
    (hz : z < 16) (hj : j < sparesIn z) (hn : ∀ e ∈ t.entries, (e.zone, e.index) ≠ (z, j)) :
    EntriesSound (t.granted home z j) := by
  unfold RemapTable.granted
  dsimp only
  split
  · next hf =>
    refine h.insert _ hn (fun p hp x hx hc => ?_) ⟨hz, hj⟩
    have hp' : home = p := by simpa [RemapEntry.home?] using hp
    unfold RemapTable.activeFor at hf
    have := List.find?_eq_none.mp hf x hx
    simp [hc, hp'] at this
  · next old hf =>
    unfold RemapTable.activeFor at hf
    have hm := List.mem_of_find?_eq_some hf
    have ho : old.home? = some home := by simpa using List.find?_some hf
    obtain ⟨l1, l2, hl⟩ := List.append_of_mem hm
    rw [hl] at h hn
    have hnd := h.homes
    rw [List.filterMap_append, List.filterMap_cons, ho] at hnd
    simp only at hnd
    have hne : ∀ x, x ∈ l1 ∨ x ∈ l2 → x.home? ≠ some home := by
      intro x hx hc
      have hd := (List.nodup_append.mp hnd)
      rcases hx with hx | hx
      · exact hd.2.2 home (List.mem_filterMap.mpr ⟨x, hx, hc⟩) home List.mem_cons_self rfl
      · exact (List.nodup_cons.mp hd.2.1).1 (List.mem_filterMap.mpr ⟨x, hx, hc⟩)
    have hmap : (t.entries.map fun e => if e.home? == some home then
        { e with zone := z, index := j, generation := t.generation + 1 } else e) =
        l1 ++ { old with zone := z, index := j, generation := t.generation + 1 } :: l2 := by
      rw [hl, List.map_append, List.map_cons]
      have k1 : ∀ l : List RemapEntry, (∀ x ∈ l, x.home? ≠ some home) → (l.map fun e =>
          if e.home? == some home then
            { e with zone := z, index := j, generation := t.generation + 1 } else e) = l := by
        intro l hx
        conv_rhs => rw [← List.map_id l]
        refine List.map_congr_left fun x hm => ?_
        simp [hx x hm]
      rw [k1 l1 fun x hx => hne x (.inl hx), k1 l2 fun x hx => hne x (.inr hx), ho]
      simp
    rw [hmap]
    obtain ⟨a, ka⟩ : ∃ p, old.kind = .active p := by
      cases hk : old.kind with
      | active p => exact ⟨p, rfl⟩
      | spent => simp [RemapEntry.home?, hk] at ho
    have hsp := h.spares
    rw [List.map_append, List.map_cons, List.nodup_append, List.nodup_cons] at hsp
    have mid : EntriesSound
        (l1 ++ { old with zone := z, index := j, generation := t.generation + 1 } :: l2) := by
      refine ⟨?_, ?_, ?_, fun x hx => ?_⟩
      · have hp := h.ordered
        rw [List.pairwise_append, List.pairwise_cons] at hp ⊢
        obtain ⟨p1, ⟨p2, p3⟩, p4⟩ := hp
        refine ⟨p1, ⟨fun y hy => ?_, p3⟩, fun x hx y hy => ?_⟩
        · have := p2 y hy
          unfold RemapEntry.precedes at this ⊢
          simp only [ka] at this ⊢
          cases hk : y.kind <;> simp only [hk] at this ⊢
          exact this
        · rcases List.mem_cons.mp hy with rfl | hy
          · have := p4 x hx old List.mem_cons_self
            unfold RemapEntry.precedes at this ⊢
            simp only [ka] at this ⊢
            cases hk : x.kind <;> simp only [hk] at this ⊢
            · exact this
            · simp at this
          · exact p4 x hx y (List.mem_cons_of_mem _ hy)
      · rw [List.map_append, List.map_cons, List.nodup_append, List.nodup_cons]
        refine ⟨hsp.1, ⟨fun hc => ?_, hsp.2.1.2⟩, fun x hx y hy hxy => ?_⟩
        · obtain ⟨x, hx, hx2⟩ := List.mem_map.mp hc
          exact hn x (by simp [hx]) hx2
        · rcases List.mem_cons.mp hy with rfl | hy
          · obtain ⟨w, hw, hw2⟩ := List.mem_map.mp hx
            exact hn w (by simp [hw]) (hw2.trans hxy)
          · exact hsp.2.2 x hx y (List.mem_cons_of_mem _ hy) hxy
      · have e : ({ old with zone := z, index := j, generation := t.generation + 1 } : RemapEntry).home? =
            old.home? := rfl
        rw [List.filterMap_append, List.filterMap_cons, e, ho]
        exact hnd
      · rcases List.mem_append.mp hx with hx | hx
        · exact h.inBand x (by simp [hx])
        · rcases List.mem_cons.mp hx with rfl | hx
          · exact ⟨hz, hj⟩
          · exact h.inBand x (by simp [hx])
    refine mid.insert _ (fun x hx hc => ?_) (fun p hp => by simp [RemapEntry.home?] at hp)
      (h.inBand old (by simp))
    dsimp only at hc
    rcases List.mem_append.mp hx with hx | hx
    · exact hsp.2.2 (x.zone, x.index) (List.mem_map_of_mem hx) (old.zone, old.index)
        List.mem_cons_self hc
    · rcases List.mem_cons.mp hx with rfl | hx
      · exact hn old (by simp) hc.symm
      · exact hsp.2.1.1 (List.mem_map.mpr ⟨x, hx, hc⟩)

theorem inTableOrder_pairwise (l : List RemapEntry) (h : inTableOrder l = true) :
    l.Pairwise fun x y => x.precedes y = true := by
  induction l with
  | nil => exact List.Pairwise.nil
  | cons x l ih =>
    cases l with
    | nil => exact List.pairwise_singleton _ _
    | cons y l =>
      simp only [inTableOrder, Bool.and_eq_true] at h
      have k := ih h.2
      refine List.pairwise_cons.mpr ⟨fun w hw => ?_, k⟩
      rcases List.mem_cons.mp hw with rfl | hw
      · exact h.1
      · exact RemapEntry.precedes_trans h.1 ((List.pairwise_cons.mp k).1 w hw)

theorem decodeRecord_inBand {g : Nat} {r : BitVec 64} {e : RemapEntry} (h : decodeRecord g r = some e) :
    e.zone < 16 ∧ e.index < sparesIn e.zone := by
  unfold decodeRecord at h
  dsimp only at h
  have hz : (r.extractLsb' 26 4).toNat < 16 := (r.extractLsb' 26 4).isLt
  split at h
  · cases h
  · next hc =>
    simp only [Bool.or_eq_true, decide_eq_true_eq, not_or, not_le] at hc
    split at h
    · split at h
      · cases h; exact ⟨hz, hc.2⟩
      · cases h
    · split at h
      · cases h; exact ⟨hz, hc.2⟩
      · cases h

theorem mem_of_mapM_some {α β : Type} {f : α → Option β} :
    ∀ {l : List α} {m : List β}, l.mapM f = some m → ∀ y ∈ m, ∃ x ∈ l, f x = some y := by
  intro l
  induction l with
  | nil => intro m h y hy; simp at h; subst h; simp at hy
  | cons a l ih =>
    intro m h y hy
    rw [List.mapM_cons] at h
    simp only [Option.bind_eq_bind, Option.bind_eq_some_iff, Option.pure_def, Option.some.injEq] at h
    obtain ⟨b, hb, bs, hbs, rfl⟩ := h
    rcases List.mem_cons.mp hy with rfl | hy
    · exact ⟨a, List.mem_cons_self, hb⟩
    · obtain ⟨x, hx, hf⟩ := ih hbs y hy
      exact ⟨x, List.mem_cons_of_mem _ hx, hf⟩

/-- A copy that R52 does not reject carries a sound table. -/
theorem decodeCopy_sound {sectors : List Payload} {g : Nat} {l : List RemapEntry}
    (h : decodeCopy sectors = some (g, l)) : EntriesSound l := by
  unfold decodeCopy at h
  split at h
  · cases h
  · dsimp only at h
    split at h
    · cases h
    · split at h
      · cases h
      · split at h
        · cases h
        · next entries hm =>
          split at h
          · next hc =>
            rw [Option.some.injEq, Prod.mk.injEq] at h
            obtain ⟨_, rfl⟩ := h
            simp only [Bool.and_eq_true, distinctEntries, decide_eq_true_eq] at hc
            refine ⟨inTableOrder_pairwise _ hc.1, hc.2.1, hc.2.2, fun e he => ?_⟩
            obtain ⟨r, _, hr⟩ := mem_of_mapM_some hm e he
            exact decodeRecord_inBand hr
          · cases h

theorem judgeCopy_sound {m : Vector MountSector 56} {c : TableCopy} {a : ImageArea} {x : Nat × List RemapEntry}
    (h : judgeCopy m c a = some x) : EntriesSound x.2 := by
  unfold judgeCopy at h
  split at h
  · split at h
    · exact decodeCopy_sound h
    · cases h
  · cases h

/-- Whatever the mount choice is, the table it leaves is sound (R52, R53). -/
theorem mountChoice_sound (s : State) : EntriesSound ((mountChoice s).table s.rmt).entries := by
  unfold mountChoice
  split
  · next hx hy =>
    split
    · exact judgeCopy_sound hy
    · exact judgeCopy_sound hx
  · next hx _ => exact judgeCopy_sound hx
  · next hy => exact judgeCopy_sound hy
  · split <;> exact EntriesSound.nil

/-- The zone of any LBA is one of the 16 (R7). -/
theorem zoneOfLba_lt (lba : Nat) : zoneOfLba lba < 16 := by
  unfold zoneOfLba
  have : ∀ (l : List Nat) (b : Nat), b < 16 → (∀ z ∈ l, z < 16) →
      l.foldl (fun best z => if firstLba z ≤ lba then z else best) b < 16 := by
    intro l
    induction l with
    | nil => exact fun _ h _ => h
    | cons x l ih =>
      intro b hb hl
      rw [List.foldl_cons]
      refine ih _ ?_ fun z hz => hl z (List.mem_cons_of_mem _ hz)
      split
      · exact hl x List.mem_cons_self
      · exact hb
  exact this _ 0 (by omega) fun z hz => List.mem_range.mp hz

/-- The entries of a sound table are at most the 3,440 spares (R39). -/
theorem EntriesSound.length_le {l : List RemapEntry} (h : EntriesSound l) : l.length ≤ 3440 := by
  let all : Finset (Nat × Nat) := (Finset.range 16).biUnion fun z =>
    (Finset.range (sparesIn z)).image fun j => (z, j)
  have hc : all.card ≤ 3440 := by
    refine le_trans Finset.card_biUnion_le ?_
    refine le_trans (Finset.sum_le_sum fun z _ => Finset.card_image_le) ?_
    simp only [Finset.card_range]
    decide
  have hs : (l.map fun e => (e.zone, e.index)).toFinset ⊆ all := by
    intro x hx
    rw [List.mem_toFinset, List.mem_map] at hx
    obtain ⟨e, he, rfl⟩ := hx
    obtain ⟨a, b⟩ := h.inBand e he
    simp only [all, Finset.mem_biUnion, Finset.mem_image, Finset.mem_range]
    exact ⟨e.zone, a, e.index, b, rfl⟩
  have := Finset.card_le_card hs
  rw [List.toFinset_card_of_nodup h.spares, List.length_map] at this
  omega

end Sys2Proof.Machine
end

