-- ==== Sys2Proof/Laws/KeepsBlocks.lean ====
section
/-! SUPPORT. What the engine's, the table's and the cartridge controller's operations keep. -/

set_option Elab.async false

namespace Sys2Proof.Machine

/-! ## The engine -/

/-- A change of the engine's record that leaves the due set and keeps a running engine running. -/
theorem Calm.engineRuns {q s : State} (h : Calm q s) (pe : Engine) (hs : s.pe.state ≠ .stopped)
    (he : pe.state ≠ .stopped) (hd : pe.due = s.pe.due) (hp : pe.pass = s.pe.pass ∨ pe.pass = none) :
    Calm q { s with pe := pe } :=
  h.trans
    { toKeeps := (Keeps.refl s).same
      engine := ⟨fun x => (he x).elim, fun x => (hs x).elim⟩
      cart := rfl, prior := rfl, limit := rfl, init := fun x => x
      mount := fun m => ⟨by dsimp only; rw [hd]; exact m.1, fun c hc => by
        rcases hp with hp | hp
        · dsimp only at hc; rw [hp] at hc; exact m.2 c hc
        · dsimp only at hc; rw [hp] at hc; cases hc⟩
      links := fun _ => rfl, phases := fun _ x => x, pass := fun _ x => (he x).elim }

theorem Calm.finishTarget {q s : State} (h : Calm q s) (t : Target) (hs : s.pe.state ≠ .stopped) :
    Calm q (finishTarget t s) := h.engineRuns _ hs (by simp) rfl (.inl rfl)

theorem Calm.startTarget {q s : State} (h : Calm q s) (t : Target) (hs : s.pe.state ≠ .stopped) :
    Calm q (startTarget t s) := by
  unfold Machine.startTarget; split
  · exact h.finishTarget t hs
  · exact h.engineRuns _ hs (by simp) rfl (.inl rfl)

theorem Calm.startRecalibrate {q s : State} (h : Calm q s) (p : Polarity) (hs : s.pe.state ≠ .stopped) :
    Calm q (startRecalibrate p s) := h.engineRuns _ hs (by simp) rfl (.inl rfl)

theorem Keeps.startRecalibrate {q s : State} (h : Keeps q s) (p : Polarity) :
    Keeps q (startRecalibrate p s) := h.same

theorem Calm.finishRecalibrate {q s : State} (h : Calm q s) (p : Polarity) (hs : s.pe.state ≠ .stopped) :
    Calm q (finishRecalibrate p s) := by
  have k := h.engineRuns { s.pe with
      headTrack := 0, polarity := p, settle := some (settleNow s), move := none } hs hs rfl (.inl rfl)
  unfold Machine.finishRecalibrate
  dsimp only
  split
  · exact k.startTarget _ hs
  · exact k.engineRuns _ hs (by simp) rfl (.inl rfl)

theorem Calm.endMoveIfDone {q s : State} (h : Calm q s) (hs : s.pe.state ≠ .stopped) :
    Calm q (endMoveIfDone s) := by
  unfold Machine.endMoveIfDone; split
  · split
    · split
      · exact h.finishTarget _ hs
      · exact h.finishRecalibrate _ hs
    · exact h
  · exact h

theorem Calm.actOnChoice {q s : State} (h : Calm q s) (t : Option Target) (hs : s.pe.state ≠ .stopped) :
    Calm q (actOnChoice t s) := by
  unfold Machine.actOnChoice; split
  · exact h.engineRuns _ hs (by simp) rfl (.inl rfl)
  · split
    · exact h.engineRuns _ hs (by simp) rfl (.inl rfl)
    · exact h.startTarget _ hs

theorem Calm.makeChoice {q s : State} (h : Calm q s) (hs : s.pe.state ≠ .stopped) :
    Calm q (makeChoice s) := h.actOnChoice _ hs

theorem Calm.workArrival {q s : State} (h : Calm q s) : Calm q (workArrival s) := by
  unfold Machine.workArrival
  split
  · next hi =>
    have hs : s.pe.state ≠ .stopped := by rw [hi]; decide
    split
    · exact h
    · dsimp only
      split
      · exact h.actOnChoice _ hs
      · have k : Calm q { s with freeCount := s.freeCount + 1 } := h.same
        exact k.actOnChoice _ hs
  · exact h

theorem Calm.queueNotice {q s : State} (h : Calm q s) (x : ConsoleNotice) : Calm q (queueNotice x s) := h.same

theorem Calm.updConsole {q s : State} (h : Calm q s) (g : Console → Console) :
    Calm q (updConsole g s) := h.same

theorem Calm.takeHold {q s : State} (h : Calm q s) (hs : s.pe.state ≠ .stopped) : Calm q (takeHold s) :=
  Calm.queueNotice (Calm.notifyBoth
    ((h.engineRuns { s.pe with state := .held } hs (by simp) rfl (.inl rfl)).same) _) _

theorem Calm.clearTakeAtMark {q s : State} (h : Calm q s) (o : OpOwner) : Calm q (clearTakeAtMark o s) := by
  unfold Machine.clearTakeAtMark; split
  · exact h.updTask _ _
  · exact h

/-- The current pass is gone; nothing else of the engine's record changed. -/
theorem Calm.passGone {q s : State} (h : Calm q s) : Calm q { s with pe := { s.pe with pass := none } } :=
  h.trans
    { toKeeps := (Keeps.refl s).same
      engine := .rfl, cart := rfl, prior := rfl, limit := rfl, init := fun x => x
      mount := fun m => ⟨m.1, fun c hc => by cases hc⟩
      links := fun _ => rfl, phases := fun _ x => x, pass := fun _ _ => rfl }

theorem Calm.cutOffPass {q s : State} (h : Calm q s) : Calm q (cutOffPass s) := by
  unfold Machine.cutOffPass; split
  · exact h
  · dsimp only
    split
    · exact h.passGone
    · exact h.passGone.clearTakeAtMark _

theorem clearTakeAtMark_pass (o : OpOwner) (s : State) : (clearTakeAtMark o s).pe = s.pe := by
  unfold clearTakeAtMark; split <;> rfl

theorem cutOffPass_pass (s : State) : (cutOffPass s).pe.pass = none := by
  unfold cutOffPass; split
  · next h => exact h
  · dsimp only
    split
    · rfl
    · rw [clearTakeAtMark_pass]

theorem cutOffPass_pe (s : State) : (cutOffPass s).pe = { s.pe with pass := none } := by
  unfold cutOffPass; split
  · next h => rw [← h]
  · dsimp only
    split
    · rfl
    · rw [clearTakeAtMark_pass]

theorem Keeps.stopEngine {q s : State} (h : Keeps q s) : Keeps q (stopEngine s) :=
  (h.calm (Calm.refl s).cutOffPass).same

theorem Keeps.startEngine {q s : State} (h : Keeps q s) : Keeps q (startEngine s) :=
  Keeps.startRecalibrate (Keeps.same h) _

/-! ## The table -/

theorem copyTasks_owner (c : TableCopy) (b : Bool) :
    ∀ op ∈ (copyTasks c b).map TableTask.op, op.owner.isMount = false := by
  intro op h
  obtain ⟨t, _, rfl⟩ := List.mem_map.mp h
  rfl

theorem Calm.startFlushAt {q s : State} (h : Calm q s) (g : Nat) : Calm q (startFlushAt g s) :=
  Calm.offerAll (Calm.same h) _ (copyTasks_owner _ _)

theorem Calm.startFlush {q s : State} (h : Calm q s) : Calm q (startFlush s) := h.startFlushAt _

theorem Calm.tableChanged {q s : State} (h : Calm q s) : Calm q (tableChanged s) := by
  unfold Machine.tableChanged; split
  · exact Calm.startFlush h.same
  · exact h.same
  · exact h

/-- A change of the table's entries that keeps them sound. -/
theorem Calm.table {q s : State} (h : Calm q s) (rmt : RemapTable)
    (hr : EntriesSound s.rmt.entries → EntriesSound rmt.entries) : Calm q { s with rmt := rmt } :=
  h.trans
    { pending := rfl, clock := le_rfl, attn := fun _ x => x, load := fun _ x => x, bare := fun _ x => x
      locks := fun x => x, settings := fun x => x, streams := fun _ x => x, remap := hr
      engine := .rfl, cart := rfl, prior := rfl, limit := rfl, init := fun x => x
      mount := fun x => x, links := fun _ => rfl, phases := fun _ x => x, pass := fun x => x }

theorem Calm.grantSpare {q s : State} (h : Calm q s) (home : Phys) (z j : Nat) (hz : z < 16)
    (hj : s.rmt.judgeSpare z = .ok j) : Calm q (grantSpare home z j s) := by
  obtain ⟨a, b⟩ := RemapTable.judgeSpare_ok hj
  exact (h.table { s.rmt with entries := s.rmt.granted home z j }
    fun hs => hs.granted home z j hz a b).tableChanged

theorem Calm.startNewTable {q s : State} (h : Calm q s) : Calm q (startNewTable s) :=
  (h.table
    { s.rmt with entries := [], loaded := true, fault := false, changedAgain := false, verifiedGen := 0,
                 generation := 1 } fun _ => EntriesSound.nil).startFlushAt 1

theorem Calm.unloadTable {q s : State} (h : Calm q s) : Calm q (unloadTable s) :=
  h.table _ fun _ => EntriesSound.nil

theorem Calm.emptyAssembly {q s : State} (h : Calm q s) : Calm q (emptyAssembly s) := h.same

theorem Calm.assemble {q s : State} (h : Calm q s) (c : TableCopy) (i : Nat) (p : Payload) :
    Calm q (assemble c i p s) := by
  unfold Machine.assemble; split <;> exact h.same

/-! ## Reassignment -/

theorem Calm.moveToSpare {q s : State} (h : Calm q s) (t : CommitTask) (e : Entry) (p : Phys) (g : Nat) :
    Calm q (moveToSpare t e p g s) := by
  unfold Machine.moveToSpare
  dsimp only
  split
  · exact (((h.updEntry _ _).promote _ _).restage _).freeingEvent
  · exact (h.updEntry _ _).restage _

theorem Calm.verifyFailed {q s : State} (h : Calm q s) (t : CommitTask) : Calm q (verifyFailed t s) := by
  unfold Machine.verifyFailed
  split
  · exact h.failTask _ _
  · dsimp only
    split
    · next hj _ => exact (h.grantSpare _ _ _ (zoneOfLba_lt _) hj).moveToSpare ..
    · exact h.failTask _ _
    · exact h

/-! ## The cartridge controller's parts -/

theorem Calm.clearCache {q s : State} (h : Calm q s) : Calm q (clearCache s) :=
  Calm.freeingEvent (Calm.completeReads (Calm.mapReads (Calm.same (h.withdrawAll _)) _) _)

theorem Calm.closeBothStreams {q s : State} (h : Calm q s) : Calm q (closeBothStreams s) :=
  h.trans
    { pending := rfl, clock := le_rfl, attn := fun _ x => x, load := fun _ x => x, bare := fun _ x => x
      locks := fun x => x, settings := fun x => x
      streams := fun ch _ => by cases ch <;> exact Stream.closed_inStep
      remap := fun x => x
      engine := .rfl, cart := rfl, prior := rfl, limit := rfl, init := fun x => x
      mount := fun x => x, links := fun _ => rfl, phases := fun _ x => x, pass := fun x => x }

theorem LocksWellFormed.nil : LocksWellFormed [] :=
  ⟨fun _ h => by simp at h, List.Pairwise.nil, List.nodup_nil, fun _ => by simp⟩

/-- A change of CU's locks that keeps them well formed. -/
theorem Calm.locksTo {q s : State} (h : Calm q s) (l : List LockEntry)
    (hl : LocksWellFormed s.cu.locks → LocksWellFormed l) :
    Calm q { s with cu := { s.cu with locks := l } } :=
  h.trans
    { pending := rfl, clock := le_rfl, attn := fun _ x => x, load := fun _ x => x, bare := fun _ x => x
      locks := hl, settings := fun x => x, streams := fun _ x => x, remap := fun x => x
      engine := .rfl, cart := rfl, prior := rfl, limit := rfl, init := fun x => x
      mount := fun x => x, links := fun _ => rfl, phases := fun _ x => x, pass := fun x => x }

theorem Calm.removeAllLocks {q s : State} (h : Calm q s) : Calm q (removeAllLocks s) :=
  h.locksTo _ fun _ => LocksWellFormed.nil

theorem Calm.clearMount {q s : State} (h : Calm q s) : Calm q (clearMount s) := h.same

theorem Calm.clearPart {q s : State} (h : Calm q s) : Calm q (clearPart s) :=
  (((h.closeBothStreams.clearCommit.clearCache.removeAllLocks).withdrawAll _).clearMount).unloadTable

theorem Calm.endInit {q s : State} (h : Calm q s) :
    Calm q { s with cc := { s.cc with initialise := none } } :=
  h.trans
    { toKeeps := (Keeps.refl s).same
      engine := .rfl, cart := rfl, prior := rfl, limit := rfl, init := fun x => by simp at x
      mount := fun x => x, links := fun _ => rfl, phases := fun _ x => x, pass := fun x => x }

theorem Calm.endEject {q s : State} (h : Calm q s) (st : ReportStatus) : Calm q (endEject st s) := by
  unfold Machine.endEject
  dsimp only
  split
  · exact Calm.same (h.postReport ..)
  · exact h.same

theorem Calm.endInitialise {q s : State} (h : Calm q s) (st : ReportStatus) :
    Calm q (endInitialise st s) := by
  unfold Machine.endInitialise
  dsimp only
  split
  · exact Calm.endInit (h.postReport ..)
  · exact h.endInit

theorem Calm.failRead {q s : State} (h : Calm q s) (r : ReadRecord) : Calm q (failRead s r) :=
  Calm.postReport (Calm.same h) ..

theorem Calm.failReads {q s : State} (h : Calm q s) : Calm q (failReads s) :=
  Calm.foldl (fun s r => (Calm.refl s).failRead r) _ h.same

theorem Calm.dropReading {q s : State} (h : Calm q s) (e : Entry) : Calm q (dropReading s e) :=
  ((h.withdraw _).removeEntry _).refsBad _ _

theorem Calm.dropAllReading {q s : State} (h : Calm q s) : Calm q (dropAllReading s) :=
  Calm.foldl (fun s e => (Calm.refl s).dropReading e) _ h

theorem Calm.failStream {q s : State} (h : Calm q s) (ch : Channel) : Calm q (failStream ch s) := by
  unfold Machine.failStream
  dsimp only
  split
  · next hc =>
    exact h.faultStream ch _ _ fun hi => Stream.faulted_inStep _ _ _ hi (.inl hc.1) hc.2 le_rfl hi.behind
      fun q _ hf => by rw [hc.1] at hf; cases hf
  · exact h

theorem Calm.failWork {q s : State} (h : Calm q s) : Calm q (failWork s) :=
  ((((((h.failReads.dropAllReading).failStream .a).failStream .b).endAllWaiters).endEject _).endInitialise
    _).freeingEvent

theorem Keeps.enterCartState {q s : State} (h : Keeps q s) (st : CartState) :
    Keeps q (enterCartState st s) :=
  Keeps.calm (Keeps.same h) ((Calm.refl _).notifyBoth _)

theorem Keeps.startLimit {q s : State} (h : Keeps q s) (k : LimitKind) : Keeps q (startLimit k s) := h.same
theorem Keeps.cancelLimit {q s : State} (h : Keeps q s) : Keeps q (cancelLimit s) := h.same
theorem Keeps.startMotor {q s : State} (h : Keeps q s) : Keeps q (startMotor s) := h.same
theorem Keeps.stopMotor {q s : State} (h : Keeps q s) : Keeps q (stopMotor s) := h.same

theorem Keeps.enterEmpty {q s : State} (h : Keeps q s) : Keeps q (enterEmpty s) :=
  Keeps.calm (Keeps.enterCartState (Keeps.same h) _) ((Calm.refl _).endEject _)

theorem Keeps.enterEjecting {q s : State} (h : Keeps q s) : Keeps q (enterEjecting s) := by
  unfold Machine.enterEjecting
  have k : Keeps q (Machine.enterCartState .ejecting (Machine.startLimit .switch
    { s with outputs := { s.outputs with ejectFired := true }
             lines := { s.lines with hubClamped := false } })) := Keeps.enterCartState (Keeps.same h) _
  dsimp only
  split
  · exact k
  · exact k.enterEmpty

theorem Keeps.enterSpinningDown {q s : State} (h : Keeps q s) : Keeps q (enterSpinningDown s) := by
  unfold Machine.enterSpinningDown
  have k : Keeps q (Machine.enterCartState .spinningDown (Machine.startLimit .stop (Machine.stopMotor s))) :=
    Keeps.enterCartState (Keeps.same h) _
  dsimp only
  split
  · exact k.enterEjecting
  · exact k

theorem Keeps.drainCheck {q s : State} (h : Keeps q s) : Keeps q (drainCheck s) := by
  unfold Machine.drainCheck; split
  · exact (h.calm (Calm.refl s).clearPart).stopEngine.enterSpinningDown
  · exact h

theorem Keeps.startEject {q s : State} (h : Keeps q s) (r : EjectRequest) : Keeps q (startEject r s) := by
  unfold Machine.startEject
  have k : Keeps q { s with cc := { s.cc with eject := some r } } := h.same
  dsimp only
  split
  · exact (k.calm (Calm.refl _).clearPart).stopEngine.enterSpinningDown
  · exact (k.calm (Calm.refl _).clearPart).enterSpinningDown
  · exact (k.enterCartState _).drainCheck

theorem Keeps.enterFailed {q s : State} (h : Keeps q s) : Keeps q (enterFailed s) := by
  refine Keeps.calm (Keeps.enterCartState (Keeps.same (r := Machine.stopEngine (Machine.stopMotor
    (Machine.cancelLimit s))) ?_) _) (Calm.refl _).failWork
  exact Keeps.stopEngine (Keeps.same h)

theorem Keeps.mechanismFault {q s : State} (h : Keeps q s) : Keeps q (mechanismFault s) := by
  unfold Machine.mechanismFault
  split
  · dsimp only
    split
    · exact Keeps.enterCartState (Keeps.same h.stopEngine) _
    · exact Keeps.enterFailed (Keeps.same h.stopEngine)
  · exact h

theorem Keeps.restartMount {q s : State} (h : Keeps q s) : Keeps q (restartMount s) :=
  h.calm (((Calm.refl s).withdrawAll _).clearMount).emptyAssembly

theorem Keeps.lockInSpinUp {q s : State} (h : Keeps q s) : Keeps q (lockInSpinUp s) := by
  unfold Machine.lockInSpinUp
  dsimp only
  exact Keeps.offerAll (Keeps.startEngine (Keeps.enterCartState (Keeps.restartMount (Keeps.same h)) _)) _

theorem Keeps.lockInRecovery {q s : State} (h : Keeps q s) : Keeps q (lockInRecovery s) := by
  unfold Machine.lockInRecovery
  dsimp only
  split
  · exact Keeps.offerAll (Keeps.restartMount (Keeps.startEngine (Keeps.enterCartState (Keeps.same h) _))) _
  · exact Keeps.drainCheck (Keeps.startEngine (Keeps.enterCartState (Keeps.same h) _))

theorem Keeps.judgePeriod {q s : State} (h : Keeps q s) (p : Nat) : Keeps q (judgePeriod p s) := by
  unfold Machine.judgePeriod
  split
  · dsimp only
    generalize (if 19800 ≤ p ∧ p ≤ 20200 then s.cc.lockRun + 1 else 0) = run
    split
    · split
      · exact Keeps.lockInSpinUp (Keeps.same h)
      · exact Keeps.lockInRecovery (Keeps.same h)
    · exact h.same
  · exact h

theorem Keeps.endMount {q s : State} (h : Keeps q s) : Keeps q (endMount s) := by
  unfold Machine.endMount
  dsimp only
  exact Keeps.enterCartState (h.calm
    ((((Calm.refl s).table _ fun _ => mountChoice_sound s).withdrawAll _).clearMount)) _

theorem Calm.setMountRecord {q s : State} (h : Calm q s) (c : TableCopy) (i : Nat) (r : MountSector) :
    Calm q (setMountRecord c i r s) := h.same

theorem Keeps.resolveMount {q s : State} (h : Keeps q s) (c : TableCopy) (i : Nat) (o : MountOutcome) :
    Keeps q (resolveMount c i o s) := by
  unfold Machine.resolveMount
  dsimp only
  have k := h.calm (((Calm.refl s).setMountRecord c i
    { mountRecord c i s with outcome := some o }).withdraw (.mount c i))
  split
  · exact k.endMount
  · exact k

theorem Keeps.mountOutcome {q s : State} (h : Keeps q s) (c : TableCopy) (i : Nat) (o : PassOutcome) :
    Keeps q (mountOutcome c i o s) := by
  unfold Machine.mountOutcome
  dsimp only
  split
  · exact (h.calm ((Calm.refl s).assemble c i _)).resolveMount ..
  · exact h.resolveMount ..
  · have k := h.calm ((Calm.refl s).setMountRecord c i
      { mountRecord c i s with retries := (mountRecord c i s).retries + 1 })
    split
    · exact k.resolveMount ..
    · exact k
  · exact h

theorem Keeps.flushEndedWell {q s : State} (h : Keeps q s) : Keeps q (flushEndedWell s) := by
  unfold Machine.flushEndedWell; split
  · exact (h.enterCartState _).calm ((Calm.refl _).endInitialise _)
  · exact h.drainCheck

theorem Keeps.tableFaultReported {q s : State} (h : Keeps q s) : Keeps q (tableFaultReported s) := by
  unfold Machine.tableFaultReported; split
  · exact (h.enterCartState _).calm ((Calm.refl _).endInitialise _)
  · split
    · exact h.enterCartState _
    · exact h.drainCheck

theorem Keeps.startInitialise {q s : State} (h : Keeps q s) (ch : Channel) (tag : Byte) :
    Keeps q (startInitialise ch tag s) := by
  unfold Machine.startInitialise
  have k : Keeps q { s with cc := { s.cc with initialise := some ⟨ch, tag⟩ } } := h.same
  dsimp only
  refine Keeps.calm (?_ : Keeps q _) (Calm.refl _).startNewTable
  split
  · exact (k.calm (Calm.refl _).clearCache).enterCartState _
  · exact k

theorem Keeps.clampDone {q s : State} (h : Keeps q s) : Keeps q (clampDone s) :=
  Keeps.enterCartState (Keeps.same h) _

theorem Keeps.enterLoading {q s : State} (h : Keeps q s) : Keeps q (enterLoading s) := by
  unfold Machine.enterLoading
  have k : Keeps q (Machine.enterCartState .loading
    (Machine.startLimit .clamp { s with outputs := { s.outputs with clampCommand := true } })) :=
    Keeps.enterCartState (Keeps.same h) _
  dsimp only
  split
  · exact k.clampDone
  · exact k

/-- A link of an attached or a detached channel after a reset meets every law. -/
theorem Keeps.blocksReset {q s : State} (h : Keeps q s) (m : MechanismFound) (b : Bool) :
    Keeps q (blocksReset m b s) :=
  h.trans
    { pending := rfl, clock := le_rfl
      attn := fun ch _ => by cases ch <;> rfl
      load := fun ch _ => by cases ch <;> exact Nat.zero_le 32
      bare := fun ch _ _ => by cases ch <;> exact ⟨rfl, rfl, rfl, rfl, rfl, rfl⟩
      locks := fun _ => LocksWellFormed.nil
      settings := fun _ => ⟨(by decide : 3 ≤ 7), (by decide : 2 ≤ 3), (by decide : 8 ≤ 48), (by decide : 48 ≤ 64)⟩
      streams := fun ch _ => by cases ch <;> exact Stream.closed_inStep
      remap := fun _ => EntriesSound.nil }

theorem Keeps.resetPart {q s : State} (h : Keeps q s) (m : MechanismFound) (b : Bool) :
    Keeps q (resetPart m b s) := by
  unfold Machine.resetPart
  dsimp only
  split
  · exact (h.blocksReset m b).enterLoading
  · exact h.blocksReset m b

/-! ## Flushes and passes -/

theorem Calm.updTableTask {q s : State} (h : Calm q s) (c : TableCopy) (i : Nat)
    (g : TableTask → TableTask) : Calm q (updTableTask c i g s) := h.same

theorem Calm.removeTableTask {q s : State} (h : Calm q s) (c : TableCopy) (i : Nat) :
    Calm q (removeTableTask c i s) := Calm.withdraw (Calm.same h) _

theorem Calm.restageTable {q s : State} (h : Calm q s) (t : TableTask) : Calm q (restageTable t s) :=
  ((h.updTableTask ..).withdraw _).offer _ rfl

theorem Calm.setCopy {q s : State} (h : Calm q s) (c : TableCopy) (x : CopyStatus) :
    Calm q (setCopy c x s) := h.same

theorem Calm.withdrawCopy {q s : State} (h : Calm q s) (c : TableCopy) : Calm q (withdrawCopy c s) :=
  Calm.withdrawAll (Calm.same h) _

theorem Calm.releaseCopyB {q s : State} (h : Calm q s) : Calm q (releaseCopyB s) := by
  refine Calm.offerAll (Calm.setCopy (Calm.same h) _ _) _ fun op ho => ?_
  obtain ⟨t, _, rfl⟩ := List.mem_map.mp ho
  rfl

theorem Calm.raiseVerified {q s : State} (h : Calm q s) : Calm q (raiseVerified s) :=
  Calm.tableVerified (Calm.same h) _

theorem Keeps.endFlushWell {q s : State} (h : Keeps q s) : Keeps q (endFlushWell s) := by
  unfold Machine.endFlushWell
  dsimp only
  refine Keeps.flushEndedWell (?_ : Keeps q _)
  split
  · exact Keeps.calm (Keeps.same h) (Calm.refl _).startFlush
  · exact h.same

theorem Keeps.endFlushFaulted {q s : State} (h : Keeps q s) : Keeps q (endFlushFaulted s) :=
  Keeps.tableFaultReported (Keeps.calm (Keeps.same h) ((Calm.refl _).tableFaulted _))

theorem Calm.copyALeaves {q s : State} (h : Calm q s) (b : Bool) : Calm q (copyALeaves b s) := by
  unfold Machine.copyALeaves; split
  · exact ((h.setCopy _ _).raiseVerified).releaseCopyB
  · exact (h.setCopy _ _).releaseCopyB

theorem Keeps.copyBLeaves {q s : State} (h : Keeps q s) (b : Bool) : Keeps q (copyBLeaves b s) := by
  unfold Machine.copyBLeaves
  have k : ∀ x, Keeps q (Machine.setCopy .b x s) := fun x => h.calm ((Calm.refl s).setCopy _ _)
  dsimp only
  split
  · refine Keeps.endFlushWell (?_ : Keeps q _)
    split
    · exact k _
    · exact (k _).calm (Calm.refl _).raiseVerified
  · split
    · exact (k _).endFlushWell
    · exact (k _).endFlushFaulted

theorem Keeps.copyLeaves {q s : State} (h : Keeps q s) (c : TableCopy) (b : Bool) :
    Keeps q (copyLeaves c b s) := by
  unfold Machine.copyLeaves; split
  · exact h.calm ((Calm.refl s).copyALeaves b)
  · exact h.copyBLeaves b

theorem Keeps.sectorVerified {q s : State} (h : Keeps q s) (c : TableCopy) :
    Keeps q (sectorVerified c s) := by
  unfold Machine.sectorVerified; split
  · split
    · exact h.copyLeaves ..
    · exact h.calm ((Calm.refl s).setCopy ..)
  · exact h

theorem Keeps.sectorAbandoned {q s : State} (h : Keeps q s) (c : TableCopy) :
    Keeps q (sectorAbandoned c s) := by
  unfold Machine.sectorAbandoned; split
  · exact (h.calm ((Calm.refl s).withdrawCopy c)).copyLeaves ..
  · exact h

theorem Keeps.tableStageOutcome {q s : State} (h : Keeps q s) (t : TableTask) (o : PassOutcome) :
    Keeps q (tableStageOutcome t o s) := by
  unfold Machine.tableStageOutcome
  have k := h.calm ((Calm.refl s).removeTableTask t.copy t.sector)
  split
  · exact h.calm ((Calm.refl s).restageTable _)
  · exact h.calm ((Calm.refl s).restageTable _)
  · exact k.sectorVerified _
  · split
    · exact h.calm ((Calm.refl s).restageTable _)
    · exact k.sectorAbandoned _
  · exact h

theorem Keeps.tableOutcome {q s : State} (h : Keeps q s) (c : TableCopy) (i : Nat) (k : PassKind)
    (o : PassOutcome) : Keeps q (tableOutcome c i k o s) := by
  unfold Machine.tableOutcome; split
  · split
    · exact h.tableStageOutcome ..
    · exact h
  · exact h

theorem Calm.readArrived {q s : State} (h : Calm q s) (e : Entry) (p : Payload) (b : Bool) :
    Calm q (readArrived e p b s) := by
  unfold Machine.readArrived
  have k := (((h.fillBuffer e.current p).updEntry e.lba fun x =>
    { x with state := .clean, blank := b, retries := 0 }).withdraw (.entry e.lba)).refsReady e.lba
  dsimp only
  split
  · exact k.freeingEvent
  · exact k

theorem Calm.readGivenUp {q s : State} (h : Calm q s) (e : Entry) : Calm q (readGivenUp e s) :=
  (((h.removeEntry _).withdraw _).refsBad _ _).freeingEvent

theorem Calm.entryOutcome {q s : State} (h : Calm q s) (lba : Nat) (p : Phys) (o : PassOutcome) :
    Calm q (entryOutcome lba p o s) := by
  unfold Machine.entryOutcome; split
  · exact h
  · split
    · split
      · exact h.readArrived ..
      · exact h.readArrived ..
      · split
        · exact h.readGivenUp _
        · exact h.updEntry _ _
      · exact h
    · exact h

theorem Calm.writeDone {q s : State} (h : Calm q s) (t : CommitTask) : Calm q (writeDone t s) := by
  unfold Machine.writeDone
  dsimp only
  split
  · split
    · exact h.restage _
    · exact h.finishTask _
  · exact h.updTask _ _

theorem Calm.stageOutcome {q s : State} (h : Calm q s) (t : CommitTask) (o : PassOutcome) :
    Calm q (stageOutcome t o s) := by
  unfold Machine.stageOutcome; split
  · exact h.restage _
  · exact h.writeDone _
  · exact h.finishTask _
  · exact h.verifyFailed _
  · exact h

theorem Keeps.taskOutcome {q s : State} (h : Keeps q s) (lba : Nat) (p : Phys) (k : PassKind)
    (o : PassOutcome) : Keeps q (taskOutcome lba p k o s) := by
  unfold Machine.taskOutcome; split
  · split
    · exact (h.calm ((Calm.refl s).stageOutcome ..)).drainCheck
    · exact h
  · exact h

theorem Keeps.deliver {q s : State} (h : Keeps q s) (op : DueOp) (o : PassOutcome) :
    Keeps q (deliver op o s) := by
  unfold Machine.deliver; split
  · exact h.calm ((Calm.refl s).entryOutcome ..)
  · exact h.taskOutcome ..
  · exact h.tableOutcome ..
  · unfold mountDelivered; split
    · exact h.mountOutcome ..
    · exact h

theorem Calm.judgeWatch {q s : State} (h : Calm q s) (n : Nat) (op : DueOp) (o : ShownOutcome) :
    Calm q (judgeWatch n op o s) := by
  unfold Machine.judgeWatch; split
  · split
    · exact h.same
    · exact h
  · exact h

theorem Keeps.endPass {q s : State} (h : Keeps q s) (f : Found) : Keeps q (endPass f s) := by
  unfold Machine.endPass; split
  · exact h
  · next c _ =>
    dsimp only
    have k := h.calm (((Calm.refl s).passGone.judgeWatch 0 c.op (c.shown f)).judgeWatch 1 c.op (c.shown f))
    split
    · exact k.calm ((Calm.refl _).clearTakeAtMark _)
    · exact k.deliver _ _

theorem Keeps.closePass {q s : State} (h : Keeps q s) (b : Bool) (f : Found) :
    Keeps q (closePass b f s) := by
  unfold Machine.closePass; split
  · exact h.calm (Calm.refl s).cutOffPass
  · exact h.endPass f

/-- A choice keeps the laws in any state of the engine. -/
theorem Keeps.makeChoice {q s : State} (h : Keeps q s) : Keeps q (makeChoice s) := by
  unfold Machine.makeChoice actOnChoice; split
  · exact h.same
  · split
    · exact h.same
    · unfold startTarget; split
      · exact h.same
      · exact h.same

theorem Keeps.takeHold {q s : State} (h : Keeps q s) : Keeps q (takeHold s) :=
  Keeps.same (Keeps.calm (Keeps.same h) ((Calm.refl _).notifyBoth .held))

theorem Keeps.holdOrChoice {q s : State} (h : Keeps q s) : Keeps q (holdOrChoice s) := by
  unfold Machine.holdOrChoice; split
  · split
    · exact h.takeHold
    · exact h.makeChoice
  · split
    · exact h.takeHold
    · exact h
  · exact h

theorem Keeps.heldSectorEnd {q s : State} (h : Keeps q s) (b : Bool) (f : Found) :
    Keeps q (heldSectorEnd b f s) := by
  unfold Machine.heldSectorEnd
  have k : Keeps q { s with mci := { s.mci with hold := false } } := h.same
  dsimp only
  split
  · exact k
  · next c _ =>
    have k2 : Keeps q (stepLine b f c (Machine.closePass b f
        { s with mci := { s.mci with hold := false } })) := by
      unfold stepLine; split
      · exact k.closePass b f
      · exact Keeps.same (k.closePass b f)
    split
    · exact Keeps.makeChoice (Keeps.same k2)
    · exact k2.same

theorem Keeps.sectorEnds {q s : State} (h : Keeps q s) (b : Bool) (f : Found) :
    Keeps q (sectorEnds b f s) := by
  unfold Machine.sectorEnds; split
  · exact h.heldSectorEnd b f
  · exact (h.closePass b f).holdOrChoice
  · exact (h.closePass b f).holdOrChoice
  · exact h
  · exact h

theorem Keeps.sectorMark {q s : State} (h : Keeps q s) (n a : Nat) : Keeps q (sectorMark n a s) := by
  have k : Keeps q (settledAt a s) := by
    unfold settledAt; split
    · exact h.same
    · exact h
  unfold Machine.sectorMark
  dsimp only
  split
  · split
    · unfold beginPass recordTakeAtMark; split
      · exact Keeps.same k
      · exact Keeps.same k
    · exact k
  · exact k

end Sys2Proof.Machine
end

