-- ==== Sys2Proof/Laws/KeepsCommands.lean ====
section
/-! SUPPORT. What each command keeps: every law of Safety.lean that held before a command holds after it. -/

set_option Elab.async false

namespace Sys2Proof.Machine

/-! ## Links -/

/-- A change of one link, judged afterwards, that keeps its load and what a detached link holds. -/
theorem Keeps.link {q s : State} (h : Keeps q s) (ch : Channel) (g : Link → Link)
    (hl : (s.links.get ch).load ≤ 32 → (g (s.links.get ch)).load ≤ 32)
    (hb : ((s.links.get ch).attached = false → (s.links.get ch).Bare) →
      (g (s.links.get ch)).attached = false → (g (s.links.get ch)).Bare) : Keeps q (updLink ch g s) :=
  h.trans
    { pending := rfl, clock := le_rfl
      attn := by
        intro c x
        rw [updLink_links, PerChannel.get_set]
        split
        · rfl
        · exact x
      load := by
        intro c x
        rw [updLink_links, PerChannel.get_set]
        split
        · next e => subst e; exact hl x
        · exact x
      bare := by
        intro c x
        rw [updLink_links, PerChannel.get_set]
        split
        · next e => subst e; exact hb x
        · exact x
      locks := fun x => x, settings := fun x => x, streams := fun _ x => x, remap := fun x => x }

theorem Keeps.discardFrame {q s : State} (h : Keeps q s) (ch : Channel) : Keeps q (discardFrame ch s) :=
  h.link ch _ (fun x => x) (fun x => x)

theorem Keeps.abandonWrite {q s : State} (h : Keeps q s) (ch : Channel) : Keeps q (abandonWrite ch s) := by
  unfold Machine.abandonWrite; split
  · exact h
  · exact (h.calm ((((Calm.refl s).freeBuffers _).endDataPhase ch).dropOutstanding ..).freeingEvent).drainCheck

theorem Keeps.addOutstanding {q s : State} (h : Keeps q s) (ch : Channel) (tag : Byte) (k : QueuedKind)
    (hl : (s.links.get ch).load < 32) (ha : (s.links.get ch).attached = true) :
    Keeps q (addOutstanding ch tag k s) :=
  h.link ch _ (fun _ => by simp only [Link.load, List.length_append, List.length_singleton] at hl ⊢; omega)
    (fun _ x => by dsimp only at x; rw [ha] at x; cases x)

theorem addOutstanding_attached (ch c : Channel) (tag : Byte) (k : QueuedKind) (s : State) :
    ((addOutstanding ch tag k s).links.get c).attached = (s.links.get c).attached := by
  unfold addOutstanding
  rw [updLink_links, PerChannel.get_set]
  split
  · next e => subst e; rfl
  · rfl

theorem Keeps.attachChannel {q s : State} (h : Keeps q s) (ch : Channel) (tag : Byte) :
    Keeps q (attachChannel ch tag s) := by
  unfold Machine.attachChannel
  dsimp only
  split
  · exact h.calm ((Calm.refl s).accept ..)
  · exact Keeps.calm (h.link ch _ (fun x => x) (fun _ x => by cases x)) ((Calm.refl _).accept ..)

theorem Calm.detachCache {q s : State} (h : Calm q s) (ch : Channel) : Calm q (detachCache ch s) :=
  Calm.setWant (Calm.same h) ch none

theorem Calm.dropReservation {q s : State} (h : Calm q s) (ch : Channel) :
    Calm q (dropReservation ch s) := by
  unfold Machine.dropReservation; split
  · exact h.freeBuffers _
  · exact h

theorem LocksWellFormed.sublist {k l : List LockEntry} (h : LocksWellFormed l) (hs : k.Sublist l) :
    LocksWellFormed k :=
  ⟨fun e he => h.inRange e (hs.subset he), h.ordered.sublist hs, h.handles.sublist (hs.map _),
    fun ch => (hs.countP_le).trans (h.owned ch)⟩

/-- A change of CU's locks that leaves some out, and of its mailboxes. -/
theorem Calm.coordination {q s : State} (h : Calm q s) (cu : Coordination)
    (hl : cu.locks.Sublist s.cu.locks) (hx : cu.settings = s.cu.settings) :
    Calm q { s with cu := cu } :=
  h.trans
    { pending := rfl, clock := le_rfl, attn := fun _ x => x, load := fun _ x => x, bare := fun _ x => x
      locks := fun x => x.sublist hl, settings := fun x => by rw [hx]; exact x
      streams := fun _ x => x, remap := fun x => x
      engine := .rfl, cart := rfl, prior := rfl, limit := rfl, init := fun x => x
      mount := fun x => x, links := fun _ => rfl, phases := fun _ x => x, pass := fun x => x }

theorem Calm.detachCoordination {q s : State} (h : Calm q s) (ch : Channel) :
    Calm q (detachCoordination ch s) := h.coordination _ List.filter_sublist rfl

theorem Calm.closeOne {q s : State} (h : Calm q s) (ch : Channel) :
    Calm q (Machine.updStream ch (fun _ => Stream.closed) s) :=
  h.updStream ch _ fun _ => Stream.closed_inStep

theorem Keeps.detachChannel {q s : State} (h : Keeps q s) (ch : Channel) : Keeps q (detachChannel ch s) := by
  have k : Keeps q (updLink ch Link.detached (Machine.dropReservation ch s)) :=
    (h.calm ((Calm.refl s).dropReservation ch)).link ch _ (fun _ => Nat.zero_le 32)
      (fun _ _ => ⟨rfl, rfl, rfl, rfl, rfl, rfl⟩)
  have k2 := k.calm ((((((Calm.refl _).detachCache ch).detachCommit ch).closeOne ch).detachCoordination
    ch).freeingEvent)
  unfold Machine.detachChannel
  dsimp only
  split
  · exact k2.drainCheck
  · exact k2

theorem Keeps.linkResetAsserted {q s : State} (h : Keeps q s) (ch : Channel) :
    Keeps q (linkResetAsserted ch s) := by
  have k : Keeps q (updLink ch (fun l =>
      { l with resetAsserted := true, response := none, discardTail := false }) s) :=
    h.link ch _ (fun x => x) (fun x => x)
  unfold Machine.linkResetAsserted
  dsimp only
  split
  · exact k.detachChannel ch
  · exact k

theorem Calm.linkResetReleased {q s : State} (h : Calm q s) (ch : Channel) (b : Bool) :
    Calm q (linkResetReleased ch b s) := by
  refine h.upd ch _ (fun l => ?_) (fun l x => ?_)
  · split
    · exact ⟨rfl, rfl, fun _ => rfl, fun x => x, fun _ x => x⟩
    · exact ⟨rfl, rfl, fun _ => rfl, fun x => x, fun _ x => x⟩
  · split <;> exact x

theorem Keeps.setEvents {q s : State} (h : Keeps q s) (ch : Channel) (f : Frame)
    (ha : (s.links.get ch).attached = true) : Keeps q (setEvents ch f s) :=
  Keeps.calm (h.link ch _ (fun x => x) (fun _ x => by dsimp only at x; rw [ha] at x; cases x))
    ((Calm.refl _).accept ..)

theorem Calm.cleared {q s : State} (h : Calm q s) (ch : Channel) (m : BitVec 11) :
    Calm q (updLink ch (Link.cleared m) s) :=
  h.upd ch _ (fun l => ⟨rfl, rfl, fun _ => rfl, fun x => x, fun _ x =>
    ⟨x.1, x.2.1, by simp [Link.cleared, Link.judged, x.2.2.1], x.2.2.2⟩⟩) (fun _ x => x)

theorem Calm.clearEvents {q s : State} (h : Calm q s) (ch : Channel) (f : Frame) :
    Calm q (clearEvents ch f s) := (h.cleared ch _).accept ..

theorem Calm.pullEvents {q s : State} (h : Calm q s) (ch : Channel) (tag : Byte) :
    Calm q (pullEvents ch tag s) := by
  unfold Machine.pullEvents
  dsimp only
  refine Calm.respond (?_ : Calm q _) ..
  split
  · exact h.cleared ch _
  · exact h

theorem Calm.pullReport {q s : State} (h : Calm q s) (ch : Channel) (tag : Byte) :
    Calm q (pullReport ch tag s) := by
  unfold Machine.pullReport; split
  · exact h.answerEmpty ..
  · next r rest hr =>
    refine Calm.respond (h.trans ?_) ..
    have key : LinkKeeps (s.links.get ch) ({ s.links.get ch with reports := rest } : Link).judged := by
      refine ⟨rfl, rfl, fun _ => rfl, fun x => ?_, fun _ x => ?_⟩
      · simp only [Link.load, Link.judged, hr, List.length_cons] at x ⊢; omega
      · rw [Link.Bare, hr] at x; simp at x
    have key2 : ∀ c, LinkKeeps (s.links.get c) ((updLink ch (fun l => { l with reports := rest }) s).links.get c) := by
      intro c
      rw [updLink_links, PerChannel.get_set]
      split
      · next e => subst e; exact key
      · exact ⟨rfl, rfl, fun x => x, fun x => x, fun _ x => x⟩
    exact
      { pending := rfl, clock := le_rfl, attn := fun c => (key2 c).attn, load := fun c => (key2 c).load
        bare := fun c x y => (key2 c).bare ((key2 c).attached ▸ y) (x ((key2 c).attached ▸ y))
        locks := fun x => x, settings := fun x => x, streams := fun _ x => x, remap := fun x => x
        engine := .rfl, cart := rfl, prior := rfl, limit := rfl, init := fun x => x, mount := fun x => x
        links := fun c => (key2 c).attached
        phases := by
          intro c x
          rw [updLink_links, PerChannel.get_set]
          split
          · next e => subst e; exact x
          · exact x
        pass := fun x => x }

theorem Calm.inquire {q s : State} (h : Calm q s) (ch : Channel) (tag : Byte) :
    Calm q (inquire ch tag s) := h.accept ..

/-! ## Coordination -/

theorem runsMeet_false {a b c d : Nat} (h : runsMeet a b c d = false) : c + d ≤ a ∨ a + b ≤ c := by
  simp only [runsMeet, Bool.and_eq_false_iff, decide_eq_false_iff_not, not_lt] at h
  exact h

theorem insertLock_perm (e : LockEntry) (l : List LockEntry) : (insertLock e l).Perm (e :: l) := by
  induction l with
  | nil => exact List.Perm.refl _
  | cons x l ih =>
    unfold insertLock
    split
    · exact List.Perm.refl _
    · exact (ih.cons x).trans (List.Perm.swap e x l)

/-- The lowest handle is held by no entry while fewer than 16 stand (R149). -/
theorem lowestHandle_spec (l : List LockEntry) (h : l.length < 16) :
    lowestHandle l < 16 ∧ (∀ e ∈ l, e.handle ≠ lowestHandle l) ∧
      ∀ k < lowestHandle l, ∃ e ∈ l, e.handle = k := by
  unfold lowestHandle
  cases hf : (List.range 16).find? fun h => !(l.any fun e => e.handle == h) with
  | none =>
    exfalso
    have hall := List.find?_eq_none.mp hf
    have hsub : (List.range 16) ⊆ l.map LockEntry.handle := by
      intro k hk
      have := hall k hk
      simp only [Bool.not_eq_true', Bool.not_eq_false, List.any_eq_true, beq_iff_eq] at this
      obtain ⟨e, he, hk⟩ := this
      exact List.mem_map.mpr ⟨e, he, hk⟩
    have := (List.subperm_of_subset List.nodup_range hsub).length_le
    simp at this
    omega
  | some k =>
    rw [Option.getD_some]
    refine ⟨List.mem_range.mp (List.mem_of_find?_eq_some hf), fun e he hc => ?_, fun j hj => ?_⟩
    · have := List.find?_some hf
      simp only [Bool.not_eq_true', List.any_eq_false, beq_iff_eq] at this
      exact this e he hc
    · obtain ⟨_, as, bs, hab, hn⟩ := List.find?_eq_some_iff_append.mp hf
      have hk16 : k < 16 := List.mem_range.mp (List.mem_of_find?_eq_some hf)
      have hmem : j ∈ as := by
        have hr := congrArg (fun l => l[j]?) hab
        have hks := congrArg (fun l => l[as.length]?) hab
        simp only [List.getElem?_append_right le_rfl, Nat.sub_self, List.getElem?_cons_zero] at hks
        have hlen : as.length = k := by
          have hlt : as.length < 16 := by
            have := congrArg List.length hab
            simp only [List.length_range, List.length_append, List.length_cons] at this
            omega
          rw [List.getElem?_range hlt] at hks
          exact Option.some.inj hks
        rw [List.getElem?_append_left (by omega), List.getElem?_range (by omega)] at hr
        exact List.mem_of_getElem? hr.symm
      have := hn j hmem
      simp only [List.any_eq_true, beq_iff_eq, Bool.not_not] at this
      exact this

theorem insertLock_ordered (e : LockEntry) (l : List LockEntry)
    (h : l.Pairwise fun x y => x.first + x.count ≤ y.first)
    (hd : ∀ x ∈ l, x.first + x.count ≤ e.first ∨ e.first + e.count ≤ x.first)
    (he : 1 ≤ e.count) (hc : ∀ x ∈ l, 1 ≤ x.count) :
    (insertLock e l).Pairwise fun x y => x.first + x.count ≤ y.first := by
  induction l with
  | nil => exact List.pairwise_singleton _ _
  | cons x l ih =>
    rw [List.pairwise_cons] at h
    have hx := hd x List.mem_cons_self
    have hxc := hc x List.mem_cons_self
    unfold insertLock
    split
    · next hp =>
      refine List.pairwise_cons.mpr ⟨fun y hy => ?_, List.pairwise_cons.mpr h⟩
      rcases List.mem_cons.mp hy with rfl | hy
      · omega
      · have := h.1 y hy; omega
    · next hp =>
      refine List.pairwise_cons.mpr ⟨fun y hy => ?_, ih h.2
        (fun y hy => hd y (List.mem_cons_of_mem _ hy)) (fun y hy => hc y (List.mem_cons_of_mem _ hy))⟩
      rcases List.mem_cons.mp ((insertLock_perm e l).mem_iff.mp hy) with rfl | hy
      · omega
      · exact h.1 y hy

/-- A table in which one channel owns fewer than 8 entries is not full (R148). -/
theorem LocksWellFormed.length_lt {l : List LockEntry} (h : LocksWellFormed l) (ch : Channel)
    (hc : l.countP (fun e => e.owner == ch) < 8) : l.length < 16 := by
  have e := List.length_eq_countP_add_countP (fun e : LockEntry => e.owner == ch) (l := l)
  have k : l.countP (fun a => decide ¬((a.owner == ch) = true)) =
      l.countP (fun e => e.owner == other ch) := by
    refine List.countP_congr fun x _ => ?_
    cases ho : x.owner <;> cases ch <;> simp [other]
  rw [k] at e
  have := h.owned (other ch)
  omega

theorem LocksWellFormed.newLock {s : State} (h : LocksWellFormed s.cu.locks) (ch : Channel) (f : Frame)
    (ho : lockObjection ch f s = none) : LocksWellFormed (insertLock (newLock ch f s) s.cu.locks) := by
  unfold lockObjection at ho
  split at ho
  · cases ho
  · next h1 =>
    split at ho
    · cases ho
    · split at ho
      · cases ho
      · next h3 =>
        split at ho
        · cases ho
        · next h4 =>
          simp only [isExtent, inLbaRange, Bool.not_eq_true', Bool.not_eq_false, Bool.and_eq_true,
            decide_eq_true_eq] at h1
          simp only [not_le] at h3
          simp only [Bool.not_eq_true, List.any_eq_false, LockEntry.meets] at h4
          have hl := h.length_lt ch h3
          obtain ⟨a, b, _⟩ := lowestHandle_spec s.cu.locks hl
          have hp := insertLock_perm (Machine.newLock ch f s) s.cu.locks
          refine ⟨fun e he => ?_, ?_, ?_, fun c => ?_⟩
          · rcases List.mem_cons.mp (hp.mem_iff.mp he) with rfl | he
            · exact ⟨h1.1.1, h1.1.2, h1.2, by simp only [Machine.newLock]; omega⟩
            · exact h.inRange e he
          · refine insertLock_ordered _ _ h.ordered (fun x hx => ?_) h1.1.1 fun x hx => (h.inRange x hx).1
            have := runsMeet_false (h4 x hx)
            simp only [Machine.newLock]
            omega
          · rw [(hp.map _).nodup_iff, List.map_cons, List.nodup_cons]
            refine ⟨fun hc => ?_, h.handles⟩
            obtain ⟨x, hx, hx2⟩ := List.mem_map.mp hc
            exact b x hx hx2
          · rw [hp.countP_eq, List.countP_cons]
            have := h.owned c
            split
            · next hc =>
              simp only [Machine.newLock, beq_iff_eq] at hc
              subst hc
              omega
            · omega

theorem Calm.lockExtent {q s : State} (h : Calm q s) (ch : Channel) (f : Frame) :
    Calm q (lockExtent ch f s) := by
  unfold Machine.lockExtent; split
  · exact h.refuse ..
  · next ho => exact (h.locksTo _ fun hl => hl.newLock ch f ho).accept ..

theorem Calm.unlockExtent {q s : State} (h : Calm q s) (ch : Channel) (f : Frame) :
    Calm q (unlockExtent ch f s) := by
  unfold Machine.unlockExtent; split
  · exact (h.coordination { s.cu with locks := _ } List.erase_sublist rfl).accept ..
  · exact h.refuse ..

theorem Calm.setMailbox {q s : State} (h : Calm q s) (ch : Channel) (m : Mailbox) :
    Calm q (setMailbox ch m s) := h.coordination _ (List.Sublist.refl _) rfl

theorem Calm.postMail {q s : State} (h : Calm q s) (ch : Channel) (f : Frame) :
    Calm q (postMail ch f s) := ((h.setMailbox ..).accept ..).notify ..

theorem Calm.pullMail {q s : State} (h : Calm q s) (ch : Channel) (tag : Byte) :
    Calm q (pullMail ch tag s) := by
  unfold Machine.pullMail
  dsimp only
  split
  · exact (h.setMailbox ..).respond ..
  · exact h.answerEmpty ..

theorem Settings.written_inRange (a b c d : Option Nat) (x : Settings) (h : x.InRange) :
    (x.written a b c d).InRange := by
  obtain ⟨h1, h2, h3, h4⟩ := h
  refine ⟨?_, ?_, ?_, ?_⟩
  · cases a with
    | none => exact h1
    | some v => exact Nat.min_le_right v 7
  · cases b with
    | none => exact h2
    | some v => exact Nat.min_le_right v 3
  · cases d with
    | none => exact h3
    | some v => exact Nat.le_max_left 8 _
  · cases d with
    | none => exact h4
    | some v => exact Nat.max_le.mpr ⟨by omega, Nat.min_le_right v 64⟩

theorem Calm.writeSettings {q s : State} (h : Calm q s) (x : Settings)
    (hx : s.cu.settings.InRange → x.InRange) : Calm q (writeSettings x s) := by
  have k : Calm q { s with cu := { s.cu with settings := x } } :=
    h.trans
      { pending := rfl, clock := le_rfl, attn := fun _ x => x, load := fun _ x => x, bare := fun _ x => x
        locks := fun x => x, settings := hx, streams := fun _ x => x, remap := fun x => x
        engine := .rfl, cart := rfl, prior := rfl, limit := rfl, init := fun x => x
        mount := fun x => x, links := fun _ => rfl, phases := fun _ x => x, pass := fun x => x }
  unfold Machine.writeSettings
  dsimp only
  split
  · exact (k.notifyBoth _).freeingEvent
  · exact k.notifyBoth _

theorem Calm.setDrive {q s : State} (h : Calm q s) (ch : Channel) (f : Frame) :
    Calm q (setDrive ch f s) :=
  (h.writeSettings _ fun hx => Settings.written_inRange _ _ _ _ _ hx).accept ..

/-! ## READ, PULL_DATA, DISCARD -/

theorem Calm.referTo {q s : State} (h : Calm q s) (lba : Nat) : Calm q (referTo s lba) := by
  unfold Machine.referTo; split
  · exact h.touch _
  · exact h.createReading _

theorem Calm.startRead {q s : State} (h : Calm q s) (ch : Channel) (tag : Byte) (a n : Nat) :
    Calm q (startRead ch tag a n s) := by
  unfold Machine.startRead
  dsimp only
  exact (Calm.completeReads (Calm.same (Calm.foldl (fun s x => (Calm.refl s).referTo x) _
    (h.makeSpace ..))) _).afterEvictions _

theorem Keeps.readRequest {q s : State} (h : Keeps q s) (ch : Channel) (tag : Byte) (a n : Nat)
    (hl : (s.links.get ch).load < 32) (ha : (s.links.get ch).attached = true) :
    Keeps q (readRequest ch tag a n s) := by
  unfold Machine.readRequest; split
  · exact h.calm ((Calm.refl s).refuse ..)
  · split
    · exact (h.addOutstanding ch tag .read hl ha).calm (((Calm.refl _).startRead ..).accept ..)
    · exact h.calm (((Calm.refl s).setWant ..).refuse ..)

theorem Calm.deliverFrom {q s : State} (h : Calm q s) (r : ReadRecord) (rest : List ReadRef) :
    Calm q (deliverFrom r rest s) := h.same

theorem Calm.deliverReady {q s : State} (h : Calm q s) (ch : Channel) (tag : Byte) (r : ReadRecord)
    (x : ReadRef) (rest : List ReadRef) : Calm q (deliverReady ch tag r x rest s) := by
  unfold Machine.deliverReady; split
  · exact (((h.respond ..).deliverFrom ..).touch _).afterRelease _
  · exact (h.deliverFrom ..).respond ..

theorem Calm.pullData {q s : State} (h : Calm q s) (ch : Channel) (tag : Byte) :
    Calm q (pullData ch tag s) := by
  unfold Machine.pullData; split
  · exact h.answerEmpty ..
  · split
    · unfold pullComplete; split
      · exact h.answerEmpty ..
      · split
        · exact (h.deliverFrom ..).respond ..
        · exact h.deliverReady ..
    · exact h.answerEmpty ..

theorem Calm.discardRead {q s : State} (h : Calm q s) (ch : Channel) (tag : Byte) :
    Calm q (discardRead ch tag s) := by
  unfold Machine.discardRead; split
  · exact h.accept ..
  · next r _ =>
    have k : Calm q (removeRead r s) := h.same
    dsimp only
    refine Calm.accept (Calm.afterRelease (?_ : Calm q _) _) ..
    split
    · exact k
    · exact k.postReport ..

/-! ## WRITE, DATA -/

theorem Keeps.startWrite {q s : State} (h : Keeps q s) (ch : Channel) (f : Frame)
    (ha : (s.links.get ch).attached = true) : Keeps q (startWrite ch f s) := by
  unfold Machine.startWrite
  dsimp only
  have c := ((Calm.refl s).makeSpace (field16 f 2) (fun _ => false)).takeBuffers (field16 f 2)
  refine Keeps.calm ((h.calm c).link ch _ (fun x => x) (fun _ x => ?_)) ((Calm.refl _).afterEvictions s)
  rw [← c.links ch] at ha
  dsimp only at x
  rw [ha] at x
  cases x

theorem Keeps.writeHeader {q s : State} (h : Keeps q s) (ch : Channel) (f : Frame)
    (hl : (s.links.get ch).load < 32) (ha : (s.links.get ch).attached = true) :
    Keeps q (writeHeader ch f s) := by
  unfold Machine.writeHeader; split
  · exact h.calm ((Calm.refl s).refuse ..)
  · split
    · refine Keeps.calm ((h.addOutstanding ch f.tag .write hl ha).startWrite ch f ?_) ((Calm.refl _).accept ..)
      rw [addOutstanding_attached]; exact ha
    · exact h.calm (((Calm.refl s).setWant ..).refuse ..)

theorem Calm.takeNew {q s : State} (h : Calm q s) (ch : Channel) (lba b t : Nat) :
    Calm q (takeNew ch lba b t s) := by
  unfold Machine.takeNew
  dsimp only
  refine Calm.createTask (Calm.addEntry (h.upd ch _ (fun l => ?_) (fun l x => ?_)) _) ..
  · exact ⟨rfl, rfl, fun _ => rfl, fun x => x, fun _ x => ⟨x.1, x.2.1, x.2.2.1, x.2.2.2.1, x.2.2.2.2.1, by
      simp [Link.judged, x.2.2.2.2.2]⟩⟩
  · simp [x]

theorem Calm.replaceCurrent {q s : State} (h : Calm q s) (e : Entry) (b : Nat) :
    Calm q (replaceCurrent e b s) := (h.freeBuffers _).updEntry ..

theorem Calm.takeCase {q s : State} (h : Calm q s) (ch : Channel) (lba b t : Nat) :
    Calm q (takeCase ch lba b t s) := by
  unfold Machine.takeCase; split
  · exact h.takeNew ..
  · split
    · exact ((((h.withdraw _).replaceCurrent ..).createTask ..)).refsReady _
    · exact (h.replaceCurrent ..).createTask ..
    · unfold takeCommitting; split
      · exact h.updEntry ..
      · exact ((h.freeBuffers _).updEntry ..).updTask ..
    · exact (h.freeBuffers _).updEntry ..

theorem Calm.takeSector {q s : State} (h : Calm q s) (ch : Channel) (x : Nat × Nat) :
    Calm q (takeSector ch s x) := by
  unfold Machine.takeSector
  dsimp only
  exact ((Calm.takeCase (Calm.same h) ..).updEntry ..).touch _

theorem Calm.addWaiter {q s : State} (h : Calm q s) (w : Waiter) : Calm q (addWaiter w s) := h.same

theorem Calm.takeLoaded {q s : State} (h : Calm q s) (ch : Channel) (d : DataPhase) :
    Calm q (takeLoaded ch d s) := by
  unfold Machine.takeLoaded
  dsimp only
  have k := (Calm.foldl (f := Machine.takeSector ch) (fun s x => (Calm.refl s).takeSector ch x)
    ((runLbas d.first d.count).zip d.buffers) h).endDataPhase ch
  unfold answerTake; split
  · exact k.postReport ..
  · split
    · exact k.postReport ..
    · exact k.addWaiter _

theorem Keeps.makeTake {q s : State} (h : Keeps q s) (ch : Channel) (d : DataPhase) :
    Keeps q (makeTake ch d s) := by
  unfold Machine.makeTake
  refine Keeps.drainCheck (h.calm (Calm.freeingEvent (?_ : Calm s _)))
  split
  · exact (Calm.refl s).takeLoaded ..
  · exact ((Calm.refl s).freeBuffers _ |>.endDataPhase ch).postReport ..

theorem Keeps.placeData {q s : State} (h : Keeps q s) (ch : Channel) (d : DataPhase) (f : Frame)
    (hd : (s.links.get ch).dataPhase = some d) : Keeps q (placeData ch d f s) := by
  refine (h.calm ((Calm.refl s).fillBuffer _ _)).link ch _ (fun x => x) (fun x y => ?_)
  have := (x y).2.2.2.2.2
  have e : ((fillBuffer (d.buffers.getD d.received 0) (dataPayload f) s).links.get ch) =
    s.links.get ch := rfl
  rw [e, hd] at this
  cases this

theorem Keeps.dataFrameReceived {q s : State} (h : Keeps q s) (ch : Channel) (f : Frame) :
    Keeps q (dataFrameReceived ch f s) := by
  unfold Machine.dataFrameReceived; split
  · exact h.calm ((Calm.refl s).refuse ..)
  · next d hd =>
    split
    · dsimp only
      refine Keeps.calm (?_ : Keeps q _) ((Calm.refl _).accept ..)
      split
      · exact h.placeData ch d f hd
      · exact (h.placeData ch d f hd).makeTake ch d
    · exact (h.abandonWrite ch).calm ((Calm.refl _).refuse ..)

/-! ## FLUSH, PULL_FAULTS, EJECT, INITIALISE, streams -/

theorem Keeps.flushRequest {q s : State} (h : Keeps q s) (ch : Channel) (tag : Byte) (a n : Nat)
    (hl : (s.links.get ch).load < 32) (ha : (s.links.get ch).attached = true) :
    Keeps q (flushRequest ch tag a n s) := by
  unfold Machine.flushRequest; split
  · refine (h.addOutstanding ch tag .flush hl ha).calm (Calm.accept (?_ : Calm _ _) ..)
    unfold startFlushRequest
    dsimp only
    split
    · exact (Calm.refl _).postReport ..
    · exact (Calm.refl _).addWaiter _
  · exact h.calm ((Calm.refl s).refuse ..)

theorem Calm.pullFaults {q s : State} (h : Calm q s) (ch : Channel) (tag : Byte) :
    Calm q (pullFaults ch tag s) := by
  unfold Machine.pullFaults
  dsimp only
  split
  · exact h.answerEmpty ..
  · exact Calm.respond (Calm.same h) ..

theorem Keeps.ejectRequest {q s : State} (h : Keeps q s) (ch : Channel) (tag : Byte)
    (hl : (s.links.get ch).load < 32) (ha : (s.links.get ch).attached = true) :
    Keeps q (ejectRequest ch tag s) :=
  Keeps.calm ((h.addOutstanding ch tag .eject hl ha).startEject _) ((Calm.refl _).accept ..)

theorem Keeps.initialiseRequest {q s : State} (h : Keeps q s) (ch : Channel) (tag : Byte)
    (hl : (s.links.get ch).load < 32) (ha : (s.links.get ch).attached = true) :
    Keeps q (initialiseRequest ch tag s) :=
  Keeps.calm ((h.addOutstanding ch tag .initialise hl ha).startInitialise ch tag) ((Calm.refl _).accept ..)

theorem openedStream_inStep (x : List Extent) (d w : Nat) : (openedStream x d w).InStep :=
  ⟨le_rfl, Nat.zero_le _, Nat.zero_le _, rfl⟩

theorem Calm.prefetchRun {q s : State} (h : Calm q s) (ch : Channel) : Calm q (prefetchRun ch s) :=
  (h.prefetch ch).afterEvictions s

theorem Calm.openStream {q s : State} (h : Calm q s) (ch : Channel) (f : Frame) :
    Calm q (openStream ch f s) := by
  unfold Machine.openStream; split
  · exact h.refuse ..
  · exact ((h.updStream ch _ fun _ => openedStream_inStep ..).accept ..).prefetchRun ch

theorem Calm.closeStream {q s : State} (h : Calm q s) (ch : Channel) (tag : Byte) :
    Calm q (closeStream ch tag s) := ((h.closeOne ch).afterRelease _).accept ..

/-- The first reference of a stream in step that has one stands at the delivery cursor. -/
theorem Stream.delivered_inStep (t : Stream) (h : t.InStep)
    (ho : t.state = .opened ∨ t.state = .faulted) (hn : t.deliveryCursor < t.prefetchCursor)
    (hf : ∀ p, t.state = .faulted → t.faultPosition = some p → t.deliveryCursor < p) :
    t.delivered.InStep := by
  have hd := h.depth
  rw [Stream.level_add_inFlight] at hd
  have key : ∀ n, t.refs.map StreamRef.position = List.range' t.deliveryCursor n → 0 < n →
      (t.refs.filter fun x => x.position != t.deliveryCursor).map StreamRef.position =
        List.range' (t.deliveryCursor + 1) (n - 1) := by
    intro n e hpos
    have hm : (t.refs.filter fun x => x.position != t.deliveryCursor).map StreamRef.position =
        (t.refs.map StreamRef.position).filter (fun x => x != t.deliveryCursor) := by
      rw [List.filter_map]; rfl
    obtain ⟨m, rfl⟩ : ∃ m, n = m + 1 := ⟨n - 1, by omega⟩
    rw [hm, e, List.range'_succ, List.filter_cons]
    simp only [bne_self_eq_false, Nat.add_sub_cancel]
    refine List.filter_eq_self.mpr fun x hx => ?_
    rw [List.mem_range'_1] at hx
    simp only [bne_iff_ne, ne_eq]
    omega
  refine ⟨by simp only [Stream.delivered]; omega, h.within, ?_, ?_⟩
  · rw [Stream.level_add_inFlight]
    exact le_trans (List.length_filter_le _ _) hd
  · have hfit := h.fits
    unfold Stream.StateFits at hfit ⊢
    rcases ho with ho | ho <;> simp only [ho] at hfit
    · simp only [Stream.delivered, ho]
      rw [key _ hfit (by omega)]
      congr 1
    · obtain ⟨p, a, b, c, d, e⟩ := hfit
      have hlt := hf p ho a
      simp only [Stream.delivered, ho]
      exact ⟨p, a, b, c, by omega, by rw [key _ e (by omega)]; congr 1⟩

theorem Stream.nextRef_mem {t : Stream} {x : StreamRef} (h : t.nextRef = some x) :
    x ∈ t.refs ∧ x.position = t.deliveryCursor :=
  ⟨List.mem_of_find?_eq_some h, by simpa using List.find?_some h⟩

theorem Stream.nextRef_inStep (t : Stream) (h : t.InStep) (x : StreamRef) (hx : t.nextRef = some x) :
    t.delivered.InStep := by
  obtain ⟨hm, hp⟩ := Stream.nextRef_mem hx
  have hfit := h.fits
  have hpos : x.position ∈ t.refs.map StreamRef.position := List.mem_map_of_mem hm
  obtain ⟨ho, _, _, _, _⟩ := Stream.ref_bounds t h x hm
  unfold Stream.StateFits at hfit
  rcases ho with ho | ho <;> simp only [ho] at hfit
  · rw [hfit, List.mem_range'_1, hp] at hpos
    exact Stream.delivered_inStep t h (.inl ho) (by omega) fun p hc => by rw [ho] at hc; cases hc
  · obtain ⟨p, a, b, c, d, e⟩ := hfit
    rw [e, List.mem_range'_1, hp] at hpos
    refine Stream.delivered_inStep t h (.inr ho) (by omega) fun q _ hq => ?_
    rw [a] at hq
    cases hq
    omega

theorem Calm.deliverPosition {q s : State} (h : Calm q s) (ch : Channel) (tag : Byte) (e : Entry)
    (hn : ((s.su.get ch).InStep → (s.su.get ch).delivered.InStep)) :
    Calm q (deliverPosition ch tag e s) := by
  unfold Machine.deliverPosition
  dsimp only
  exact (((h.respond ..).updStream ch _ hn).touch _).afterRelease _

/-- A stream in step whose last position was delivered, in OPEN, ends in step. -/
theorem Stream.ended_inStep (t : Stream) (h : t.InStep) (ho : t.state = .opened)
    (he : t.deliveryCursor = t.positions) : ({ t with state := .ended } : Stream).InStep := by
  have hb := h.behind
  have hw := h.within
  have hfit := h.fits
  unfold Stream.StateFits at hfit
  simp only [ho] at hfit
  have e : t.prefetchCursor - t.deliveryCursor = 0 := by omega
  rw [e, List.range'_zero, List.map_eq_nil_iff] at hfit
  exact ⟨hb, hw, h.depth, ⟨hfit, he⟩⟩

/-! A freeing event does not change an open stream's state. -/

theorem createReading_su (lba : Nat) (s : State) : (createReading lba s).su = s.su := rfl

theorem prefetchOne_state (ch c : Channel) (s : State) :
    ((prefetchOne ch s).su.get c).state = (s.su.get c).state := by
  have key : ∀ (g : Stream → Stream) (w : State), w.su = s.su → (∀ t, (g t).state = t.state) →
      ((updStream ch g w).su.get c).state = (s.su.get c).state := by
    intro g w hw hg
    rw [updStream_su, PerChannel.get_set, hw]
    split
    · next e => subst e; exact hg _
    · rfl
  unfold prefetchOne
  dsimp only
  split
  · split
    · exact key _ _ rfl fun _ => rfl
    · exact key _ _ rfl fun _ => rfl
  · split
    · have e : (createReading (positionLba (s.su.get ch).extents (s.su.get ch).prefetchCursor)
          (evictFor 1 (fun _ => false) s)).su = s.su :=
        (createReading_su _ _).trans (evictFor_su 1 (fun _ => false) s)
      exact key _ _ e fun _ => rfl
    · exact key _ _ rfl fun _ => rfl

theorem prefetchUpTo_state (ch c : Channel) (n : Nat) :
    ∀ s : State, ((prefetchUpTo ch n s).su.get c).state = (s.su.get c).state := by
  induction n with
  | zero => exact fun _ => rfl
  | succ n ih =>
    intro s
    unfold prefetchUpTo
    split
    · dsimp only
      split
      · exact prefetchOne_state ch c s
      · rw [ih, prefetchOne_state]
    · rfl

theorem retryPrefetch_state (ch c : Channel) (s : State) :
    ((retryPrefetch ch s).su.get c).state = (s.su.get c).state := by
  unfold retryPrefetch prefetch; split
  · exact prefetchUpTo_state ch c _ s
  · rfl

theorem retryPrefetches_state (c : Channel) (s : State) :
    ((retryPrefetches s).su.get c).state = (s.su.get c).state := by
  unfold retryPrefetches
  dsimp only
  split
  · split <;> rw [retryPrefetch_state, retryPrefetch_state]
  · rw [retryPrefetch_state, retryPrefetch_state]

theorem freeingEvent_state (c : Channel) (s : State) :
    ((freeingEvent s).su.get c).state = (s.su.get c).state := by
  rw [freeingEvent, retryPrefetches_state, checkWants_su]

theorem afterRelease_state (lbas : List Nat) (c : Channel) (s : State) :
    ((afterRelease lbas s).su.get c).state = (s.su.get c).state := by
  unfold afterRelease; split
  · exact freeingEvent_state c s
  · rfl

theorem deliverPosition_state (ch : Channel) (tag : Byte) (e : Entry) (s : State) :
    ((deliverPosition ch tag e s).su.get ch).state = (s.su.get ch).state := by
  unfold deliverPosition
  dsimp only
  rw [afterRelease_state]
  have e : (touch e.lba (updStream ch Stream.delivered (respond ch tag
      (.sector (dataFrame s e true (s.su.get ch).deliveryCursor)) s))).su =
      s.su.set ch (s.su.get ch).delivered := rfl
  rw [e, PerChannel.get_set_self]
  rfl

theorem Calm.afterDelivery {q s : State} (h : Calm q s) (ch : Channel) (n : Nat)
    (ho : (s.su.get ch).state = .opened) : Calm q (afterDelivery ch n s) := by
  unfold Machine.afterDelivery
  dsimp only
  split
  · next he => exact (h.updStream ch _ fun hi => Stream.ended_inStep _ hi ho he).notify ..
  · split
    · exact (h.notify ..).prefetchRun ch
    · exact h.prefetchRun ch

theorem Calm.pullPosition {q s : State} (h : Calm q s) (ch : Channel) (tag : Byte) :
    Calm q (pullPosition ch tag s) := by
  unfold Machine.pullPosition
  dsimp only
  split
  · exact h.answerEmpty ..
  · next x hx =>
    split
    · split
      · next e _ =>
        have k := h.deliverPosition ch tag e fun hi => Stream.nextRef_inStep _ hi x hx
        split
        · next ho =>
          exact k.afterDelivery ch _ (by rw [deliverPosition_state]; exact ho)
        · exact k
      · exact h.answerEmpty ..
    · exact h.answerEmpty ..

theorem Stream.faultDelivered_inStep (t : Stream) (p : Nat) (h : t.InStep) (hs : t.state = .faulted)
    (hp : t.faultPosition = some p) (hd : t.deliveryCursor = p) : (t.faultDelivered p).InStep := by
  have hb := h.behind
  have hw := h.within
  have hdep := h.depth
  rw [Stream.level_add_inFlight] at hdep
  have hfit := h.fits
  unfold Stream.StateFits at hfit
  simp only [hs] at hfit
  obtain ⟨r, a, b, c, d, e⟩ := hfit
  rw [hp] at a
  cases a
  refine ⟨?_, ?_, ?_, ?_⟩
  · simp only [Stream.faultDelivered]; split <;> omega
  · simp only [Stream.faultDelivered]; split <;> omega
  · rw [Stream.level_add_inFlight]; exact hdep
  · unfold Stream.StateFits
    simp only [Stream.faultDelivered, hs]
    refine ⟨p, hp, b, by split <;> omega, le_rfl, ?_⟩
    rw [e]
    have e1 : p - t.deliveryCursor = 0 := by omega
    have e2 : p - (p + 1) = 0 := by omega
    rw [e1, e2]
    rfl

theorem Calm.pullStream {q s : State} (h : Calm q s) (ch : Channel) (tag : Byte) :
    Calm q (pullStream ch tag s) := by
  unfold Machine.pullStream; split
  · exact h.pullPosition ..
  · next hs =>
    unfold pullFaulted
    dsimp only
    split
    · next p hp =>
      split
      · exact h.pullPosition ..
      · split
        · next hd =>
          exact (h.updStream ch _ fun hi => Stream.faultDelivered_inStep _ p hi hs hp hd).respond ..
        · exact h.answerEmpty ..
    · exact h.answerEmpty ..
  · exact h.answerEmpty ..
  · exact h.answerEmpty ..

/-! ## Frames -/

/-- What R164 has established when a frame reaches its owner outside a data phase. -/
theorem judgeFrame_toOwner {ch : Channel} {k : FrameKind} {f : Frame} {s : State}
    (h : judgeFrame ch k f s = .toOwner) (hk : k ≠ .data) :
    (k.whileDetached = false → (s.links.get ch).attached = true) ∧
      (k.isQueued = true → (s.links.get ch).load < 32) ∧ gate k s = none := by
  unfold judgeFrame at h
  dsimp only at h
  split at h
  · cases h
  · split at h
    · cases h
    · unfold judgeIdle at h
      dsimp only at h
      split at h
      · cases h
      · split at h
        · cases h
        · next h2 =>
          split at h
          · cases h
          · split at h
            · cases h
            · next h5 =>
              split at h
              · cases h
              · next hg =>
                refine ⟨fun hw => ?_, fun hq => ?_, hg⟩
                · simpa [hw] using h2
                · simpa [hq] using h5

theorem Keeps.answerFrame {q s : State} (h : Keeps q s) (ch : Channel) (k : FrameKind) (f : Frame)
    (owner : State → State)
    (ho : judgeFrame ch k f s = .toOwner → Keeps q (owner s)) : Keeps q (answerFrame ch k f owner s) := by
  unfold Machine.answerFrame
  refine Keeps.calm (?_ : Keeps q _) (Calm.refl _).workArrival
  split
  · exact h.discardFrame ch
  · exact (h.abandonWrite ch).calm ((Calm.refl _).refuse ..)
  · exact h.calm ((Calm.refl s).refuse ..)
  · next hj => exact ho hj

theorem Keeps.answerMalformed {q s : State} (h : Keeps q s) (ch : Channel) (m : Malformed) :
    Keeps q (answerMalformed ch m s) := by
  unfold Machine.answerMalformed
  dsimp only
  refine Keeps.calm (?_ : Keeps q _) (Calm.refl _).workArrival
  split
  · exact h.discardFrame ch
  · split
    · exact (h.abandonWrite ch).calm ((Calm.refl _).refuse ..)
    · exact h.calm ((Calm.refl s).refuse ..)

/-! ## The console -/

theorem Calm.errorLine {q s : State} (h : Calm q s) : Calm q (errorLine s) := h.updConsole _

/-- What the rule of a letter makes of a line keeps the laws. -/
def LineKeeps (act : State → LineAnswer) : Prop := ∀ s x, act s = some x → Calm s x.1

theorem Calm.answerCommand {q s : State} (h : Calm q s) (x : ConsoleLetter) {act : State → LineAnswer}
    (ha : LineKeeps act) : Calm q (answerCommand x act s) := by
  unfold Machine.answerCommand; split
  · next x hx => exact (h.trans (ha s x hx)).updConsole _
  · exact h.errorLine

theorem Calm.answerEnded {q s : State} (h : Calm q s) {judge : State → State}
    (hj : ∀ s, Calm s (judge s)) : Calm q (answerEnded judge s) := by
  unfold Machine.answerEnded; split
  · exact h
  · have k := h.updConsole Console.lineEnded
    dsimp only
    split
    · split
      · exact k.errorLine
      · exact k.trans (hj _)
    · exact k

theorem displayItem_calm (s : State) : Calm s (displayItem s).1 := by
  unfold displayItem
  dsimp only
  split <;> exact (Calm.refl s).same

theorem selectItem_calm {i n : Nat} {s : State} {x : State × Reply} (h : selectItem i n s = some x) :
    Calm s x.1 := by
  unfold selectItem at h
  split at h
  · cases h; exact Calm.trans (Calm.same (Calm.refl s)) (displayItem_calm _)
  · cases h

theorem lineS_keeps (fields : Fields) : LineKeeps (lineS fields) := by
  intro s x h
  unfold lineS at h
  split at h
  · obtain ⟨i, _, h⟩ := Option.bind_eq_some_iff.mp h
    exact selectItem_calm h
  · obtain ⟨i, _, h⟩ := Option.bind_eq_some_iff.mp h
    obtain ⟨n, _, h⟩ := Option.bind_eq_some_iff.mp h
    exact selectItem_calm h
  · cases h

theorem lineN_keeps (fields : Fields) : LineKeeps (lineN fields) := by
  intro s x h
  unfold lineN at h
  split at h
  · cases h; exact Calm.trans (Calm.same (Calm.refl s)) (displayItem_calm _)
  · cases h

theorem lineD_keeps (fields : Fields) : LineKeeps (lineD fields) := by
  intro s x h
  unfold lineD at h
  split at h
  · cases h; exact displayItem_calm _
  · cases h

theorem lineH_keeps (fields : Fields) : LineKeeps (lineH fields) := by
  intro s x h
  unfold lineH at h
  split at h
  · cases h; exact (Calm.refl s).same
  · cases h

theorem lineG_keeps (fields : Fields) : LineKeeps (lineG fields) := by
  intro s x h
  unfold lineG at h
  split at h
  · split at h
    · next hs =>
      cases h
      unfold goHeld; split
      · exact (Calm.refl s).engineRuns _ (by rw [hs]; decide) (by rw [hs]; decide) rfl (.inl rfl)
      · exact ((Calm.refl s).updConsole _).makeChoice (by rw [updConsole_pe, hs]; decide)
    · split at h
      · cases h; exact (Calm.refl s).same
      · cases h; exact Calm.refl s
  · cases h

theorem lineT_keeps (fields : Fields) : LineKeeps (lineT fields) := by
  intro s x h
  unfold lineT at h
  split at h
  · split at h
    · cases h; exact (Calm.refl s).same
    · cases h
  · cases h

theorem lineW_keeps (fields : Fields) : LineKeeps (lineW fields) := by
  intro s x h
  unfold lineW at h
  split at h
  · obtain ⟨i, _, h⟩ := Option.bind_eq_some_iff.mp h
    obtain ⟨w, _, h⟩ := Option.map_eq_some_iff.mp h
    subst h
    exact (Calm.refl s).same
  · cases h

theorem lineC_keeps (fields : Fields) : LineKeeps (lineC fields) := by
  intro s x h
  unfold lineC at h
  split at h
  · obtain ⟨i, _, h⟩ := Option.map_eq_some_iff.mp h
    subst h
    exact (Calm.refl s).same
  · cases h

theorem lineE_keeps (fields : Fields) : LineKeeps (lineE fields) := by
  intro s x h
  unfold lineE at h
  split at h
  · obtain ⟨i, _, h⟩ := Option.bind_eq_some_iff.mp h
    obtain ⟨v, _, h⟩ := Option.bind_eq_some_iff.mp h
    obtain ⟨y, hy, h⟩ := Option.map_eq_some_iff.mp h
    subst h
    refine (Calm.refl s).writeSettings y fun hr => ?_
    unfold settingsEntered at hy
    split at hy <;> first | (cases hy; exact Settings.written_inRange _ _ _ _ _ hr) | cases hy
  · cases h

theorem lineQuestion_keeps (fields : Fields) : LineKeeps (lineQuestion fields) := by
  intro s x h
  unfold lineQuestion at h
  split at h
  · split at h
    · cases h; exact (Calm.refl s).same
    · cases h
  · cases h

theorem commandOf_keeps (x : ConsoleLetter) (fields : Fields) : LineKeeps (commandOf x fields) := by
  cases x
  · exact lineS_keeps fields
  · exact lineN_keeps fields
  · exact lineD_keeps fields
  · exact lineH_keeps fields
  · exact lineG_keeps fields
  · exact lineT_keeps fields
  · exact lineW_keeps fields
  · exact lineC_keeps fields
  · exact lineE_keeps fields
  · exact lineQuestion_keeps fields

theorem Calm.judgeFields {q s : State} (h : Calm q s) (fields : Fields) : Calm q (judgeFields fields s) := by
  unfold Machine.judgeFields; split
  · exact h.updConsole _
  · split
    · exact h.answerCommand _ (commandOf_keeps _ _)
    · exact h.errorLine

theorem Calm.characterReceived {q s : State} (h : Calm q s) (c : ConsoleChar) :
    Calm q (characterReceived c s) := by
  unfold Machine.characterReceived; split
  · exact h
  · split
    · exact h.answerEnded fun s => (Calm.refl s).judgeFields _
    · exact h
    · exact h.updConsole _
    · exact h.updConsole _
    · exact h.updConsole _
    · exact h.updConsole _

/-! ## The mechanism -/

theorem Keeps.passUntil {q s : State} (h : Keeps q s) (e : Nat) : Keeps q (passUntil e s) :=
  h.trans
    { pending := rfl, clock := Nat.le_add_right _ _, attn := fun _ x => x, load := fun _ x => x
      bare := fun _ x => x, locks := fun x => x, settings := fun x => x, streams := fun _ x => x
      remap := fun x => x }

theorem Keeps.passToClock {q s : State} (h : Keeps q s) (d : Nat) : Keeps q (passToClock d s) :=
  h.trans
    { pending := rfl, clock := Nat.le_max_left _ _, attn := fun _ x => x, load := fun _ x => x
      bare := fun _ x => x, locks := fun x => x, settings := fun x => x, streams := fun _ x => x
      remap := fun x => x }

theorem Keeps.switchCloses {q s : State} (h : Keeps q s) (a b : Bool) : Keeps q (switchCloses a b s) := by
  unfold Machine.switchCloses
  dsimp only
  split
  · exact Keeps.enterLoading h.same
  · exact h.same

theorem Keeps.switchOpens {q s : State} (h : Keeps q s) : Keeps q (switchOpens s) := by
  unfold Machine.switchOpens
  dsimp only
  split
  · exact h.same
  · exact h.same
  · exact Keeps.enterCartState h.same _
  · exact Keeps.enterEmpty h.same
  · exact Keeps.enterFailed h.same

theorem Keeps.clampReported {q s : State} (h : Keeps q s) (b : Bool) : Keeps q (clampReported b s) := by
  unfold Machine.clampReported
  dsimp only
  split
  · exact Keeps.clampDone h.same
  · exact h.same

theorem Keeps.spindleStops {q s : State} (h : Keeps q s) : Keeps q (spindleStops s) := by
  unfold Machine.spindleStops
  dsimp only
  split
  · exact Keeps.enterEjecting h.same
  · split
    · exact h
    · exact h.same

theorem Keeps.buttonPressed {q s : State} (h : Keeps q s) : Keeps q (buttonPressed s) := by
  unfold Machine.buttonPressed; split
  · exact h
  · exact h.startEject _

theorem Keeps.indexTimer {q s : State} (h : Keeps q s) (e : Nat) : Keeps q (indexTimer e s) := by
  have h1 := h.passUntil e
  unfold Machine.indexTimer
  generalize Machine.passUntil e s = s1 at h1 ⊢
  dsimp only
  have k : Keeps q (if s1.timer.indexSeen = true then
      Machine.judgePeriod s1.timer.elapsed
        { s1 with timer := { s1.timer with
            revolution := s1.timer.revolution + 1, period := s1.timer.elapsed } }
      else { s1 with timer := { s1.timer with revolution := s1.timer.revolution + 1 } }) := by
    split
    · exact Keeps.judgePeriod (Keeps.same h1) _
    · exact Keeps.same h1
  exact Keeps.same k

theorem Keeps.seekFaulted {q s : State} (h : Keeps q s) (m : Move) : Keeps q (seekFaulted m s) := by
  unfold Machine.seekFaulted; split
  · exact Keeps.startRecalibrate (Keeps.same h) _
  · exact h.mechanismFault

/-- The end of a move keeps the laws in any state of the engine. -/
theorem Keeps.endMoveIfDone {q s : State} (h : Keeps q s) : Keeps q (endMoveIfDone s) := by
  unfold Machine.endMoveIfDone; split
  · split
    · split
      · exact h.same
      · unfold finishRecalibrate
        dsimp only
        split
        · unfold startTarget; split
          · exact h.same
          · exact h.same
        · exact h.same
    · exact h
  · exact h

theorem Keeps.moveReport {q s : State} (h : Keeps q s) (e : Nat) (b : Bool) {act : Move → State → State}
    (ha : ∀ m s, Keeps s (act m s)) : Keeps q (moveReport e b act s) := by
  unfold Machine.moveReport; split
  · split
    · exact h
    · exact (h.passUntil e).trans (ha _ _)
  · exact h

theorem Keeps.moveLimitExpires {q s : State} (h : Keeps q s) : Keeps q (moveLimitExpires s) := by
  unfold Machine.moveLimitExpires; split
  · exact (h.passToClock _).seekFaulted _
  · exact h

theorem Keeps.limitExpires {q s : State} (h : Keeps q s) (k : LimitKind) : Keeps q (limitExpires k s) := by
  unfold Machine.limitExpires; split
  · split
    · exact (h.passToClock _).enterFailed
    · exact h
  · exact h

theorem Keeps.idleTick {q s : State} (h : Keeps q s) : Keeps q (idleTick s) := by
  unfold Machine.idleTick; split
  · exact h
  · exact h.trans
      { pending := rfl, clock := Nat.le_add_right _ _, attn := fun _ x => x, load := fun _ x => x
        bare := fun _ x => x, locks := fun x => x, settings := fun x => x, streams := fun _ x => x
        remap := fun x => x }

theorem Keeps.sectorPasses {q s : State} (h : Keeps q s) (f : Found) : Keeps q (sectorPasses f s) := by
  unfold Machine.sectorPasses; split
  · exact h
  · exact ((h.passUntil _).sectorEnds false f).sectorMark _ _

theorem Keeps.indexArrives {q s : State} (h : Keeps q s) (e : Nat) (f : Found) :
    Keeps q (indexArrives e f s) := ((h.indexTimer e).sectorEnds _ f).sectorMark _ _

theorem Keeps.indexLost {q s : State} (h : Keeps q s) : Keeps q (indexLost s) := by
  unfold Machine.indexLost; split
  · exact (h.passUntil _).mechanismFault
  · exact h

end Sys2Proof.Machine
end

