-- ==== Sys2Proof/Laws/Cart.lean ====
section
/-! SUPPORT. The cartridge controller's record and the engine agree with the cartridge state: each operation
that changes the state, said once. -/

set_option Elab.async false

namespace Sys2Proof.Machine

/-- What changes neither the controller's state nor the engine's running keeps their agreement. -/
theorem CartSound.calm {r s : State} (h : CartSound r) (k : Calm r s) : CartSound s := by
  have hh : s.heldState = r.heldState := by unfold State.heldState; rw [k.prior, k.cart]
  refine ⟨?_, ?_, k.pass h.pass, ?_, ?_, fun x => ?_, ?_⟩
  · rw [k.limit, k.cart]; exact h.limit
  · rw [k.cart]; exact k.engine.trans h.engine
  · rw [k.prior, k.cart]; exact h.prior
  · rw [k.prior]; exact h.priorLocked
  · rw [hh]; exact h.initialise (k.init x)
  · rw [hh, k.cart]; exact h.mount.imp k.mount id

theorem CartSound.priorNone {s : State} (h : CartSound s) (hs : s.cc.state ≠ .recovering) :
    s.cc.prior = none := by
  cases hp : s.cc.prior with
  | none => rfl
  | some p => exact absurd (h.prior.mp (by rw [hp]; rfl)) hs

theorem CartSound.held {s : State} (h : CartSound s) (hs : s.cc.state ≠ .recovering) :
    s.heldState = s.cc.state := by unfold State.heldState; rw [h.priorNone hs]

theorem CartSound.initNone {s : State} (h : CartSound s) (hs : s.cc.state ≠ .recovering)
    (hu : s.cc.state ≠ .unformatted) : s.cc.initialise = none := by
  cases hi : s.cc.initialise with
  | none => rfl
  | some r => exact absurd ((h.held hs).symm.trans (h.initialise (by rw [hi]; rfl))) hu

theorem CartSound.limitNone {s : State} (h : CartSound s) (hs : s.cc.state.isLocked = true) :
    s.cc.limit = none := by
  have := h.limit
  cases hl : s.cc.limit with
  | none => rfl
  | some l =>
    rw [hl] at this
    exfalso
    cases hc : s.cc.state <;> simp [hc, CartState.isLocked] at hs <;> simp [hc, limitOf] at this

theorem CartSound.running {s : State} (h : CartSound s) (hs : s.cc.state.isLocked = true) :
    s.pe.state ≠ .stopped := fun hc => by rw [h.engine.mp hc] at hs; cases hs

theorem CartSound.locked {s : State} (h : CartSound s) (hs : s.pe.state ≠ .stopped) :
    s.cc.state.isLocked = true := by
  cases hc : s.cc.state.isLocked with
  | true => rfl
  | false => exact absurd (h.engine.mpr hc) hs

theorem CartState.locked_ne_recovering {st : CartState} (h : st.isLocked = true) : st ≠ .recovering := by
  rintro rfl; cases h

/-- The controller and the engine at rest: no engine, no mount, no request to initialise. -/
structure AtRest (s : State) : Prop where
  engine : s.pe.state = .stopped
  pass : s.pe.pass = none
  prior : s.cc.prior = none
  init : s.cc.initialise = none
  mount : MountQuiet s

theorem AtRest.calm {r s : State} (h : AtRest r) (k : Calm r s) : AtRest s where
  engine := k.engine.mpr h.engine
  pass := k.pass (fun _ => h.pass) (k.engine.mpr h.engine)
  prior := k.prior.trans h.prior
  init := by
    cases hi : s.cc.initialise with
    | none => rfl
    | some x =>
      have := k.init (by rw [hi]; rfl)
      rw [h.init] at this
      cases this
  mount := k.mount h.mount

theorem CartSound.atRest {s : State} (h : CartSound s) (hl : s.cc.state.isLocked = false)
    (hr : s.cc.state ≠ .recovering) (hf : s.cc.state ≠ .failed) : AtRest s where
  engine := h.engine.mpr hl
  pass := h.pass (h.engine.mpr hl)
  prior := h.priorNone hr
  init := h.initNone hr (by rintro hc; rw [hc] at hl; cases hl)
  mount := by
    rcases h.mount with h1 | h1 | h1
    · exact h1
    · rw [h.held hr] at h1; rw [h1] at hl; cases hl
    · exact absurd h1 hf

/-- A state entered by enterCartState agrees with the record when its parts do. -/
theorem CartSound.enter {s : State} (st : CartState) (hl : s.cc.limit.map MechLimit.kind = limitOf st)
    (he : s.pe.state = .stopped ↔ st.isLocked = false) (hp : s.pe.state = .stopped → s.pe.pass = none)
    (hprior : s.cc.prior = none) (hr : st ≠ .recovering)
    (hi : s.cc.initialise.isSome = true → st = .unformatted)
    (hm : MountQuiet s ∨ st = .mounting ∨ st = .failed) : CartSound (enterCartState st s) := by
  refine CartSound.calm (r := { s with cc := { s.cc with state := st } }) ?_ ((Calm.refl _).notifyBoth _)
  have hh : State.heldState { s with cc := { s.cc with state := st } } = st := by
    simp [State.heldState, hprior]
  refine ⟨hl, he, hp, ?_, ?_, ?_, ?_⟩
  · simp [hprior, hr]
  · intro p hc; dsimp only at hc; rw [hprior] at hc; cases hc
  · intro x; rw [hh]; exact hi x
  · rw [hh]; exact hm

theorem AtRest.enter {s : State} (h : AtRest s) (st : CartState)
    (hl : s.cc.limit.map MechLimit.kind = limitOf st) (hk : st.isLocked = false) (hr : st ≠ .recovering) :
    CartSound (enterCartState st s) :=
  CartSound.enter st hl ⟨fun _ => hk, fun _ => h.engine⟩ (fun _ => h.pass) h.prior hr
    (fun x => by rw [h.init] at x; cases x) (.inl h.mount)

theorem AtRest.entered {s : State} (h : AtRest s) (st : CartState) : AtRest (enterCartState st s) :=
  AtRest.calm (r := { s with cc := { s.cc with state := st } }) ⟨h.1, h.2, h.3, h.4, h.5⟩
    ((Calm.refl _).notifyBoth _)

theorem AtRest.enterEmpty {s : State} (h : AtRest s) : CartSound (enterEmpty s) := by
  refine CartSound.calm (AtRest.enter ?_ .empty rfl rfl (by decide)) ((Calm.refl _).endEject _)
  exact ⟨h.1, h.2, h.3, h.4, h.5⟩

theorem AtRest.enterEjecting {s : State} (h : AtRest s) : CartSound (enterEjecting s) := by
  have k : AtRest (startLimit .switch { s with
      outputs := { s.outputs with ejectFired := true }
      lines := { s.lines with hubClamped := false } }) := ⟨h.1, h.2, h.3, h.4, h.5⟩
  unfold Machine.enterEjecting
  dsimp only
  split
  · exact k.enter .ejecting rfl rfl (by decide)
  · exact (k.entered _).enterEmpty

theorem AtRest.enterSpinningDown {s : State} (h : AtRest s) : CartSound (enterSpinningDown s) := by
  have k : AtRest (startLimit .stop (stopMotor s)) := ⟨h.1, h.2, h.3, h.4, h.5⟩
  unfold Machine.enterSpinningDown
  dsimp only
  split
  · exact (k.entered _).enterEjecting
  · exact k.enter .spinningDown rfl rfl (by decide)

theorem AtRest.clampDone {s : State} (h : AtRest s) : CartSound (clampDone s) := by
  refine AtRest.enter ?_ .spinningUp rfl rfl (by decide)
  exact ⟨h.1, h.2, h.3, h.4, h.5⟩

theorem AtRest.enterLoading {s : State} (h : AtRest s) : CartSound (enterLoading s) := by
  have k : AtRest (startLimit .clamp { s with outputs := { s.outputs with clampCommand := true } }) :=
    ⟨h.1, h.2, h.3, h.4, h.5⟩
  unfold Machine.enterLoading
  dsimp only
  split
  · exact (k.entered _).clampDone
  · exact k.enter .loading rfl rfl (by decide)

/-! ## Stops -/

theorem stopEngine_state (s : State) : (stopEngine s).pe.state = .stopped := rfl

theorem stopEngine_pass (s : State) : (stopEngine s).pe.pass = none := by
  show (cutOffPass s).pe.pass = none
  exact cutOffPass_pass s

theorem stopEngine_cc (s : State) : (stopEngine s).cc = s.cc := by
  show (cutOffPass s).cc = s.cc
  unfold cutOffPass clearTakeAtMark
  split
  · rfl
  · dsimp only; split
    · rfl
    · split <;> rfl

theorem stopEngine_due (s : State) : (stopEngine s).pe.due = s.pe.due := by
  show (cutOffPass s).pe.due = s.pe.due
  rw [cutOffPass_pe]

theorem stopEngine_mount {s : State} (h : MountQuiet s) : MountQuiet (stopEngine s) :=
  ⟨by rw [stopEngine_due]; exact h.1, fun c hc => by rw [stopEngine_pass] at hc; cases hc⟩

theorem clearPart_due (s : State) : ∀ op ∈ (clearPart s).pe.due, op.owner.isMount = false := by
  intro op h
  have h' : op ∈ (clearCache (clearCommit (closeBothStreams s))).pe.due.filter
      fun op => !op.owner.isMount := h
  have := List.of_mem_filter h'
  simpa using this

theorem atRest_of_clear {s : State} (hp : s.cc.prior = none) (hi : s.cc.initialise = none) :
    AtRest (stopEngine (clearPart s)) := by
  have k := (Calm.refl s).clearPart
  refine ⟨rfl, stopEngine_pass _, ?_, ?_, ?_, fun c hc => ?_⟩
  · rw [stopEngine_cc, k.prior, hp]
  · rw [stopEngine_cc]
    cases hc : (clearPart s).cc.initialise with
    | none => rfl
    | some x => have := k.init (by rw [hc]; rfl); rw [hi] at this; cases this
  · rw [stopEngine_due]; exact clearPart_due s
  · rw [stopEngine_pass] at hc; cases hc

theorem CartSound.drainCheck {s : State} (h : CartSound s) : CartSound (drainCheck s) := by
  unfold Machine.drainCheck; split
  · next hd =>
    exact (atRest_of_clear (h.priorNone (by rw [hd.1]; decide))
      (h.initNone (by rw [hd.1]; decide) (by rw [hd.1]; decide))).enterSpinningDown
  · exact h

theorem ejectObjection_none {s : State} (h : ejectObjection s = none) :
    ((s.cc.state = .ready ∨ s.cc.state = .readOnly ∨ s.cc.state = .unformatted) ∧
      s.cc.initialise = none) ∨ s.cc.state = .unusable ∨ s.cc.state = .failed := by
  unfold ejectObjection at h
  cases hs : s.cc.state <;> simp only [hs] at h <;> try cases h
  all_goals
    first
      | (split at h
         · cases h
         · split at h
           · cases h
           · next hi => simp at hi; simp [hi])
      | simp

theorem CartSound.startEject {s : State} (h : CartSound s) (r : EjectRequest)
    (ho : ejectObjection s = none) : CartSound (startEject r s) := by
  have k : CartSound { s with cc := { s.cc with eject := some r } } :=
    ⟨h.1, h.2, h.3, h.4, h.5, h.6, h.7⟩
  unfold Machine.startEject
  dsimp only
  split
  · next hs =>
    exact (atRest_of_clear (s := { s with cc := { s.cc with eject := some r } })
      (h.priorNone (by rw [show s.cc.state = .unusable from hs]; decide))
      (h.initNone (by rw [show s.cc.state = .unusable from hs]; decide)
        (by rw [show s.cc.state = .unusable from hs]; decide))).enterSpinningDown
  · next hs' =>
    have hs : s.cc.state = .failed := hs'
    refine AtRest.enterSpinningDown ?_
    have c := (Calm.refl { s with cc := { s.cc with eject := some r } }).clearPart
    have hst : s.pe.state = .stopped := h.engine.mpr (by rw [hs]; rfl)
    have hi := h.initNone (by rw [hs]; decide) (by rw [hs]; decide)
    have hpass := c.pass (fun _ => h.pass hst) (c.engine.mpr hst)
    refine ⟨c.engine.mpr hst, hpass, c.prior.trans (h.priorNone (by rw [hs]; decide)), ?_,
      clearPart_due _, fun x hx => by rw [hpass] at hx; cases hx⟩
    generalize clearPart { s with cc := { s.cc with eject := some r } } = y at c
    cases hc : y.cc.initialise with
    | none => rfl
    | some x =>
      have := c.init (by rw [hc]; rfl)
      dsimp only at this
      rw [hi] at this
      cases this
  · next h1 h2 =>
    refine CartSound.drainCheck ?_
    obtain ⟨hs, hi⟩ := (ejectObjection_none ho).resolve_right fun hc => hc.elim h1 h2
    have hl : s.cc.state.isLocked = true := by rcases hs with hs | hs | hs <;> rw [hs] <;> rfl
    have hr := CartState.locked_ne_recovering hl
    refine CartSound.enter .draining ?_ ?_ (fun hc => absurd hc (h.running hl)) (h.priorNone hr)
      (by decide) (fun x => ?_) (.inl ?_)
    · dsimp only; rw [h.limitNone hl]; rfl
    · exact ⟨fun hc => absurd hc (h.running hl), fun hc => by cases hc⟩
    · dsimp only at x; rw [hi] at x; cases x
    · rcases h.mount with hm | hm | hm
      · exact hm
      · rw [h.held hr] at hm; rcases hs with hs | hs | hs <;> rw [hs] at hm <;> cases hm
      · rw [hm] at hl; cases hl

theorem endInitialise_none (st : ReportStatus) (s : State) : (endInitialise st s).cc.initialise = none := by
  unfold endInitialise; rfl

/-- FAILED agrees with the record whatever came before (R26). -/
theorem CartSound.enterFailed (s : State) : CartSound (enterFailed s) := by
  have e1 : ∀ x : State, x.pe.state = .stopped → x.pe.pass = none → x.cc.limit = none →
      x.cc.prior = none → CartSound (failWork (enterCartState .failed x)) := by
    intro x a b c d
    have c1 : Calm { x with cc := { x.cc with state := .failed } } (Machine.enterCartState .failed x) :=
      (Calm.refl _).notifyBoth _
    have c2 := c1.trans (Calm.refl _).failWork
    have hi : (failWork (Machine.enterCartState .failed x)).cc.initialise = none := by
      have c3 := (Calm.refl (endInitialise .mediumFault (endEject .mediumFault (endAllWaiters (failStream .b
        (failStream .a (dropAllReading (failReads (Machine.enterCartState .failed x))))))))).freeingEvent
      cases hc : (failWork (Machine.enterCartState .failed x)).cc.initialise with
      | none => rfl
      | some y =>
        have := c3.init (by rw [show freeingEvent _ = failWork (Machine.enterCartState .failed x) from rfl, hc]; rfl)
        rw [endInitialise_none] at this
        cases this
    have hst := c2.engine.mpr a
    have hcs : (failWork (Machine.enterCartState .failed x)).cc.state = .failed := c2.cart
    refine ⟨?_, ⟨fun _ => by rw [hcs]; rfl, fun _ => hst⟩, c2.pass fun _ => b, ?_, ?_, ?_, .inr (.inr hcs)⟩
    · rw [c2.limit, hcs]; dsimp only; rw [c]; rfl
    · rw [c2.prior, hcs]; dsimp only; rw [d]; simp
    · intro p hp; rw [c2.prior] at hp; dsimp only at hp; rw [d] at hp; cases hp
    · intro y; rw [hi] at y; cases y
  unfold Machine.enterFailed
  dsimp only
  refine e1 _ rfl (stopEngine_pass _) ?_ rfl
  show (Machine.stopEngine (Machine.stopMotor (Machine.cancelLimit s))).cc.limit = none
  rw [stopEngine_cc]
  rfl

theorem CartSound.mechanismFault {s : State} (h : CartSound s) : CartSound (mechanismFault s) := by
  unfold Machine.mechanismFault
  split
  · next hl =>
    dsimp only
    split
    · have hr := CartState.locked_ne_recovering hl
      refine CartSound.calm (r := { (startLimit .lock (startMotor { Machine.stopEngine s with
          cc := { (Machine.stopEngine s).cc with
            recoveryCount := (Machine.stopEngine s).cc.recoveryCount + 1
            prior := some (Machine.stopEngine s).cc.state, lockRun := 0 } })) with
          cc := { (startLimit .lock (startMotor { Machine.stopEngine s with
          cc := { (Machine.stopEngine s).cc with
            recoveryCount := (Machine.stopEngine s).cc.recoveryCount + 1
            prior := some (Machine.stopEngine s).cc.state, lockRun := 0 } })).cc with state := .recovering } })
        ?_ ((Calm.refl _).notifyBoth _)
      have hcc := stopEngine_cc s
      refine ⟨rfl, ⟨fun _ => rfl, fun _ => rfl⟩, fun _ => stopEngine_pass s, ⟨fun _ => rfl, fun _ => rfl⟩,
        fun p hp => ?_, fun x => ?_, ?_⟩
      · cases hp; rw [hcc]; exact hl
      · show (Machine.stopEngine s).cc.state = .unformatted
        rw [hcc, ← h.held hr]
        refine h.initialise ?_
        have x' : (Machine.stopEngine s).cc.initialise.isSome = true := x
        rw [hcc] at x'
        exact x'
      · show MountQuiet _ ∨ (Machine.stopEngine s).cc.state = .mounting ∨ _
        rw [hcc]
        rcases h.mount with hm | hm | hm
        · exact .inl (stopEngine_mount hm)
        · rw [h.held hr] at hm; exact .inr (.inl hm)
        · rw [hm] at hl; cases hl
    · exact CartSound.enterFailed _
  · exact h

theorem CartSound.lockInSpinUp {s : State} (h : CartSound s) (hs : s.cc.state = .spinningUp) :
    CartSound (lockInSpinUp s) := by
  have r := h.atRest (by rw [hs]; rfl) (by rw [hs]; decide) (by rw [hs]; decide)
  have key : ∀ x : State, x.cc.limit = none → x.cc.prior = none → x.cc.initialise = none →
      CartSound (offerMountReads (startEngine (Machine.enterCartState .mounting x))) := by
    intro x a b c
    refine ⟨?_, ?_, ?_, ?_, ?_, ?_, .inr (.inl ?_)⟩
    · show x.cc.limit.map _ = _; rw [a]; rfl
    · exact ⟨fun hc => (by cases hc), fun hc => by cases hc⟩
    · exact fun hc => by cases hc
    · show x.cc.prior.isSome = true ↔ _; rw [b]; exact ⟨fun hc => (by cases hc), fun hc => by cases hc⟩
    · intro p hp; have : x.cc.prior = some p := hp; rw [b] at this; cases this
    · intro y; have : x.cc.initialise.isSome = true := y; rw [c] at this; cases this
    · show (match x.cc.prior with | some p => p | none => CartState.mounting) = _; rw [b]
  unfold Machine.lockInSpinUp
  exact key _ rfl r.prior r.init

theorem CartSound.lockInRecovery {s : State} (h : CartSound s) (hs : s.cc.state = .recovering) :
    CartSound (lockInRecovery s) := by
  obtain ⟨p, hp⟩ : ∃ p, s.cc.prior = some p := by
    have := h.prior.mpr hs
    cases hc : s.cc.prior with
    | none => rw [hc] at this; cases this
    | some p => exact ⟨p, rfl⟩
  have hl := h.priorLocked p hp
  have hh : s.heldState = p := by simp [State.heldState, hp]
  have hst : s.pe.state = .stopped := h.engine.mpr (by rw [hs]; rfl)
  have key : CartSound (startEngine (Machine.enterCartState p
      { Machine.cancelLimit s with cc := { (Machine.cancelLimit s).cc with prior := none } })) := by
    refine ⟨?_, ?_, fun hc => (by cases hc), ?_, ?_, ?_, ?_⟩
    · show none = limitOf p
      cases p <;> first | rfl | cases hl
    · exact ⟨fun hc => (by cases hc), fun hc => by
        rw [show (startEngine (Machine.enterCartState p _)).cc.state = p from rfl, hl] at hc
        cases hc⟩
    · exact ⟨fun hc => (by cases hc), fun hc => by
        rw [show (startEngine (Machine.enterCartState p _)).cc.state = p from rfl] at hc
        exact absurd hc (CartState.locked_ne_recovering hl)⟩
    · intro q hq; cases hq
    · intro x; show p = .unformatted; rw [← hh]; exact h.initialise x
    · show MountQuiet _ ∨ p = .mounting ∨ p = .failed
      rcases h.mount with hm | hm | hm
      · exact .inl ⟨hm.1, hm.2⟩
      · rw [hh] at hm; exact .inr (.inl hm)
      · rw [hs] at hm; cases hm
  unfold Machine.lockInRecovery
  rw [hp]
  dsimp only [Option.getD_some]
  split
  · next hm =>
    subst hm
    refine ⟨key.1, ⟨fun hc => (by cases hc), fun hc => by cases hc⟩, fun hc => (by cases hc), key.4, key.5,
      key.6, .inr (.inl rfl)⟩
  · exact key.drainCheck

theorem CartSound.judgePeriod {s : State} (h : CartSound s) (p : Nat) : CartSound (judgePeriod p s) := by
  unfold Machine.judgePeriod
  split
  · next hs =>
    dsimp only
    generalize (if 19800 ≤ p ∧ p ≤ 20200 then s.cc.lockRun + 1 else 0) = run
    have k : CartSound { s with cc := { s.cc with lockRun := Nat.min run 8 } } :=
      ⟨h.1, h.2, h.3, h.4, h.5, h.6, h.7⟩
    split
    · split
      · next h1 => exact k.lockInSpinUp h1
      · next h1 => exact k.lockInRecovery (hs.resolve_left h1)
    · exact k
  · exact h

/-! ## The mount's end and the flushes' ends -/

theorem mountedState_locked (t : Bool) (c : MountChoice) : (mountedState t c).isLocked = true := by
  cases c with
  | load g e => cases t <;> rfl
  | unformatted => rfl
  | unusable => rfl

theorem CartSound.endMount {s : State} (h : CartSound s) (hs : s.cc.state = .mounting)
    (hp : s.pe.pass = none) : CartSound (endMount s) := by
  have hl : s.cc.state.isLocked = true := by rw [hs]; rfl
  have hr := CartState.locked_ne_recovering hl
  have a := mountedState_locked s.cc.tab (mountChoice s)
  unfold Machine.endMount
  dsimp only
  refine CartSound.enter _ ?_ ?_ ?_ (h.priorNone hr) (CartState.locked_ne_recovering a) ?_ (.inl ?_)
  · show s.cc.limit.map _ = _
    rw [h.limitNone hl]
    cases hc : mountedState s.cc.tab (mountChoice s) <;> first | rfl | (rw [hc] at a; cases a)
  · exact ⟨fun hc => absurd hc (h.running hl), fun hc => by rw [a] at hc; cases hc⟩
  · exact fun hc => absurd hc (h.running hl)
  · intro x
    have : s.cc.initialise.isSome = true := x
    rw [h.initNone hr (by rw [hs]; decide)] at this
    cases this
  · refine ⟨fun op ho => ?_, fun c hc => ?_⟩
    · have ho' : op ∈ s.pe.due.filter fun op => !op.owner.isMount := ho
      simpa using List.of_mem_filter ho'
    · have : s.pe.pass.map _ = some c := hc
      rw [hp] at this
      cases this

/-- What a mount read's outcome needs: MOUNTING, and no pass under way. -/
structure MountEnds (s : State) : Prop where
  sound : CartSound s
  state : s.cc.state = .mounting
  pass : s.pe.pass = none

theorem CartSound.mountOutcome {s : State} (h : MountEnds s) (c : TableCopy) (i : Nat) (o : PassOutcome) :
    CartSound (mountOutcome c i o s) := by
  have res : ∀ (x : State), MountEnds x → ∀ o, CartSound (resolveMount c i o x) := by
    intro x hx o
    have k := ((Calm.refl x).setMountRecord c i { mountRecord c i x with outcome := some o }).withdraw
      (.mount c i)
    unfold resolveMount
    dsimp only
    split
    · refine (hx.sound.calm k).endMount (k.cart.trans hx.state) ?_
      show x.pe.pass.map _ = none
      rw [hx.pass]; rfl
    · exact hx.sound.calm k
  unfold Machine.mountOutcome
  dsimp only
  split
  · next p n =>
    have k := (Calm.refl s).assemble c i p
    refine res _ ⟨h.sound.calm k, k.cart.trans h.state, ?_⟩ _
    unfold assemble; split <;> exact h.pass
  · exact res _ h _
  · have k := (Calm.refl s).setMountRecord c i
      { mountRecord c i s with retries := (mountRecord c i s).retries + 1 }
    split
    · exact res _ ⟨h.sound.calm k, h.state, h.pass⟩ _
    · exact h.sound.calm k
  · exact h.sound

/-- A running engine: the state is locked, and an INITIALISE is in progress only in UNFORMATTED. -/
theorem CartSound.endInitialiseIn {s : State} (h : CartSound s) (hp : s.pe.state ≠ .stopped)
    (st : CartState) (hst : st = .ready ∨ st = .unusable) (r : ReportStatus) :
    s.cc.initialise.isSome = true → CartSound (endInitialise r (Machine.enterCartState st s)) := by
  intro hi
  have hl := h.locked hp
  have hr := CartState.locked_ne_recovering hl
  have hsl : st.isLocked = true := by rcases hst with rfl | rfl <;> rfl
  have hu : s.cc.state = .unformatted := (h.held hr).symm.trans (h.initialise hi)
  have c := (Calm.refl (Machine.enterCartState st s)).endInitialise r
  have c0 : Calm { s with cc := { s.cc with state := st } } (Machine.enterCartState st s) :=
    (Calm.refl _).notifyBoth _
  have c1 := c0.trans c
  have hcs : (endInitialise r (Machine.enterCartState st s)).cc.state = st := c1.cart
  have hpr : (endInitialise r (Machine.enterCartState st s)).cc.prior = none :=
    c1.prior.trans (h.priorNone hr)
  have hrun : (endInitialise r (Machine.enterCartState st s)).pe.state ≠ .stopped :=
    fun x => hp (c1.engine.mp x)
  refine ⟨?_, ?_, fun x => absurd x hrun, ?_, ?_, ?_, ?_⟩
  · rw [c1.limit, hcs]
    dsimp only
    rw [h.limitNone hl]
    rcases hst with rfl | rfl <;> rfl
  · rw [hcs]; exact ⟨fun x => absurd x hrun, fun x => by rw [hsl] at x; cases x⟩
  · rw [hpr, hcs]
    exact ⟨fun x => (by cases x), fun x => absurd x (CartState.locked_ne_recovering hsl)⟩
  · intro p hp'; rw [hpr] at hp'; cases hp'
  · intro x; rw [endInitialise_none] at x; cases x
  · refine .inl (c1.mount ?_)
    rcases h.mount with hm | hm | hm
    · exact hm
    · rw [h.held hr, hu] at hm; cases hm
    · rw [hm] at hl; cases hl

theorem CartSound.flushEndedWell {s : State} (h : CartSound s) (hp : s.pe.state ≠ .stopped) :
    CartSound (flushEndedWell s) := by
  unfold Machine.flushEndedWell; split
  · next hi => exact h.endInitialiseIn hp _ (.inl rfl) _ (by rw [hi]; rfl)
  · exact h.drainCheck

theorem CartSound.tableFaultReported {s : State} (h : CartSound s) (hp : s.pe.state ≠ .stopped) :
    CartSound (tableFaultReported s) := by
  unfold Machine.tableFaultReported; split
  · next hi => exact h.endInitialiseIn hp _ (.inr rfl) _ (by rw [hi]; rfl)
  · next hi =>
    split
    · next hs =>
      have hl := h.locked hp
      have hr := CartState.locked_ne_recovering hl
      refine CartSound.enter .readOnly ?_ ?_ (fun x => absurd x hp) (h.priorNone hr) (by decide)
        (fun x => by rw [hi] at x; cases x) (.inl ?_)
      · rw [h.limitNone hl]; rfl
      · exact ⟨fun x => absurd x hp, fun x => by cases x⟩
      · rcases h.mount with hm | hm | hm
        · exact hm
        · rw [h.held hr, hs] at hm; cases hm
        · rw [hs] at hm; cases hm
    · exact h.drainCheck

/-- The agreement, with the engine running. -/
structure Runs (s : State) : Prop where
  sound : CartSound s
  runs : s.pe.state ≠ .stopped

theorem Runs.calm {r s : State} (h : Runs r) (k : Calm r s) : Runs s :=
  ⟨h.sound.calm k, fun x => h.runs (k.engine.mp x)⟩

theorem Runs.copyLeaves {s : State} (h : Runs s) (c : TableCopy) (b : Bool) : CartSound (copyLeaves c b s) := by
  have well : ∀ x, Runs x → CartSound (endFlushWell x) := by
    intro x hx
    unfold endFlushWell
    dsimp only
    have k : Calm x (if x.rmt.changedAgain = true then
        startFlush { x with rmt := { x.rmt with progress := none } }
        else { x with rmt := { x.rmt with progress := none, state := .clean } }) := by
      split
      · exact Calm.startFlush (Calm.same (Calm.refl x))
      · exact (Calm.refl x).same
    exact (hx.calm k).sound.flushEndedWell (hx.calm k).runs
  unfold Machine.copyLeaves; split
  · exact h.sound.calm ((Calm.refl s).copyALeaves b)
  · unfold copyBLeaves
    have k : ∀ x, Calm s (setCopy .b x s) := fun x => (Calm.refl s).setCopy _ _
    dsimp only
    split
    · split
      · exact well _ (h.calm (k _))
      · exact well _ (h.calm (k _).raiseVerified)
    · split
      · exact well _ (h.calm (k _))
      · have k2 : Calm s (tableFaulted (setCopy .b .failed s).rmt.generation
            { setCopy .b .failed s with rmt := { (setCopy .b .failed s).rmt with
                progress := none, changedAgain := false, fault := true, state := .dirty } }) :=
          Calm.tableFaulted (Calm.same (k .failed)) _
        exact (h.calm k2).sound.tableFaultReported (h.calm k2).runs

theorem Runs.tableOutcome {s : State} (h : Runs s) (c : TableCopy) (i : Nat) (k : PassKind)
    (o : PassOutcome) : CartSound (tableOutcome c i k o s) := by
  unfold Machine.tableOutcome; split
  · split
    · next t _ _ =>
      unfold tableStageOutcome
      have r := h.calm ((Calm.refl s).removeTableTask t.copy t.sector)
      split
      · exact h.sound.calm ((Calm.refl s).restageTable _)
      · exact h.sound.calm ((Calm.refl s).restageTable _)
      · unfold sectorVerified; split
        · split
          · exact r.copyLeaves _ _
          · exact r.sound.calm ((Calm.refl _).setCopy ..)
        · exact r.sound
      · split
        · exact h.sound.calm ((Calm.refl s).restageTable _)
        · unfold sectorAbandoned; split
          · exact (r.calm ((Calm.refl _).withdrawCopy _)).copyLeaves _ _
          · exact r.sound
      · exact h.sound
    · exact h.sound
  · exact h.sound

theorem Runs.deliver {s : State} (h : Runs s) (op : DueOp) (o : PassOutcome) (hp : s.pe.pass = none)
    (hm : op.owner.isMount = true → s.cc.state = .mounting) : CartSound (deliver op o s) := by
  unfold Machine.deliver; split
  · exact h.sound.calm ((Calm.refl s).entryOutcome ..)
  · unfold taskOutcome; split
    · split
      · exact (h.sound.calm ((Calm.refl s).stageOutcome ..)).drainCheck
      · exact h.sound
    · exact h.sound
  · exact h.tableOutcome ..
  · next e =>
    unfold mountDelivered; split
    · exact CartSound.mountOutcome ⟨h.sound, hm (by rw [e]; rfl), hp⟩ ..
    · exact h.sound

theorem Runs.closePass {s : State} (h : Runs s) (b : Bool) (f : Found) : CartSound (closePass b f s) := by
  unfold Machine.closePass; split
  · exact h.sound.calm (Calm.refl s).cutOffPass
  · unfold endPass; split
    · exact h.sound
    · next c hc =>
      dsimp only
      have k := ((Calm.refl s).passGone.judgeWatch 0 c.op (c.shown f)).judgeWatch 1 c.op (c.shown f)
      split
      · exact h.sound.calm (k.clearTakeAtMark _)
      · have hpe : ∀ n (x : State), (judgeWatch n c.op (c.shown f) x).pe = x.pe := by
          intro n x; unfold judgeWatch; split
          · split <;> rfl
          · rfl
        refine (h.calm k).deliver _ _ ?_ fun hm => ?_
        · rw [hpe, hpe]
        · rw [k.cart]
          have hl := h.sound.locked h.runs
          rcases h.sound.mount with hq | hq | hq
          · have := hq.2 c hc; rw [this] at hm; cases hm
          · rw [h.sound.held (CartState.locked_ne_recovering hl)] at hq; exact hq
          · rw [hq] at hl; cases hl

theorem Calm.settledAt {q s : State} (h : Calm q s) (a : Nat) : Calm q (settledAt a s) := by
  unfold Machine.settledAt; split
  · exact h.same
  · exact h

theorem Calm.sectorMark {q s : State} (h : Calm q s) (n a : Nat) : Calm q (sectorMark n a s) := by
  have k := h.settledAt a
  have hst : (Machine.settledAt a s).pe.state = s.pe.state := by
    unfold Machine.settledAt; split <;> rfl
  unfold Machine.sectorMark
  dsimp only
  split
  · next hc =>
    simp only [Bool.and_eq_true] at hc
    have hrun : s.pe.state ≠ .stopped := by
      intro hx; have := hc.1; unfold performs at this; rw [hx] at this; cases this
    split
    · next op ho =>
      have hop : op ∈ (Machine.settledAt a s).pe.due := List.mem_of_find?_eq_some ho
      have b : Calm (Machine.settledAt a s) { Machine.settledAt a s with
          pe := { (Machine.settledAt a s).pe with
            pass := some ⟨op, false, drawData op (Machine.settledAt a s)⟩ } } :=
        { toKeeps := (Keeps.refl _).same
          engine := .rfl, cart := rfl, prior := rfl, limit := rfl, init := fun x => x
          mount := fun m => ⟨m.1, fun c hc => by cases hc; exact m.1 op hop⟩
          links := fun _ => rfl, phases := fun _ x => x
          pass := fun _ x => absurd (hst.symm.trans x) hrun }
      unfold beginPass recordTakeAtMark
      split
      · exact (k.trans b).updTask _ _
      · exact k.trans b
    · exact k
  · exact k

theorem CartSound.holdOrChoice {s : State} (h : CartSound s) : CartSound (holdOrChoice s) := by
  unfold Machine.holdOrChoice; split
  · next hs =>
    have hr : s.pe.state ≠ .stopped := by rw [hs]; decide
    split
    · exact h.calm ((Calm.refl s).takeHold hr)
    · exact h.calm ((Calm.refl s).makeChoice hr)
  · next hs =>
    have hr : s.pe.state ≠ .stopped := by rw [hs]; decide
    split
    · exact h.calm ((Calm.refl s).takeHold hr)
    · exact h
  · exact h

theorem CartSound.sectorEnds {s : State} (h : CartSound s) (b : Bool) (f : Found) :
    CartSound (sectorEnds b f s) := by
  unfold Machine.sectorEnds; split
  · next hs =>
    unfold heldSectorEnd
    have k : Calm s { s with mci := { s.mci with hold := false } } := (Calm.refl s).same
    have r : Runs s := ⟨h, by rw [hs]; decide⟩
    dsimp only
    split
    · exact h.calm k
    · next c _ =>
      have k2 : CartSound (stepLine b f c (Machine.closePass b f
          { s with mci := { s.mci with hold := false } })) := by
        have := (r.calm k).closePass b f
        unfold stepLine; split
        · exact this
        · exact this.calm ((Calm.refl _).queueNotice _)
      generalize stepLine b f c (Machine.closePass b f
          { s with mci := { s.mci with hold := false } }) = x at k2
      have k3 : Calm x { x with mci := { x.mci with stepReq := false }, pe := { x.pe with goWaiting := false } } :=
        (Calm.refl x).same
      split
      · next hx =>
        simp only [Bool.and_eq_true, beq_iff_eq] at hx
        exact k2.calm (k3.makeChoice (by dsimp only; rw [hx.2]; decide))
      · exact k2.calm k3
  · next hs => exact (Runs.closePass ⟨h, by rw [hs]; decide⟩ b f).holdOrChoice
  · next hs => exact (Runs.closePass ⟨h, by rw [hs]; decide⟩ b f).holdOrChoice
  · exact h
  · exact h

/-! ## The other events -/

theorem CartSound.same {r s : State} (h : CartSound r) (hc : s.cc = r.cc := by rfl)
    (hp : s.pe.state = r.pe.state := by rfl) (hd : s.pe.due = r.pe.due := by rfl)
    (hw : s.pe.pass = r.pe.pass := by rfl) : CartSound s := by
  have hh : s.heldState = r.heldState := by unfold State.heldState; rw [hc]
  have hm : MountQuiet r → MountQuiet s := fun m => ⟨by rw [hd]; exact m.1, by rw [hw]; exact m.2⟩
  refine ⟨by rw [hc]; exact h.1, by rw [hp, hc]; exact h.2, by rw [hp, hw]; exact h.3,
    by rw [hc]; exact h.4, by rw [hc]; exact h.5, by rw [hc, hh]; exact h.6, ?_⟩
  rw [hh, hc]
  exact h.mount.imp hm id

theorem CartSound.switchCloses {s : State} (h : CartSound s) (a b : Bool) : CartSound (switchCloses a b s) := by
  unfold Machine.switchCloses
  dsimp only
  split
  · next hs =>
    have r := h.atRest (by rw [hs]; rfl) (by rw [hs]; decide) (by rw [hs]; decide)
    refine AtRest.enterLoading ?_
    exact ⟨r.1, r.2, r.3, r.4, r.5⟩
  · exact h.same

theorem CartSound.switchOpens {s : State} (h : CartSound s) : CartSound (switchOpens s) := by
  unfold Machine.switchOpens
  dsimp only
  split
  · exact h.same
  · exact h.same
  · next hs =>
    have r := h.atRest (by rw [hs]; rfl) (by rw [hs]; decide) (by rw [hs]; decide)
    refine AtRest.enter ?_ .empty rfl rfl (by decide)
    exact ⟨r.1, r.2, r.3, r.4, r.5⟩
  · next hs =>
    have r := h.atRest (by rw [hs]; rfl) (by rw [hs]; decide) (by rw [hs]; decide)
    refine AtRest.enterEmpty ?_
    exact ⟨r.1, r.2, r.3, r.4, r.5⟩
  · exact CartSound.enterFailed _

theorem CartSound.clampReported {s : State} (h : CartSound s) (b : Bool) : CartSound (clampReported b s) := by
  unfold Machine.clampReported
  dsimp only
  split
  · next hs =>
    have r := h.atRest (by rw [hs]; rfl) (by rw [hs]; decide) (by rw [hs]; decide)
    refine AtRest.clampDone ?_
    exact ⟨r.1, r.2, r.3, r.4, r.5⟩
  · exact h.same

theorem CartSound.spindleStops {s : State} (h : CartSound s) : CartSound (spindleStops s) := by
  unfold Machine.spindleStops
  dsimp only
  split
  · next hs =>
    have r := h.atRest (by rw [hs]; rfl) (by rw [hs]; decide) (by rw [hs]; decide)
    refine AtRest.enterEjecting ?_
    exact ⟨r.1, r.2, r.3, r.4, r.5⟩
  · split
    · exact h
    · exact h.same

theorem CartSound.buttonPressed {s : State} (h : CartSound s) : CartSound (buttonPressed s) := by
  unfold Machine.buttonPressed; split
  · exact h
  · next ho => exact h.startEject _ ho

theorem CartSound.indexTimer {s : State} (h : CartSound s) (e : Nat) : CartSound (indexTimer e s) := by
  have h1 : CartSound (passUntil e s) := h.same
  unfold Machine.indexTimer
  generalize passUntil e s = s1 at h1 ⊢
  dsimp only
  have k : CartSound (if s1.timer.indexSeen = true then
      Machine.judgePeriod s1.timer.elapsed
        { s1 with timer := { s1.timer with
            revolution := s1.timer.revolution + 1, period := s1.timer.elapsed } }
      else { s1 with timer := { s1.timer with revolution := s1.timer.revolution + 1 } }) := by
    split
    · exact CartSound.judgePeriod (CartSound.same h1) _
    · exact CartSound.same h1
  exact CartSound.same k

theorem CartSound.seekFaulted {s : State} (h : CartSound s) (m : Move) (hs : s.pe.state = .moving) :
    CartSound (seekFaulted m s) := by
  unfold Machine.seekFaulted; split
  · have hr : s.pe.state ≠ .stopped := by rw [hs]; decide
    have k := (Calm.refl s).engineRuns { s.pe with seekFaults := 1, retry := retryAfter m s.pe.retry } hr hr
      rfl (.inl rfl)
    exact h.calm (k.startRecalibrate _ hr)
  · exact h.mechanismFault

theorem initialiseObjection_none {s : State} (h : initialiseObjection s = none) :
    s.cc.state = .unformatted ∨ s.cc.state = .ready := by
  unfold initialiseObjection at h
  cases hs : s.cc.state <;> simp only [hs] at h <;> first | cases h | simp

theorem CartSound.startInitialise {s : State} (h : CartSound s) (ch : Channel) (tag : Byte)
    (hs : s.cc.state = .unformatted ∨ s.cc.state = .ready) : CartSound (startInitialise ch tag s) := by
  have hl : s.cc.state.isLocked = true := by rcases hs with hs | hs <;> rw [hs] <;> rfl
  have hr := CartState.locked_ne_recovering hl
  have hm : MountQuiet s := by
    rcases h.mount with hm | hm | hm
    · exact hm
    · rw [h.held hr] at hm; rcases hs with hs | hs <;> rw [hs] at hm <;> cases hm
    · rw [hm] at hl; cases hl
  unfold Machine.startInitialise
  dsimp only
  refine CartSound.calm (?_ : CartSound _) (Calm.refl _).startNewTable
  split
  · have c := (Calm.refl { s with cc := { s.cc with initialise := some ⟨ch, tag⟩ } }).clearCache
    refine CartSound.enter .unformatted ?_ ?_ ?_ (c.prior.trans (h.priorNone hr)) (by decide)
      (fun _ => rfl) (.inl (c.mount hm))
    · rw [c.limit]; dsimp only; rw [h.limitNone hl]; rfl
    · exact ⟨fun x => absurd (c.engine.mp x) (h.running hl), fun x => by cases x⟩
    · exact fun x => absurd (c.engine.mp x) (h.running hl)
  · next hn =>
    have hu := hs.resolve_right hn
    exact ⟨h.1, h.2, h.3, h.4, h.5, fun _ => (h.held hr).trans hu, .inl hm⟩

/-- A reset finds the record as a reset leaves it (R36). -/
theorem CartSound.resetPart (m : MechanismFound) (b : Bool) (s : State) : CartSound (resetPart m b s) := by
  have r : AtRest (blocksReset m b s) :=
    ⟨rfl, rfl, rfl, rfl, fun _ h => (by cases h), fun _ h => by cases h⟩
  unfold Machine.resetPart
  dsimp only
  split
  · exact r.enterLoading
  · exact ⟨rfl, ⟨fun _ => rfl, fun _ => rfl⟩, fun _ => rfl, ⟨fun h => (by cases h), fun h => by cases h⟩,
      fun _ h => (by cases h), fun h => (by cases h), .inl r.mount⟩

end Sys2Proof.Machine
end

