-- ==== Sys2Proof/WellFormed.lean ====
section
/-! DEFINITION. Which commands the outside can send: the ranges of their operands. -/

namespace Sys2Proof

/-- The code corrects up to 16 symbols in a sector (R3). -/
def Found.isPossible : Found → Bool
  | .decoded _ n => n ≤ 16
  | _ => true

/-- A printable character, the space included (R179). -/
def isPrintable (c : Char) : Bool := 32 ≤ c.toNat && c.toNat ≤ 126

/-- A character of the class it is given as (R179). -/
def ConsoleChar.isPossible : ConsoleChar → Bool
  | .printable c => isPrintable c
  | _ => true

/-- A field is a run of printable characters other than spaces (R179). -/
def isField (x : List Char) : Bool := !x.isEmpty && x.all fun c => isPrintable c && c != ' '

/-- The shortest line that spells a letter and these fields. -/
def lineLength (fields : Fields) : Nat := 1 + (fields.map fun x => x.length + 1).sum

/-- The fields of a line of at most 40 characters (R178, R179). -/
def areFields (fields : Fields) : Bool := fields.all isField && lineLength fields ≤ 40

/-- A malformed frame is of no known kind (R160). -/
def Malformed.isPossible : Malformed → Bool
  | .shortHeader => true
  | .unknownKind code _ => !Machine.isKnownCode code

/-- A power-up reset finds the mechanism at rest (Section 2.9); a hub is clamped on a cartridge (R18). -/
def MechanismFound.isAtRest (m : MechanismFound) : Bool := !m.spindleTurning

/-- A hub is clamped, and a spindle turns a cartridge, only with the switch closed (R18, R36). -/
def MechanismFound.isPossible (m : MechanismFound) : Bool :=
  m.switchClosed || !m.hubClamped

/-- A command that the outside can send. -/
def Instr.wellFormed : Instr → Bool
  | .attach _ _ | .detach _ _ | .inquire _ _ | .setEvents _ _ | .clearEvents _ _ | .read _ _ | .write _ _
  | .data _ _ | .flush _ _ | .discard _ _ | .eject _ _ | .initialise _ _ | .openStream _ _
  | .closeStream _ _ | .lock _ _ | .unlock _ _ | .postMail _ _ | .setDrive _ _ | .pullReport _ _
  | .pullData _ _ | .pullStream _ _ | .pullMail _ _ | .pullEvents _ _ | .pullFaults _ _ => true
  | .malformedFrame _ m => m.isPossible
  | .linkReset _ | .linkResetRelease _ _ => true
  | .powerUpReset found _ => found.isPossible && found.isAtRest
  | .masterClear found | .consoleMasterClear found => found.isPossible
  | .cartridgeSwitchCloses _ _ | .cartridgeSwitchOpens | .clampComplete _ | .spindleStopped | .ejectButton
  | .indexLoss => true
  | .indexEvent _ found | .sectorEnd found => found.isPossible
  | .seekComplete _ _ | .polaritySettled _ _ | .seekFault _ _ | .moveLimitExpiry | .clampLimitExpiry
  | .lockLimitExpiry | .stopLimitExpiry | .switchLimitExpiry => true
  | .consoleCharacter c => c.isPossible
  | .selectDisplay fields | .nextDisplay fields | .display fields | .hold fields | .go fields
  | .step fields | .watch fields | .clearWatch fields | .settingEntry fields | .consoleClear fields =>
    areFields fields
  | .consoleLineSent => true

end Sys2Proof
end

