-- ==== Sys2Proof/Tests/Slice0.lean ====
section
/-! SUPPORT. Small tests against the worked figures of spec/, one step each, and a witness for the hypotheses of
every statement of Certificates/Slice0/Obligations.lean. -/

set_option Elab.async false

open Sys2Proof Sys2Proof.Machine

namespace Sys2Proof.Tests

/-! ## Helpers -/

/-- A well-formed frame of a tag and payload words. -/
def frame (tag : Nat) (words : List Nat) : Frame :=
  ⟨BitVec.ofNat 8 tag, BitVec.ofNat 16 (2 * words.length), words.map (BitVec.ofNat 16)⟩

/-- A frame that names an LBA and further words. -/
def lbaFrame (tag lba : Nat) (words : List Nat) : Frame := frame tag ([lba / 65536, lba % 65536] ++ words)

/-- A full DATA frame. -/
def dataOf (tag word : Nat) : Frame := frame tag (List.replicate 512 word)

/-- The state a command answers. -/
def after (c : Instr) (s : State) : State :=
  match exec c s with
  | .next t => t
  | _ => s

/-- The response last sent on a link. -/
def response (ch : Channel) (s : State) : Option ResponseBody := (s.links.get ch).response.map Response.body

/-- An attached link without work. -/
def attachedLink : Link := { Link.atReset with attached := true, restarted := false }

/-- A mounted writable cartridge with an empty table of generation 7, the engine idle, both channels attached. -/
def ready : State :=
  { State.reset with
    timer := { RotationTimer.atReset with indexSeen := true }
    lines := ⟨true, true, false, false, true⟩
    outputs := ⟨false, true, false⟩
    cc := { Controller.atReset with state := .ready }
    rmt := RemapTable.unloaded.load 7 []
    pe := { Engine.atReset with state := .idle, headTrack := 2 }
    links := ⟨attachedLink, attachedLink⟩ }

/-- A cache entry. -/
def entryOf (slot lba : Nat) (state : EntryState) (buffer : Nat) : Entry :=
  { slot := slot, lba := lba, addr := homeOf lba, state := state, blank := false, current := buffer, newer := none
    writer := some .a, take := some 1, retries := 0 }

/-- A part with these entries, their buffers at the head of the buffer numbers. -/
def holding (entries : List Entry) (s : State) : State :=
  { s with sc := { s.sc with
      entries := entries, recency := entries.map Entry.lba
      freeList := (List.range 160).filter fun b => !(entries.any fun e => e.current == b) } }

/-! ## The table of the outside (WellFormed) -/

theorem test_corrections_above_sixteen_are_refused :
    (Instr.sectorEnd (.decoded 0 17)).wellFormed = false ∧
      (Instr.indexEvent 20000 (.decoded 0 17)).wellFormed = false ∧
      (Instr.sectorEnd (.decoded 0 16)).wellFormed = true := by decide

theorem test_known_kind_is_no_malformed_frame :
    (Instr.malformedFrame .a (.unknownKind 0x10 (frame 1 []))).wellFormed = false ∧
      (Instr.malformedFrame .a (.unknownKind 0x15 (frame 1 []))).wellFormed = true := by decide

theorem test_control_character_is_not_printable :
    (Instr.consoleCharacter (.printable '\t')).wellFormed = false ∧
      (Instr.consoleCharacter (.printable ' ')).wellFormed = true := by decide

theorem test_fields_are_neither_empty_nor_spaced :
    (Instr.selectDisplay [[]]).wellFormed = false ∧ (Instr.display [['1', ' ']]).wellFormed = false ∧
      (Instr.nextDisplay [['\t']]).wellFormed = false ∧ (Instr.selectDisplay [['3'], ['7', 'F']]).wellFormed = true := by
  decide

theorem test_line_of_more_than_forty_is_refused :
    (Instr.watch [List.replicate 39 'R']).wellFormed = false ∧
      (Instr.watch [List.replicate 38 'R']).wellFormed = true ∧ (Instr.hold [List.replicate 39 'R']).wellFormed = false ∧
      (Instr.go [[]]).wellFormed = false ∧ (Instr.step [[]]).wellFormed = false ∧
      (Instr.clearWatch [[]]).wellFormed = false ∧ (Instr.settingEntry [[' ']]).wellFormed = false ∧
      (Instr.consoleClear [['?'], []]).wellFormed = false := by decide

theorem test_resets_find_a_possible_mechanism :
    (Instr.powerUpReset ⟨true, false, false, true⟩ false).wellFormed = false ∧
      (Instr.masterClear ⟨false, true, false, false⟩).wellFormed = false ∧
      (Instr.consoleMasterClear ⟨false, true, false, false⟩).wellFormed = false ∧
      (Instr.powerUpReset ⟨true, true, false, false⟩ false).wellFormed = true := by decide

/-! ## Worked figures of Section 1 -/

theorem test_home_addresses :
    homeOf 0 = ⟨2, 0⟩ ∧ homeOf 35959 = ⟨1241, 28⟩ ∧ homeOf 35960 = ⟨1252, 0⟩ ∧ homeOf 100000 = ⟨3587, 25⟩ ∧
      homeOf 426559 = ⟨19991, 13⟩ := by decide

theorem test_spare_addresses :
    spareAt 2 0 = ⟨3742, 0⟩ ∧ spareAt 2 30 = ⟨3743, 3⟩ ∧ spareAt 2 269 = ⟨3751, 26⟩ ∧
      spareAt 15 139 = ⟨20001, 13⟩ := by decide

theorem test_costs :
    accessCost 1000 260 455 = 3551 ∧ accessCost 1000 512 3034 = 2034 ∧ accessCost 1000 0 1517 = 517 ∧
      accessCost 1000 512 758 = 3854 := by decide

/-! ## The choice of Section 6.4: head on track 3,587 at angle 1,668, polarity WRITE -/

/-- The five operations of the example. -/
def choiceDue : List DueOp :=
  [⟨.task 1, .erase, ⟨3587, 5⟩⟩, ⟨.task 2, .verify, ⟨3600, 3⟩⟩, ⟨.entry 3, .read, ⟨5010, 7⟩⟩,
   ⟨.entry 4, .read, ⟨3599, 20⟩⟩, ⟨.entry 5, .read, ⟨3590, 2⟩⟩]

/-- A stream whose oldest reading sector is an LBA, with two ready positions before it. -/
def starvingStream (level lba : Nat) : Stream :=
  { Stream.closed with
    state := .opened, extents := [⟨1000, 40⟩], positions := 40, depth := 8, lowWater := 4, prefetchCursor := level + 1
    refs := ((List.range level).map fun i => ⟨i, 1000 + i, true⟩) ++ [⟨level, lba, false⟩] }

/-- The state of the example; the streams starve or not. -/
def choiceState (a b : Stream) : State :=
  { ready with
    timer := ⟨20000, 8145, true, 0⟩
    sc := { Cache.atReset with entries :=
      [⟨0, 3, ⟨5010, 7⟩, .reading, false, 0, none, none, none, 0⟩, ⟨1, 5, ⟨3590, 2⟩, .reading, false, 1, none, none, none, 0⟩] }
    pe := { Engine.atReset with state := .dwelling, headTrack := 3587, polarity := .write, due := choiceDue }
    su := ⟨a, b⟩ }

theorem test_choice_costs :
    (choiceState Stream.closed Stream.closed).angle = 1668 ∧
      choiceDue.map (opCost (choiceState Stream.closed Stream.closed)) = [3186, 2883, 3574, 1366, 2731] := by
  decide

theorem test_urgent_choice_takes_the_lower_level :
    choose choiceDue (choiceState (starvingStream 2 5) (starvingStream 1 3)) = some ⟨5010, .write⟩ := by decide

theorem test_best_choice_takes_the_least_cost :
    choose choiceDue (choiceState Stream.closed Stream.closed) = some ⟨3599, .write⟩ := by decide

/-! ## The image of Section 11, generation 9 -/

/-- The three entries of the example, in table order. -/
def exampleEntries : List RemapEntry :=
  [⟨.active ⟨3587, 25⟩, 2, 1, 9⟩, ⟨.active ⟨3600, 3⟩, 2, 2, 9⟩, ⟨.spent, 2, 0, 9⟩]

theorem test_example_records :
    exampleEntries.map RemapEntry.record = [0x0000000948027288, 0x00000009480473d1, 0x0000000988000000] := by decide

theorem test_example_checksum :
    wordAt ((tableImage 9 exampleEntries).headD 0) 0 = 9 ∧
      wordAt ((tableImage 9 exampleEntries).headD 0) 1 = 0x00030000 ∧
      wordAt ((tableImage 9 exampleEntries).headD 0) 2 = 0xe70328ae := by decide +kernel

theorem test_example_decodes : decodeCopy (tableImage 9 exampleEntries) = some (9, exampleEntries) := by
  decide +kernel


/-! ## One step of a command -/

theorem test_attach_carries_the_restarted_mark :
    response .b (after (.attach .b (frame 5 [])) State.reset) = some (.accepted (.attach .b true)) ∧
      response .b (after (.attach .b (frame 6 [])) (after (.attach .b (frame 5 [])) State.reset)) =
        some (.accepted (.attach .b false)) := by decide

theorem test_read_in_an_empty_drive_is_not_ready :
    response .a (after (.read .a (lbaFrame 1 0 [1])) (after (.attach .a (frame 5 [])) State.reset)) =
      some (.refused .notReady) := by decide

theorem test_response_layout_of_a_refusal :
    (Response.words ⟨0x2a, .refused .queueFull⟩) = [0x812a, 0x0002, 0x0005] := by decide

theorem test_lock_of_the_last_sector :
    response .a (after (.lock .a (lbaFrame 3 426559 [1, 1])) ready) = some (.accepted (.handle 0)) ∧
      response .a (after (.lock .a (lbaFrame 3 426559 [2, 1])) ready) = some (.refused .range) := by decide

theorem test_second_lock_takes_the_next_handle_and_its_place :
    (after (.lock .b (lbaFrame 4 10 [5, 0])) (after (.lock .a (lbaFrame 3 100 [5, 1])) ready)).cu.locks =
      [⟨.b, 10, 5, .writeGuard, 1⟩, ⟨.a, 100, 5, .fullGuard, 0⟩] := by decide

theorem test_mail_overrun_is_marked :
    response .b (after (.pullMail .b (frame 9 []))
      (after (.postMail .a (frame 2 [0, 8])) (after (.postMail .a (frame 1 [0, 7])) ready))) =
        some (.mail 8 true) := by decide

theorem test_settings_are_clamped :
    response .a (after (.setDrive .a (frame 1 [9, 65535, 7, 2])) ready) =
      some (.accepted (.settings ⟨7, 2, .always, 8⟩)) := by decide

theorem test_pull_events_clears_and_drops_attn :
    let s := after (.postMail .a (frame 2 [0, 8])) (after (.setEvents .b (frame 1 [2, 0])) ready)
    s.links.b.attn = true ∧ (after (.pullEvents .b (frame 3 [])) s).links.b.attn = false ∧
      (after (.pullEvents .b (frame 3 [])) s).links.b.flags = 0 := by decide

theorem test_deferred_write_reports_at_its_last_frame :
    let s := after (.data .a (dataOf 4 0x1234)) (after (.write .a (lbaFrame 4 100000 [1, 0])) ready)
    s.links.a.reports.map (fun r => (r.tag, r.kind, r.status, r.detail)) = [(4, .write, .ok, 1)] ∧
      s.sc.entries.map (fun e => (e.slot, e.lba, e.addr, e.state, e.current)) =
        [(0, 100000, ⟨3587, 25⟩, .committing, 0)] ∧
      s.pe.state = .moving := by decide +kernel

theorem test_read_miss_offers_its_pass_and_moves :
    let s := after (.read .b (lbaFrame 7 100000 [1])) ready
    s.pe.due = [⟨.entry 100000, .read, ⟨3587, 25⟩⟩] ∧ s.pe.move.map Move.track = some 3587 ∧
      (s.links.b.outstanding.map fun o => (o.tag, o.kind)) = [(7, .read)] := by decide +kernel

theorem test_eject_of_an_idle_part_stops_the_spindle :
    let s := after (.eject .a (frame 1 [])) ready
    s.cc.state = .spinningDown ∧ s.pe.state = .stopped ∧ s.rmt.loaded = false ∧
      s.cc.limit = some ⟨.stop, 5000000⟩ := by decide +kernel

theorem test_cartridge_pushed_in :
    (after (.cartridgeSwitchCloses false true) State.reset).cc.state = .loading ∧
      (after (.clampComplete true) (after (.cartridgeSwitchCloses false true) State.reset)).cc.limit =
        some ⟨.lock, 6000000⟩ := by decide

theorem test_index_outside_the_window_clears_the_run :
    let s := { State.reset with
      timer := { RotationTimer.atReset with indexSeen := true }
      cc := { Controller.atReset with state := .spinningUp, lockRun := 5 } }
    (after (.indexEvent 20201 .erased) s).cc.lockRun = 0 ∧ (after (.indexEvent 20200 .erased) s).cc.lockRun = 6 := by
  decide

theorem test_console_line_is_judged :
    let s := ['h', 'x'].foldl (fun s c => after (.consoleCharacter (.printable c)) s) ready
    (after (.consoleCharacter .carriageReturn) s).mci.queue = [.reply (.error none)] ∧
      (after (.consoleCharacter .carriageReturn) (after (.consoleCharacter .backspace) s)).mci.queue =
        [.reply .holdPending] := by decide

/-! ## Section 10's example, and the words of Sections 9 and 10 -/

theorem test_example_lines_of_the_console :
    (Reply.watch 0).text = "> W 0".toList ∧ (Reply.error (some .w)).text = "*W".toList ∧
      Reply.step.text = "> STEP".toList ∧
      (ConsoleLine.notice false (.watchMatch 0 .hold .write ⟨3742, 0⟩ .done 0x1f)).text =
        "= W 0 H WRITE E9E 0 DONE 1F".toList ∧
      (ConsoleLine.notice false (.heldAt 3742 0x1f)).text = "= HELD E9E 1F".toList ∧
      (ConsoleLine.notice true (.stepEnd .verify ⟨3742, 0⟩ .fail 0)).text = "=+ T VERIFY E9E 0 FAIL 0".toList := by
  decide

theorem test_display_line_begins_with_item_and_index :
    (Shown.tableTask 0 ⟨.a, 27, .eraseDue, 0, false⟩).text.take 4 = "4 0 ".toList ∧
    (Shown.tableTask 0 ⟨.a, 27, .eraseDue, 0, false⟩).values.getLast? = some "NO".toList ∧
      (Shown.slotFree 127).text = "3 7F FREE".toList ∧ (Shown.empty 6).text = "NONE".toList := by decide

theorem test_received_words_name_a_command :
    commandOfWords .b [0x2841, 8, 1, 2, 3, 0] = .lock .b ⟨0x41, 8, [1, 2, 3, 0]⟩ ∧
      commandOfWords .a [0x1541, 0] = .malformedFrame .a (.unknownKind 0x15 ⟨0x41, 0, []⟩) ∧
      commandOfWords .a [0x2841] = .malformedFrame .a .shortHeader := by decide

theorem test_console_clear_is_due_once_its_line_is_sent :
    let s := after .consoleLineSent (after (.consoleClear []) ready)
    s.mci.clearing = .lineSent ∧ eventDue s = true ∧ (idleTick s).clock = s.clock := by decide

/-! ## Witnesses: a state and operands that meet a statement's hypotheses, clause by clause -/

/-- What Takes asks, as a Bool. -/
def takesNow (s : State) (ch : Channel) (k : FrameKind) (f : Frame) : Bool :=
  let l := s.links.get ch
  !l.resetAsserted && !l.discardTail && l.dataPhase.isNone && l.attached && frameWellFormed k f &&
    s.links.a.attn == s.links.a.attnDue && s.links.b.attn == s.links.b.attnDue &&
    (s.pe.state != .idle || s.pe.due.isEmpty)

theorem attn_of {s : State} (ha : s.links.a.attn = s.links.a.attnDue) (hb : s.links.b.attn = s.links.b.attnDue) :
    AttnJudged s := by intro ch; cases ch <;> assumption

theorem takes_of {s : State} {ch : Channel} {k : FrameKind} {f : Frame} (h : takesNow s ch k f = true) :
    Takes s ch k f := by
  simp only [takesNow, Bool.and_eq_true, Bool.not_eq_true', beq_iff_eq, Option.isNone_iff_eq_none, Bool.or_eq_true,
    bne_iff_ne, ne_eq, List.isEmpty_iff] at h
  obtain ⟨⟨⟨⟨⟨⟨⟨h1, h2⟩, h3⟩, h4⟩, h5⟩, h6⟩, h7⟩, h8⟩ := h
  exact ⟨⟨h1, h2, h3⟩, h4, h5, ⟨attn_of h6 h7, fun i => h8.resolve_left fun n => n i⟩⟩

theorem admitted_of {s : State} {ch : Channel} {k : FrameKind} {f : Frame}
    (h : (takesNow s ch k f && !tagInUse s ch f.tag && decide ((s.links.get ch).load < 32) && gate k s == none) = true) :
    Admitted s ch k f := by
  simp only [Bool.and_eq_true, Bool.not_eq_true', decide_eq_true_eq, beq_iff_eq] at h
  exact ⟨takes_of h.1.1.1, h.1.1.2, h.1.2, h.2⟩

theorem locks_of {locks : List LockEntry}
    (h : (locks.all fun e => 1 ≤ e.count && e.count ≤ 65535 && e.first + e.count ≤ lbaCount && e.handle ≤ 15) = true)
    (ho : locks.Pairwise fun x y => x.first + x.count ≤ y.first) (hh : (locks.map LockEntry.handle).Nodup)
    (ha : locks.countP (fun e => e.owner == Channel.a) ≤ 8) (hb : locks.countP (fun e => e.owner == Channel.b) ≤ 8) :
    LocksWellFormed locks where
  inRange e he := by
    have := List.all_eq_true.1 h e he
    simpa [LockEntry.InRange, and_assoc] using this
  ordered := ho
  handles := hh
  owned ch := by cases ch <;> assumption

/-- A locks table with the first channel's 8 entries, the second's last at the last sector. -/
def fullLocks : List LockEntry :=
  [⟨.a, 0, 10, .writeGuard, 0⟩, ⟨.a, 10, 10, .fullGuard, 1⟩, ⟨.a, 20, 10, .writeGuard, 2⟩,
   ⟨.a, 30, 10, .writeGuard, 3⟩, ⟨.a, 40, 10, .writeGuard, 4⟩, ⟨.a, 50, 10, .writeGuard, 5⟩,
   ⟨.a, 60, 10, .writeGuard, 6⟩, ⟨.a, 70, 10, .writeGuard, 7⟩, ⟨.b, 426558, 1, .fullGuard, 15⟩]

theorem fullLocks_wellFormed : LocksWellFormed fullLocks :=
  locks_of (by decide) (by decide) (by decide) (by decide) (by decide)

/-- `ready` with a lock table. -/
def locked (locks : List LockEntry) : State := { ready with cu := { Coordination.atReset with locks := locks } }

/-- One link of `ready` replaced. -/
def linked (ch : Channel) (l : Link) : State := ready.withLink ch l

/-- `ready` in another cartridge state, the engine stopped where it is not locked. -/
def inState (st : CartState) : State :=
  { ready with
    cc := { Controller.atReset with state := st, limit := (limitOf st).map fun k => ⟨k, 2000000⟩ }
    pe := { ready.pe with state := if st.isLocked then .idle else .stopped } }

/-- A report. -/
def aReport : Report := ⟨1, .read, .ok, 1, false, 0⟩

/-! ### The step and the invariants -/

theorem witness_StepRunsTheFrontCommand :
    (ready.pending = [] ∧ eventDue ready = false) ∧
      ((inState .loading).pending = [] ∧ eventDue { inState .loading with clock := 2000000 } = true) := by decide

theorem witness_EveryStepKeepsAttnJudgedAndIdleEmpty :
    Steady { ready with pending := [.detach .a (frame 1 [])] } ∧
      ∃ t, step { ready with pending := [.detach .a (frame 1 [])] } = .next t :=
  ⟨⟨attn_of rfl rfl, fun _ => rfl⟩, _, rfl⟩

/-- A part with 32 unread reports, a full lock table and settings at their bounds, one channel detached. -/
def laden : State :=
  { locked fullLocks with
    cu := { Coordination.atReset with locks := fullLocks, settings := ⟨7, 3, .never, 8⟩ }
    links := ⟨{ attachedLink with reports := List.replicate 32 aReport }, Link.atReset⟩
    pending := [.pullReport .a (frame 1 [])] }

theorem witness_EveryStepKeepsLinksLocksAndSettingsBounded :
    (LoadBounded laden ∧ DetachedBare laden ∧ LocksWellFormed laden.cu.locks ∧ laden.cu.settings.InRange) ∧
      ∃ t, step laden = .next t := by
  refine ⟨⟨?_, ?_, fullLocks_wellFormed, ⟨by decide, by decide, by decide, by decide⟩⟩, _, rfl⟩
  · intro ch; cases ch <;> decide
  · intro ch h; cases ch
    · exact absurd h (by decide)
    · exact ⟨rfl, rfl, rfl, rfl, rfl, rfl⟩

theorem exampleEntries_sound : EntriesSound exampleEntries where
  ordered := by decide
  spares := by decide
  homes := by decide
  inBand := by decide

/-- `ready` with the example's table. -/
def remapped : State := { ready with rmt := RemapTable.unloaded.load 9 exampleEntries }

theorem witness_EveryStepKeepsTheRemapEntriesSound :
    EntriesSound { remapped with pending := [.indexLoss] }.rmt.entries ∧
      ∃ t, step { remapped with pending := [.indexLoss] } = .next t :=
  ⟨exampleEntries_sound, _, rfl⟩

/-- A stream that was faulted at position 2 with one position still to deliver. -/
def faultedStream : Stream :=
  { starvingStream 2 1002 with
    state := .faulted, deliveryCursor := 1, refs := [⟨1, 1001, true⟩], faultPosition := some 2
    faultStatus := some .lost }

theorem openStream_inStep : (starvingStream 2 1002).InStep :=
  ⟨by decide, by decide, by decide, by show _ = _; decide⟩

theorem faultedStream_inStep : faultedStream.InStep :=
  ⟨by decide, by decide, by decide, by
    show ∃ p, _
    exact ⟨2, rfl, by decide, by decide, by decide, by decide⟩⟩

theorem witness_EveryStepKeepsTheStreamsInStep :
    (∀ ch, ({ ready with su := ⟨starvingStream 2 1002, faultedStream⟩, pending := [.indexLoss] }.su.get ch).InStep) ∧
      ∃ t, step { ready with su := ⟨starvingStream 2 1002, faultedStream⟩, pending := [.indexLoss] } = .next t := by
  refine ⟨fun ch => ?_, _, rfl⟩
  cases ch
  · exact openStream_inStep
  · exact faultedStream_inStep

/-- A part in RECOVERING from MOUNTING. -/
def recovering : State :=
  { inState .recovering with cc := { (inState .recovering).cc with prior := some .mounting, recoveryCount := 1 } }

/-- `ready` with a command waiting. -/
def readyWith (c : Instr) : State := { ready with pending := [c] }

theorem readyWith_cartSound (c : Instr) : CartSound (readyWith c) where
  limit := rfl
  engine := by show EngineState.idle = .stopped ↔ true = false; decide
  pass := fun _ => rfl
  prior := by show false = true ↔ CartState.ready = .recovering; decide
  priorLocked := fun _ h => nomatch h
  initialise := fun h => nomatch h
  mount := Or.inl ⟨fun _ h => (nomatch h), fun _ h => (nomatch h)⟩

theorem recovering_cartSound : CartSound recovering where
  limit := rfl
  engine := by decide
  pass := fun _ => rfl
  prior := by decide
  priorLocked := fun _ h => by cases h; rfl
  initialise := fun h => nomatch h
  mount := Or.inl ⟨fun _ h => (nomatch h), fun _ h => (nomatch h)⟩

theorem witness_EveryStepKeepsTheControllerSound :
    (CartSound (readyWith .indexLoss) ∧ ∃ t, step (readyWith .indexLoss) = .next t) ∧ CartSound recovering :=
  ⟨⟨readyWith_cartSound _, _, rfl⟩, recovering_cartSound⟩

/-! ### Addresses, tables and the mount -/

theorem witness_HomeAndSpareAddressesAreBijections :
    0 < lbaCount ∧ 426559 < lbaCount ∧ (⟨2, 0⟩ : Phys).isUser = true ∧ (⟨1241, 28⟩ : Phys).isUser = true ∧
      (⟨19991, 13⟩ : Phys).isUser = true ∧ (15 < 16 ∧ 139 < 10 * (29 - 15)) ∧ (⟨1242, 0⟩ : Phys).isSpare = true ∧
      (⟨20001, 13⟩ : Phys).isSpare = true := by decide

theorem witness_SectorsAndCostsFollowTheAngle :
    (1 ≤ 29 ∧ 0 < 4096 ∧ sectorAtAngle 29 0 = 0) ∧ (1 ≤ 14 ∧ 4095 < 4096 ∧ sectorAtAngle 14 4095 = 13) ∧ 1 ≤ 1 ∧
      (⟨0, 0, true, 0⟩ : RotationTimer).elapsed = 0 ∧ (⟨20000, 19999, true, 0⟩ : RotationTimer).period ≠ 0 := by decide

/-- R10: the angle is 0 at an index event whatever it measured, and saturates at 4,095. -/
theorem test_angle_at_the_index_and_late :
    (⟨0, 0, true, 0⟩ : RotationTimer).angle = 0 ∧ (⟨20000, 10000, true, 0⟩ : RotationTimer).angle = 2048 ∧
      (⟨20000, 20500, true, 0⟩ : RotationTimer).angle = 4095 := by decide

/-- R13: the rows of its table. -/
theorem test_seek_and_move_times :
    [0, 3, 13, 1024, 3586, 20001].map seekTime = [0, 257, 260, 512, 1153, 5257] ∧
      [0, 3, 13, 1024, 3586, 20001].map (fun d => moveTime d true) = [512, 512, 512, 512, 1153, 5257] := by decide

theorem exampleEntries_recordable : ∀ e ∈ exampleEntries, e.Recordable 9 := by
  intro e he
  simp only [exampleEntries, List.mem_cons, List.not_mem_nil, or_false] at he
  rcases he with rfl | rfl | rfl
  · exact ⟨by decide, by decide, by decide, by intro h hk; cases hk; decide⟩
  · exact ⟨by decide, by decide, by decide, by intro h hk; cases hk; decide⟩
  · exact ⟨by decide, by decide, by decide, by intro h hk; cases hk⟩

theorem witness_TableImagesRoundTrip :
    (1 ≤ 9 ∧ 9 ≤ maxGeneration ∧ exampleEntries.length ≤ 3440 ∧ EntriesSound exampleEntries ∧
      ∀ e ∈ exampleEntries, e.Recordable 9) ∧
      (1 ≤ maxGeneration ∧ maxGeneration ≤ maxGeneration ∧ EntriesSound []) :=
  ⟨⟨by decide, by decide, by decide, exampleEntries_sound, exampleEntries_recordable⟩, by decide, by decide,
    ⟨by decide, by decide, by decide, by decide⟩⟩

/-- A mount whose records are these and whose areas hold two images of the example. -/
def mounted (records : Vector MountSector 56) : State :=
  { inState .mounting with
    cc := { (inState .mounting).cc with mount := records }
    rmt := { RemapTable.unloaded with
      image := imageArea (tableImage 9 exampleEntries), assemblyB := imageArea (tableImage 9 exampleEntries) } }

/-- Every record resolved alike. -/
def allAre (o : MountOutcome) : Vector MountSector 56 := Vector.replicate 56 ⟨0, some o⟩

theorem witness_TheMountLoadsTheNewestValidCopy :
    ((∀ j < 28, ((allAre .good)[j]?).bind MountSector.outcome = some .good) ∧
      (∀ j < 28, ((allAre .good)[28 + j]?).bind MountSector.outcome = some .good) ∧
      (mounted (allAre .good)).rmt.image = imageArea (tableImage 9 exampleEntries) ∧
      (mounted (allAre .good)).rmt.assemblyB = imageArea (tableImage 9 exampleEntries)) ∧
    ((∀ j < 28, (((allAre .good).setIfInBounds 55 ⟨4, some .unreadable⟩)[j]?).bind MountSector.outcome = some .good) ∧
      ¬ ∀ j < 28, (((allAre .good).setIfInBounds 55 ⟨4, some .unreadable⟩)[28 + j]?).bind MountSector.outcome =
        some .good) ∧
    ((¬ ∀ j < 28, (((allAre .good).setIfInBounds 0 ⟨0, some .blank⟩)[j]?).bind MountSector.outcome = some .good) ∧
      ∀ j < 28, (((allAre .good).setIfInBounds 0 ⟨0, some .blank⟩)[28 + j]?).bind MountSector.outcome = some .good) ∧
    (∀ j < 56, ((allAre .blank)[j]?).bind MountSector.outcome = some .blank) ∧
    ((¬ ∀ j < 28, ((allAre .unreadable)[j]?).bind MountSector.outcome = some .good) ∧
      (¬ ∀ j < 28, ((allAre .unreadable)[28 + j]?).bind MountSector.outcome = some .good) ∧
      ∃ j < 56, ((allAre .unreadable)[j]?).bind MountSector.outcome ≠ some .blank) := by
  refine ⟨⟨by decide, by decide, rfl, rfl⟩, ⟨by decide, by decide⟩, ⟨by decide, by decide⟩, by decide,
    by decide, by decide, 55, by decide, by decide⟩

/-- A mount with copy B's last sector unresolved, read unreadable three times. -/
def lastUnresolved (o : MountOutcome) : State := mounted ((allAre o).setIfInBounds 55 ⟨3, none⟩)

/-- The example's last sector. -/
def lastSector : Payload := (tableImage 9 exampleEntries).getD 27 0

theorem witness_MountReadsAreResolvedAndTheLastEndsTheMount :
    ((mountRecord .a 0 (mounted clearedMount)).outcome = none ∧
      (mountRecord .a 0 (mounted clearedMount)).retries < (mounted clearedMount).cu.settings.readRetries ∧
      ∃ j < 56, j ≠ mountIndex .a 0 ∧ (clearedMount[j]?).bind MountSector.outcome = none) ∧
    (27 < 28 ∧ (mountRecord .b 27 (lastUnresolved .good)).outcome = none ∧
      (lastUnresolved .good).cu.settings.readRetries ≤ (mountRecord .b 27 (lastUnresolved .good)).retries ∧
      (∀ j < 56, j ≠ mountIndex .b 27 →
        (((allAre .good).setIfInBounds 55 ⟨3, none⟩)[j]?).bind MountSector.outcome ≠ none) ∧
      mountChoice (setMountRecord .b 27 ⟨3, some .good⟩ (assemble .b 27 lastSector (lastUnresolved .good))) =
        .load 9 exampleEntries) ∧
    mountChoice (setMountRecord .b 27 ⟨3, some .good⟩ (assemble .b 27 0 (lastUnresolved .unreadable))) = .unusable ∧
    mountChoice (setMountRecord .b 27 ⟨3, some .blank⟩ (lastUnresolved .blank)) = .unformatted := by
  refine ⟨⟨by decide, by decide, 1, by decide, by decide, by decide⟩,
    ⟨by decide, by decide, by decide, by decide, by decide +kernel⟩, by decide +kernel, by decide +kernel⟩

/-! ### The links -/

/-- `ready` with one request of tag 1 outstanding on Channel A. -/
def outstandingOne : State := linked .a { attachedLink with outstanding := [⟨1, .flush⟩] }

/-- A pending read of one sector of Channel A, tag 1. -/
def aRead : ReadRecord := ⟨.a, 1, 5, 1, [⟨5, .waiting⟩], 0, false⟩

/-- `ready` with read records. -/
def reading (records : List ReadRecord) (s : State) : State := { s with sc := { s.sc with reads := records } }

theorem reset_listens (ch : Channel) : Listens State.reset ch := by cases ch <;> exact ⟨rfl, rfl, rfl⟩

theorem reset_steady : Steady State.reset := ⟨attn_of rfl rfl, fun _ => rfl⟩

theorem ready_steady : Steady ready := ⟨attn_of rfl rfl, fun _ => rfl⟩

theorem witness_TheLinkRefusesFramesInTheOrderOfItsTable :
    (Listens State.reset .a ∧ Steady State.reset ∧ frameWellFormed .read (frame 1 [0, 0]) = false) ∧
    (frameWellFormed .detach (frame 1 []) = true ∧ (State.reset.links.get .a).attached = false ∧
      FrameKind.detach ∉ [FrameKind.attach, .inquire, .pullReport, .pullEvents]) ∧
    (Takes ready .a .data (dataOf 1 0)) ∧
    (Takes outstandingOne .a .flush (lbaFrame 1 0 [1]) ∧
      ∃ o ∈ (outstandingOne.links.get .a).outstanding, o.tag = (lbaFrame 1 0 [1]).tag) ∧
    (Takes (reading [aRead] ready) .a .eject (frame 1 []) ∧
      ∃ r ∈ (reading [aRead] ready).sc.reads, r.channel = .a ∧ r.tag = (frame 1 []).tag) ∧
    (Takes (linked .a { attachedLink with outstanding := [⟨1, .flush⟩], reports := List.replicate 31 aReport }) .a .read
        (lbaFrame 2 0 [1]) ∧
      tagInUse (linked .a { attachedLink with outstanding := [⟨1, .flush⟩], reports := List.replicate 31 aReport }) .a 2 =
        false) ∧
    (Takes (inState .empty) .a .read (lbaFrame 2 0 [1]) ∧ tagInUse (inState .empty) .a 2 = false ∧
      gate .read (inState .empty) = some .notReady) :=
  ⟨⟨reset_listens .a, reset_steady, by decide⟩, ⟨by decide, by decide, by decide⟩, takes_of (by decide),
    ⟨takes_of (by decide), ⟨1, .flush⟩, by decide, by decide⟩, ⟨takes_of (by decide), aRead, by decide, by decide⟩,
    ⟨takes_of (by decide), by decide⟩, ⟨takes_of (by decide), by decide, by decide⟩⟩

/-- Channel A in the data phase of a two-sector write, with one sector received. -/
def aPhase : DataPhase := ⟨4, 100000, 2, .deferred, 1, [0, 1], [0, 1]⟩

/-- `ready` with Channel A in a data phase. -/
def inPhase (d : DataPhase) : State :=
  { linked .a { attachedLink with outstanding := [⟨d.tag, .write⟩], dataPhase := some d } with
    sc := { Cache.atReset with freeList := (List.range 160).drop d.count } }

theorem witness_AFrameInADataPhaseAbandonsTheWrite :
    AttnJudged (inPhase aPhase) ∧ ((inPhase aPhase).links.get .a).resetAsserted = false ∧
      ((inPhase aPhase).links.get .a).discardTail = false ∧
      ((inPhase aPhase).links.get .a).dataPhase = some aPhase ∧ FrameKind.inquire ≠ .data ∧
      isFullData (frame 4 [1]) = false :=
  ⟨attn_of rfl rfl, rfl, rfl, rfl, by decide, by decide⟩

theorem witness_ReceivedWordsNameTheirFrameAndUnknownKindsAreRefused :
    (Listens State.reset .a ∧ Steady State.reset) ∧
    (Steady (linked .a { Link.atReset with resetAsserted := true }) ∧
      ((linked .a { Link.atReset with resetAsserted := true }).links.get .a).resetAsserted = true) ∧
    (Steady (linked .a { Link.atReset with discardTail := true }) ∧
      ((linked .a { Link.atReset with discardTail := true }).links.get .a).discardTail = true) ∧
    (∀ code ∈ FrameKind.all.map FrameKind.code, (0x15 : Byte) ≠ code) ∧ [(0x0301 : Word16)].length < 2 :=
  ⟨⟨reset_listens .a, reset_steady⟩, ⟨⟨attn_of rfl rfl, fun _ => rfl⟩, rfl⟩,
    ⟨⟨attn_of rfl rfl, fun _ => rfl⟩, rfl⟩, by decide, by decide⟩

theorem witness_TheGateFollowsTheCartridgeState :
    (∀ st ∈ [CartState.empty, .loading, .spinningUp, .mounting, .ready, .readOnly, .unformatted, .unusable,
      .draining, .spinningDown, .ejecting, .recovering, .failed], (inState st).cc.state = st) ∧
    FrameKind.attach ∉ [FrameKind.read, .write, .flush, .openStream, .lock, .eject, .initialise] ∧
    gate .eject ready = none ∧ gate .initialise ready = none ∧ gate .initialise (inState .unformatted) = none := by
  decide

/-- A part in a state with an INITIALISE in progress. -/
def initialising (st : CartState) : State :=
  { inState st with cc := { (inState st).cc with initialise := some ⟨.a, 3⟩ } }

theorem witness_TheGateFollowsTheCartridgeState_refusals :
    ((locked fullLocks).cc.state = .ready ∧ (locked fullLocks).cu.locks ≠ []) ∧
    ((initialising .unformatted).cu.locks = [] ∧ (initialising .unformatted).su.a.state = .closed ∧
      (initialising .unformatted).su.b.state = .closed ∧ (initialising .unformatted).cc.initialise ≠ none ∧
      (initialising .unformatted).cc.tab = false) ∧
    ({ (inState .unformatted).cc with tab := true } : Controller).tab = true := by decide

theorem witness_AttachDetachAndLinkResetChangeTheAttachState :
    (Listens State.reset .b ∧ frameWellFormed .attach (frame 5 []) = true ∧ Steady State.reset ∧
      DetachedBare State.reset ∧ (State.reset.links.get .b).attached = false) ∧
    (Listens ready .b ∧ Steady ready ∧ DetachedBare ready ∧ (ready.links.get .b).attached = true) := by
  refine ⟨⟨reset_listens .b, by decide, reset_steady, ?_, rfl⟩, ⟨rfl, rfl, rfl⟩, ready_steady, ?_, rfl⟩
  · intro ch _; cases ch <;> exact ⟨rfl, rfl, rfl, rfl, rfl, rfl⟩
  · intro ch h; cases ch <;> exact absurd h (by decide)

theorem witness_AttachDetachAndLinkResetChangeTheAttachState_detach : Takes outstandingOne .a .detach (frame 1 []) := takes_of (by decide)

theorem witness_AttachDetachAndLinkResetChangeTheAttachState_linkReset :
    ((ready.links.get .a).attached = true ∧ (ready.links.get .a).dataPhase = none) ∧
    (((inPhase aPhase).links.get .a).attached = true ∧ ((inPhase aPhase).links.get .a).dataPhase ≠ none) ∧
    ((State.reset.links.get .a).attached = false ∧ Steady State.reset) ∧
    (AttnJudged (linked .a { Link.atReset with resetAsserted := true }) ∧
      ((linked .a { Link.atReset with resetAsserted := true }).links.get .a).resetAsserted = true) ∧
    (AttnJudged ready ∧ (ready.links.get .a).resetAsserted = false) :=
  ⟨⟨rfl, rfl⟩, ⟨rfl, by decide⟩, ⟨rfl, reset_steady⟩, ⟨attn_of rfl rfl, rfl⟩, attn_of rfl rfl, rfl⟩

theorem witness_InquireAnswersWithTheStateAsItStands :
    Listens State.reset .a ∧ frameWellFormed .inquire (frame 1 []) = true ∧ Steady State.reset :=
  ⟨reset_listens .a, by decide, reset_steady⟩

theorem witness_EventCommandsActOnTheEventWord :
    Takes ready .a .setEvents (frame 1 [2047, 1]) ∧ Takes ready .a .setEvents (frame 1 [0, 2]) ∧
    Takes ready .a .clearEvents (frame 1 [2047]) ∧
    (Listens ready .a ∧ frameWellFormed .pullEvents (frame 1 []) = true ∧ Steady ready ∧
      (ready.links.get .a).style = .pullClear) ∧
    ((linked .a { attachedLink with style := .explicit }).links.get .a).style = .explicit :=
  ⟨takes_of (by decide), takes_of (by decide), takes_of (by decide), ⟨⟨rfl, rfl, rfl⟩, by decide, ready_steady, rfl⟩,
    rfl⟩

theorem witness_ReportsAreQueuedInOrderAndPulledOnce :
    (Listens ready .a ∧ frameWellFormed .pullReport (frame 1 []) = true ∧ Steady ready ∧
      (ready.links.get .a).reports = []) ∧
    ((linked .a { attachedLink with reports := [aReport, aReport] }).links.get .a).reports = aReport :: [aReport] ∧
    ((outstandingOne.links.get .a).attached = true ∧ ⟨1, .flush⟩ ∈ (outstandingOne.links.get .a).outstanding) ∧
    (AttnJudged State.reset ∧ (State.reset.links.get .a).attached = false) ∧
    (AttnJudged ready ∧ (⟨1, .flush⟩ : Outstanding) ∉ (ready.links.get .a).outstanding) :=
  ⟨⟨⟨rfl, rfl, rfl⟩, by decide, ready_steady, rfl⟩, rfl, ⟨rfl, by decide⟩, ⟨attn_of rfl rfl, rfl⟩, attn_of rfl rfl,
    by decide⟩

/-! ### Locks, mail and settings -/

/-- Seven entries of Channel A. -/
def sevenLocks : List LockEntry := fullLocks.take 7

theorem sevenLocks_wellFormed : LocksWellFormed sevenLocks :=
  locks_of (by decide) (by decide) (by decide) (by decide) (by decide)

theorem witness_LocksAreGrantedOrRefusedByTheFirstCaseThatApplies :
    Takes (locked sevenLocks) .a .lock (lbaFrame 1 426559 [1, 1]) ∧
      (locked sevenLocks).cc.state ∈ [CartState.ready, .readOnly] ∧ LocksWellFormed (locked sevenLocks).cu.locks ∧
      lockMode (lbaFrame 1 426559 [1, 1]) = some .fullGuard ∧ 1 ≤ field16 (lbaFrame 1 426559 [1, 1]) 2 ∧
      field32 (lbaFrame 1 426559 [1, 1]) 0 + field16 (lbaFrame 1 426559 [1, 1]) 2 = lbaCount ∧
      ((locked sevenLocks).cu.locks.countP fun e => e.owner == .a) = 7 ∧
      (∀ e ∈ (locked sevenLocks).cu.locks, e.first + e.count ≤ 426559 ∨ 426560 ≤ e.first) :=
  ⟨takes_of (by decide), by decide, sevenLocks_wellFormed, by decide, by decide, by decide, by decide, by decide⟩

theorem witness_LocksAreGrantedOrRefusedByTheFirstCaseThatApplies_refused :
    (Takes (locked fullLocks) .a .lock (lbaFrame 1 0 [0, 0]) ∧
      (locked fullLocks).cc.state ∈ [CartState.ready, .readOnly]) ∧
    lbaCount < field32 (lbaFrame 1 426559 [2, 0]) 0 + field16 (lbaFrame 1 426559 [2, 0]) 2 ∧
    1 < field16 (lbaFrame 1 0 [1, 2]) 3 ∧
    (field16 (lbaFrame 1 0 [1, 1]) 3 ≤ 1 ∧ 8 ≤ (locked fullLocks).cu.locks.countP fun e => e.owner == .a) ∧
    (Takes (locked fullLocks) .b .lock (lbaFrame 1 79 [1, 0]) ∧
      ((locked fullLocks).cu.locks.countP fun e => e.owner == .b) < 8 ∧
      ∃ e ∈ (locked fullLocks).cu.locks, e.first < 79 + 1 ∧ 79 < e.first + e.count) :=
  ⟨⟨takes_of (by decide), by decide⟩, by decide, by decide, ⟨by decide, by decide⟩, takes_of (by decide), by decide,
    ⟨.a, 70, 10, .writeGuard, 7⟩, by decide, by decide⟩

theorem witness_UnlockRemovesOnlyTheChannelsOwnEntry :
    (Takes (locked fullLocks) .a .unlock (frame 1 [7]) ∧ LocksWellFormed (locked fullLocks).cu.locks ∧
      ∃ e ∈ (locked fullLocks).cu.locks, e.owner = .a ∧ e.handle = field16 (frame 1 [7]) 0) ∧
    (Takes (locked fullLocks) .a .unlock (frame 1 [15]) ∧
      ∀ e ∈ (locked fullLocks).cu.locks, e.owner = .a → e.handle ≠ field16 (frame 1 [15]) 0) :=
  ⟨⟨takes_of (by decide), fullLocks_wellFormed, ⟨.a, 70, 10, .writeGuard, 7⟩, by decide, by decide⟩,
    takes_of (by decide), by decide⟩

theorem witness_MailIsDeliveredOnceAndOverrunsAreMarked :
    Takes ready .a .postMail (frame 1 [65535, 65535]) ∧
    (Takes ready .a .pullMail (frame 1 []) ∧ (ready.cu.inbox.get .a).full = false) ∧
    (Takes { ready with cu := { Coordination.atReset with inbox := ⟨⟨7, true, true⟩, Mailbox.emptied⟩ } } .a .pullMail
        (frame 1 []) ∧
      (({ Coordination.atReset with inbox := ⟨⟨7, true, true⟩, Mailbox.emptied⟩ } : Coordination).inbox.get .a).full =
        true) :=
  ⟨takes_of (by decide), ⟨takes_of (by decide), rfl⟩, takes_of (by decide), rfl⟩

theorem witness_SetDriveAppliesEachSettingClamped :
    (Takes ready .a .setDrive (frame 1 [8, 4, 2, 7]) ∧ ¬ 48 < 8) ∧
    (Takes ready .a .setDrive (frame 1 [65535, 65535, 65535, 49]) ∧ ready.cu.settings.dirtyLimit < 49) :=
  ⟨⟨takes_of (by decide), by decide⟩, takes_of (by decide), by decide⟩

/-! ### The cache -/

/-- Two clean sectors in slots 0 and 1. -/
def twoClean : State := holding [entryOf 0 5 .clean 0, entryOf 1 6 .clean 1] ready

/-- A cache with every slot in use by a sector being read. -/
def fullCache : State := holding ((List.range 128).map fun i => entryOf i i .reading i) ready

theorem witness_AcceptedReadsReferToHeldSectorsAndFetchMissingOnes :
    Admitted twoClean .a .read (lbaFrame 1 5 [2]) ∧ field16 (lbaFrame 1 5 [2]) 2 = 2 ∧
      (∀ e ∈ twoClean.cu.locks, e.owner = other .a → e.mode = .fullGuard →
        e.first + e.count ≤ field32 (lbaFrame 1 5 [2]) 0 ∨ 7 ≤ e.first) ∧
      (twoClean.sc.reads.countP fun r => r.channel == .a) < 32 ∧
      ∀ lba ∈ (List.range 2).map fun i => field32 (lbaFrame 1 5 [2]) 0 + i,
        ∃ e ∈ twoClean.sc.entries, entryAt twoClean lba = some e ∧ e.state ≠ .reading :=
  ⟨admitted_of (by decide), by decide, by decide, by decide, by decide⟩

theorem witness_AcceptedReadsReferToHeldSectorsAndFetchMissingOnes_missing :
    Admitted twoClean .b .read (lbaFrame 1 426559 [1]) ∧ field16 (lbaFrame 1 426559 [1]) 2 = 1 ∧
      field32 (lbaFrame 1 426559 [1]) 0 < lbaCount ∧ entryAt twoClean 426559 = none ∧
      freeSlots twoClean = 2 :: (List.range 128).drop 3 ∧ twoClean.sc.freeList = 2 :: (List.range 160).drop 3 :=
  ⟨admitted_of (by decide), by decide, by decide, by decide, by decide +kernel, by decide +kernel⟩

/-- LBA 5 being read, LBA 6 held clean, LBA 7 missing. -/
def mixed : State := holding [entryOf 0 5 .reading 0, entryOf 1 6 .clean 1] ready

/-- A cache with every slot in use, all clean, LBA 0 least recent. -/
def fullClean : State := holding ((List.range 128).map fun i => entryOf i i .clean i) ready

theorem witness_AcceptedReadsReferToHeldSectorsAndFetchMissingOnes_waiting :
    (Admitted mixed .a .read (lbaFrame 1 5 [3]) ∧ field16 (lbaFrame 1 5 [3]) 2 = 3 ∧
      Nat.max (1 - (freeSlots mixed).length) (1 - mixed.sc.freeList.length) ≤ 0 ∧
      (entryAt mixed 5).map Entry.state = some .reading ∧ entryAt mixed 7 = none) ∧
    (Admitted fullClean .a .read (lbaFrame 1 127 [2]) ∧ entryAt fullClean 128 = none ∧
      Nat.max (1 - (freeSlots fullClean).length) (1 - fullClean.sc.freeList.length) ≤
        (fullClean.sc.recency.filter fun lba => isUnpinnedClean fullClean lba && !(127 ≤ lba && lba < 129)).length) :=
  ⟨⟨admitted_of (by decide), by decide, by decide +kernel, by decide, by decide⟩,
    admitted_of (by decide +kernel), by decide +kernel, by decide +kernel⟩

/-- R67: of LBAs 5 to 7 the first is in READING, the second held and the third missing. -/
theorem test_read_of_mixed_sectors :
    let t := after (.read .a (lbaFrame 1 5 [3])) mixed
    t.sc.reads.map (fun r => (r.refs, r.complete)) = [([⟨5, .waiting⟩, ⟨6, .ready⟩, ⟨7, .waiting⟩], false)] ∧
      t.sc.entries.map (fun e => (e.slot, e.lba, e.state)) = [(0, 5, .reading), (1, 6, .clean), (2, 7, .reading)] ∧
      t.sc.recency = [5, 6, 7] ∧ t.pe.due.map DueOp.owner = [.entry 7] := by decide +kernel

/-- R64: a READ of LBAs 127 and 128 evicts LBA 0, the least recent, and takes its slot and, behind the free ones, frees
its buffer. -/
theorem test_read_that_evicts :
    let t := after (.read .a (lbaFrame 1 127 [2])) fullClean
    (t.sc.entries.head?.map fun e => (e.slot, e.lba, e.state, e.current)) = some (0, 128, .reading, 128) ∧
      t.sc.freeList = (List.range 160).drop 129 ++ [0] ∧ t.sc.recency.getLast? = some 128 := by decide +kernel

/-- A FULL_GUARD and a WRITE_GUARD of Channel B. -/
def guarded : State := locked [⟨.b, 100, 10, .fullGuard, 0⟩, ⟨.b, 200, 10, .writeGuard, 1⟩]

theorem witness_ReadsAndWritesAreRefusedByTheFirstCaseThatApplies :
    (Admitted ready .a .read (lbaFrame 1 0 [33]) ∧ ¬ field16 (lbaFrame 1 0 [33]) 2 ≤ 32) ∧
    (Admitted guarded .a .read (lbaFrame 1 109 [32]) ∧
      ∃ e ∈ guarded.cu.locks, e.owner = other .a ∧ e.mode = .fullGuard ∧ e.first < 109 + 32 ∧
        109 < e.first + e.count) ∧
    (Admitted (reading (List.replicate 32 aRead) ready) .a .read (lbaFrame 2 0 [1]) ∧
      32 ≤ (reading (List.replicate 32 aRead) ready).sc.reads.countP fun r => r.channel == .a) ∧
    (Admitted fullCache .a .read (lbaFrame 1 128 [1]) ∧
      (fullCache.sc.recency.filter fun lba => isUnpinnedClean fullCache lba && !(lba == 128)).length <
        Nat.max (1 - (freeSlots fullCache).length) (1 - fullCache.sc.freeList.length)) ∧
    (Admitted ready .a .write (lbaFrame 1 0 [1, 2]) ∧ 1 < field16 (lbaFrame 1 0 [1, 2]) 3) ∧
    (Admitted guarded .a .write (lbaFrame 1 209 [1, 1]) ∧
      ∃ e ∈ guarded.cu.locks, e.owner = other .a ∧ e.mode = .writeGuard ∧ e.first < 209 + 1 ∧
        209 < e.first + e.count) ∧
    (Admitted { ready with sc := { Cache.atReset with takes := maxTake } } .a .write (lbaFrame 1 0 [1, 0]) ∧
      maxTake < maxTake + 1) ∧
    (Admitted { ready with cu := { Coordination.atReset with settings := ⟨3, 2, .always, 8⟩ } } .a .write
        (lbaFrame 1 0 [9, 0]) ∧ 8 < committingCount ready .a + 9) := by
  refine ⟨⟨admitted_of (by decide), by decide⟩,
    ⟨admitted_of (by decide), ⟨.b, 100, 10, .fullGuard, 0⟩, by decide, by decide⟩,
    ⟨admitted_of (by decide), by decide⟩, ⟨admitted_of (by decide +kernel), by decide +kernel⟩,
    ⟨admitted_of (by decide), by decide⟩,
    ⟨admitted_of (by decide), ⟨.b, 200, 10, .writeGuard, 1⟩, by decide, by decide⟩,
    ⟨admitted_of (by decide), by decide⟩, admitted_of (by decide), by decide⟩

/-- A cache of one clean sector and 127 being read, with wants-space marks of both channels. -/
def oneEvictable : State :=
  let s := holding (entryOf 0 0 .clean 0 :: (List.range 127).map fun i => entryOf (i + 1) (i + 1) .reading (i + 1)) ready
  { s with sc := { s.sc with wants := ⟨some ⟨.read, 1⟩, some ⟨.write, 2⟩⟩ } }

/-- Both streams wait for space, or only one. -/
def waitingStreams (b : Bool) : State :=
  let t : Stream := { Stream.closed with state := .opened, prefetchWaiting := true }
  { ready with su := ⟨t, { t with prefetchWaiting := b }⟩ }

theorem witness_SpaceIsFoundByEvictingAndFreeingEventsAreTold :
    (twoClean.sc.recency.Nodup ∧ victims 1 (fun _ => false) twoClean = []) ∧
    (oneEvictable.sc.recency.Nodup ∧ victims 1 (fun _ => false) oneEvictable = [0]) ∧
    ready.sc.wants.get .a = none ∧
    (oneEvictable.sc.wants.get .a = some ⟨.read, 1⟩ ∧ wantMet .a ⟨.read, 1⟩ oneEvictable = true) ∧
    (oneEvictable.sc.wants.get .b = some ⟨.write, 2⟩ ∧ wantMet .b ⟨.write, 2⟩ oneEvictable = false) ∧
    (((ready.su.get .a).prefetchWaiting = false ∧ (ready.su.get .b).prefetchWaiting = false) ∧
      (((waitingStreams false).su.get .a).prefetchWaiting = true ∧
        ((waitingStreams false).su.get (other .a)).prefetchWaiting = false) ∧
      ∀ ch, ((waitingStreams true).su.get ch).prefetchWaiting = true) := by
  refine ⟨⟨by decide, by decide +kernel⟩, ⟨by decide +kernel, by decide +kernel⟩, rfl, ⟨rfl, by decide +kernel⟩,
    ⟨rfl, by decide +kernel⟩, by decide, by decide, fun ch => ?_⟩
  cases ch <;> rfl

theorem witness_SpaceIsFoundByEvictingAndFreeingEventsAreTold_releases :
    ((waitingStreams false).su.get .a).prefetchWaiting = true ∧ (ready.su.get .a).prefetchWaiting = false ∧
    (∃ e ∈ twoClean.sc.entries, e ∉ ready.sc.entries) ∧ (∀ e ∈ ready.sc.entries, e ∈ twoClean.sc.entries) ∧
    ((entryAt twoClean 5).map Entry.state = some .clean ∧ pinCount twoClean 5 = 0) ∧
    (∀ e, entryAt fullCache 5 = some e → e.state ≠ .clean ∨ pinCount fullCache 5 ≠ 0) := by
  refine ⟨rfl, rfl, by decide, by decide, by decide, fun e h => Or.inl ?_⟩
  have : entryAt fullCache 5 = some (entryOf 5 5 .reading 5) := by decide +kernel
  rw [this] at h; cases h; decide

/-- A complete read of two held sectors and one lost, tag 1. -/
def completeRead : ReadRecord := ⟨.a, 1, 5, 3, [⟨5, .ready⟩, ⟨6, .ready⟩, ⟨7, .bad .lost⟩], 1, true⟩

theorem witness_PullDataDeliversAndDiscardReleases :
    (Takes ready .a .pullData (frame 1 []) ∧ readRecord ready .a (frame 1 []).tag = none) ∧
    (readRecord (reading [aRead] ready) .a (frame 1 []).tag = some aRead ∧ aRead.complete = false) ∧
    (Takes (reading [completeRead] twoClean) .a .pullData (frame 1 []) ∧
      readRecord (reading [completeRead] twoClean) .a (frame 1 []).tag = some completeRead ∧
      completeRead.complete = true ∧ completeRead.refs = ⟨5, .ready⟩ :: [⟨6, .ready⟩, ⟨7, .bad .lost⟩] ∧
      entryAt (reading [completeRead] twoClean) 5 = some (entryOf 0 5 .clean 0)) ∧
    (Takes (reading [{ completeRead with refs := [⟨7, .bad .lost⟩] }] ready) .a .pullData (frame 1 []) ∧
      ({ completeRead with refs := [⟨7, .bad .lost⟩] } : ReadRecord).refs = ⟨7, .bad .lost⟩ :: []) ∧
    (Takes (reading [aRead] ready) .a .discard (frame 1 []) ∧
      readRecord (reading [aRead] ready) .a (frame 1 []).tag = some aRead) ∧
    (Takes ready .a .discard (frame 1 []) ∧ readRecord ready .a (frame 1 []).tag = none) :=
  ⟨⟨takes_of (by decide), by decide⟩, ⟨by decide, by decide⟩,
    ⟨takes_of (by decide), by decide, by decide, by decide, by decide⟩, ⟨takes_of (by decide), by decide⟩,
    ⟨takes_of (by decide), by decide⟩, takes_of (by decide), by decide⟩

theorem witness_AWriteReservesItsSpaceIsFilledAndTaken :
    Admitted ready .a .write (lbaFrame 4 426528 [32, 1]) ∧ field16 (lbaFrame 4 426528 [32, 1]) 2 = 32 ∧
      field32 (lbaFrame 4 426528 [32, 1]) 0 + 32 = lbaCount ∧ writeMode (lbaFrame 4 426528 [32, 1]) = some .sync ∧
      (∀ e ∈ ready.cu.locks, e.owner = other .a → e.first + e.count ≤ 426528 ∨ 426560 ≤ e.first) ∧
      ready.sc.takes + 32 ≤ maxTake ∧ committingCount ready .a + 32 ≤ ready.cu.settings.dirtyLimit ∧
      32 ≤ (freeSlots ready).length ∧ 32 ≤ ready.sc.freeList.length :=
  ⟨admitted_of (by decide), by decide, by decide, by decide, by decide, by decide, by decide, by decide +kernel,
    by decide +kernel⟩

/-- The data phase of a one-sector DEFERRED write before its frame. -/
def onePhase : DataPhase := ⟨4, 100000, 1, .deferred, 0, [0], [0]⟩

theorem witness_AWriteReservesItsSpaceIsFilledAndTaken_data :
    (AttnJudged (inPhase { aPhase with received := 0 }) ∧ IdleHasNothingDue (inPhase { aPhase with received := 0 }) ∧
      isFullData (dataOf 4 7) = true ∧ ({ aPhase with received := 0 } : DataPhase).received + 1 < aPhase.count) ∧
    (AttnJudged (inPhase onePhase) ∧ ((inPhase onePhase).links.get .a).dataPhase = some onePhase ∧
      onePhase = ⟨onePhase.tag, onePhase.first, 1, .deferred, 0, [0], [0]⟩ ∧ (inPhase onePhase).rmt.loaded = true ∧
      entryAt (inPhase onePhase) onePhase.first = none ∧ onePhase.first ∉ (inPhase onePhase).sc.recency) :=
  ⟨⟨attn_of rfl rfl, fun _ => rfl, by decide +kernel, by decide⟩, attn_of rfl rfl, rfl, rfl, rfl, by decide, by decide⟩

theorem witness_AWriteReservesItsSpaceIsFilledAndTaken_sync :
    (aPhase.count ≤ aPhase.received + 1 ∧ aPhase.mode = .deferred ∧ (inPhase aPhase).rmt.loaded = true) ∧
    ({ onePhase with mode := .sync } =
        (⟨4, 100000, 1, ({ onePhase with mode := .sync } : DataPhase).mode, 0, [0], [0]⟩ : DataPhase) ∧
      AttnJudged (inPhase { onePhase with mode := .sync }) ∧ (inPhase onePhase).cc.state ≠ .failed) ∧
    ({ inPhase { onePhase with mode := .sync } with cc := (inState .failed).cc } : State).cc.state = .failed ∧
    ({ inPhase onePhase with rmt := RemapTable.unloaded } : State).rmt.loaded = false :=
  ⟨by decide, ⟨rfl, attn_of rfl rfl, by decide⟩, rfl, rfl⟩

/-- The commit task of LBA 5 at a stage. -/
def taskFive (stage : Stage) : CommitTask := ⟨5, homeOf 5, stage, 0, 1, .always, 0, none, some 1⟩

/-- `ready` with LBA 5 committing at a stage. -/
def committing (state : EntryState) (stage : Stage) : State :=
  { holding [{ entryOf 0 5 state 0 with newer := if state = .committingNewer then some 1 else none }] ready with
    cmu := { CommitUnit.atReset with tasks := [taskFive stage] } }

theorem witness_ATakeActsByTheStateOfItsEntry :
    (entryAt twoClean 5 = some (entryOf 0 5 .clean 0) ∧ (entryOf 0 5 .clean 0).state = .clean) ∧
    (entryAt (committing .committing .writeDue) 5 = some (entryOf 0 5 .committing 0) ∧
      taskAt (committing .committing .writeDue) 5 = some (taskFive .writeDue) ∧
      (taskFive .writeDue).stage ≠ .verifyDue) ∧
    (taskAt (committing .committing .verifyDue) 5 = some (taskFive .verifyDue) ∧
      (taskFive .verifyDue).stage = .verifyDue) ∧
    ((entryAt (committing .committingNewer .verifyDue) 5).map Entry.state = some .committingNewer) ∧
    (entryAt (holding [entryOf 0 5 .reading 0] ready) 5 = some (entryOf 0 5 .reading 0) ∧
      (entryOf 0 5 .reading 0).state = .reading) := by decide

theorem witness_FlushWaitsForWhatIsCommittingAndFaultsArePulled :
    (Admitted ready .a .flush (lbaFrame 1 0 [0]) ∧ field16 (lbaFrame 1 0 [0]) 2 = 0) ∧
    (Admitted ready .a .flush (lbaFrame 1 426559 [1]) ∧
      field32 (lbaFrame 1 426559 [1]) 0 + field16 (lbaFrame 1 426559 [1]) 2 ≤ lbaCount ∧
      flushSectors ready 426559 1 = []) ∧
    (Admitted (committing .committing .eraseDue) .b .flush (lbaFrame 1 5 [65535]) ∧
      flushSectors (committing .committing .eraseDue) 5 65535 ≠ []) ∧
    (Takes ready .a .pullFaults (frame 1 []) ∧ ready.cmu.faults.get .a = ⟨[], false⟩) ∧
    (Takes { ready with cmu := { CommitUnit.atReset with faults := ⟨⟨[⟨5, .ejected⟩], true⟩, ⟨[], false⟩⟩ } } .a
      .pullFaults (frame 1 [])) :=
  ⟨⟨admitted_of (by decide), by decide⟩, ⟨admitted_of (by decide), by decide, by decide⟩,
    ⟨admitted_of (by decide), by decide⟩, ⟨takes_of (by decide), rfl⟩, takes_of (by decide)⟩

/-! ### Eject, INITIALISE and streams -/

theorem inState_cartSound (st : CartState) (h : st ≠ .recovering) : CartSound (inState st) where
  limit := by cases st <;> rfl
  engine := by cases st <;> decide
  pass := fun _ => rfl
  prior := by cases st <;> first | (exact absurd rfl h) | decide
  priorLocked := fun _ h => (nomatch h)
  initialise := fun h => (nomatch h)
  mount := Or.inl ⟨fun _ h => (nomatch h), fun _ h => (nomatch h)⟩

theorem witness_AnEjectDrainsThePartOrClearsIt :
    (Admitted (committing .committing .eraseDue) .a .eject (frame 1 []) ∧
      (committing .committing .eraseDue).cc.state ∈ [CartState.ready, .readOnly, .unformatted] ∧
      (committing .committing .eraseDue).cmu.tasks ≠ []) ∧
    (Steady (locked fullLocks) ∧ gate .eject (locked fullLocks) ≠ none) ∧
    (Steady (committing .committing .eraseDue) ∧ gate .eject (committing .committing .eraseDue) = none) :=
  ⟨⟨admitted_of (by decide), by decide, by decide⟩, ⟨⟨attn_of rfl rfl, fun _ => rfl⟩, by decide⟩,
    ⟨attn_of rfl rfl, fun _ => rfl⟩, by decide⟩

theorem witness_AnEjectDrainsThePartOrClearsIt_nothingToDrain :
    (Admitted (inState .ready) .a .eject (frame 1 []) ∧ CartSound (inState .ready) ∧
      (inState .ready).lines.spindleAtRest = false ∧ drainMet (inState .ready) = true) ∧
    (Admitted (inState .unusable) .a .eject (frame 1 []) ∧ CartSound (inState .unusable) ∧
      (inState .unusable).cc.state ∉ [CartState.ready, .readOnly, .unformatted]) ∧
    (Admitted (inState .failed) .a .eject (frame 1 []) ∧ CartSound (inState .failed)) :=
  ⟨⟨admitted_of (by decide), inState_cartSound _ (by decide), rfl, by decide⟩,
    ⟨admitted_of (by decide), inState_cartSound _ (by decide), by decide⟩, admitted_of (by decide),
    inState_cartSound _ (by decide)⟩

theorem witness_InitialiseStartsAnEmptyTable :
    (Admitted (inState .unformatted) .a .initialise (frame 1 []) ∧ (inState .unformatted).cc.state = .unformatted) ∧
    (Admitted twoClean .a .initialise (frame 1 []) ∧ twoClean.cc.state = .ready) :=
  ⟨⟨admitted_of (by decide), rfl⟩, admitted_of (by decide), rfl⟩

/-- An OPEN_STREAM of two extents, the second the last sector. -/
def openFrame : Frame := frame 1 [0, 20, 2, 0, 0, 0, 65535, 6, 33343, 1]

/-- `ready` with Channel A's stream in a state. -/
def streaming (t : Stream) (s : State) : State := { s with su := ⟨t, Stream.closed⟩ }

theorem witness_StreamsOpenAreRefusedAndClose :
    (Takes ready .a .openStream openFrame ∧ ready.cc.state ∈ [CartState.ready, .readOnly] ∧
      (ready.su.get .a).state = .closed ∧ streamExtents openFrame = [⟨0, 65535⟩, ⟨426559, 1⟩] ∧
      (∀ x ∈ streamExtents openFrame, 1 ≤ x.count ∧ x.count ≤ 65535 ∧ x.first + x.count ≤ lbaCount) ∧
      (streamExtents openFrame).Pairwise fun x y => x.first + x.count ≤ y.first ∨ y.first + y.count ≤ x.first) ∧
    Takes (streaming (starvingStream 2 1002) ready) .a .closeStream (frame 1 []) ∧
    (Takes ready .a .closeStream (frame 1 []) ∧ ready.su.get .a = Stream.closed) ∧
    (Takes (streaming (starvingStream 2 1002) ready) .a .openStream openFrame ∧
      ((streaming (starvingStream 2 1002) ready).su.get .a).state ≠ .closed) ∧
    (Takes ready .a .openStream (frame 1 [1, 0, 2, 0, 0, 0, 5, 0, 4, 5]) ∧
      ¬ (streamExtents (frame 1 [1, 0, 2, 0, 0, 0, 5, 0, 4, 5])).Pairwise fun x y =>
        x.first + x.count ≤ y.first ∨ y.first + y.count ≤ x.first) ∧
    (Takes guarded .a .openStream (frame 1 [1, 0, 1, 0, 0, 109, 1]) ∧
      ∃ e ∈ guarded.cu.locks, e.owner = other .a ∧ e.mode = .fullGuard ∧
        ∃ x ∈ streamExtents (frame 1 [1, 0, 1, 0, 0, 109, 1]), e.first < x.first + x.count ∧
          x.first < e.first + e.count) :=
  ⟨⟨takes_of (by decide), by decide, rfl, by decide, by decide, by decide⟩, takes_of (by decide), ⟨takes_of (by decide),
    rfl⟩, ⟨takes_of (by decide), by decide⟩, ⟨takes_of (by decide), by decide⟩, takes_of (by decide), by decide⟩

/-- A stream over LBAs 5 to 44 with nothing fetched. -/
def freshStream : Stream :=
  { Stream.closed with state := .opened, extents := [⟨5, 40⟩], positions := 40, depth := 8, lowWater := 4 }

theorem witness_APrefetchTakesThePositionAtItsCursor :
    ((entryAt (streaming freshStream (holding [entryOf 0 5 .reading 0] ready)) 5).map Entry.state = some .reading) ∧
    ((entryAt (streaming freshStream twoClean) 5).map Entry.state = some .clean ∧ freshStream.level = 0 ∧
      AttnJudged (streaming freshStream twoClean)) ∧
    (({ freshStream with prefetchCursor := 1, refs := [⟨0, 5, true⟩] } : Stream).level ≠ 0) ∧
    (entryAt (streaming freshStream ready) (positionLba freshStream.extents freshStream.prefetchCursor) = none ∧
      freeSlots (streaming freshStream ready) = 0 :: (List.range 128).drop 1 ∧
      (streaming freshStream ready).sc.freeList = 0 :: (List.range 160).drop 1) ∧
    (entryAt (streaming { freshStream with extents := [⟨128, 40⟩] } fullCache) 128 = none ∧
      freeSlots (streaming { freshStream with extents := [⟨128, 40⟩] } fullCache) = [] ∧
      ∀ v ∈ fullCache.sc.recency, isUnpinnedClean fullCache v = false) ∧
    (entryAt (streaming { freshStream with extents := [⟨128, 40⟩] } oneEvictable) 128 = none ∧
      freeSlots (streaming { freshStream with extents := [⟨128, 40⟩] } oneEvictable) = [] ∧
      0 ∈ oneEvictable.sc.recency ∧ isUnpinnedClean oneEvictable 0 = true) :=
  ⟨by decide, ⟨by decide, by decide, attn_of rfl rfl⟩, by decide,
    ⟨by decide, by decide +kernel, by decide +kernel⟩, ⟨by decide +kernel, by decide +kernel, by decide +kernel⟩,
    by decide +kernel, by decide +kernel, by decide +kernel, by decide +kernel⟩

theorem witness_APrefetchTakesThePositionAtItsCursor_again :
    (Stream.closed.state ≠ .opened) ∧
    ((freshStream.state = .opened ∧ freshStream.prefetchCursor < freshStream.positions ∧
        freshStream.level + freshStream.inFlight < freshStream.depth) ∧
      ((prefetchOne .a (streaming freshStream ready)).su.get .a).prefetchWaiting = false ∧
      ((prefetchOne .a (streaming { freshStream with extents := [⟨128, 40⟩] } fullCache)).su.get .a).prefetchWaiting =
        true) := by decide +kernel

/-- R135: a prefetch that evicts brings no SPACE event, and the marks stand. -/
theorem test_prefetch_brings_no_space_event :
    let s := prefetchOne .a (streaming { freshStream with extents := [⟨128, 40⟩] } oneEvictable)
    s.links = oneEvictable.links ∧ s.sc.wants = oneEvictable.sc.wants ∧
      (s.sc.entries.map Entry.lba).take 2 = [128, 1] := by decide +kernel

/-- A stream over LBAs 5 and 6, both ready, with position 0 next. -/
def twoReady : Stream :=
  { freshStream with
    extents := [⟨5, 2⟩], positions := 2, prefetchCursor := 2, lowWater := 2, refs := [⟨0, 5, true⟩, ⟨1, 6, true⟩] }

/-- The stream with its last position next. -/
def oneReady : Stream := { twoReady with deliveryCursor := 1, refs := [⟨1, 6, true⟩] }

theorem witness_PullStreamDeliversInOrder :
    (Takes ready .a .pullStream (frame 1 []) ∧ (ready.su.get .a).state = .closed) ∧
    (Takes (streaming freshStream ready) .a .pullStream (frame 1 []) ∧ freshStream.state = .opened ∧
      ∀ x ∈ freshStream.refs, x.position ≠ freshStream.deliveryCursor) ∧
    ((starvingStream 0 1000).InStep ∧ (starvingStream 0 1000).refs = ⟨0, 1000, false⟩ :: []) ∧
    (Takes (streaming twoReady twoClean) .a .pullStream (frame 1 []) ∧ twoReady.InStep ∧
      twoReady.refs = ⟨0, 5, true⟩ :: [⟨1, 6, true⟩] ∧
      entryAt (streaming twoReady twoClean) 5 = some (entryOf 0 5 .clean 0) ∧
      twoReady.deliveryCursor + 1 < twoReady.positions ∧ twoReady.level = twoReady.lowWater) ∧
    (oneReady.InStep ∧ entryAt (streaming oneReady twoClean) 6 = some (entryOf 1 6 .clean 1) ∧
      oneReady.deliveryCursor + 1 = oneReady.positions) ∧
    (({ twoReady with lowWater := 0 } : Stream).InStep ∧
      ({ twoReady with lowWater := 0 } : Stream).level ≠ ({ twoReady with lowWater := 0 } : Stream).lowWater) ∧
    (faultedStream.InStep ∧ faultedStream.refs = ⟨1, 1001, true⟩ :: [] ∧ faultedStream.faultPosition = some 2 ∧
      faultedStream.faultStatus = some .lost) ∧
    ((streaming { faultedStream with deliveryCursor := 2, refs := [] } ready).su.a.deliveryCursor = 2 ∧
      2 < (streaming { faultedStream with deliveryCursor := 3, refs := [] } ready).su.a.deliveryCursor) :=
  ⟨⟨takes_of (by decide), rfl⟩, ⟨takes_of (by decide), rfl, by decide⟩,
    ⟨⟨by decide, by decide, by decide, by show _ = _; decide⟩, by decide⟩,
    ⟨takes_of (by decide), ⟨by decide, by decide, by decide, by show _ = _; decide⟩, by decide, by decide, by decide,
      by decide⟩,
    ⟨⟨by decide, by decide, by decide, by show _ = _; decide⟩, by decide, by decide⟩,
    ⟨⟨by decide, by decide, by decide, by show _ = _; decide⟩, by decide⟩,
    ⟨faultedStream_inStep, by decide, rfl, rfl⟩, rfl, by decide⟩

/-! ### The drive, the rotation and the engine -/

theorem witness_ACartridgeEntersAndLeavesTheDrive :
    (AttnJudged State.reset ∧ State.reset.cc.state = .empty) ∧ (inState .loading).cc.state = .loading ∧
      (AttnJudged ready ∧ ready.cc.state ≠ .empty ∧ ready.cc.state ≠ .loading) :=
  ⟨⟨attn_of rfl rfl, rfl⟩, rfl, attn_of rfl rfl, by decide, by decide⟩

/-- A part in EJECTING, for a request. -/
def ejecting (r : EjectRequest) : State :=
  { inState .ejecting with cc := { (inState .ejecting).cc with eject := some r } }

/-- A part in SPINNING_DOWN with the cartridge switch open, for a request. -/
def switchOpen (r : EjectRequest) : State :=
  { inState .spinningDown with
    cc := { (inState .spinningDown).cc with eject := some r }, lines := { ready.lines with switchClosed := false } }

theorem witness_ACartridgeEntersAndLeavesTheDrive_leaves :
    (AttnJudged State.reset ∧ State.reset.cc.state = .empty) ∧ (inState .failed).cc.state = .failed ∧
    (AttnJudged (inState .loading) ∧ (inState .loading).cc.state = .loading) ∧
    (AttnJudged (ejecting .button) ∧ (ejecting .button).cc.eject = some .button) ∧
    ((ejecting (.channel .a 1)).cc.state = .ejecting ∧ (ejecting (.channel .a 1)).cc.eject = some (.channel .a 1)) ∧
    (AttnJudged ready ∧ ready.cc.state ∉ [CartState.empty, .loading, .ejecting, .failed]) ∧
    (AttnJudged (inState .spinningDown) ∧ (inState .spinningDown).cc.state = .spinningDown ∧
      (inState .spinningDown).lines.switchClosed = true) ∧
    ((inState .recovering).cc.state ≠ .spinningDown ∧ (inState .recovering).outputs.motorOn = true ∧
      State.reset.cc.state ≠ .spinningDown ∧ State.reset.outputs.motorOn = false) ∧
    ∀ r ∈ [EjectRequest.button, .channel .a 1], (switchOpen r).cc.state = .spinningDown ∧
      (switchOpen r).lines.switchClosed = false ∧ (switchOpen r).cc.eject = some r ∧
      (switchOpen r).links = ready.links :=
  ⟨⟨attn_of rfl rfl, rfl⟩, rfl, ⟨attn_of rfl rfl, rfl⟩, ⟨attn_of rfl rfl, rfl⟩, ⟨rfl, rfl⟩,
    ⟨attn_of rfl rfl, by decide⟩, ⟨attn_of rfl rfl, rfl, rfl⟩, by decide, fun _ _ => ⟨rfl, rfl, rfl, rfl⟩⟩

/-- R33: a report to be ignored does not count when SPINNING_DOWN is entered later; one in FAILED does. -/
theorem test_spindle_stopped_counts_only_with_the_motor_off :
    after .spindleStopped (inState .recovering) = inState .recovering ∧
      (enterSpinningDown (after .spindleStopped (inState .recovering))).cc.state = .spinningDown ∧
      (enterSpinningDown (after .spindleStopped (stopMotor (inState .failed)))).cc.state = .ejecting := by
  decide +kernel

theorem witness_AnExpiredLimitOrLostIndexFailsTheCartridge :
    ((LimitKind.clamp, Instr.clampLimitExpiry) ∈ [(LimitKind.clamp, Instr.clampLimitExpiry), (.lock, .lockLimitExpiry),
        (.stop, .stopLimitExpiry), (.switch, .switchLimitExpiry)] ∧
      (inState .loading).cc.limit = some ⟨.clamp, 2000000⟩) ∧
    ((inState .spinningUp).cc.limit = some ⟨.lock, 2000000⟩ ∧
      (inState .spinningDown).cc.limit = some ⟨.stop, 2000000⟩ ∧
      (inState .ejecting).cc.limit = some ⟨.switch, 2000000⟩) ∧
    ready.cc.limit.map MechLimit.kind ≠ some .clamp := by decide

theorem witness_ResetsPutEveryBlockAtItsResetValues :
    (({ ready with mci := { Console.atReset with clearing := .lineSent } } : State).mci.clearing = .lineSent ∧
      ({ ready with mci := { Console.atReset with clearing := .lineSent } } : State).pending = []) ∧
      ready.mci.clearing ≠ .lineSent := by decide

/-- A part spinning up with LBA 5 READING, LBA 6 CLEAN, and this stream on Channel A. -/
def failingWith (t : Stream) : State :=
  streaming t (holding [entryOf 0 5 .reading 0, entryOf 1 6 .clean 1] (inState .spinningUp))

theorem witness_EntryToFailedCompletesTheWorkOfBothChannels :
    ((inState .loading).cc.limit = some ⟨.clamp, 2000000⟩ ∧
      (LimitKind.clamp, Instr.clampLimitExpiry) ∈ [(LimitKind.clamp, Instr.clampLimitExpiry), (.lock, .lockLimitExpiry),
        (.stop, .stopLimitExpiry), (.switch, .switchLimitExpiry)]) ∧
    ready.cc.state ∉ [CartState.empty, .loading, .ejecting, .failed] ∧
    (ready.cc.state.isLocked = true ∧ 2 ≤ ({ ready.cc with recoveryCount := 2 } : Controller).recoveryCount) ∧
    ((failingWith freshStream).sc.entries.map Entry.lba).Nodup ∧
    (freshStream.InStep ∧ freshStream.refs = [] ∧ freshStream.state = .opened ∧
      freshStream.prefetchCursor < freshStream.positions) ∧
    (twoReady.InStep ∧ twoReady.prefetchCursor = twoReady.positions ∧
      twoReady.refs = [] ++ ⟨0, 5, true⟩ :: [⟨1, 6, true⟩] ∧
      ∃ e ∈ (failingWith twoReady).sc.entries, e.lba = 5 ∧ e.state = .reading) ∧
    (oneReady.InStep ∧ ¬ ∃ e ∈ (failingWith oneReady).sc.entries, e.lba = 6 ∧ e.state = .reading) :=
  ⟨by decide, by decide, by decide, by decide,
    ⟨⟨by decide, by decide, by decide, by show _ = _; decide⟩, by decide⟩,
    ⟨⟨by decide, by decide, by decide, by show _ = _; decide⟩, by decide⟩,
    ⟨by decide, by decide, by decide, by show _ = _; decide⟩, by decide⟩

/-- R26, R140: at entry to FAILED the pending read and the waiter end, and the open stream is FAULTED at its cursor. -/
theorem test_entry_to_failed_ends_reads_and_streams :
    let s := reading [aRead] { failingWith { freshStream with prefetchCursor := 1, refs := [⟨0, 6, true⟩] } with
      links := ⟨{ attachedLink with outstanding := [⟨1, .read⟩] }, attachedLink⟩ }
    let t := after .lockLimitExpiry s
    t.links.a.reports.map (fun r => (r.tag, r.kind, r.status)) = [(1, .read, .mediumFault)] ∧ t.sc.reads = [] ∧
      t.su.a.state = .faulted ∧ t.su.a.faultPosition = some 1 ∧ t.su.a.faultStatus = some .lost ∧
      t.su.a.refs = [⟨0, 6, true⟩] ∧ t.sc.entries.map Entry.lba = [6] := by decide

/-- A part in SPINNING_UP with a lock run, an index seen. -/
def spinningUp (run : Nat) : State :=
  { inState .spinningUp with cc := { (inState .spinningUp).cc with lockRun := run } }

theorem witness_IndexEventsMeasureThePeriodAndReachLock :
    (State.reset.pe.state = .stopped ∧ State.reset.timer.elapsed ≤ 0 ∧ State.reset.timer.indexSeen = false) ∧
    ((inState .failed).pe.state = .stopped ∧ (inState .failed).timer.indexSeen = true ∧
      (inState .failed).cc.state ≠ .spinningUp ∧ (inState .failed).cc.state ≠ .recovering) ∧
    ((spinningUp 7).pe.state = .stopped ∧ (spinningUp 7).timer.elapsed ≤ 19800 ∧ (spinningUp 7).timer.indexSeen = true ∧
      (spinningUp 7).cc.state = .spinningUp ∧ (spinningUp 7).cc.lockRun = 7) ∧
    (spinningUp 6).cc.lockRun < 7 ∧ (19799 < 19800 ∨ 20200 < 20201) := by decide

/-- A part in RECOVERING from a state, one index short of lock. -/
def recoveringTo (back : CartState) : State :=
  { inState .recovering with
    cc := { (inState .recovering).cc with prior := some back, recoveryCount := 1, lockRun := 7 } }

theorem witness_IndexEventsMeasureThePeriodAndReachLock_recovering :
    (∀ back ∈ [CartState.ready, .mounting, .draining], AttnJudged (recoveringTo back) ∧
      (recoveringTo back).pe.state = .stopped ∧ (recoveringTo back).timer.elapsed ≤ 20200 ∧
      (recoveringTo back).timer.indexSeen = true ∧ (recoveringTo back).cc.lockRun = 7 ∧
      (recoveringTo back).cc.state = .recovering ∧ (recoveringTo back).cc.prior = some back) ∧
    CartState.ready ≠ .mounting ∧ CartState.ready ≠ .draining ∧ drainMet (recoveringTo .draining) = true ∧
    (recoveringTo .draining).lines.spindleAtRest = false ∧
    drainMet { recoveringTo .draining with rmt := { ready.rmt with state := .dirty } } = false :=
  ⟨fun _ _ => ⟨ready_steady.1, rfl, Nat.zero_le _, rfl, rfl, rfl, rfl⟩, by decide, by decide, by decide, rfl, by decide⟩

theorem witness_AnExpiredLimitOrLostIndexFailsTheCartridge_index :
    (ready.cc.state.isLocked = true ∧ ready.cc.recoveryCount < 2 ∧ AttnJudged ready) ∧
    ({ ready with cc := { ready.cc with recoveryCount := 2 } } : State).cc.recoveryCount = 2 ∧
    (inState .empty).cc.state.isLocked = false :=
  ⟨⟨rfl, by decide, attn_of rfl rfl⟩, rfl, rfl⟩

/-- R115, R124: index loss during a commit task's WRITE pass cuts it off: its take at mark is cleared, its stage and
its operation stand. -/
theorem test_index_loss_cuts_off_a_pass :
    let op : DueOp := ⟨.task 5, .write, homeOf 5⟩
    let s : State := { committing .committing .writeDue with
      pe := { ready.pe with state := .dwelling, due := [op], pass := some ⟨op, false, none⟩ } }
    let t := after .indexLoss s
    t.cc.state = .recovering ∧ t.pe.state = .stopped ∧ t.pe.pass = none ∧ t.pe.due = [op] ∧
      t.cmu.tasks = [{ taskFive .writeDue with takeAtMark := none }] := by decide

/-- `ready` with a move under way. -/
def moving (m : Move) (retry : Option Target) : State :=
  { ready with pe := { ready.pe with state := .moving, move := some m, retry := retry } }

/-- A move to track 3,587 with its flip done. -/
def aMove : Move := ⟨.target, 3587, .erase, false, true, 0⟩

theorem witness_AMoveEndsWithItsLaterPartOrFaults :
    ((moving aMove none).pe.state = .moving ∧ (moving aMove none).pe.move = some aMove ∧ aMove.kind = .target ∧
      aMove.flipDone = true ∧ aMove.seekDone = false) ∧
    ({ aMove with seekDone := true, flipDone := false } : Move).seekDone = true ∧
    (({ aMove with kind := .recalibrate } : Move).kind = .recalibrate ∧
      (moving { aMove with kind := .recalibrate } none).pe.retry = none) ∧
    ((moving { aMove with kind := .recalibrate } (some ⟨20001, .erase⟩)).pe.retry = some ⟨20001, .erase⟩ ∧
      (⟨20001, .erase⟩ : Target).polarity = aMove.polarity) ∧
    ready.pe.state ≠ .moving := by decide

theorem witness_AMoveEndsWithItsLaterPartOrFaults_faults :
    ((moving aMove none).pe.state = .moving ∧ (moving aMove none).pe.move = some aMove ∧
      (moving aMove none).pe.seekFaults = 0) ∧
    (({ moving aMove none with pe := { (moving aMove none).pe with seekFaults := 1 } } : State).pe.seekFaults ≠ 0 ∧
      (moving aMove none).cc.state.isLocked = true ∧ (moving aMove none).cc.recoveryCount < 2) ∧
    2 ≤ ({ moving aMove none with cc := { ready.cc with recoveryCount := 2 } } : State).cc.recoveryCount := by decide

/-- The engine dwells on track 3,587 with LBA 100,000's operation due on sector 25, and a pass or none. -/
def dwelling (op : DueOp) (polarity : Polarity) (pass : Option CurrentPass) : State :=
  { ready with
    timer := ⟨20000, 18000, true, 0⟩
    pe := { Engine.atReset with
      state := .dwelling, headTrack := 3587, polarity := polarity, due := [op], pass := pass } }

/-- LBA 100,000's READ pass. -/
def aReadOp : DueOp := ⟨.entry 100000, .read, ⟨3587, 25⟩⟩

theorem witness_SectorEndsEndAPassAndTheMarkBeginsOne :
    ((dwelling aReadOp .erase none).pe.state = .dwelling ∧ (dwelling aReadOp .erase none).mci.hold = false ∧
      inLastSector (dwelling aReadOp .erase none) = false ∧ sectorUnderHead (dwelling aReadOp .erase none) + 1 = 25 ∧
      ((dwelling aReadOp .erase none).su.get .a).state ≠ .opened ∧
      ((dwelling aReadOp .erase none).pe.due.find? fun x => x.addr == ⟨3587, 25⟩ && x.kind.compatible .erase) =
        some aReadOp ∧ aReadOp.kind ≠ .write) ∧
    (((dwelling ⟨.task 100000, .write, ⟨3587, 25⟩⟩ .write none).pe.due.find? fun x =>
      x.addr == ⟨3587, 25⟩ && x.kind.compatible .write) = some ⟨.task 100000, .write, ⟨3587, 25⟩⟩) ∧
    ((dwelling aReadOp .erase (some ⟨aReadOp, false, none⟩)).pe.pass = some ⟨aReadOp, false, none⟩ ∧
      (dwelling aReadOp .erase none).mci.watch0 = none ∧ (dwelling aReadOp .erase none).mci.watch1 = none) := by
  decide

/-- A state with a settle point. -/
def settling (p : SettlePoint) (s : State) : State := { s with pe := { s.pe with settle := some p } }

theorem witness_SectorEndsEndAPassAndTheMarkBeginsOne_settling :
    (25 * 4096 / sectorsOn 3587 = 3792) ∧
    (¬ ∀ p, (settling ⟨3777, 0⟩ (dwelling aReadOp .erase none)).pe.settle = some p →
      p.angle + 16 ≤ 3792 + 4096 * p.wraps) ∧
    (∀ p, (settling ⟨3776, 0⟩ (dwelling aReadOp .erase none)).pe.settle = some p →
      p.angle + 16 ≤ 3792 + 4096 * p.wraps) ∧
    ((dwelling aReadOp .erase none).pe.state = .dwelling ∧ (dwelling aReadOp .erase none).mci.hold = false) ∧
    (ready.pe.state = .idle ∧ ready.mci.hold = false ∧ AttnJudged ready) ∧
    (EngineState.stopped ∉ [EngineState.dwelling, .idle] ∧ EngineState.idle ∉ [EngineState.dwelling, .held]) ∧
    ((dwelling aReadOp .erase none).pe.due = [] ++ aReadOp :: [] ∧ aReadOp.addr = ⟨3587, 25⟩ ∧
      aReadOp.kind.compatible .erase = true ∧ ∀ op ∈ [aReadOp], ¬ (op.addr = ⟨3587, 24⟩ ∧ op.kind.compatible .erase = true)) := by
  refine ⟨by decide, fun h => absurd (h _ rfl) (by decide), fun p h => by cases h; decide, ⟨rfl, rfl⟩,
    ⟨rfl, rfl, attn_of rfl rfl⟩, by decide, by decide⟩

/-- The console with a hold, a step and a watch slot as given. -/
def consoleWith (hold step : Bool) (watch : Option WatchSlot) : Console :=
  { Console.atReset with hold := hold, stepReq := step, watch0 := watch }

/-- A watch slot on LBA 100,000's sector, for READ passes, with HOLD. -/
def aWatch : WatchSlot := ⟨⟨3587, 25⟩, ⟨true, false, false, false⟩, .hold, true⟩

/-- `dwelling` with another engine state and console. -/
def watched (state : EngineState) (m : Console) (pass : Option CurrentPass) : State :=
  let s := dwelling aReadOp .erase pass
  { s with pe := { s.pe with state := state }, mci := m }

theorem witness_HoldsStepsAndWatchesActAtTheSectorEnd :
    (inLastSector (watched .dwelling (consoleWith true false none) none) = false ∧
      (watched .dwelling (consoleWith true false none) none).mci.hold = true ∧
      AttnJudged (watched .dwelling (consoleWith true false none) none)) ∧
    (inLastSector (watched .idle (consoleWith true false none) none) = false ∧
      AttnJudged (watched .idle (consoleWith true false none) none)) ∧
    (inLastSector (watched .held (consoleWith false false none) none) = false ∧
      (watched .held (consoleWith false false none) none).mci.stepReq = false) ∧
    ((watched .held (consoleWith false true none) none).mci.stepReq = true ∧
      sectorUnderHead (watched .held (consoleWith false true none) none) + 1 = 25 ∧
      ((watched .held (consoleWith false true none) none).pe.due.find? fun x =>
        x.addr == ⟨3587, 25⟩ && x.kind.compatible .erase) = some aReadOp ∧ aReadOp.kind ≠ .write) ∧
    ((watched .held (consoleWith false true none) (some ⟨aReadOp, false, none⟩)).pe.pass =
        some ⟨aReadOp, false, none⟩ ∧
      (watched .held (consoleWith false true none) (some ⟨aReadOp, false, none⟩)).mci.watch0 = none) ∧
    ((watched .dwelling (consoleWith false false aWatch) (some ⟨aReadOp, true, none⟩)).mci.watch0 = some aWatch ∧
      aWatch.matches aReadOp = true ∧ aWatch.action = .hold ∧ aReadOp.owner = .entry 100000 ∧
      AttnJudged (watched .dwelling (consoleWith false false aWatch) (some ⟨aReadOp, true, none⟩))) :=
  ⟨⟨by decide, rfl, attn_of rfl rfl⟩, ⟨by decide, attn_of rfl rfl⟩, ⟨by decide, rfl⟩, by decide, by decide, rfl,
    by decide, rfl, rfl, attn_of rfl rfl⟩

theorem witness_HoldsStepsAndWatchesActAtTheSectorEnd_settling :
    isSettled (some ⟨3777, 0⟩) 3792 = false ∧ isSettled (some ⟨3776, 0⟩) 3792 = true ∧
      endAngle (watched .held (consoleWith false true none) none) = 3792 := by decide

theorem witness_TheChoiceIsUrgentThenStayThenBest :
    ((choiceState (starvingStream 2 5) Stream.closed).su.a.starving = true ∧
      oldestReading (choiceState (starvingStream 2 5) Stream.closed) (starvingStream 2 5) = some ⟨3590, 2⟩ ∧
      Stream.closed.starving = false) ∧
    ((starvingStream 1 3).starving = true ∧
      oldestReading (choiceState (starvingStream 2 5) (starvingStream 1 3)) (starvingStream 1 3) = some ⟨5010, 7⟩ ∧
      (starvingStream 1 3).level < (starvingStream 2 5).level) ∧
    (starvingStream 2 3).level = (starvingStream 2 5).level ∧
    (∃ op ∈ [(⟨.entry 6, .read, ⟨3587, 1⟩⟩ : DueOp)], op.addr.track = 3587 ∧ op.kind.compatible .write = true) ∧
    ((∀ op ∈ choiceDue, ¬ (op.addr.track = 3587 ∧ op.kind.compatible .write = true)) ∧
      choiceDue = choiceDue.take 3 ++ ⟨.entry 4, .read, ⟨3599, 20⟩⟩ :: choiceDue.drop 4 ∧
      (∀ x ∈ choiceDue.take 3, 1366 < opCost (choiceState Stream.closed Stream.closed) x) ∧
      ∀ x ∈ choiceDue.drop 4, ¬ opCost (choiceState Stream.closed Stream.closed) x ≤ 1366) ∧
    (ready.pe.state = .idle ∧ ready.pe.due = []) := by decide

theorem witness_AnIndexEventIsASectorEndAndTheMarkOfSectorZero :
    let s := fun (op : DueOp) (pass : Option CurrentPass) => dwelling op .erase pass
    ((s ⟨.entry 5, .read, ⟨3587, 0⟩⟩ none).pe.state = .dwelling ∧
      (s ⟨.entry 5, .read, ⟨3587, 0⟩⟩ none).timer.elapsed ≤ 20000 ∧
      (s ⟨.entry 5, .read, ⟨3587, 0⟩⟩ none).cc.state = .ready ∧
      (∀ ch ∈ [Channel.a, .b], ((s ⟨.entry 5, .read, ⟨3587, 0⟩⟩ none).su.get ch).state ≠ .opened) ∧
      ((s ⟨.entry 5, .read, ⟨3587, 0⟩⟩ none).pe.due.find? fun x =>
        x.addr == ⟨3587, 0⟩ && x.kind.compatible .erase) = some ⟨.entry 5, .read, ⟨3587, 0⟩⟩) ∧
    sectorsOn 3587 = 27 ∧
    ((s aReadOp (some ⟨⟨.entry 5, .read, ⟨3587, 26⟩⟩, false, none⟩)).pe.pass =
        some ⟨⟨.entry 5, .read, ⟨3587, 26⟩⟩, false, none⟩ ∧ 26 + 1 = 27) ∧
    (aReadOp.addr.sector + 1 ≠ 27 ∧ ∀ lba, aReadOp.owner ≠ .task lba) ∧
    (⟨.task 5, .write, ⟨3587, 3⟩⟩ : DueOp).owner = .task 5 :=
  ⟨⟨rfl, by decide, rfl, by decide, by decide⟩, by decide, ⟨rfl, rfl⟩, ⟨by decide, fun _ h => (nomatch h)⟩, rfl⟩

theorem witness_AnIndexEventIsASectorEndAndTheMarkOfSectorZero_settling :
    (¬ ∀ p, some (⟨4081, 0⟩ : SettlePoint) = some p → p.angle + 16 ≤ 4096 * (p.wraps + 1)) ∧
      ∀ p, some (⟨4080, 0⟩ : SettlePoint) = some p → p.angle + 16 ≤ 4096 * (p.wraps + 1) :=
  ⟨fun h => absurd (h _ rfl) (by decide), fun p h => by cases h; decide⟩

theorem witness_AnIndexEventIsASectorEndAndTheMarkOfSectorZero_elsewhere :
    ((watched .moving (consoleWith false false none) none).pe.state = .moving ∧
      (watched .moving (consoleWith false false none) none).timer.elapsed ≤ 20000 ∧
      (watched .moving (consoleWith false false none) none).cc.state = .ready) ∧
    ((ready.pe.state = .idle ∧ ready.pe.pass = none ∧ ready.pe.due = [] ∧ ready.mci.hold = false) ∧
      ({ ready with mci := consoleWith true false none } : State).mci.hold = true ∧
      AttnJudged { ready with mci := consoleWith true false none }) ∧
    ((watched .held (consoleWith false false none) none).pe.pass = none ∧
      (watched .held (consoleWith false true none) (some ⟨⟨.entry 5, .read, ⟨3587, 26⟩⟩, false, none⟩)).pe.pass =
        some ⟨⟨.entry 5, .read, ⟨3587, 26⟩⟩, false, none⟩ ∧ 26 + 1 = sectorsOn 3587 ∧
      (watched .held (consoleWith false true none) (some ⟨aReadOp, false, none⟩)).pe.pass =
        some ⟨aReadOp, false, none⟩ ∧ aReadOp.addr.sector + 1 ≠ sectorsOn 3587) :=
  ⟨by decide, ⟨by decide, rfl, attn_of rfl rfl⟩, by decide⟩

/-- R127: a step pass on the last sector ends at the index event with its line; one cut off there has none. -/
theorem test_a_step_pass_at_the_index_event :
    let s := fun (op : DueOp) => watched .held (consoleWith true true none) (some ⟨op, false, none⟩)
    let t := after (.indexEvent 20000 .uncorrectable) (s ⟨.entry 5, .read, ⟨3587, 26⟩⟩)
    let u := after (.indexEvent 18500 .uncorrectable) (s aReadOp)
    (t.mci.queue = [.notice false (.stepEnd .read ⟨3587, 26⟩ .unreadable 1)] ∧ t.mci.stepReq = false ∧
      t.mci.hold = false ∧ t.pe.state = .held ∧ t.pe.pass = none) ∧
    (u.mci.queue = [] ∧ u.mci.stepReq = false ∧ u.pe.state = .held ∧ u.pe.pass = none ∧ u.pe.due = [aReadOp]) := by
  decide

/-- A part in DRAINING with nothing left to drain. -/
def drained : State := { inState .draining with cc := { (inState .draining).cc with eject := some .button } }

theorem witness_OutcomesAreJudgedAndReachTheirOwners :
    (16 ≤ 16 ∧ 16 < 17 ∧ 4 ≤ 4 ∧ 4 < 5) ∧
    (taskAt (committing .committing .eraseDue) 5 = some (taskFive .eraseDue) ∧
      (taskFive .eraseDue).addr = homeOf 5 ∧ PassKind.erase ≠ .write ∧ homeOf 5 ≠ homeOf 6 ∧
      taskAt (committing .committing .eraseDue) 6 = none) ∧
    ((tableTaskAt { ready with cmu := { CommitUnit.atReset with tableTasks := [⟨.a, 27, .eraseDue, 0, false⟩] } } .a 27 =
        some ⟨.a, 27, .eraseDue, 0, false⟩) ∧ tableTaskAt ready .a 27 = none) ∧
    ((mountRecord .a 27 (mounted clearedMount)).outcome = none ∧
      (mountRecord .a 27 (mounted (allAre .good))).outcome ≠ none) ∧
    (drained.cc.state = .draining ∧ drained.cmu.tasks = [] ∧ drained.cmu.tableTasks = [] ∧ drained.rmt.state = .clean ∧
      drained.links.a.dataPhase = none ∧ drained.links.b.dataPhase = none ∧ drained.lines.spindleAtRest = false) ∧
    (ready.cc.state ≠ .draining) ∧ (OpOwner.task 5 = .task 5 ∧ ∀ lba, OpOwner.entry 5 ≠ .task lba) :=
  ⟨by decide, by decide, by decide, by decide, by decide, by decide, rfl, fun _ h => (nomatch h)⟩

theorem witness_SparesAreGrantedAndTranslated :
    (RemapTable.unloaded.loaded = false ∧ remapped.rmt.loaded = true ∧ EntriesSound remapped.rmt.entries ∧
      (⟨.active ⟨3587, 25⟩, 2, 1, 9⟩ : RemapEntry) ∈ remapped.rmt.entries ∧ homeOf 100000 = ⟨3587, 25⟩ ∧
      ∀ e ∈ remapped.rmt.entries, e.kind ≠ .active (homeOf 426559)) ∧
    ((remapped.rmt.fault = false ∧ remapped.rmt.generation ≠ 4294967295) ∧ 3 < 10 * (29 - 2) ∧
      (∀ e ∈ remapped.rmt.entries, ¬ (e.zone = 2 ∧ e.index = 3)) ∧
      ∀ k < 3, ∃ e ∈ remapped.rmt.entries, e.zone = 2 ∧ e.index = k) ∧
    (∀ j < 10 * (29 - 15), ∃ e ∈ (List.range 140).map fun i => (⟨.spent, 15, i, 1⟩ : RemapEntry),
      e.zone = 15 ∧ e.index = j) ∧
    ((∀ e ∈ remapped.rmt.entries, e.kind ≠ .active ⟨3600, 4⟩) ∧ remapped.rmt.state = .clean ∧
      ({ remapped with rmt := { remapped.rmt with state := .flushing } } : State).rmt.state = .flushing) ∧
    ((∀ e ∈ remapped.rmt.entries, e.kind = .spent ∨ spareAt e.zone e.index ≠ ⟨3742, 0⟩) ∧
      spareAt 2 1 = ⟨3742, 1⟩ ∧ RemapKind.active ⟨3587, 25⟩ ≠ .spent ∧
      ({ remapped.rmt with verifiedGen := 8 } : RemapTable).verifiedGen < 9 ∧ 9 ≤ remapped.rmt.verifiedGen) :=
  ⟨⟨rfl, rfl, exampleEntries_sound, by decide, by decide, by decide⟩, by decide, by decide +kernel, by decide, by decide⟩

/-- Events 1 to 3 of the example of Section 3, "A Reassignment Chain in Zone 2". -/
theorem test_a_reassignment_chain :
    let one := grantSpare ⟨3587, 25⟩ 2 0 ready
    let two := grantSpare ⟨3587, 25⟩ 2 1 one
    let three := grantSpare ⟨3600, 3⟩ 2 2 two
    (ready.rmt.judgeSpare 2 = .ok 0 ∧ one.rmt.judgeSpare 2 = .ok 1 ∧ two.rmt.judgeSpare 2 = .ok 2) ∧
    (one.rmt.entries = [⟨.active ⟨3587, 25⟩, 2, 0, 8⟩] ∧ one.rmt.generation = 8 ∧ one.rmt.state = .flushing ∧
      one.rmt.changedAgain = false ∧ one.rmt.progress = some ⟨.writing 0, .waiting⟩ ∧ one.rmt.verifiedGen = 7) ∧
    (two.rmt.entries = [⟨.active ⟨3587, 25⟩, 2, 1, 9⟩, ⟨.spent, 2, 0, 9⟩] ∧ two.rmt.changedAgain = true ∧
      two.rmt.translate 100000 = ⟨3742, 1⟩ ∧ two.rmt.unverifiedMove ⟨3742, 1⟩ = some 9) ∧
    three.rmt.entries = exampleEntries ∧ three.rmt.freeSpares = 3437 := by decide +kernel

theorem witness_CommitStagesFollowTheirOutcomes :
    (taskAt (committing .committing .eraseDue) 5 = some (taskFive .eraseDue) ∧
      (taskFive .eraseDue).stage = .eraseDue) ∧
    (taskAt (committing .committing .writeDue) 5 = some (taskFive .writeDue) ∧ (taskFive .writeDue).policy = .always ∧
      (taskFive .writeDue).takeAtMark = some (taskFive .writeDue).take) ∧
    (({ taskFive .writeDue with takeAtMark := some 0 } : CommitTask).takeAtMark ≠ some (taskFive .writeDue).take) ∧
    (({ taskFive .writeDue with policy := .never } : CommitTask).policy = .never) ∧
    (taskAt (committing .committing .verifyDue) 5 = some (taskFive .verifyDue) ∧
      entryAt (committing .committing .verifyDue) 5 = some (entryOf 0 5 .committing 0) ∧
      (taskFive .verifyDue).used < (committing .committing .verifyDue).cu.settings.reassignLimit ∧
      zoneOfLba 5 = 0) ∧
    (taskAt (committing .committingNewer .verifyDue) 5 = some (taskFive .verifyDue) ∧
      (entryAt (committing .committingNewer .verifyDue) 5).map (fun e => (e.state, e.newer)) =
        some (.committingNewer, some 1)) := by decide

theorem witness_CommitStagesFollowTheirOutcomes_spare :
    (committing .committing .verifyDue).rmt.judgeSpare 0 = .ok 0 ∧
      (committing .committingNewer .verifyDue).rmt.judgeSpare 0 = .ok 0 := ⟨rfl, rfl⟩

/-- LBA 5 committing, its VERIFY under way, with these settings and this remap table. -/
def failing (limit : Nat) (table : RemapTable) : State :=
  { committing .committing .verifyDue with
    cu := { Coordination.atReset with settings := { Settings.atReset with reassignLimit := limit } }, rmt := table }

theorem witness_AFailedTaskEndsItsWaitersAndLeavesARecord :
    ((taskFive .verifyDue).stage = .verifyDue ∧ zoneOfLba (taskFive .verifyDue).lba = 0 ∧
      ∀ limit table, entryAt (failing limit table) 5 = some (entryOf 0 5 .committing 0)) ∧
    (failing 0 ready.rmt).cu.settings.reassignLimit ≤ (taskFive .verifyDue).used ∧
    ((taskFive .verifyDue).used < (failing 1 { ready.rmt with fault := true }).cu.settings.reassignLimit ∧
      (failing 1 { ready.rmt with fault := true }).rmt.fault = true) ∧
    (ready.rmt.loaded = true ∧ ready.rmt.fault = false ∧ ready.rmt.generation ≠ maxGeneration ∧
      ∀ j < 10 * (29 - 0), ∃ r ∈ (List.range 290).map fun i => (⟨.spent, 0, i, 1⟩ : RemapEntry),
        r.zone = 0 ∧ r.index = j) :=
  ⟨⟨rfl, by decide, fun _ _ => by rfl⟩, by decide, by decide, ⟨rfl, rfl, by decide, fun j hj =>
    ⟨_, List.mem_map.2 ⟨j, List.mem_range.2 hj, rfl⟩, rfl, rfl⟩⟩⟩

/-- A sync waiter of Channel A on LBAs 5 and 6, the first of them satisfied or not. -/
def aWaiter (first : WaitCond) : Waiter := ⟨.sync, .a, 7, 5, 2, [⟨5, 1, first, false⟩, ⟨6, 2, .awaitingTable 9, false⟩]⟩

/-- LBA 5 committing with waiters. -/
def waitedFor (waiters : List Waiter) : State :=
  { committing .committing .eraseDue with
    cmu := { CommitUnit.atReset with tasks := [taskFive .eraseDue], waiters := waiters }
    links := ⟨{ attachedLink with outstanding := [⟨7, .write⟩] }, attachedLink⟩ }

/-- R103: a waiter that holds the committing LBA ends at it without a record; one whose sectors await the table ends
after the record EJECTED. -/
theorem test_the_clearing_ends_waiters_and_leaves_a_record :
    let held := clearCommit (waitedFor [aWaiter .pending])
    let other := clearCommit (waitedFor [aWaiter .satisfied])
    held.links.a.reports.map (fun r => (r.tag, r.status, r.detail)) = [(7, .mediumFault, 5)] ∧
      held.cmu.faults.a.records = [] ∧ held.cmu.waiters = [] ∧ held.cmu.tasks = [] ∧
      other.links.a.reports.map (fun r => (r.tag, r.status, r.detail)) = [(7, .mediumFault, 6)] ∧
      other.cmu.faults.a.records = [⟨5, .ejected⟩] := by decide +kernel

theorem witness_WaitersAreSatisfiedByFinishesAndVerifiedTables :
    (∀ g, (none : Option Nat) = some g → g ≤ ready.rmt.verifiedGen) ∧
      (∀ g, some 7 = some g → g ≤ ready.rmt.verifiedGen) ∧ ¬ (∀ g, some 8 = some g → g ≤ ready.rmt.verifiedGen) ∧
      ready.rmt.fault = false ∧ ({ ready.rmt with fault := true } : RemapTable).fault = true := by
  refine ⟨fun _ h => (nomatch h), fun _ h => by cases h; decide, fun h => absurd (h 8 rfl) (by decide), rfl, rfl⟩

/-- A table task at VERIFY_DUE. -/
def lastTask (copy : TableCopy) (restarts : Nat) : TableTask := ⟨copy, 27, .verifyDue, restarts, false⟩

/-- A flush with one table task left of its copy, and its progress. -/
def flushing (t : TableTask) (p : FlushProgress) : State :=
  { ready with
    rmt := { ready.rmt with state := .flushing, progress := some p }
    cmu := { CommitUnit.atReset with tableTasks := [t] } }

theorem witness_TableTasksVerifyTheirCopiesAndFlushesEnd :
    (tableTaskAt (flushing { lastTask .a 0 with stage := .eraseDue } ⟨.writing 27, .waiting⟩) .a 27 =
      some { lastTask .a 0 with stage := .eraseDue }) ∧
    (tableTaskAt (flushing (lastTask .a 1) ⟨.writing 27, .waiting⟩) .a 27 = some (lastTask .a 1) ∧
      (lastTask .a 1).restarts < 2) ∧
    ((flushing (lastTask .a 2) ⟨.writing 26, .waiting⟩).rmt.progress = some ⟨.writing 26, .waiting⟩ ∧
      26 < 27 ∧ 2 ≤ (lastTask .a 2).restarts) ∧
    (tableTaskAt (flushing (lastTask .b 2) ⟨.verified, .writing 27⟩) .b 27 = some (lastTask .b 2) ∧
      (flushing (lastTask .b 2) ⟨.verified, .writing 27⟩).rmt.changedAgain = false ∧
      (flushing (lastTask .b 2) ⟨.verified, .writing 27⟩).cc.initialise = none ∧
      (flushing (lastTask .b 2) ⟨.verified, .writing 27⟩).cc.state ≠ .draining) ∧
    ((flushing (lastTask .b 2) ⟨.failed, .writing 0⟩).rmt.progress = some ⟨.failed, .writing 0⟩ ∧
      (flushing (lastTask .b 2) ⟨.failed, .writing 0⟩).cc.state = .ready) ∧
    (flushing (lastTask .a 0) ⟨.writing 27, .waiting⟩).rmt.progress = some ⟨.writing 27, .waiting⟩ ∧
    (flushing (lastTask .b 0) ⟨.failed, .writing 27⟩).rmt.progress = some ⟨.failed, .writing 27⟩ ∧
    ({ flushing (lastTask .b 0) ⟨.verified, .writing 27⟩ with
      cc := { (inState .unformatted).cc with initialise := some ⟨.a, 3⟩ } } : State).cc.initialise = some ⟨.a, 3⟩ := by
  decide

/-- The end of a flush whose table changed again. -/
def changedFlush (t : TableTask) (p : FlushProgress) : State :=
  let s := flushing t p
  { s with rmt := { s.rmt with changedAgain := true } }

theorem witness_TableTasksVerifyTheirCopiesAndFlushesEnd_ends :
    ((changedFlush (lastTask .b 0) ⟨.verified, .writing 27⟩).rmt.changedAgain = true ∧
      tableTaskAt (changedFlush (lastTask .b 0) ⟨.verified, .writing 27⟩) .b 27 = some (lastTask .b 0)) ∧
    (({ flushing (lastTask .b 2) ⟨.failed, .writing 0⟩ with cc := (initialising .unformatted).cc } : State).cc.initialise =
      some ⟨.a, 3⟩) ∧
    ({ flushing (lastTask .b 2) ⟨.failed, .writing 0⟩ with cc := (inState .draining).cc } : State).cc.state ≠ .ready ∧
    AttnJudged (flushing (lastTask .b 2) ⟨.failed, .writing 0⟩) :=
  ⟨by decide, by decide, by decide, attn_of rfl rfl⟩

/-- R70, R138, R139: LBA 5 arrives, or is removed, for a pending read and a stream that wait on it. -/
theorem test_references_resolve :
    let s := reading [aRead] (streaming { freshStream with prefetchCursor := 1, refs := [⟨0, 5, false⟩] }
      { ready with links := ⟨{ attachedLink with outstanding := [⟨1, .read⟩] }, attachedLink⟩ })
    let reports := fun (t : State) => t.links.a.reports.map fun r => (r.tag, r.status, r.detail)
    reports (refsReady 5 s) = [(1, .ok, 1)] ∧ (refsReady 5 s).links.a.flag .streamData = true ∧
      reports (refsBad 5 .lost s) = [(1, .degraded, 1)] ∧ (refsBad 5 .lost s).links.a.flag .streamFault = true ∧
      (refsBad 5 .lost s).su.a.faultPosition = some 0 ∧ (refsBad 5 .lost s).su.a.refs = [] := by decide

theorem witness_ReferencesBecomeReadyOrResolveBad :
    AttnJudged ready ∧
    ({ freshStream with refs := [⟨0, 5, false⟩, ⟨1, 6, false⟩] } : Stream).level = 0 ∧ twoReady.level ≠ 0 ∧
    twoReady.refs = [⟨0, 5, true⟩] ++ ⟨1, 6, true⟩ :: [] ∧ (∀ y ∈ [(⟨0, 5, true⟩ : StreamRef)], y.lba ≠ 6) ∧
    (∀ x ∈ twoReady.refs, x.lba ≠ 7) := by
  refine ⟨attn_of rfl rfl, by decide, by decide, by decide, by decide, by decide⟩

theorem witness_ReadOutcomesReachTheirEntries :
    (entryAt (holding [entryOf 0 5 .reading 0] ready) 5 = some (entryOf 0 5 .reading 0) ∧
      (entryOf 0 5 .reading 0).state = .reading ∧ (entryOf 0 5 .reading 0).retries < ready.cu.settings.readRetries) ∧
    (ready.cu.settings.readRetries ≤ ({ entryOf 0 5 .reading 0 with retries := 3 } : Entry).retries) ∧
    (entryAt twoClean 5 = some (entryOf 0 5 .clean 0) ∧ (entryOf 0 5 .clean 0).state ≠ .reading) := by decide

/-! ### The console -/

theorem ready_console : ready.mci.Ready := ⟨rfl, rfl, by decide⟩

theorem witness_DisplayCommandsShowTheSelectedItem :
    ready.mci.Ready ∧ (hexNumber 1 ['0'] = some 0 ∧ hexNumber 1 ['c'] = some 12 ∧ hexNumber 1 ['D'] = some 13) ∧
      hexNumber 4 ['f', 'F', 'F', 'F'] = some 65535 ∧ collectionSize ready 3 = some 128 ∧
      collectionSize ready 6 = some 0 ∧ collectionSize ready 0 = none ∧
      (twoClean.sc.entries.find? fun e => e.slot == 1) = some (entryOf 1 6 .clean 1) ∧
      (committing .committing .eraseDue).cmu.tasks[0]? = some (taskFive .eraseDue) ∧
      remapped.rmt.entries[2]? = some ⟨.spent, 2, 0, 9⟩ :=
  ⟨ready_console, by decide, by decide, by decide, by decide, by decide, by decide, by decide, by decide⟩

theorem witness_DisplayCommandsShowTheSelectedItem_items :
    (∀ e ∈ twoClean.sc.entries, e.slot ≠ 2) ∧
    (((inPhase aPhase).links.get .a).dataPhase.map DataPhase.slots = some [0, 1] ∧
      ∀ e ∈ (inPhase aPhase).sc.entries, e.slot ≠ 1) ∧
    ((([lastTask .b 0, lastTask .a 0].filter fun y => y.copy == .a) ++
      [lastTask .b 0, lastTask .a 0].filter fun y => y.copy == .b)[1]? = some (lastTask .b 0)) ∧
    (locked fullLocks).cu.locks[8]? = some ⟨.b, 426558, 1, .fullGuard, 15⟩ := by decide

/-- `ready` with the engine held on track 2, an operation due there or none. -/
def heldWith (due : List DueOp) : State := { ready with pe := { ready.pe with state := .held, due := due } }

theorem witness_EngineWatchAndSettingLinesAreAnswered :
    (heldWith []).mci.Ready ∧ ((heldWith []).pe.state = .held ∧ (heldWith []).pe.pass = none) ∧
    (({ heldWith [] with pe := { (heldWith []).pe with pass := some ⟨aReadOp, false, none⟩ } } : State).pe.pass ≠ none) ∧
    (ready.pe.state ≠ .held ∧ ready.mci.hold = false) ∧
    (({ ready with mci := { Console.atReset with hold := true } } : State).mci.hold = true) ∧
    ((heldWith [⟨.entry 5, .read, ⟨2, 5⟩⟩]).mci.stepReq = false ∧
      ∃ op ∈ (heldWith [⟨.entry 5, .read, ⟨2, 5⟩⟩]).pe.due, op.addr.track = 2 ∧ op.kind.compatible .erase = true) ∧
    ¬ ∃ op ∈ (heldWith []).pe.due, op.addr.track = 2 ∧ op.kind.compatible .erase = true :=
  ⟨⟨rfl, rfl, by decide⟩, ⟨rfl, rfl⟩, by decide, ⟨by decide, rfl⟩, rfl, ⟨rfl, by decide⟩, by decide⟩

theorem witness_EngineWatchAndSettingLinesAreAnswered_slots :
    (ready.mci.Ready ∧ Steady ready) ∧
    (watchKinds ['R', 'e', 'W', 'v'] = some ⟨true, true, true, true⟩ ∧ watchAction ['n'] = some .note ∧
      hexNumber 4 ['4', 'E', '2', '1'] = some 20001 ∧ hexNumber 2 ['D'] = some 13 ∧ 13 < sectorsOn 20001) ∧
    (hexNumber 4 ['4', 'E', '2', '2'] = some 20002 ∧ 20001 < 20002 ∧ hexNumber 2 ['E'] = some 14 ∧
      sectorsOn 20001 ≤ 14) ∧
    (['2'] ≠ ['0'] ∧ ['2'] ≠ ['1']) ∧
    (hexNumber 1 ['3'] = some 3 ∧ hexNumber 1 ['4'] = some 4 ∧ max 8 (min 48 64) ≤ ready.cu.settings.dirtyLimit ∧
      ready.cu.settings.dirtyLimit < max 8 (min 49 64)) :=
  ⟨⟨ready_console, ready_steady⟩, by decide, by decide, by decide, by decide⟩

theorem witness_ConsoleLinesAreBuiltJudgedQueuedAndDisplaced :
    (Steady { ready with mci := { Console.atReset with clearing := .lineQueued } } ∧
      ({ Console.atReset with clearing := .lineQueued } : Console).clearing ≠ .none) ∧
    (Steady ready ∧ ready.mci.clearing = .none) ∧
    (splitFields ['w', ' ', '0'] = [['w'], ['0']] ∧ commandLetter ['w'] = some .w) ∧
    (splitFields [' ', ' '] = [] ∧ splitFields ['x'] = ['x'] :: [] ∧ commandLetter ['x'] = none) ∧
    (({ Console.atReset with overlong := true } : Console).overlong = true ∧
      ({ Console.atReset with overlong := true } : Console).queue.length < 8) ∧
    (({ Console.atReset with queue := [.reply .clear] } : Console).queue = .reply .clear :: []) ∧ ready.mci.queue = [] ∧
    ready.mci.Ready :=
  ⟨⟨⟨attn_of rfl rfl, fun _ => rfl⟩, by decide⟩, ⟨ready_steady, rfl⟩, by decide, by decide, by decide, rfl, rfl,
    ready_console⟩

/-- `ready` with a full output queue, an unsolicited line waiting in it or none. -/
def fullQueue (waiting : List ConsoleLine) : State :=
  { ready with mci := { Console.atReset with queue := .reply .go :: waiting ++ List.replicate 6 (.reply .prompt) } }

theorem witness_ConsoleLinesAreBuiltJudgedQueuedAndDisplaced_queued :
    (ready.mci.queue.length < 8 ∧ 8 ≤ (fullQueue [.reply .go]).mci.queue.length) ∧
    (Steady (fullQueue [.reply .go]) ∧ (fullQueue [.reply .go]).mci.clearing = .none ∧
      (fullQueue [.reply .go]).mci.queue = .reply .go :: .reply .go :: List.replicate 6 (.reply .prompt) ∧
      ∀ line ∈ ConsoleLine.reply .go :: List.replicate 6 (.reply .prompt), line.isNotice = false) ∧
    (Steady (fullQueue [.notice false (.heldAt 2 7)]) ∧
      (fullQueue [.notice false (.heldAt 2 7)]).mci.queue =
        .reply .go :: [] ++ .notice false (.heldAt 2 7) :: List.replicate 6 (.reply .prompt) ∧
      (fullQueue [.notice false (.heldAt 2 7)]).mci.overlong = false) ∧
    ({ (fullQueue []).mci with overlong := true } : Console).overlong = true :=
  ⟨by decide, ⟨⟨attn_of rfl rfl, fun _ => rfl⟩, rfl, by decide, by decide⟩,
    ⟨⟨attn_of rfl rfl, fun _ => rfl⟩, by decide, rfl⟩, rfl⟩

theorem witness_ConsoleLinesAreSpelled :
    0 < 1 ∧ (fullQueue []).mci.queue = .reply .go :: List.replicate 6 (.reply .prompt) := by decide

end Sys2Proof.Tests
end

section
/-! SUPPORT and PROOFS. Media geometry, addressing, rotation and access cost (Section 1): settles O9 and O10. -/

namespace Sys2Proof.Machine

/-! ## The last index reached -/

/-- The loop of `zoneOfLba` and `sectorAtAngle` finds the greatest index below `n` whose bound is not above `a`. -/
theorem foldl_range_isGreatest (bound : Nat → Nat) {a n : Nat} (hn : 1 ≤ n) (h0 : bound 0 ≤ a) :
    IsGreatest {i | i < n ∧ bound i ≤ a}
      ((List.range n).foldl (fun best i => if bound i ≤ a then i else best) 0) := by
  induction n, hn using Nat.le_induction with
  | base => exact ⟨by simp [h0], fun i hi => by have := hi.1; omega⟩
  | succ n _ ih =>
    obtain ⟨⟨hlt, hle⟩, hgreatest⟩ := ih
    rw [List.range_succ, List.foldl_append, List.foldl_cons, List.foldl_nil]
    split
    case isTrue reached => exact ⟨⟨n.lt_succ_self, reached⟩, fun i hi => Nat.le_of_lt_succ hi.1⟩
    case isFalse above =>
      refine ⟨⟨hlt.trans n.lt_succ_self, hle⟩, fun i ⟨hi, hreached⟩ => hgreatest ⟨?_, hreached⟩⟩
      exact lt_of_le_of_ne (Nat.le_of_lt_succ hi) fun h => above (h ▸ hreached)

/-- The bound behind the greatest index reached is not reached, whether that index is below `n` or is `n`. -/
theorem lt_bound_succ_of_isGreatest {bound : Nat → Nat} {a n r : Nat}
    (h : IsGreatest {i | i < n ∧ bound i ≤ a} r) (hend : a < bound n) : a < bound (r + 1) := by
  obtain ⟨⟨hlt, -⟩, hgreatest⟩ := h
  rcases (Nat.succ_le_of_lt hlt).lt_or_eq with hnext | hlast
  · by_contra hreached
    exact Nat.not_succ_le_self r (hgreatest ⟨hnext, Nat.le_of_not_lt hreached⟩)
  · rwa [← hlast] at hend

/-! ## The zones of the LBAs (R6, R7) -/

theorem firstLba_succ {z : Nat} (hz : z < 16) : firstLba (z + 1) = firstLba z + 1240 * sectorsIn z := by
  decide +revert

theorem firstLba_le_firstLba {z w : Nat} (h : z ≤ w) (hw : w ≤ 16) : firstLba z ≤ firstLba w := by
  induction w, h using Nat.le_induction with
  | base => exact le_rfl
  | succ w _ ih => rw [firstLba_succ hw]; exact (ih (by omega)).trans (Nat.le_add_right _ _)

theorem zoneOfLba_isGreatest (lba : Nat) : IsGreatest {z | z < 16 ∧ firstLba z ≤ lba} (zoneOfLba lba) :=
  foldl_range_isGreatest firstLba (by decide) (Nat.zero_le lba)

/-- The zone of an LBA is the one whose bounds hold it: B(z) ≤ lba < B(z + 1). -/
theorem zoneOfLba_eq_iff {lba z : Nat} (hz : z < 16) (hlba : lba < lbaCount) :
    zoneOfLba lba = z ↔ firstLba z ≤ lba ∧ lba < firstLba (z + 1) := by
  obtain ⟨⟨hlt, hle⟩, hgreatest⟩ := zoneOfLba_isGreatest lba
  constructor
  · rintro rfl
    exact ⟨hle, lt_bound_succ_of_isGreatest (zoneOfLba_isGreatest lba) hlba⟩
  · rintro ⟨hfirst, hnext⟩
    have hge : z ≤ zoneOfLba lba := hgreatest ⟨hz, hfirst⟩
    refine (hge.antisymm (Nat.le_of_not_lt fun hgt => ?_)).symm
    exact Nat.not_lt.mpr ((firstLba_le_firstLba hgt hlt.le).trans hle) hnext

/-! ## Addresses and offsets in a zone (R5, R7, R9)

A zone's tracks hold `1250 * sectorsIn z` sectors. `homeAt z` numbers all of them, the spare band behind the user
tracks, and `homeOffset` reads the number back. -/

theorem Phys.isPresent_iff {p : Phys} (h : 2 ≤ p.track) :
    p.isPresent = true ↔ zoneOfTrack p.track < 16 ∧ p.sector < sectorsIn (zoneOfTrack p.track) := by
  simp only [Phys.isPresent, sectorsOn, zoneOfTrack, Nat.not_lt.mpr h, if_false, Bool.and_eq_true, decide_eq_true_eq]
  omega

theorem Phys.isUser_iff (p : Phys) :
    p.isUser = true ↔ p.isPresent = true ∧ 2 ≤ p.track ∧ trackInZone p.track < 1240 := by
  simp [Phys.isUser, and_assoc]

theorem Phys.isSpare_iff (p : Phys) :
    p.isSpare = true ↔ p.isPresent = true ∧ 2 ≤ p.track ∧ 1240 ≤ trackInZone p.track := by
  simp [Phys.isSpare, and_assoc]

theorem trackInZone_lt (t : Nat) : trackInZone t < 1250 := Nat.mod_lt _ (by decide)

/-- The tracks of zone z are those from 2 + 1,250 × z, by index k (R2). -/
theorem zoneOfTrack_of_index (z : Nat) {k : Nat} (hk : k < 1250) : zoneOfTrack (2 + 1250 * z + k) = z := by
  unfold zoneOfTrack
  omega

theorem trackInZone_of_index (z : Nat) {k : Nat} (hk : k < 1250) : trackInZone (2 + 1250 * z + k) = k := by
  unfold trackInZone
  omega

theorem track_eq_of_two_le {t : Nat} (h : 2 ≤ t) : 2 + 1250 * zoneOfTrack t + trackInZone t = t := by
  unfold zoneOfTrack trackInZone
  omega

/-- A sector of one of the first `c` tracks has a number below `c` tracks' sectors. -/
theorem index_mul_add_lt {k c sector n : Nat} (hk : k < c) (hs : sector < n) : k * n + sector < c * n :=
  calc k * n + sector < (k + 1) * n := by rw [Nat.succ_mul]; exact Nat.add_lt_add_left hs _
    _ ≤ c * n := Nat.mul_le_mul_right _ hk

section
variable {z o : Nat}

theorem two_le_homeAt_track : 2 ≤ (homeAt z o).track := by
  rw [homeAt, Nat.add_assoc]
  exact Nat.le_add_right _ _

theorem offset_div_lt {k : Nat} (ho : o < k * sectorsIn z) : o / sectorsIn z < k :=
  Nat.div_lt_of_lt_mul (by rwa [Nat.mul_comm])

theorem zoneOfTrack_homeAt (ho : o < 1250 * sectorsIn z) : zoneOfTrack (homeAt z o).track = z :=
  zoneOfTrack_of_index z (offset_div_lt ho)

theorem trackInZone_homeAt (ho : o < 1250 * sectorsIn z) : trackInZone (homeAt z o).track = o / sectorsIn z :=
  trackInZone_of_index z (offset_div_lt ho)

theorem homeOffset_homeAt (ho : o < 1250 * sectorsIn z) : homeOffset (homeAt z o) = o := by
  rw [homeOffset, trackInZone_homeAt ho, zoneOfTrack_homeAt ho]
  exact Nat.div_add_mod' o (sectorsIn z)

theorem homeAt_isPresent (hz : z < 16) (ho : o < 1250 * sectorsIn z) : (homeAt z o).isPresent = true := by
  rw [Phys.isPresent_iff two_le_homeAt_track, zoneOfTrack_homeAt ho]
  exact ⟨hz, Nat.mod_lt _ (by have := sectorsIn_pos hz; omega)⟩

/-- A user address is one of the first 1,240 × S(z) of its zone. -/
theorem homeAt_isUser (hz : z < 16) (ho : o < 1240 * sectorsIn z) : (homeAt z o).isUser = true := by
  have ho' : o < 1250 * sectorsIn z := by omega
  rw [Phys.isUser_iff, trackInZone_homeAt ho']
  exact ⟨homeAt_isPresent hz ho', two_le_homeAt_track, offset_div_lt ho⟩

theorem homeAt_isSpare (hz : z < 16) (hfirst : 1240 * sectorsIn z ≤ o) (ho : o < 1250 * sectorsIn z) :
    (homeAt z o).isSpare = true := by
  have := sectorsIn_pos hz
  rw [Phys.isSpare_iff, trackInZone_homeAt ho]
  exact ⟨homeAt_isPresent hz ho, two_le_homeAt_track, (Nat.le_div_iff_mul_le (by omega)).mpr hfirst⟩

/-- Spare index j of a zone is its sector number 1,240 × S(z) + j. -/
theorem spareAt_eq_homeAt (hz : z < 16) (j : Nat) : spareAt z j = homeAt z (1240 * sectorsIn z + j) := by
  have := sectorsIn_pos hz
  rw [spareAt, homeAt, Nat.mul_add_mod', Nat.add_comm (1240 * _), Nat.add_mul_div_right _ _ (by omega), Nat.add_assoc,
    Nat.add_comm 1240]

end

section
variable {p : Phys} (hp : p.isPresent = true) (htrack : 2 ≤ p.track)
include hp htrack

theorem homeAt_homeOffset : homeAt (zoneOfTrack p.track) (homeOffset p) = p := by
  obtain ⟨-, hsector⟩ := (Phys.isPresent_iff htrack).mp hp
  have hoffset : homeOffset p / sectorsIn (zoneOfTrack p.track) = trackInZone p.track := by
    rw [homeOffset, Nat.mul_comm, Nat.mul_add_div (by omega), Nat.div_eq_of_lt hsector, Nat.add_zero]
  rw [homeAt, hoffset, track_eq_of_two_le htrack, homeOffset, Nat.mul_add_mod', Nat.mod_eq_of_lt hsector]

/-- Zone and sector number determine a present address, and are determined by it. -/
theorem homeAt_eq_iff {z o : Nat} (ho : o < 1250 * sectorsIn z) :
    homeAt z o = p ↔ z = zoneOfTrack p.track ∧ o = homeOffset p := by
  constructor
  · rintro rfl
    exact ⟨(zoneOfTrack_homeAt ho).symm, (homeOffset_homeAt ho).symm⟩
  · rintro ⟨rfl, rfl⟩
    exact homeAt_homeOffset hp htrack

end

theorem homeOffset_lt_of_isUser {p : Phys} (hp : p.isUser = true) :
    homeOffset p < 1240 * sectorsIn (zoneOfTrack p.track) := by
  obtain ⟨hpresent, htrack, hindex⟩ := p.isUser_iff.mp hp
  obtain ⟨-, hsector⟩ := (Phys.isPresent_iff htrack).mp hpresent
  exact index_mul_add_lt hindex hsector

/-! ## The homes of the LBAs and the spares -/

/-- An LBA lies in its zone at an offset below 1,240 × S(z). -/
theorem lba_offset_lt {lba : Nat} (hlba : lba < lbaCount) :
    firstLba (zoneOfLba lba) ≤ lba ∧ lba - firstLba (zoneOfLba lba) < 1240 * sectorsIn (zoneOfLba lba) := by
  have hz := zoneOfLba_lt lba
  obtain ⟨hfirst, hnext⟩ := (zoneOfLba_eq_iff hz hlba).mp rfl
  rw [firstLba_succ hz] at hnext
  omega

/-- A user address is the home of the one LBA at its offset in its zone. -/
theorem homeOf_eq_iff {p : Phys} (hp : p.isUser = true) (lba : Nat) :
    (lba < lbaCount ∧ homeOf lba = p) ↔ lba = firstLba (zoneOfTrack p.track) + homeOffset p := by
  obtain ⟨hpresent, htrack, -⟩ := p.isUser_iff.mp hp
  constructor
  · rintro ⟨hlba, hhome⟩
    obtain ⟨hfirst, hoffset⟩ := lba_offset_lt hlba
    obtain ⟨hz, ho⟩ := (homeAt_eq_iff hpresent htrack (by omega)).mp hhome
    rw [← hz, ← ho]
    omega
  · intro hlba
    have hz := ((Phys.isPresent_iff htrack).mp hpresent).1
    have hoffset := homeOffset_lt_of_isUser hp
    have hnext : lba < firstLba (zoneOfTrack p.track + 1) := by
      rw [firstLba_succ hz]
      omega
    have hcount : lba < lbaCount := hnext.trans_le (firstLba_le_firstLba hz le_rfl)
    have hzone : zoneOfLba lba = zoneOfTrack p.track := (zoneOfLba_eq_iff hz hcount).mpr ⟨by omega, hnext⟩
    refine ⟨hcount, ?_⟩
    rw [homeOf, hzone, hlba, Nat.add_sub_cancel_left]
    exact homeAt_homeOffset hpresent htrack

/-- A spare address is the one spare index of its zone that its offset behind the user sectors gives. -/
theorem spareAt_eq_iff {p : Phys} (hp : p.isSpare = true) (z j : Nat) :
    (z < 16 ∧ j < 10 * sectorsIn z ∧ spareAt z j = p) ↔
      z = zoneOfTrack p.track ∧
        j = (trackInZone p.track - 1240) * sectorsIn (zoneOfTrack p.track) + p.sector := by
  obtain ⟨hpresent, htrack, hindex⟩ := p.isSpare_iff.mp hp
  obtain ⟨hz, hsector⟩ := (Phys.isPresent_iff htrack).mp hpresent
  have hoffset : homeOffset p = 1240 * sectorsIn (zoneOfTrack p.track) +
      ((trackInZone p.track - 1240) * sectorsIn (zoneOfTrack p.track) + p.sector) := by
    rw [← Nat.add_assoc, ← Nat.add_mul, Nat.add_sub_cancel' hindex, homeOffset]
  constructor
  · rintro ⟨hz', hj, hspare⟩
    rw [spareAt_eq_homeAt hz', homeAt_eq_iff hpresent htrack (by omega)] at hspare
    obtain ⟨rfl, ho⟩ := hspare
    exact ⟨rfl, by omega⟩
  · rintro ⟨rfl, rfl⟩
    refine ⟨hz, ?_, ?_⟩
    · exact index_mul_add_lt (by have := trackInZone_lt p.track; omega) hsector
    · rw [spareAt_eq_homeAt hz, ← hoffset]
      exact homeAt_homeOffset hpresent htrack

/-- Settles O9: `homeAt` and `homeOffset` are inverse on the sectors of a zone, the zones' LBAs follow one another,
and the spares are the sectors behind the 1,240 × S(z) homes. -/
theorem homeAndSpareAddressesAreBijections : Obligations.HomeAndSpareAddressesAreBijections := by
  refine ⟨fun lba hlba => ?_, fun p hp lba => ?_, fun z j hz hj => ?_, fun p hp z j => spareAt_eq_iff hp z j⟩
  · exact homeAt_isUser (zoneOfLba_lt lba) (lba_offset_lt hlba).2
  · rw [homeOf_eq_iff hp, homeOffset, ← Nat.add_assoc]
    rfl
  · rw [← sectorsIn] at hj
    rw [spareAt_eq_homeAt hz]
    exact homeAt_isSpare hz (Nat.le_add_right _ _) (by omega)

/-! ## Rotation, seeks and cost (R10, R11, R13, R15) -/

theorem RotationTimer.angle_at_index {t : RotationTimer} (h : t.elapsed = 0) : t.angle = 0 := if_pos h

theorem RotationTimer.angle_of_period {t : RotationTimer} (h : t.period ≠ 0) :
    t.angle = min (t.elapsed * 4096 / t.period) 4095 := by
  by_cases hindex : t.elapsed = 0
  · simp [angle_at_index hindex, hindex]
  · simp [angle, hindex, h]

theorem RotationTimer.angle_le (t : RotationTimer) : t.angle ≤ 4095 := by
  unfold RotationTimer.angle
  split
  · exact Nat.zero_le _
  · split <;> exact Nat.min_le_right _ _

theorem seekTime_of_pos {d : Nat} (h : 1 ≤ d) : seekTime d = 256 + (d + 3) / 4 := by
  rw [seekTime, if_neg (by omega), divUp]

/-- The sector under the head is the last one of the track whose start angle is not above the angle (R11). -/
theorem sectorAtAngle_isGreatest {n : Nat} (hn : 1 ≤ n) (a : Nat) :
    IsGreatest {i | i < n ∧ startAngle n i ≤ a} (sectorAtAngle n a) :=
  foldl_range_isGreatest (startAngle n) hn (by simp [startAngle])

/-- The next sector's start angle is not reached: of the last sector, that is the whole revolution. -/
theorem lt_startAngle_sectorAtAngle_succ {n a : Nat} (hn : 1 ≤ n) (ha : a < 4096) :
    a < startAngle n (sectorAtAngle n a + 1) :=
  lt_bound_succ_of_isGreatest (sectorAtAngle_isGreatest hn a) (by rwa [startAngle, Nat.mul_div_cancel_left _ hn])

/-- The cost is the move, the lead, and less than one revolution of waiting (R15). -/
theorem accessCost_bounds (a m θ : Nat) : m + 16 ≤ accessCost a m θ ∧ accessCost a m θ ≤ m + 4111 := by
  simp only [accessCost, lead]
  omega

/-- The rotation during the cost brings the start angle (R15). -/
theorem add_accessCost_mod (a m θ : Nat) : (a + accessCost a m θ) % 4096 = θ % 4096 := by
  simp only [accessCost, lead]
  omega

/-- Settles O10: the sector under the head is the greatest one whose start angle is reached, and the cost is `m + 16`
beside a remainder modulo the 4,096 units of a revolution. -/
theorem sectorsAndCostsFollowTheAngle : Obligations.SectorsAndCostsFollowTheAngle := by
  refine ⟨fun t => ⟨t.angle_at_index, t.angle_of_period, t.angle_le⟩,
    ⟨rfl, fun d => seekTime_of_pos, fun d => ⟨rfl, rfl⟩⟩, fun n a hn ha => ?_, fun a m θ => ?_⟩
  · obtain ⟨⟨hlt, hreached⟩, -⟩ := sectorAtAngle_isGreatest hn a
    exact ⟨hlt, hreached, lt_startAngle_sectorAtAngle_succ hn ha⟩
  · obtain ⟨hlow, hhigh⟩ := accessCost_bounds a m θ
    exact ⟨hlow, hhigh, add_accessCost_mod a m θ⟩

end Sys2Proof.Machine
end

section
/-! SUPPORT and PROOFS. A frame that passes its link's judgement, and locks and mailboxes (Section 8): settles O23
and O24. -/

namespace Sys2Proof.Machine

/-! ## A link whose ATTN stands as judged (R170, R173) -/

@[simp] theorem State.answered_links (s : State) (ch : Channel) (tag : Byte) (body : ResponseBody) :
    (s.answered ch tag body).links =
      s.links.set ch { s.links.get ch with response := some ⟨tag, body⟩ } := rfl

/-- The response is no part of what R173 judges. -/
theorem Link.judged_with_response {l : Link} (h : l.attn = l.attnDue) (r : Option Response) :
    Link.judged { l with response := r } = { l with response := r } := Link.judged_eq _ h

theorem Link.judged_noticed {l : Link} (h : l.attn = l.attnDue) (e : EventFlag) : (l.noticed e).judged = l.told e := by
  by_cases hattached : l.attached = true
  · simp [Link.noticed, Link.told, Link.judged, Link.attnDue, hattached]
  · simp [Link.noticed, Link.told, Link.judged_eq l h, hattached]

theorem AttnJudged.answered {s : State} (h : AttnJudged s) (ch : Channel) (tag : Byte) (body : ResponseBody) :
    AttnJudged (s.answered ch tag body) := by
  intro c
  rw [State.answered_links, PerChannel.get_set]
  split
  · exact h ch
  · exact h c

theorem respond_eq_answered {s : State} (h : AttnJudged s) (ch : Channel) (tag : Byte) (body : ResponseBody) :
    respond ch tag body s = s.answered ch tag body := by
  rw [respond, updLink, Link.judged_with_response (h ch), State.answered]

theorem notify_eq_told {s : State} (h : AttnJudged s) (ch : Channel) (e : EventFlag) :
    notify ch e s = s.withLink ch ((s.links.get ch).told e) := by
  rw [notify, updLink, Link.judged_noticed (h ch), State.withLink]

/-! ## Frames handed to their owner (R116, R164) -/

/-- Offers are taken up only by an idle engine with something due (R116). -/
theorem workArrival_eq_self {s : State} (h : IdleHasNothingDue s) : workArrival s = s := by
  by_cases hidle : s.pe.state = .idle
  · simp [workArrival, hidle, h hidle]
  · simp [workArrival, hidle]

section
variable {s : State} {ch : Channel} {k : FrameKind} {f : Frame}

/-- An immediate request that the gate lets through meets no step of R164 that refuses. -/
theorem Takes.judgeFrame_eq_toOwner (h : Takes s ch k f) (hdata : k ≠ .data) (hqueued : k.isQueued = false)
    (hgate : gate k s = none) : judgeFrame ch k f s = .toOwner := by
  obtain ⟨⟨hreleased, hnoTail, hnoPhase⟩, hattached, hwellFormed, -⟩ := h
  simp [judgeFrame, judgeIdle, hreleased, hnoTail, hnoPhase, hattached, hwellFormed, hdata, hqueued, hgate]

/-- An owner that leaves the engine alone has the last word on such a request. -/
theorem Takes.answerFrame_eq (h : Takes s ch k f) (hdata : k ≠ .data) (hqueued : k.isQueued = false)
    (hgate : gate k s = none) {owner : State → State} (hpe : (owner s).pe = s.pe) :
    answerFrame ch k f owner s = owner s := by
  have hidle : IdleHasNothingDue (owner s) := by
    rw [IdleHasNothingDue, hpe]
    exact h.steady.idle
  simp only [answerFrame, h.judgeFrame_eq_toOwner hdata hqueued hgate]
  exact workArrival_eq_self hidle

end

/-! ## UNLOCK (R150) -/

section
variable {s : State} {ch : Channel} {f : Frame}

/-- The entry found is the channel's own of that handle: no other entry has the handle (R148). -/
theorem namedLock_eq_some {e : LockEntry} (hlocks : LocksWellFormed s.cu.locks) (he : e ∈ s.cu.locks)
    (howner : e.owner = ch) (hhandle : e.handle = field16 f 0) : namedLock ch f s = some e := by
  cases hfound : namedLock ch f s with
  | none =>
    have hno := List.find?_eq_none.mp hfound e he
    simp [howner, hhandle] at hno
  | some x =>
    have hx : x.handle = field16 f 0 ∧ x.owner = ch := by simpa using List.find?_some hfound
    have hmem : x ∈ s.cu.locks := List.mem_of_find?_eq_some hfound
    rw [List.inj_on_of_nodup_map hlocks.handles hmem he (hx.1.trans hhandle.symm)]

theorem namedLock_eq_none (h : ∀ e ∈ s.cu.locks, e.owner = ch → e.handle ≠ field16 f 0) : namedLock ch f s = none := by
  refine List.find?_eq_none.mpr fun e he hnamed => ?_
  simp only [Bool.and_eq_true, beq_iff_eq] at hnamed
  exact h e he hnamed.2 hnamed.1

theorem unlockExtent_of_some {e : LockEntry} (hattn : AttnJudged s) (h : namedLock ch f s = some e) :
    unlockExtent ch f s = State.answered { s with cu := { s.cu with locks := s.cu.locks.erase e } } ch f.tag
      (.accepted (.unlocked e.first e.count e.mode)) := by
  simp only [unlockExtent, h]
  rw [accept, respond_eq_answered]
  exact hattn

theorem unlockExtent_of_none (hattn : AttnJudged s) (h : namedLock ch f s = none) :
    unlockExtent ch f s = s.answered ch f.tag (.refused .conflict) := by
  simp only [unlockExtent, h]
  exact respond_eq_answered hattn ..

theorem unlockExtent_pe (ch : Channel) (f : Frame) (s : State) : (unlockExtent ch f s).pe = s.pe := by
  unfold unlockExtent
  split <;> rfl

/-- UNLOCK is not gated: the link hands it to CU in every cartridge state. -/
theorem exec_unlock (h : Takes s ch .unlock f) : exec (.unlock ch f) s = .next (unlockExtent ch f s) :=
  congrArg Host.Outcome.next (h.answerFrame_eq (by decide) rfl rfl (unlockExtent_pe ch f s))

end

/-- Settles O23: the handles of a well-formed table are distinct, so the search by handle and owner finds the
channel's own entry of that handle, and nothing where there is none. -/
theorem unlockRemovesOnlyTheChannelsOwnEntry : Obligations.UnlockRemovesOnlyTheChannelsOwnEntry := by
  intro ch f s htakes hlocks
  have hattn := htakes.steady.attn
  rw [exec_unlock htakes]
  constructor
  · intro e he howner hhandle
    rw [unlockExtent_of_some hattn (namedLock_eq_some hlocks he howner hhandle)]
  · intro hnone
    rw [unlockExtent_of_none hattn (namedLock_eq_none hnone)]

/-! ## POST_MAIL and PULL_MAIL (R153, R154) -/

section
variable {s : State} {ch : Channel} {f : Frame}

theorem AttnJudged.setMailbox (h : AttnJudged s) (ch : Channel) (m : Mailbox) : AttnJudged (setMailbox ch m s) := h

/-- The response goes to the posting channel's link and the notice to the other one. -/
theorem postMail_eq (h : AttnJudged s) (ch : Channel) (f : Frame) :
    postMail ch f s =
      State.withLink
        (State.answered
          (setMailbox (other ch) ((s.cu.inbox.get (other ch)).posted (BitVec.ofNat 32 (field32 f 0))) s) ch f.tag
          (.accepted (.mail (s.cu.inbox.get (other ch)).full (s.links.get (other ch)).attached)))
        (other ch) ((s.links.get (other ch)).told .mail) := by
  have hset := h.setMailbox (other ch)
  rw [postMail, accept, respond_eq_answered (hset _), notify_eq_told ((hset _).answered _ _ _), State.answered_links,
    PerChannel.get_set_other]
  rfl

theorem pullMail_of_full (h : AttnJudged s) (tag : Byte) (hfull : (s.cu.inbox.get ch).full = true) :
    pullMail ch tag s =
      State.answered (setMailbox ch { s.cu.inbox.get ch with full := false, overrun := false } s) ch tag
        (.mail (s.cu.inbox.get ch).value (s.cu.inbox.get ch).overrun) := by
  rw [pullMail, if_pos hfull, respond_eq_answered (h.setMailbox ch _)]

theorem pullMail_of_not_full (h : AttnJudged s) (tag : Byte) (hempty : (s.cu.inbox.get ch).full = false) :
    pullMail ch tag s = s.answered ch tag (.empty false false) := by
  rw [pullMail, if_neg (by simp [hempty])]
  exact respond_eq_answered h ..

theorem pullMail_pe (ch : Channel) (tag : Byte) (s : State) : (pullMail ch tag s).pe = s.pe := by
  unfold pullMail
  dsimp only
  split <;> rfl

theorem exec_postMail (h : Takes s ch .postMail f) : exec (.postMail ch f) s = .next (postMail ch f s) :=
  congrArg Host.Outcome.next (h.answerFrame_eq (by decide) rfl rfl rfl)

theorem exec_pullMail (h : Takes s ch .pullMail f) : exec (.pullMail ch f) s = .next (pullMail ch f.tag s) :=
  congrArg Host.Outcome.next (h.answerFrame_eq (by decide) rfl rfl (pullMail_pe ch f.tag s))

end

/-- Settles O24: neither command is gated, the post writes the mailbox, its own link and the other link, and a pull
branches on the full mark. -/
theorem mailIsDeliveredOnceAndOverrunsAreMarked : Obligations.MailIsDeliveredOnceAndOverrunsAreMarked := by
  intro ch f s
  refine ⟨fun hpost => ?_, fun hpull => ⟨fun hfull => ?_, fun hempty => ?_⟩⟩
  · rw [exec_postMail hpost, postMail_eq hpost.steady.attn]
    rfl
  · rw [exec_pullMail hpull, pullMail_of_full hpull.steady.attn f.tag hfull]
    rfl
  · rw [exec_pullMail hpull, pullMail_of_not_full hpull.steady.attn f.tag hempty]

end Sys2Proof.Machine
end

section
/-! SUPPORT and PROOFS. The link-owned event and report commands (Section 9): settles O20 and O21. -/

namespace Sys2Proof.Machine

/-! ## One response after one change of the link (R159, R173) -/

/-- The response joins the changed link, whose ATTN is judged by the change alone. -/
theorem respond_updLink (ch : Channel) (tag : Byte) (body : ResponseBody) (g : Link → Link) (s : State) :
    respond ch tag body (updLink ch g s) =
      s.withLink ch { (g (s.links.get ch)).judged with response := some ⟨tag, body⟩ } := by
  rw [respond, updLink, updLink_links, PerChannel.get_set_self, PerChannel.set_set]
  rfl

/-! ## Frames taken in either attach state (R164, step 3) -/

section
variable {s : State} {ch : Channel} {k : FrameKind} {f : Frame}

theorem FrameKind.immediate_of_whileDetached (h : k.whileDetached = true) :
    k ≠ .data ∧ k.isQueued = false ∧ ∀ s, gate k s = none :=
  match k, h with
  | .attach, _ | .inquire, _ | .pullReport, _ | .pullEvents, _ => ⟨by decide, rfl, fun _ => rfl⟩

/-- The attach state is not asked of these kinds, so a listening link refuses none that is well formed. -/
theorem Listens.judgeFrame_eq_toOwner (h : Listens s ch) (hdetached : k.whileDetached = true)
    (hwellFormed : frameWellFormed k f = true) : judgeFrame ch k f s = .toOwner := by
  obtain ⟨hreleased, hnoTail, hnoPhase⟩ := h
  obtain ⟨hdata, hqueued, hgate⟩ := FrameKind.immediate_of_whileDetached hdetached
  simp [judgeFrame, judgeIdle, hreleased, hnoTail, hnoPhase, hwellFormed, hdetached, hdata, hqueued, hgate]

/-- An owner that leaves the engine alone has the last word on such a frame. -/
theorem Listens.answerFrame_eq (h : Listens s ch) (hidle : IdleHasNothingDue s) (hdetached : k.whileDetached = true)
    (hwellFormed : frameWellFormed k f = true) {owner : State → State} (hpe : (owner s).pe = s.pe) :
    answerFrame ch k f owner s = owner s := by
  have hidle' : IdleHasNothingDue (owner s) := by
    rw [IdleHasNothingDue, hpe]
    exact hidle
  simp only [answerFrame, h.judgeFrame_eq_toOwner hdetached hwellFormed]
  exact workArrival_eq_self hidle'

end

/-! ## SET_EVENTS, CLEAR_EVENTS and PULL_EVENTS (R171, R172) -/

section
variable {s : State} {ch : Channel} {f : Frame}

theorem Link.attnDue_of_attached {l : Link} (h : l.attached = true) : l.attnDue = (l.flags &&& l.mask != 0) := by
  rw [Link.attnDue, h, Bool.true_and]

/-- The word carried is the changed link's own. -/
theorem setEvents_eq (hattached : (s.links.get ch).attached = true) (f : Frame) :
    setEvents ch f s =
      let l := s.links.get ch
      s.withLink ch
        { l with
          mask := flagMask f, style := clearStyle f, attn := l.flags &&& flagMask f != 0,
          response := some ⟨f.tag, .accepted (.events ⟨l.flags, flagMask f, clearStyle f⟩)⟩ } := by
  simp only [setEvents, accept, respond_updLink, updLink_links, PerChannel.get_set_self]
  rw [Link.judged, Link.attnDue_of_attached (by exact hattached)]
  rfl

theorem clearEvents_eq (hattached : (s.links.get ch).attached = true) (f : Frame) :
    clearEvents ch f s =
      let l := s.links.get ch
      let flags := l.flags &&& ~~~flagMask f
      s.withLink ch
        { l with
          flags := flags, attn := flags &&& l.mask != 0,
          response := some ⟨f.tag, .accepted (.events ⟨flags, l.mask, l.style⟩)⟩ } := by
  simp only [clearEvents, accept, respond_updLink, updLink_links, PerChannel.get_set_self]
  rw [Link.judged, Link.attnDue_of_attached (by exact hattached)]
  rfl

/-- No flag is left once the word's own flags are cleared, so ATTN is not driven in either attach state. -/
theorem Link.judged_cleared_flags (l : Link) : (l.cleared l.flags).judged = { l with flags := 0, attn := false } := by
  have hcleared : l.flags &&& ~~~l.flags = 0 := BitVec.and_not_self l.flags
  simp [Link.judged, Link.attnDue, Link.cleared, hcleared]

theorem pullEvents_of_explicit (hattn : AttnJudged s) (hstyle : (s.links.get ch).style = .explicit) (tag : Byte) :
    pullEvents ch tag s = s.answered ch tag (.events (s.links.get ch).eventWord) := by
  simp only [pullEvents, Link.eventWord, hstyle]
  exact respond_eq_answered hattn ..

theorem pullEvents_of_pullClear (hstyle : (s.links.get ch).style = .pullClear) (tag : Byte) :
    pullEvents ch tag s =
      let l := s.links.get ch
      s.withLink ch { l with flags := 0, attn := false, response := some ⟨tag, .events l.eventWord⟩ } := by
  simp only [pullEvents, Link.eventWord, hstyle, respond_updLink, Link.judged_cleared_flags]

theorem pullEvents_pe (ch : Channel) (tag : Byte) (s : State) : (pullEvents ch tag s).pe = s.pe := by
  unfold pullEvents
  dsimp only
  split <;> rfl

theorem exec_setEvents (h : Takes s ch .setEvents f) : exec (.setEvents ch f) s = .next (setEvents ch f s) :=
  congrArg Host.Outcome.next (h.answerFrame_eq (by decide) rfl rfl rfl)

theorem exec_clearEvents (h : Takes s ch .clearEvents f) : exec (.clearEvents ch f) s = .next (clearEvents ch f s) :=
  congrArg Host.Outcome.next (h.answerFrame_eq (by decide) rfl rfl rfl)

theorem exec_pullEvents (h : Listens s ch) (hidle : IdleHasNothingDue s)
    (hwellFormed : frameWellFormed .pullEvents f = true) :
    exec (.pullEvents ch f) s = .next (pullEvents ch f.tag s) :=
  congrArg Host.Outcome.next (h.answerFrame_eq hidle rfl hwellFormed (pullEvents_pe ch f.tag s))

end

/-- Settles O20: each command changes the link once and answers with its word, and PULL_EVENTS branches on the
clearing style. -/
theorem eventCommandsActOnTheEventWord : Obligations.EventCommandsActOnTheEventWord := by
  intro ch f s
  refine ⟨fun hset => ?_, fun hclear => ?_, fun hlistens hwellFormed hsteady => ?_⟩
  · rw [exec_setEvents hset, setEvents_eq hset.attached]
    rfl
  · rw [exec_clearEvents hclear, clearEvents_eq hclear.attached]
    rfl
  · rw [exec_pullEvents hlistens hsteady.idle hwellFormed]
    constructor
    · intro hexplicit
      rw [pullEvents_of_explicit hsteady.attn hexplicit]
      rfl
    · intro hpullClear
      rw [pullEvents_of_pullClear hpullClear]
      rfl

/-! ## Posting a report (R12, R167) -/

section
variable {l : Link} {r : Report}

theorem Link.judged_posted_of_mem (hattached : l.attached = true) (hmem : ⟨r.tag, r.kind⟩ ∈ l.outstanding) :
    (l.posted r).judged =
      { l with
        outstanding := l.outstanding.erase ⟨r.tag, r.kind⟩
        reports := l.reports ++ [r]
        flags := l.flags ||| 1, attn := (l.flags ||| 1) &&& l.mask != 0 } := by
  have hbit : EventFlag.report.bit = 1 := rfl
  simp [Link.posted, Link.noticed, Link.judged, Link.attnDue, hattached, hmem, hbit]

/-- A report with no attached channel or no request to answer is dropped. -/
theorem Link.posted_eq_self (h : l.attached = false ∨ ⟨r.tag, r.kind⟩ ∉ l.outstanding) : l.posted r = l := by
  refine if_neg fun hposts => ?_
  obtain ⟨hattached, hmem⟩ := (Bool.and_eq_true _ _).mp hposts
  rcases h with hdetached | hgone
  · exact Bool.false_ne_true (hdetached.symm.trans hattached)
  · exact hgone (List.contains_iff_mem.mp hmem)

end

theorem updLink_eq_self {s : State} {ch : Channel} {g : Link → Link} (hattn : AttnJudged s)
    (h : g (s.links.get ch) = s.links.get ch) : updLink ch g s = s := by
  rw [updLink, h, Link.judged_eq _ (hattn ch), PerChannel.set_get]

/-! ## PULL_REPORT (R168) -/

section
variable {s : State} {ch : Channel} {f : Frame}

theorem pullReport_of_nil (hattn : AttnJudged s) (h : (s.links.get ch).reports = []) (tag : Byte) :
    pullReport ch tag s = s.answered ch tag (.empty false false) := by
  simp only [pullReport, h]
  exact respond_eq_answered hattn ..

/-- The queue is no part of what R173 judges. -/
theorem pullReport_of_cons (hattn : AttnJudged s) {r : Report} {rest : List Report}
    (h : (s.links.get ch).reports = r :: rest) (tag : Byte) :
    pullReport ch tag s =
      s.withLink ch { s.links.get ch with reports := rest, response := some ⟨tag, .report r⟩ } := by
  simp only [pullReport, h, respond_updLink]
  rw [Link.judged_eq _ (by exact hattn ch)]

theorem pullReport_pe (ch : Channel) (tag : Byte) (s : State) : (pullReport ch tag s).pe = s.pe := by
  unfold pullReport
  split <;> rfl

theorem exec_pullReport (h : Listens s ch) (hidle : IdleHasNothingDue s)
    (hwellFormed : frameWellFormed .pullReport f = true) :
    exec (.pullReport ch f) s = .next (pullReport ch f.tag s) :=
  congrArg Host.Outcome.next (h.answerFrame_eq hidle rfl hwellFormed (pullReport_pe ch f.tag s))

end

/-- Settles O21: a pull branches on the queue, and a post on whether the link is attached and still holds the
request. -/
theorem reportsAreQueuedInOrderAndPulledOnce : Obligations.ReportsAreQueuedInOrderAndPulledOnce := by
  refine ⟨fun ch f s hlistens hwellFormed hsteady => ?_, fun ch tag kind status detail mark s => ⟨?_, ?_⟩⟩
  · rw [exec_pullReport hlistens hsteady.idle hwellFormed]
    constructor
    · intro hnone
      rw [pullReport_of_nil hsteady.attn hnone]
    · intro r rest holdest
      rw [pullReport_of_cons hsteady.attn holdest]
  · intro hattached hmem
    rw [postReport, updLink, Link.judged_posted_of_mem hattached hmem, State.withLink]
  · intro hattn hdropped
    exact updLink_eq_self hattn (Link.posted_eq_self hdropped)

end Sys2Proof.Machine
end

section
/-! SUPPORT and PROOFS. Every command keeps the laws of Safety.lean: settles O2, O4, O5 and O6. -/

namespace Sys2Proof.Machine

/-! ## Frames that reach their owner with room -/

section
variable {s : State} {ch : Channel} {k : FrameKind} {f : Frame} {owner : State → State}

/-- A frame whose owner is calm. -/
theorem keeps_calmFrame (ho : Calm s (owner s)) : Keeps s (answerFrame ch k f owner s) :=
  (Keeps.refl s).answerFrame ch k f owner fun _ => ho.toKeeps

/-- A frame judged only on an attached channel. -/
theorem keeps_attachedFrame (hdata : k ≠ .data) (hdetached : k.whileDetached = false)
    (ho : (s.links.get ch).attached = true → Keeps s (owner s)) : Keeps s (answerFrame ch k f owner s) :=
  (Keeps.refl s).answerFrame ch k f owner fun hj => ho ((judgeFrame_toOwner hj hdata).1 hdetached)

/-- A queued request reaches its owner on an attached channel with room for it. -/
theorem keeps_queuedFrame (hqueued : k.isQueued = true) (hdetached : k.whileDetached = false)
    (ho : (s.links.get ch).load < 32 → (s.links.get ch).attached = true → Keeps s (owner s)) :
    Keeps s (answerFrame ch k f owner s) :=
  (Keeps.refl s).answerFrame ch k f owner fun hj =>
    have ⟨hattached, hload, _⟩ := judgeFrame_toOwner hj (by rintro rfl; cases hqueued)
    ho (hload hqueued) (hattached hdetached)

end

/-- An ended console line whose command keeps the laws. -/
theorem calm_consoleLine (s : State) (letter : ConsoleLetter) {act : State → LineAnswer} (hact : LineKeeps act) :
    Calm s (answerEnded (answerCommand letter act) s) :=
  (Calm.refl s).answerEnded fun r => (Calm.refl r).answerCommand letter hact

/-! ## Every command -/

/-- Every command answers a next state, and every law that held before holds after it. -/
theorem exec_keeps (c : Instr) (s : State) : ∃ t, exec c s = .next t ∧ Keeps s t := by
  have h := Keeps.refl s
  have hc := Calm.refl s
  cases c with
  | attach ch f => exact ⟨_, rfl, h.answerFrame _ _ _ _ fun _ => h.attachChannel ch f.tag⟩
  | detach ch f => exact ⟨_, rfl, h.answerFrame _ _ _ _ fun _ => (h.detachChannel ch).calm ((Calm.refl _).accept ..)⟩
  | inquire ch f => exact ⟨_, rfl, keeps_calmFrame (hc.inquire ch f.tag)⟩
  | setEvents ch f => exact ⟨_, rfl, keeps_attachedFrame (k := .setEvents) (by decide) rfl fun ha => h.setEvents ch f ha⟩
  | clearEvents ch f => exact ⟨_, rfl, keeps_calmFrame (hc.clearEvents ch f)⟩
  | read ch f =>
    exact ⟨_, rfl, keeps_queuedFrame rfl rfl fun hl ha => h.readRequest ch f.tag _ _ hl ha⟩
  | write ch f => exact ⟨_, rfl, keeps_queuedFrame rfl rfl fun hl ha => h.writeHeader ch f hl ha⟩
  | data ch f => exact ⟨_, rfl, h.answerFrame _ _ _ _ fun _ => h.dataFrameReceived ch f⟩
  | flush ch f =>
    exact ⟨_, rfl, keeps_queuedFrame rfl rfl fun hl ha => h.flushRequest ch f.tag _ _ hl ha⟩
  | discard ch f => exact ⟨_, rfl, keeps_calmFrame (hc.discardRead ch f.tag)⟩
  | eject ch f => exact ⟨_, rfl, keeps_queuedFrame rfl rfl fun hl ha => h.ejectRequest ch f.tag hl ha⟩
  | initialise ch f =>
    exact ⟨_, rfl, keeps_queuedFrame rfl rfl fun hl ha => h.initialiseRequest ch f.tag hl ha⟩
  | openStream ch f => exact ⟨_, rfl, keeps_calmFrame (hc.openStream ch f)⟩
  | closeStream ch f => exact ⟨_, rfl, keeps_calmFrame (hc.closeStream ch f.tag)⟩
  | lock ch f => exact ⟨_, rfl, keeps_calmFrame (hc.lockExtent ch f)⟩
  | unlock ch f => exact ⟨_, rfl, keeps_calmFrame (hc.unlockExtent ch f)⟩
  | postMail ch f => exact ⟨_, rfl, keeps_calmFrame (hc.postMail ch f)⟩
  | setDrive ch f => exact ⟨_, rfl, keeps_calmFrame (hc.setDrive ch f)⟩
  | pullReport ch f => exact ⟨_, rfl, keeps_calmFrame (hc.pullReport ch f.tag)⟩
  | pullData ch f => exact ⟨_, rfl, keeps_calmFrame (hc.pullData ch f.tag)⟩
  | pullStream ch f => exact ⟨_, rfl, keeps_calmFrame (hc.pullStream ch f.tag)⟩
  | pullMail ch f => exact ⟨_, rfl, keeps_calmFrame (hc.pullMail ch f.tag)⟩
  | pullEvents ch f => exact ⟨_, rfl, keeps_calmFrame (hc.pullEvents ch f.tag)⟩
  | pullFaults ch f => exact ⟨_, rfl, keeps_calmFrame (hc.pullFaults ch f.tag)⟩
  | malformedFrame ch m => exact ⟨_, rfl, h.answerMalformed ch m⟩
  | linkReset ch => exact ⟨_, rfl, (h.linkResetAsserted ch).calm (Calm.refl _).workArrival⟩
  | linkResetRelease ch midFrame => exact ⟨_, rfl, (hc.linkResetReleased ch midFrame).toKeeps⟩
  | powerUpReset found strapHigh => exact ⟨_, rfl, h.resetPart found strapHigh⟩
  | masterClear found => exact ⟨_, rfl, h.resetPart found _⟩
  | cartridgeSwitchCloses hubClamped tabSet => exact ⟨_, rfl, h.switchCloses hubClamped tabSet⟩
  | cartridgeSwitchOpens => exact ⟨_, rfl, h.switchOpens⟩
  | clampComplete tabSet => exact ⟨_, rfl, h.clampReported tabSet⟩
  | spindleStopped => exact ⟨_, rfl, h.spindleStops⟩
  | ejectButton => exact ⟨_, rfl, h.buttonPressed.calm (Calm.refl _).workArrival⟩
  | indexEvent elapsed found => exact ⟨_, rfl, (h.indexArrives elapsed found).calm (Calm.refl _).workArrival⟩
  | indexLoss => exact ⟨_, rfl, h.indexLost⟩
  | sectorEnd found => exact ⟨_, rfl, (h.sectorPasses found).calm (Calm.refl _).workArrival⟩
  | seekComplete elapsed cancelled =>
    exact ⟨_, rfl, h.moveReport elapsed cancelled fun _ r => Keeps.endMoveIfDone (Keeps.refl r).same⟩
  | polaritySettled elapsed cancelled =>
    exact ⟨_, rfl, h.moveReport elapsed cancelled fun _ r => Keeps.endMoveIfDone (Keeps.refl r).same⟩
  | seekFault elapsed cancelled => exact ⟨_, rfl, h.moveReport elapsed cancelled fun m r => (Keeps.refl r).seekFaulted m⟩
  | moveLimitExpiry => exact ⟨_, rfl, h.moveLimitExpires⟩
  | clampLimitExpiry => exact ⟨_, rfl, h.limitExpires .clamp⟩
  | lockLimitExpiry => exact ⟨_, rfl, h.limitExpires .lock⟩
  | stopLimitExpiry => exact ⟨_, rfl, h.limitExpires .stop⟩
  | switchLimitExpiry => exact ⟨_, rfl, h.limitExpires .switch⟩
  | consoleCharacter c => exact ⟨_, rfl, (hc.characterReceived c).workArrival.toKeeps⟩
  | selectDisplay fields => exact ⟨_, rfl, (calm_consoleLine s .s (lineS_keeps fields)).toKeeps⟩
  | nextDisplay fields => exact ⟨_, rfl, (calm_consoleLine s .n (lineN_keeps fields)).toKeeps⟩
  | display fields => exact ⟨_, rfl, (calm_consoleLine s .d (lineD_keeps fields)).toKeeps⟩
  | hold fields => exact ⟨_, rfl, (calm_consoleLine s .h (lineH_keeps fields)).toKeeps⟩
  | go fields => exact ⟨_, rfl, (calm_consoleLine s .g (lineG_keeps fields)).toKeeps⟩
  | step fields => exact ⟨_, rfl, (calm_consoleLine s .t (lineT_keeps fields)).toKeeps⟩
  | watch fields => exact ⟨_, rfl, (calm_consoleLine s .w (lineW_keeps fields)).toKeeps⟩
  | clearWatch fields => exact ⟨_, rfl, (calm_consoleLine s .c (lineC_keeps fields)).toKeeps⟩
  | settingEntry fields => exact ⟨_, rfl, (calm_consoleLine s .e (lineE_keeps fields)).workArrival.toKeeps⟩
  | consoleClear fields => exact ⟨_, rfl, (calm_consoleLine s .question (lineQuestion_keeps fields)).toKeeps⟩
  | consoleLineSent => exact ⟨_, rfl, (hc.updConsole _).toKeeps⟩
  | consoleMasterClear found =>
    refine ⟨_, rfl, ?_⟩
    split
    · exact h.resetPart found _
    · exact h

/-- The laws of Safety.lean are carried through a step, with a command waiting or none: none of them is about the
queue that the step takes its command from. -/
structure Carries (s t : State) : Prop where
  attn : AttnJudged s → AttnJudged t
  load : LoadBounded s → LoadBounded t
  bare : DetachedBare s → DetachedBare t
  locks : LocksWellFormed s.cu.locks → LocksWellFormed t.cu.locks
  settings : s.cu.settings.InRange → t.cu.settings.InRange
  streams : (∀ ch, (s.su.get ch).InStep) → ∀ ch, (t.su.get ch).InStep
  remap : EntriesSound s.rmt.entries → EntriesSound t.rmt.entries

theorem Keeps.carries {r s : State} (h : Keeps r s) : Carries r s where
  attn k ch := h.attn ch (k ch)
  load k ch := h.load ch (k ch)
  bare k ch := h.bare ch (k ch)
  locks := h.locks
  settings := h.settings
  streams k ch := h.streams ch (k ch)
  remap := h.remap

theorem step_carries {s t : State} (h : step s = .next t) : Carries s t := by
  unfold step at h
  split at h
  · cases h
    exact (Keeps.refl s).idleTick.carries
  · next c rest _ =>
    obtain ⟨u, hexec, hkeeps⟩ := exec_keeps c { s with pending := rest }
    cases hexec.symm.trans h
    have k := hkeeps.carries
    exact ⟨k.attn, k.load, k.bare, k.locks, k.settings, k.streams, k.remap⟩

/-- Settles O5: no command breaks the soundness of the entries, and a step runs one command or lets time pass. -/
theorem everyStepKeepsTheRemapEntriesSound : Obligations.EveryStepKeepsTheRemapEntriesSound :=
  fun _ _ hsound hstep => (step_carries hstep).remap hsound

/-- Settles O6: no command breaks the laws of a stream context. -/
theorem everyStepKeepsTheStreamsInStep : Obligations.EveryStepKeepsTheStreamsInStep :=
  fun _ _ hinStep hstep => (step_carries hstep).streams hinStep

/-- Settles O2: every arm of the dispatch is a next state that keeps the queue and the clock's order. -/
theorem everyCommandCompletesAndLeavesTheQueue : Obligations.EveryCommandCompletesAndLeavesTheQueue := fun c s =>
  let ⟨t, hexec, hkeeps⟩ := exec_keeps c s
  ⟨t, hexec, hkeeps.pending, hkeeps.clock⟩

/-- Settles O4: each of the four bounds is kept by itself. -/
theorem everyStepKeepsLinksLocksAndSettingsBounded : Obligations.EveryStepKeepsLinksLocksAndSettingsBounded := by
  rintro s t ⟨hload, hbare, hlocks, hsettings⟩ hstep
  have k := step_carries hstep
  exact ⟨k.load hload, k.bare hbare, k.locks hlocks, k.settings hsettings⟩

end Sys2Proof.Machine
end

section
/-! SUPPORT and PROOFS. Every command keeps the controller, its requests and the engine in agreement: settles O7. -/

namespace Sys2Proof.Machine

section
variable {s : State} (h : CartSound s)
include h

/-! ## Frames -/

theorem CartSound.link (ch : Channel) (g : Link → Link) : CartSound (updLink ch g s) := h.same

theorem CartSound.respond (ch : Channel) (tag : Byte) (body : ResponseBody) : CartSound (respond ch tag body s) :=
  h.link ch _

theorem CartSound.abandonWrite (ch : Channel) : CartSound (abandonWrite ch s) := by
  unfold Machine.abandonWrite
  split
  · exact h
  · next d _ =>
    exact (h.calm ((((Calm.refl s).freeBuffers d.buffers).endDataPhase ch).dropOutstanding ch d.tag .write
      |>.freeingEvent)).drainCheck

theorem CartSound.detachChannel (ch : Channel) : CartSound (detachChannel ch s) := by
  have hdetached : CartSound (updLink ch Link.detached (dropReservation ch s)) :=
    (h.calm ((Calm.refl s).dropReservation ch)).link ch _
  have htorn := hdetached.calm
    (((((Calm.refl _).detachCache ch).detachCommit ch).closeOne ch).detachCoordination ch).freeingEvent
  unfold Machine.detachChannel
  dsimp only
  split
  · exact htorn.drainCheck
  · exact htorn

theorem CartSound.linkResetAsserted (ch : Channel) : CartSound (linkResetAsserted ch s) := by
  unfold Machine.linkResetAsserted
  dsimp only
  split
  · exact (h.link ch _).detachChannel ch
  · exact h.link ch _

theorem CartSound.answerFrame (ch : Channel) (k : FrameKind) (f : Frame) {owner : State → State}
    (ho : judgeFrame ch k f s = .toOwner → CartSound (owner s)) : CartSound (answerFrame ch k f owner s) := by
  unfold Machine.answerFrame
  refine CartSound.calm ?_ (Calm.refl _).workArrival
  split
  · exact h.link ch _
  · exact (h.abandonWrite ch).respond ..
  · exact h.respond ..
  · next hj => exact ho hj

theorem CartSound.calmFrame {ch : Channel} {k : FrameKind} {f : Frame} {owner : State → State}
    (ho : Calm s (owner s)) : CartSound (Machine.answerFrame ch k f owner s) :=
  h.answerFrame ch k f fun _ => h.calm ho

theorem CartSound.answerMalformed (ch : Channel) (m : Malformed) : CartSound (answerMalformed ch m s) := by
  unfold Machine.answerMalformed
  refine CartSound.calm ?_ (Calm.refl _).workArrival
  split
  · exact h.link ch _
  · split
    · exact (h.abandonWrite ch).respond ..
    · exact h.respond ..

/-! ## Requests -/

theorem CartSound.attachChannel (ch : Channel) (tag : Byte) : CartSound (attachChannel ch tag s) := by
  unfold Machine.attachChannel
  dsimp only
  split
  · exact h.respond ..
  · exact (h.link ch _).respond ..

theorem CartSound.addOutstanding (ch : Channel) (tag : Byte) (k : QueuedKind) :
    CartSound (addOutstanding ch tag k s) := h.link ch _

theorem CartSound.readRequest (ch : Channel) (tag : Byte) (first count : Nat) :
    CartSound (readRequest ch tag first count s) := by
  unfold Machine.readRequest
  split
  · exact h.respond ..
  · split
    · exact (h.addOutstanding ch tag .read).calm (((Calm.refl _).startRead ..).accept ..)
    · exact h.calm (((Calm.refl s).setWant ..).refuse ..)

theorem CartSound.startWrite (ch : Channel) (f : Frame) : CartSound (startWrite ch f s) := by
  have hroom : CartSound (takeBuffers (field16 f 2) (makeSpace (field16 f 2) (fun _ => false) s)) :=
    h.calm (((Calm.refl s).makeSpace ..).takeBuffers _)
  exact (hroom.link ch _).calm ((Calm.refl _).afterEvictions s)

theorem CartSound.writeHeader (ch : Channel) (f : Frame) : CartSound (writeHeader ch f s) := by
  unfold Machine.writeHeader
  split
  · exact h.respond ..
  · split
    · exact ((h.addOutstanding ch f.tag .write).startWrite ch f).respond ..
    · exact h.calm (((Calm.refl s).setWant ..).refuse ..)

theorem CartSound.makeTake (ch : Channel) (d : DataPhase) : CartSound (makeTake ch d s) := by
  unfold Machine.makeTake
  refine (h.calm (Calm.freeingEvent ?_)).drainCheck
  split
  · exact (Calm.refl s).takeLoaded ch d
  · exact (((Calm.refl s).freeBuffers d.buffers).endDataPhase ch).postReport ..

theorem CartSound.dataFrameReceived (ch : Channel) (f : Frame) : CartSound (dataFrameReceived ch f s) := by
  unfold Machine.dataFrameReceived
  split
  · exact h.respond ..
  · next d _ =>
    have hplaced : CartSound (placeData ch d f s) :=
      (h.calm ((Calm.refl s).fillBuffer (d.buffers.getD d.received 0) (dataPayload f))).link ch _
    split
    · refine CartSound.respond ?_ ..
      split
      · exact hplaced
      · exact hplaced.makeTake ch d
    · exact (h.abandonWrite ch).respond ..

theorem CartSound.flushRequest (ch : Channel) (tag : Byte) (first count : Nat) :
    CartSound (flushRequest ch tag first count s) := by
  unfold Machine.flushRequest Machine.startFlushRequest
  have hin := h.addOutstanding ch tag .flush
  split
  · refine CartSound.respond ?_ ..
    dsimp only
    split
    · exact hin.calm ((Calm.refl _).postReport ..)
    · exact hin.calm ((Calm.refl _).addWaiter _)
  · exact h.respond ..

/-- The objection is about the controller, the locks and the streams, none of which the outstanding set is part of. -/
theorem CartSound.ejectRequest (ch : Channel) (tag : Byte) (ho : ejectObjection s = none) :
    CartSound (ejectRequest ch tag s) :=
  ((h.addOutstanding ch tag .eject).startEject _ ho).respond ..

theorem CartSound.initialiseRequest (ch : Channel) (tag : Byte) (ho : initialiseObjection s = none) :
    CartSound (initialiseRequest ch tag s) :=
  ((h.addOutstanding ch tag .initialise).startInitialise ch tag (initialiseObjection_none (s := s) ho)).respond ..

theorem CartSound.consoleLine (letter : ConsoleLetter) {act : State → LineAnswer} (hact : LineKeeps act) :
    CartSound (answerEnded (answerCommand letter act) s) := h.calm (calm_consoleLine s letter hact)

/-! ## The mechanism -/

theorem CartSound.passUntil (elapsed : Nat) : CartSound (passUntil elapsed s) := h.same

theorem CartSound.passToClock (deadline : Nat) : CartSound (passToClock deadline s) := h.same

theorem CartSound.indexArrives (elapsed : Nat) (found : Found) : CartSound (indexArrives elapsed found s) :=
  ((h.indexTimer elapsed).sectorEnds _ found).calm ((Calm.refl _).sectorMark 0 0)

theorem CartSound.sectorPasses (found : Found) : CartSound (sectorPasses found s) := by
  unfold Machine.sectorPasses
  split
  · exact h
  · exact ((h.passUntil _).sectorEnds false found).calm ((Calm.refl _).sectorMark _ _)

theorem CartSound.indexLost : CartSound (indexLost s) := by
  unfold Machine.indexLost
  split
  · exact (h.passUntil 60000).mechanismFault
  · exact h

/-- A report acts on an engine that moves. -/
theorem CartSound.moveReport (elapsed : Nat) (cancelled : Bool) {act : Move → State → State}
    (ha : ∀ m r, CartSound r → r.pe.state = .moving → CartSound (act m r)) :
    CartSound (moveReport elapsed cancelled act s) := by
  unfold Machine.moveReport
  split
  · next m hmoving _ =>
    split
    · exact h
    · exact ha m _ (h.passUntil elapsed) hmoving
  · exact h

theorem CartSound.partDone (hmoving : s.pe.state = .moving) (move : Option Move) :
    CartSound (endMoveIfDone { s with pe := { s.pe with move := move } }) :=
  CartSound.calm (r := { s with pe := { s.pe with move := move } }) h.same
    ((Calm.refl _).endMoveIfDone (by rw [hmoving]; decide))

theorem CartSound.moveLimitExpires : CartSound (moveLimitExpires s) := by
  unfold Machine.moveLimitExpires
  split
  · next m hmoving _ => exact (h.passToClock _).seekFaulted m hmoving
  · exact h

theorem CartSound.limitExpires (k : LimitKind) : CartSound (limitExpires k s) := by
  unfold Machine.limitExpires
  split
  · split
    · exact CartSound.enterFailed _
    · exact h
  · exact h

theorem CartSound.idleTick : CartSound (idleTick s) := by
  unfold Machine.idleTick
  split
  · exact h
  · exact h.same

/-! ## Every command -/

theorem exec_cartSound (c : Instr) {t : State} (hexec : exec c s = .next t) : CartSound t := by
  have hc := Calm.refl s
  cases c <;> cases hexec
  case attach ch f => exact h.answerFrame _ _ _ fun _ => h.attachChannel ch f.tag
  case detach ch f => exact h.answerFrame _ _ _ fun _ => (h.detachChannel ch).respond ..
  case inquire ch f => exact h.calmFrame (hc.inquire ch f.tag)
  case setEvents ch f => exact h.answerFrame _ _ _ fun _ => (h.link ch _).respond ..
  case clearEvents ch f => exact h.calmFrame (hc.clearEvents ch f)
  case read ch f => exact h.answerFrame _ _ _ fun _ => h.readRequest ch f.tag _ _
  case write ch f => exact h.answerFrame _ _ _ fun _ => h.writeHeader ch f
  case data ch f => exact h.answerFrame _ _ _ fun _ => h.dataFrameReceived ch f
  case flush ch f => exact h.answerFrame _ _ _ fun _ => h.flushRequest ch f.tag _ _
  case discard ch f => exact h.calmFrame (hc.discardRead ch f.tag)
  case eject ch f =>
    exact h.answerFrame _ _ _ fun hj => h.ejectRequest ch f.tag (judgeFrame_toOwner hj (by decide)).2.2
  case initialise ch f =>
    exact h.answerFrame _ _ _ fun hj => h.initialiseRequest ch f.tag (judgeFrame_toOwner hj (by decide)).2.2
  case openStream ch f => exact h.calmFrame (hc.openStream ch f)
  case closeStream ch f => exact h.calmFrame (hc.closeStream ch f.tag)
  case lock ch f => exact h.calmFrame (hc.lockExtent ch f)
  case unlock ch f => exact h.calmFrame (hc.unlockExtent ch f)
  case postMail ch f => exact h.calmFrame (hc.postMail ch f)
  case setDrive ch f => exact h.calmFrame (hc.setDrive ch f)
  case pullReport ch f => exact h.calmFrame (hc.pullReport ch f.tag)
  case pullData ch f => exact h.calmFrame (hc.pullData ch f.tag)
  case pullStream ch f => exact h.calmFrame (hc.pullStream ch f.tag)
  case pullMail ch f => exact h.calmFrame (hc.pullMail ch f.tag)
  case pullEvents ch f => exact h.calmFrame (hc.pullEvents ch f.tag)
  case pullFaults ch f => exact h.calmFrame (hc.pullFaults ch f.tag)
  case malformedFrame ch m => exact h.answerMalformed ch m
  case linkReset ch => exact (h.linkResetAsserted ch).calm (Calm.refl _).workArrival
  case linkResetRelease ch midFrame => exact h.calm (hc.linkResetReleased ch midFrame)
  case powerUpReset found strapHigh => exact CartSound.resetPart found strapHigh s
  case masterClear found => exact CartSound.resetPart found _ s
  case cartridgeSwitchCloses hubClamped tabSet => exact h.switchCloses hubClamped tabSet
  case cartridgeSwitchOpens => exact h.switchOpens
  case clampComplete tabSet => exact h.clampReported tabSet
  case spindleStopped => exact h.spindleStops
  case ejectButton => exact h.buttonPressed.calm (Calm.refl _).workArrival
  case indexEvent elapsed found => exact (h.indexArrives elapsed found).calm (Calm.refl _).workArrival
  case indexLoss => exact h.indexLost
  case sectorEnd found => exact (h.sectorPasses found).calm (Calm.refl _).workArrival
  case seekComplete elapsed cancelled =>
    exact h.moveReport elapsed cancelled fun _ _ hr hmoving => hr.partDone hmoving _
  case polaritySettled elapsed cancelled =>
    exact h.moveReport elapsed cancelled fun _ _ hr hmoving => hr.partDone hmoving _
  case seekFault elapsed cancelled => exact h.moveReport elapsed cancelled fun m _ hr hmoving => hr.seekFaulted m hmoving
  case moveLimitExpiry => exact h.moveLimitExpires
  case clampLimitExpiry => exact h.limitExpires .clamp
  case lockLimitExpiry => exact h.limitExpires .lock
  case stopLimitExpiry => exact h.limitExpires .stop
  case switchLimitExpiry => exact h.limitExpires .switch
  case consoleCharacter c => exact h.calm (hc.characterReceived c).workArrival
  case selectDisplay fields => exact h.consoleLine .s (lineS_keeps fields)
  case nextDisplay fields => exact h.consoleLine .n (lineN_keeps fields)
  case display fields => exact h.consoleLine .d (lineD_keeps fields)
  case hold fields => exact h.consoleLine .h (lineH_keeps fields)
  case go fields => exact h.consoleLine .g (lineG_keeps fields)
  case step fields => exact h.consoleLine .t (lineT_keeps fields)
  case watch fields => exact h.consoleLine .w (lineW_keeps fields)
  case clearWatch fields => exact h.consoleLine .c (lineC_keeps fields)
  case settingEntry fields => exact (h.consoleLine .e (lineE_keeps fields)).calm (Calm.refl _).workArrival
  case consoleClear fields => exact h.consoleLine .question (lineQuestion_keeps fields)
  case consoleLineSent => exact h.calm (hc.updConsole _)
  case consoleMasterClear found =>
    split
    · exact CartSound.resetPart found _ s
    · exact h

end

/-- Settles O7: every command, and the microsecond that passes with none, keeps the agreement. -/
theorem everyStepKeepsTheControllerSound : Obligations.EveryStepKeepsTheControllerSound := by
  intro s t h hstep
  unfold step at hstep
  split at hstep
  · cases hstep
    exact h.idleTick
  · next c rest _ => exact exec_cartSound (s := { s with pending := rest }) h.same c hstep

end Sys2Proof.Machine
end

section
/-! SUPPORT and PROOFS. An engine in IDLE has nothing due after any step: settles O3. Offers are taken up at the
end of the commands that can bring one to an idle engine (R116); the others stop the engine, set it moving, or leave
it alone. -/

namespace Sys2Proof.Machine

/-! ## Choices -/

theorem startTarget_not_idle (t : Target) (s : State) : (startTarget t s).pe.state ≠ .idle := by
  unfold startTarget
  split <;> simp [finishTarget]

/-- Acting on a choice leaves the engine idle only where there is none. -/
theorem actOnChoice_idle {t : Option Target} {s : State} (h : (actOnChoice t s).pe.state = .idle) : t = none := by
  cases t with
  | none => rfl
  | some t =>
    exfalso
    revert h
    simp only [actOnChoice]
    split
    · simp
    · exact startTarget_not_idle t s

theorem actOnChoice_due (t : Option Target) (s : State) : (actOnChoice t s).pe.due = s.pe.due := by
  unfold actOnChoice startTarget
  split
  · rfl
  · dsimp only
    split
    · rfl
    · rfl

/-- There is no choice only where nothing is due (R116, R119). -/
theorem choose_none {due : List DueOp} {s : State} (h : choose due s = none) : due = [] := by
  cases due with
  | nil => rfl
  | cons op rest =>
    exfalso
    unfold choose at h
    split at h
    · cases h
    · split at h
      · cases h
      · simp [chooseBest] at h

theorem idle_of_actOnChoice {t : Option Target} {s : State} (h : t = none → s.pe.due = []) :
    IdleHasNothingDue (actOnChoice t s) := fun hidle => by
  rw [actOnChoice_due]
  exact h (actOnChoice_idle hidle)

theorem makeChoice_idle (s : State) : IdleHasNothingDue (makeChoice s) := idle_of_actOnChoice choose_none

/-- An idle engine takes up what is offered (R116). -/
theorem workArrival_idle (s : State) : IdleHasNothingDue (workArrival s) := by
  unfold workArrival
  split
  · split
    · next hdue => exact fun _ => hdue
    · have hsome (op : DueOp) (r : State) : choose [op] r = none → s.pe.due = [] := fun h => by simpa using choose_none h
      dsimp only
      split
      · exact idle_of_actOnChoice (hsome _ s)
      · exact idle_of_actOnChoice (hsome _ s)
  · next hbusy => exact fun hidle => absurd hidle hbusy

/-! ## Commands that do not take up offers -/

theorem IdleHasNothingDue.of_state {s : State} (h : s.pe.state ≠ .idle) : IdleHasNothingDue s :=
  fun hidle => absurd hidle h

theorem IdleHasNothingDue.of_stopped {s : State} (h : s.pe.state = .stopped) : IdleHasNothingDue s :=
  .of_state (by rw [h]; decide)

theorem IdleHasNothingDue.of_pe {r s : State} (h : IdleHasNothingDue r) (hpe : s.pe = r.pe) : IdleHasNothingDue s := by
  unfold IdleHasNothingDue
  rw [hpe]
  exact h

theorem stopped_of_calm {r s : State} (hr : r.pe.state = .stopped) (h : Calm r s) : s.pe.state = .stopped :=
  h.engine.mpr hr

theorem enterFailed_stopped (s : State) : (enterFailed s).pe.state = .stopped := by
  refine stopped_of_calm ?_ (Calm.refl _).failWork
  exact stopEngine_state (stopMotor (cancelLimit s))

theorem endEject_pe (st : ReportStatus) (s : State) : (endEject st s).pe = s.pe := by
  unfold endEject
  dsimp only
  split <;> rfl

theorem enterEmpty_pe (s : State) : (enterEmpty s).pe = s.pe := endEject_pe _ _

theorem enterEjecting_pe (s : State) : (enterEjecting s).pe = s.pe := by
  unfold enterEjecting
  dsimp only
  split
  · rfl
  · exact enterEmpty_pe _

theorem enterLoading_pe (s : State) : (enterLoading s).pe = s.pe := by
  unfold enterLoading
  dsimp only
  split <;> rfl

theorem switchCloses_pe (hub tab : Bool) (s : State) : (switchCloses hub tab s).pe = s.pe := by
  unfold switchCloses
  dsimp only
  split
  · exact enterLoading_pe _
  · rfl

theorem clampReported_pe (tab : Bool) (s : State) : (clampReported tab s).pe = s.pe := by
  unfold clampReported
  dsimp only
  split <;> rfl

theorem spindleStops_pe (s : State) : (spindleStops s).pe = s.pe := by
  unfold spindleStops
  dsimp only
  split
  · exact enterEjecting_pe _
  · split <;> rfl

theorem resetPart_stopped (found : MechanismFound) (strap : Bool) (s : State) :
    (resetPart found strap s).pe.state = .stopped := by
  unfold resetPart
  dsimp only
  split
  · rw [enterLoading_pe]
    rfl
  · rfl

/-- A mechanism fault stops the engine, or, outside the locked states, leaves the part alone (R24). -/
theorem mechanismFault_stopped (s : State) : (mechanismFault s).pe.state = .stopped ∨ mechanismFault s = s := by
  unfold mechanismFault
  split
  · left
    dsimp only
    split
    · exact stopEngine_state s
    · exact enterFailed_stopped _
  · exact .inr rfl

theorem switchOpens_idle {s : State} (h : IdleHasNothingDue s) : IdleHasNothingDue (switchOpens s) := by
  unfold switchOpens
  dsimp only
  split
  · exact h
  · exact h
  · exact h
  · exact h.of_pe (enterEmpty_pe _)
  · exact .of_stopped (enterFailed_stopped _)

theorem indexLost_idle {s : State} (h : IdleHasNothingDue s) : IdleHasNothingDue (indexLost s) := by
  unfold indexLost
  split
  · rcases mechanismFault_stopped (passUntil 60000 s) with hstopped | hsame
    · exact .of_stopped hstopped
    · rw [hsame]
      exact h
  · exact h

theorem finishRecalibrate_not_idle (p : Polarity) (s : State) : (finishRecalibrate p s).pe.state ≠ .idle := by
  unfold finishRecalibrate
  dsimp only
  split
  · exact startTarget_not_idle _ _
  · simp

/-- A move ends in DWELLING or in another move. -/
theorem endMoveIfDone_not_idle {s : State} (h : s.pe.state ≠ .idle) : (endMoveIfDone s).pe.state ≠ .idle := by
  unfold endMoveIfDone
  split
  · split
    · split
      · simp [finishTarget]
      · exact finishRecalibrate_not_idle _ _
    · exact h
  · exact h

theorem seekFaulted_not_idle (m : Move) {s : State} (h : s.pe.state = .moving) : (seekFaulted m s).pe.state ≠ .idle := by
  unfold seekFaulted
  split
  · simp [startRecalibrate]
  · rcases mechanismFault_stopped s with hstopped | hsame
    · simp [hstopped]
    · simp [hsame, h]

theorem moveReport_idle {s : State} (h : IdleHasNothingDue s) (elapsed : Nat) (cancelled : Bool)
    {act : Move → State → State} (ha : ∀ m r, r.pe.state = .moving → (act m r).pe.state ≠ .idle) :
    IdleHasNothingDue (moveReport elapsed cancelled act s) := by
  unfold moveReport
  split
  · next m hmoving _ =>
    split
    · exact h
    · exact .of_state (ha m _ hmoving)
  · exact h

theorem moveLimitExpires_idle {s : State} (h : IdleHasNothingDue s) : IdleHasNothingDue (moveLimitExpires s) := by
  unfold moveLimitExpires
  split
  · next m hmoving _ => exact .of_state (seekFaulted_not_idle m hmoving)
  · exact h

theorem limitExpires_idle {s : State} (h : IdleHasNothingDue s) (k : LimitKind) :
    IdleHasNothingDue (limitExpires k s) := by
  unfold limitExpires
  split
  · split
    · exact .of_stopped (enterFailed_stopped _)
    · exact h
  · exact h

theorem idleTick_pe (s : State) : (idleTick s).pe = s.pe := by
  unfold idleTick
  split <;> rfl

/-! ## Console lines -/

/-- What the rule of a letter makes of a line leaves no idle engine with something due. -/
def LineKeepsIdle (act : State → LineAnswer) : Prop :=
  ∀ s x, act s = some x → IdleHasNothingDue s → IdleHasNothingDue x.1

theorem LineKeepsIdle.answered {act : State → LineAnswer} (hact : LineKeepsIdle act) (letter : ConsoleLetter) {s : State}
    (h : IdleHasNothingDue s) : IdleHasNothingDue (answerEnded (answerCommand letter act) s) := by
  unfold answerEnded
  split
  · exact h
  · dsimp only
    split
    · split
      · exact h
      · unfold answerCommand
        split
        · next x hx => exact hact _ x hx h
        · exact h
    · exact h

/-- Most rules of a letter change the console alone. -/
theorem lineKeepsIdle_of_pe {act : State → LineAnswer} (h : ∀ s x, act s = some x → x.1.pe = s.pe) :
    LineKeepsIdle act := fun s x hx hs => hs.of_pe (h s x hx)

theorem displayItem_pe (s : State) : (displayItem s).1.pe = s.pe := by
  unfold displayItem
  dsimp only
  split <;> rfl

theorem selectItem_pe {item index : Nat} {s : State} {x : State × Reply} (h : selectItem item index s = some x) :
    x.1.pe = s.pe := by
  unfold selectItem at h
  split at h
  · cases h
    exact displayItem_pe _
  · cases h

theorem lineS_idle (fields : Fields) : LineKeepsIdle (lineS fields) :=
  lineKeepsIdle_of_pe fun s x hx => by
    unfold lineS at hx
    split at hx
    · obtain ⟨_, _, hx⟩ := Option.bind_eq_some_iff.mp hx
      exact selectItem_pe hx
    · obtain ⟨_, _, hx⟩ := Option.bind_eq_some_iff.mp hx
      obtain ⟨_, _, hx⟩ := Option.bind_eq_some_iff.mp hx
      exact selectItem_pe hx
    · cases hx

theorem lineN_idle (fields : Fields) : LineKeepsIdle (lineN fields) :=
  lineKeepsIdle_of_pe fun s x hx => by
    unfold lineN at hx
    split at hx
    · cases hx
      exact displayItem_pe _
    · cases hx

theorem lineD_idle (fields : Fields) : LineKeepsIdle (lineD fields) :=
  lineKeepsIdle_of_pe fun s x hx => by
    unfold lineD at hx
    split at hx
    · cases hx
      exact displayItem_pe _
    · cases hx

theorem lineH_idle (fields : Fields) : LineKeepsIdle (lineH fields) :=
  lineKeepsIdle_of_pe fun s x hx => by
    unfold lineH at hx
    split at hx <;> cases hx
    rfl

/-- GO waits for the step under way, or leaves HELD by the choice (R126). -/
theorem goHeld_idle {s : State} (h : s.pe.state = .held) : IdleHasNothingDue (goHeld s) := by
  unfold goHeld
  split
  · exact .of_state (by simp [h])
  · exact makeChoice_idle _

theorem lineG_idle (fields : Fields) : LineKeepsIdle (lineG fields) := fun s x hx hs => by
  unfold lineG at hx
  split at hx
  · split at hx
    · next hheld =>
      cases hx
      exact goHeld_idle hheld
    · split at hx <;> cases hx <;> exact hs
  · cases hx

theorem lineT_idle (fields : Fields) : LineKeepsIdle (lineT fields) :=
  lineKeepsIdle_of_pe fun s x hx => by
    unfold lineT at hx
    split at hx
    · split at hx <;> cases hx
      rfl
    · cases hx

theorem lineW_idle (fields : Fields) : LineKeepsIdle (lineW fields) :=
  lineKeepsIdle_of_pe fun s x hx => by
    unfold lineW at hx
    split at hx
    · obtain ⟨_, _, hx⟩ := Option.bind_eq_some_iff.mp hx
      obtain ⟨_, _, hx⟩ := Option.map_eq_some_iff.mp hx
      cases hx
      rfl
    · cases hx

theorem lineC_idle (fields : Fields) : LineKeepsIdle (lineC fields) :=
  lineKeepsIdle_of_pe fun s x hx => by
    unfold lineC at hx
    split at hx
    · obtain ⟨_, _, hx⟩ := Option.map_eq_some_iff.mp hx
      cases hx
      rfl
    · cases hx

theorem lineQuestion_idle (fields : Fields) : LineKeepsIdle (lineQuestion fields) :=
  lineKeepsIdle_of_pe fun s x hx => by
    unfold lineQuestion at hx
    split at hx
    · split at hx <;> cases hx
      rfl
    · cases hx

/-! ## Every command -/

theorem exec_idle {s t : State} (h : IdleHasNothingDue s) (c : Instr) (hexec : exec c s = .next t) :
    IdleHasNothingDue t := by
  cases c <;> cases hexec
  case linkResetRelease => exact h
  case powerUpReset => exact .of_stopped (resetPart_stopped _ _ s)
  case masterClear => exact .of_stopped (resetPart_stopped _ _ s)
  case cartridgeSwitchCloses => exact h.of_pe (switchCloses_pe _ _ s)
  case cartridgeSwitchOpens => exact switchOpens_idle h
  case clampComplete => exact h.of_pe (clampReported_pe _ s)
  case spindleStopped => exact h.of_pe (spindleStops_pe s)
  case indexLoss => exact indexLost_idle h
  case seekComplete => exact moveReport_idle h _ _ fun _ r hr => endMoveIfDone_not_idle (by simp [hr])
  case polaritySettled => exact moveReport_idle h _ _ fun _ r hr => endMoveIfDone_not_idle (by simp [hr])
  case seekFault => exact moveReport_idle h _ _ fun m _ hr => seekFaulted_not_idle m hr
  case moveLimitExpiry => exact moveLimitExpires_idle h
  case clampLimitExpiry => exact limitExpires_idle h .clamp
  case lockLimitExpiry => exact limitExpires_idle h .lock
  case stopLimitExpiry => exact limitExpires_idle h .stop
  case switchLimitExpiry => exact limitExpires_idle h .switch
  case selectDisplay fields => exact (lineS_idle fields).answered .s h
  case nextDisplay fields => exact (lineN_idle fields).answered .n h
  case display fields => exact (lineD_idle fields).answered .d h
  case hold fields => exact (lineH_idle fields).answered .h h
  case go fields => exact (lineG_idle fields).answered .g h
  case step fields => exact (lineT_idle fields).answered .t h
  case watch fields => exact (lineW_idle fields).answered .w h
  case clearWatch fields => exact (lineC_idle fields).answered .c h
  case consoleClear fields => exact (lineQuestion_idle fields).answered .question h
  case consoleLineSent => exact h
  case consoleMasterClear =>
    split
    · exact .of_stopped (resetPart_stopped _ _ s)
    · exact h
  all_goals exact workArrival_idle _

/-- Settles O3: ATTN is among the laws that every command keeps, and an idle engine either was one with nothing due
or took up what was offered. -/
theorem everyStepKeepsAttnJudgedAndIdleEmpty : Obligations.EveryStepKeepsAttnJudgedAndIdleEmpty := by
  intro s t hsteady hstep
  refine ⟨(step_carries hstep).attn hsteady.attn, ?_⟩
  unfold step at hstep
  split at hstep
  · cases hstep
    exact hsteady.idle.of_pe (idleTick_pe s)
  · next c rest _ => exact exec_idle (s := { s with pending := rest }) hsteady.idle c hstep

end Sys2Proof.Machine
end

section
/-! SUPPORT and PROOFS. The judgement of frames and the gate (Sections 2.6 and 9): settles O14, O15, O16 and O17. -/

namespace Sys2Proof.Machine

/-! ## What a judged frame becomes (R164) -/

section
variable {s : State} {ch : Channel} {k : FrameKind} {f : Frame} {owner : State → State}

theorem answerFrame_of_toOwner (h : judgeFrame ch k f s = .toOwner) :
    answerFrame ch k f owner s = workArrival (owner s) := by
  simp only [answerFrame, h]

/-- A refusal offers nothing to an idle engine, and changes nothing but the response. -/
theorem answerFrame_of_refused (hsteady : Steady s) {r : RefusalReason} (h : judgeFrame ch k f s = .refused r) :
    answerFrame ch k f owner s = s.answered ch f.tag (.refused r) := by
  simp only [answerFrame, h, refuse, respond_eq_answered hsteady.attn]
  exact workArrival_eq_self hsteady.idle

theorem answerFrame_of_abandons {r : RefusalReason} (h : judgeFrame ch k f s = .abandons r) :
    answerFrame ch k f owner s = workArrival (refuse ch f.tag r (abandonWrite ch s)) := by
  simp only [answerFrame, h]

/-- Every frame of a known kind is judged, and handed to an owner where it passes. -/
theorem exec_frameCommand (k : FrameKind) (ch : Channel) (f : Frame) :
    ∃ owner, ∀ s, exec (frameCommand k ch f) s = .next (answerFrame ch k f owner s) := by
  cases k <;> exact ⟨_, fun _ => rfl⟩

theorem Listens.judgeFrame_eq (h : Listens s ch) : judgeFrame ch k f s = judgeIdle ch k f s := by
  simp [judgeFrame, h.released, h.noTail, h.noPhase]

/-! ## The steps of the link's table (R164 to R166) -/

theorem judgeIdle_frameError (h : frameWellFormed k f = false) : judgeIdle ch k f s = .refused .frameError := by
  simp [judgeIdle, h]

theorem judgeIdle_notAttached (h : frameWellFormed k f = true) (hdetached : (s.links.get ch).attached = false)
    (hk : k.whileDetached = false) : judgeIdle ch k f s = .refused .notAttached := by
  simp [judgeIdle, h, hdetached, hk]

theorem judgeIdle_sequence (h : frameWellFormed .data f = true) (hattached : (s.links.get ch).attached = true) :
    judgeIdle ch .data f s = .refused .sequence := by
  simp [judgeIdle, h, hattached]

theorem FrameKind.ne_data_of_isQueued (h : k.isQueued = true) : k ≠ .data := by
  rintro rfl
  cases h

theorem judgeIdle_tagInUse (h : frameWellFormed k f = true) (hattached : (s.links.get ch).attached = true)
    (hqueued : k.isQueued = true) (htag : tagInUse s ch f.tag = true) : judgeIdle ch k f s = .refused .tagInUse := by
  simp [judgeIdle, h, hattached, hqueued, htag, FrameKind.ne_data_of_isQueued hqueued]

theorem judgeIdle_queueFull (h : frameWellFormed k f = true) (hattached : (s.links.get ch).attached = true)
    (hqueued : k.isQueued = true) (htag : tagInUse s ch f.tag = false) (hfull : 32 ≤ (s.links.get ch).load) :
    judgeIdle ch k f s = .refused .queueFull := by
  simp [judgeIdle, h, hattached, hqueued, htag, hfull, FrameKind.ne_data_of_isQueued hqueued]

/-- The gate decides what the checks of tag and room have let through. -/
theorem judgeIdle_gate (h : frameWellFormed k f = true) (hattached : (s.links.get ch).attached = true)
    (hroom : k.isQueued = true → tagInUse s ch f.tag = false ∧ (s.links.get ch).load < 32) {r : RefusalReason}
    (hgate : gate k s = some r) : judgeIdle ch k f s = .refused r := by
  have hdata : k ≠ .data := by
    rintro rfl
    cases hgate
  by_cases hqueued : k.isQueued = true
  · obtain ⟨htag, hload⟩ := hroom hqueued
    simp [judgeIdle, h, hattached, hdata, htag, hload, hgate]
  · simp [judgeIdle, h, hattached, hdata, hqueued, hgate]

theorem FrameKind.isQueued_iff (k : FrameKind) :
    k.isQueued = true ↔ k ∈ [FrameKind.read, .write, .flush, .eject, .initialise] := by
  cases k <;> decide

theorem FrameKind.whileDetached_iff (k : FrameKind) :
    k.whileDetached = true ↔ k ∈ [FrameKind.attach, .inquire, .pullReport, .pullEvents] := by
  cases k <;> decide

theorem tagInUse_iff (s : State) (ch : Channel) (tag : Byte) :
    tagInUse s ch tag = true ↔
      (∃ o ∈ (s.links.get ch).outstanding, o.tag = tag) ∨ ∃ r ∈ s.sc.reads, r.channel = ch ∧ r.tag = tag := by
  simp [tagInUse, readRecord]

end

/-- Settles O14: a listening link judges by its table, whose steps are taken one by one. -/
theorem theLinkRefusesFramesInTheOrderOfItsTable : Obligations.TheLinkRefusesFramesInTheOrderOfItsTable := by
  intro k ch f s hlistens hsteady l queued tagTaken refusedFor
  have hrefused {r : RefusalReason} (h : judgeIdle ch k f s = .refused r) : refusedFor r := by
    obtain ⟨owner, hexec⟩ := exec_frameCommand k ch f
    exact (hexec s).trans (congrArg _ (answerFrame_of_refused hsteady (hlistens.judgeFrame_eq.trans h)))
  have htag : tagInUse s ch f.tag = true ↔ tagTaken := tagInUse_iff s ch f.tag
  have htag' : tagInUse s ch f.tag = false ↔ ¬ tagTaken := by rw [← htag, Bool.not_eq_true]
  refine ⟨fun h => hrefused (judgeIdle_frameError h), fun h => ⟨fun hdetached hk => ?_, fun hattached => ?_⟩⟩
  · have hk' : k.whileDetached = false := by
      rw [← Bool.not_eq_true, FrameKind.whileDetached_iff]
      exact hk
    exact hrefused (judgeIdle_notAttached h hdetached hk')
  · refine ⟨?_, fun hq ht => ?_, fun hq ht hfull => ?_, fun hroom r hgate => ?_⟩
    · rintro rfl
      exact hrefused (judgeIdle_sequence h hattached)
    · exact hrefused (judgeIdle_tagInUse h hattached (k.isQueued_iff.mpr hq) (htag.mpr ht))
    · exact hrefused (judgeIdle_queueFull h hattached (k.isQueued_iff.mpr hq) (htag'.mpr ht) hfull)
    · refine hrefused (judgeIdle_gate h hattached (fun hq => ?_) hgate)
      obtain ⟨ht, hload⟩ := hroom (k.isQueued_iff.mp hq)
      exact ⟨htag'.mpr ht, hload⟩

/-! ## An abandoned write (R74) -/

section
variable {s : State} {ch : Channel}

/-- Two changes of one link that leave what R173 judges are one change. -/
theorem updLink_updLink (ch : Channel) (g k : Link → Link) (s : State) :
    updLink ch k (updLink ch g s) = s.withLink ch (k (g (s.links.get ch)).judged).judged := by
  simp [updLink, State.withLink]

theorem abandonWrite_of_phase (hattn : AttnJudged s) {d : DataPhase} (h : (s.links.get ch).dataPhase = some d) :
    abandonWrite ch s =
      let l := s.links.get ch
      drainCheck (freeingEvent
        { s with
          links := s.links.set ch { l with dataPhase := none, outstanding := l.outstanding.erase ⟨d.tag, .write⟩ }
          sc := { s.sc with freeList := s.sc.freeList ++ d.buffers } }) := by
  simp only [abandonWrite, h, dropOutstanding, endDataPhase, updLink_updLink]
  have hjudged : ∀ l : Link, l.attn = l.attnDue →
      Link.judged { Link.judged { l with dataPhase := none } with outstanding := l.outstanding.erase ⟨d.tag, .write⟩ } =
        { l with dataPhase := none, outstanding := l.outstanding.erase ⟨d.tag, .write⟩ } := fun l hl => by
    rw [Link.judged_eq { l with dataPhase := none } hl]
    exact Link.judged_eq _ hl
  exact congrArg (fun l => drainCheck (freeingEvent (State.withLink (freeBuffers d.buffers s) ch l)))
    (hjudged _ (hattn ch))

end

/-- Settles O15: in a data phase the link answers every frame that is no full DATA frame by abandoning the write. -/
theorem aFrameInADataPhaseAbandonsTheWrite : Obligations.AFrameInADataPhaseAbandonsTheWrite := by
  intro ch s d hattn hreleased hnoTail hphase l dropped refusedWith
  have habandoned : abandonWrite ch s = drainCheck (freeingEvent dropped) := abandonWrite_of_phase hattn hphase
  refine ⟨fun k f hk => ?_, fun f hshort => ?_, fun code f => ?_, ?_⟩
  · obtain ⟨owner, hexec⟩ := exec_frameCommand k ch f
    have hjudge : judgeFrame ch k f s = .abandons .sequence := by
      simp [judgeFrame, hreleased, hnoTail, hphase, hk]
    show exec _ _ = _
    rw [hexec, answerFrame_of_abandons hjudge, habandoned]
  · have hjudge : judgeFrame ch .data f s = .toOwner := by simp [judgeFrame, hreleased, hnoTail, hphase]
    show Host.Outcome.next (answerFrame ch .data f (dataFrameReceived ch f) s) = _
    rw [answerFrame_of_toOwner hjudge]
    simp [dataFrameReceived, hphase, hshort, habandoned]
  · show Host.Outcome.next (answerMalformed ch (.unknownKind code f) s) = _
    simp [answerMalformed, malformedTag, malformedReason, hreleased, hnoTail, hphase, habandoned]
  · show Host.Outcome.next (answerMalformed ch .shortHeader s) = _
    simp [answerMalformed, malformedTag, malformedReason, hreleased, hnoTail, hphase, habandoned]

/-! ## Received words (R160, R189) -/

theorem FrameKind.ofCode_code (k : FrameKind) : FrameKind.ofCode k.code = some k := by cases k <;> rfl

theorem FrameKind.ofCode_eq_none {code : Byte} (h : ∀ k : FrameKind, k.code ≠ code) : FrameKind.ofCode code = none :=
  List.find?_eq_none.mpr fun k _ hk => h k (by simpa using hk)

/-- The first word's bytes are the kind code and the tag. -/
theorem commandOfWords_append (ch : Channel) (code tag : Byte) (length : Word16) (words : List Word16) :
    commandOfWords ch ((code ++ tag) :: length :: words) =
      match FrameKind.ofCode code with
      | some k => frameCommand k ch ⟨tag, length, words⟩
      | none => .malformedFrame ch (.unknownKind code ⟨tag, length, words⟩) := by
  have hcode : (code ++ tag).extractLsb' 8 8 = code := BitVec.extractLsb'_append_eq_left
  have htag : (code ++ tag).extractLsb' 0 8 = tag := BitVec.extractLsb'_append_eq_right
  simp only [commandOfWords, hcode, htag] <;> rfl

theorem commandOfWords_short {ch : Channel} {words : List Word16} (h : words.length < 2) :
    commandOfWords ch words = .malformedFrame ch .shortHeader := by
  match words, h with
  | [], _ | [_], _ => rfl

/-- A discarded frame leaves only the absent response and the mark of R175. -/
theorem discardFrame_eq {s : State} (hattn : AttnJudged s) (ch : Channel) :
    discardFrame ch s = s.withLink ch
      { s.links.get ch with
        response := none
        discardTail := (s.links.get ch).resetAsserted && (s.links.get ch).discardTail } := by
  rw [discardFrame, updLink, Link.judged_eq _ (by exact hattn ch), State.withLink]

/-- Settles O16: the code of each row is its kind's, and no kind has any other. -/
theorem receivedWordsNameTheirFrameAndUnknownKindsAreRefused :
    Obligations.ReceivedWordsNameTheirFrameAndUnknownKindsAreRefused := by
  refine ⟨?_, ?_, ?_⟩
  · intro ch f table
    refine ⟨?_, ?_, fun words => commandOfWords_short⟩
    · have hrow : ∀ row ∈ table, row.2 = row.1.code := by decide
      intro row hmem
      rw [hrow row hmem, commandOfWords_append, FrameKind.ofCode_code]
    · have hkind (k : FrameKind) : (k, k.code) ∈ table := by cases k <;> decide
      intro code hother
      rw [commandOfWords_append, FrameKind.ofCode_eq_none fun k => hother _ (hkind k)]
  · intro ch s hlistens hsteady
    have hrefused (m : Malformed) : exec (.malformedFrame ch m) s =
        .next (s.answered ch (malformedTag m) (.refused .frameError)) := by
      have hidle : IdleHasNothingDue (s.answered ch (malformedTag m) (.refused .frameError)) := hsteady.idle
      show Host.Outcome.next (answerMalformed ch m s) = _
      simp [answerMalformed, hlistens.released, hlistens.noTail, hlistens.noPhase, refuse,
        respond_eq_answered hsteady.attn, workArrival_eq_self hidle]
    exact ⟨fun code f => hrefused (.unknownKind code f), hrefused .shortHeader⟩
  · intro ch s hsteady hheld discarded
    have hidle : IdleHasNothingDue discarded := hsteady.idle
    have hend : workArrival (discardFrame ch s) = discarded := by
      rw [discardFrame_eq hsteady.attn]
      exact workArrival_eq_self hidle
    have hdiscards : ((s.links.get ch).resetAsserted || (s.links.get ch).discardTail) = true := by simpa using hheld
    constructor
    · intro k f
      obtain ⟨owner, hexec⟩ := exec_frameCommand k ch f
      have hjudge : judgeFrame ch k f s = .discarded := by simp only [judgeFrame, hdiscards, if_true]
      rw [hexec, answerFrame, hjudge]
      exact congrArg _ hend
    · intro m
      show Host.Outcome.next (answerMalformed ch m s) = _
      simp only [answerMalformed, hdiscards, if_true, hend]

/-! ## The gate (R27, R28, R34) -/

theorem someStreamOpen_eq_false (s : State) :
    someStreamOpen s = false ↔ s.su.a.state = .closed ∧ s.su.b.state = .closed := by
  simp [someStreamOpen]

theorem readyForInitialise_iff (s : State) :
    readyForInitialise s = true ↔
      s.cmu.tasks = [] ∧ s.cmu.tableTasks = [] ∧
        (∀ e ∈ s.sc.entries, e.state ≠ .committing ∧ e.state ≠ .committingNewer) ∧ s.cu.locks = [] ∧
        (s.su.a.state = .closed ∧ s.su.b.state = .closed) ∧ s.links.a.dataPhase = none ∧
        s.links.b.dataPhase = none := by
  have hcommitting (x : EntryState) : x.isCommitting = false ↔ x ≠ .committing ∧ x ≠ .committingNewer := by
    cases x <;> decide
  simp [readyForInitialise, someStreamOpen, hcommitting, and_assoc]

/-- What decides an EJECT where the cartridge is loaded and no drain is under way (R28). -/
theorem ejectObjection_of_mem {s : State} (h : s.cc.state ∈ [CartState.ready, .readOnly, .unformatted]) :
    ejectObjection s =
      if s.cu.locks ≠ [] ∨ ¬ (s.su.a.state = .closed ∧ s.su.b.state = .closed) then some .inUse
      else if s.cc.initialise ≠ none then some .busy else none := by
  simp only [← someStreamOpen_eq_false, Bool.not_eq_false]
  simp only [List.mem_cons, List.not_mem_nil, or_false] at h
  rcases h with h | h | h <;> simp [ejectObjection, h, Option.isSome_iff_ne_none]

/-- Elsewhere the state alone decides an EJECT (R27, R32). -/
theorem ejectObjection_of_notMem {s : State} (h : s.cc.state ∉ [CartState.ready, .readOnly, .unformatted]) :
    ejectObjection s =
      if s.cc.state = .unusable ∨ s.cc.state = .failed then none
      else if s.cc.state = .empty then some .notReady else some .busy := by
  cases hstate : s.cc.state <;> simp_all [ejectObjection]

/-- What decides an INITIALISE (R34). -/
theorem initialiseObjection_eq (s : State) :
    initialiseObjection s =
      if s.cc.state = .unformatted then
        if s.cc.tab = true then some .writeProtected else if s.cc.initialise ≠ none then some .busy else none
      else if s.cc.state = .ready then if readyForInitialise s = true then none else some .inUse
      else if s.cc.state = .failed then some .mediumFault else some .notReady := by
  cases hstate : s.cc.state <;> simp [initialiseObjection, hstate, Option.isSome_iff_ne_none]

/-- Settles O17: the columns are read off the state, and the two conditions of EJECT and INITIALISE are the ones that
R28 and R34 name. -/
theorem theGateFollowsTheCartridgeState : Obligations.TheGateFollowsTheCartridgeState := by
  intro s
  refine ⟨?_, fun k hk => ?_, ?_⟩
  · intro row hmem hstate
    simp only [gate, hstate]
    clear hstate
    revert row
    decide
  · cases k <;> simp [gate] at hk ⊢
  · intro closed
    refine ⟨?_, fun hin => ?_, fun hempty => ?_, fun hbusy => ?_, ?_⟩
    · by_cases hin : s.cc.state ∈ [CartState.ready, .readOnly, .unformatted]
      · have hother : s.cc.state ≠ .unusable ∧ s.cc.state ≠ .failed := by
          constructor <;> intro h <;> simp [h] at hin
        rw [gate, ejectObjection_of_mem hin]
        grind
      · rw [gate, ejectObjection_of_notMem hin]
        grind
    · rw [gate, ejectObjection_of_mem hin]
      grind
    · simp [gate, ejectObjection, hempty]
    · have hin : s.cc.state ∉ [CartState.ready, .readOnly, .unformatted] := by
        intro h
        simp at h hbusy
        grind
      rw [gate, ejectObjection_of_notMem hin]
      simp at hbusy
      grind
    · intro unused
      have hready : readyForInitialise s = true ↔ unused := readyForInitialise_iff s
      simp only [gate, initialiseObjection_eq]
      simp
      grind

end Sys2Proof.Machine
end

section
/-! SUPPORT and PROOFS. The step, the reset state, attach and detach, INQUIRE, LOCK and SET_DRIVE: settles O1, O8, O18,
O19, O22 and O25. -/

namespace Sys2Proof.Machine

/-! ## The step (log entry 1) -/

theorem limitDue_iff (s : State) : limitDue s = true ↔ ∃ l, s.cc.limit = some l ∧ l.deadline ≤ s.clock := by
  cases hlimit : s.cc.limit <;> simp [limitDue, hlimit]

theorem moveDue_iff (s : State) :
    moveDue s = true ↔ s.pe.state = .moving ∧ ∃ m, s.pe.move = some m ∧ m.startedAt + moveLimit ≤ s.clock := by
  cases hstate : s.pe.state <;> cases hmove : s.pe.move <;> simp [moveDue, hstate, hmove]

theorem EngineState.onTrack_iff (x : EngineState) : x.onTrack = true ↔ x ∈ [EngineState.idle, .dwelling, .held] := by
  cases x <;> decide

theorem sectorEndDue_iff (s : State) :
    sectorEndDue s = true ↔
      s.pe.state ∈ [EngineState.idle, .dwelling, .held] ∧ inLastSector s = false ∧
        s.timer.reaches (endAngle s) ≤ s.timer.elapsed + 1 := by
  simp only [sectorEndDue, Bool.and_eq_true, Bool.not_eq_true', decide_eq_true_eq, and_assoc, EngineState.onTrack_iff]

/-- Settles O1: the front command runs on the rest of the queue, and each event that stops the idle clock is one of
the five of log entry 1. -/
theorem stepRunsTheFrontCommand : Obligations.StepRunsTheFrontCommand := by
  refine ⟨fun c s => rfl, fun s => ⟨fun hnone => ?_, ?_⟩⟩
  · simp only [step, hnone, idleTick]
  · simp only [eventDue, Bool.or_eq_true, or_assoc, limitDue_iff, moveDue_iff, sectorEndDue_iff]
    simp [clearDue, moveLimit]

/-! ## The reset state -/

theorem reset_cartSound : CartSound State.reset where
  limit := rfl
  engine := ⟨fun _ => rfl, fun _ => rfl⟩
  pass _ := rfl
  prior := by simp [State.reset, Controller.atReset]
  priorLocked _ h := nomatch h
  initialise h := nomatch h
  mount := .inl ⟨fun _ h => (nomatch h), fun _ h => nomatch h⟩

/-- Settles O8: nothing is attached, locked, moved or open at reset. -/
theorem resetMeetsTheLawsThatStepsKeep : Obligations.ResetMeetsTheLawsThatStepsKeep := by
  have hlink (ch : Channel) : State.reset.links.get ch = Link.atReset := by cases ch <;> rfl
  have hstream (ch : Channel) : State.reset.su.get ch = Stream.closed := by cases ch <;> rfl
  refine ⟨⟨fun ch => ?_, fun _ => rfl⟩, fun ch => ?_, fun ch _ => ?_, LocksWellFormed.nil, ?_, EntriesSound.nil,
    fun ch => ?_, reset_cartSound⟩
  · rw [hlink]
    rfl
  · rw [hlink]
    decide
  · rw [hlink]
    exact ⟨rfl, rfl, rfl, rfl, rfl, rfl⟩
  · simp [Settings.InRange, State.reset, Coordination.atReset, Settings.atReset]
  · rw [hstream]
    exact Stream.closed_inStep

/-! ## ATTACH, DETACH and the link-reset input (R174 to R176) -/

section
variable {s : State} {ch : Channel}

/-- A bare link drives no ATTN in either attach state. -/
theorem Link.attach_judged {l : Link} (hattn : l.attn = l.attnDue) (hbare : l.Bare) :
    Link.judged { l with attached := true, restarted := false } = { l with attached := true, restarted := false } := by
  obtain ⟨-, -, hflags, -, -, -⟩ := hbare
  refine Link.judged_eq _ ?_
  simp [hattn, Link.attnDue, hflags]

theorem attachChannel_of_attached (hattn : AttnJudged s) (hattached : (s.links.get ch).attached = true) (tag : Byte) :
    attachChannel ch tag s = s.answered ch tag (.accepted (.attach ch false)) := by
  simp only [attachChannel, hattached, if_true]
  exact respond_eq_answered hattn ..

theorem attachChannel_of_detached (hattn : AttnJudged s) (hbare : DetachedBare s)
    (hdetached : (s.links.get ch).attached = false) (tag : Byte) :
    attachChannel ch tag s =
      let l := s.links.get ch
      s.withLink ch
        { l with
          attached := true, restarted := false, response := some ⟨tag, .accepted (.attach ch l.restarted)⟩ } := by
  simp only [attachChannel, hdetached, Bool.false_eq_true, if_false, accept, respond_updLink]
  rw [Link.attach_judged (hattn ch) (hbare ch hdetached)]

theorem attachChannel_pe (ch : Channel) (tag : Byte) (s : State) : (attachChannel ch tag s).pe = s.pe := by
  unfold attachChannel
  dsimp only
  split <;> rfl

theorem exec_attach (h : Listens s ch) {f : Frame} (hwellFormed : frameWellFormed .attach f = true)
    (hidle : IdleHasNothingDue s) : exec (.attach ch f) s = .next (attachChannel ch f.tag s) :=
  congrArg Host.Outcome.next (h.answerFrame_eq hidle rfl hwellFormed (attachChannel_pe ch f.tag s))

/-- The buffers of a dropped reservation are freed; with none, nothing is. -/
theorem dropReservation_eq (ch : Channel) (s : State) :
    dropReservation ch s = freeBuffers (s.links.get ch).reservedBuffers s := by
  cases h : (s.links.get ch).dataPhase with
  | some d => simp only [dropReservation, Link.reservedBuffers, h]
  | none => simp only [dropReservation, Link.reservedBuffers, h, freeBuffers, List.append_nil]

/-- The rows of the table of R176, then the freeing event, and the drain event where a data phase was dropped. -/
theorem detachChannel_eq (ch : Channel) (s : State) :
    detachChannel ch s =
      if (s.links.get ch).dataPhase.isSome then drainCheck (freeingEvent (s.tornDown ch))
      else freeingEvent (s.tornDown ch) := by
  have htorn : detachCoordination ch (updStream ch (fun _ => Stream.closed)
      (detachCommit ch (detachCache ch (updLink ch Link.detached (dropReservation ch s))))) = s.tornDown ch := by
    rw [dropReservation_eq]
    rfl
  simp only [detachChannel, htorn]

theorem exec_detach {f : Frame} (h : Takes s ch .detach f) :
    exec (.detach ch f) s = .next (workArrival (accept ch f.tag .plain (detachChannel ch s))) :=
  congrArg Host.Outcome.next (answerFrame_of_toOwner (h.judgeFrame_eq_toOwner (by decide) rfl rfl))

theorem linkResetReleased_eq (hattn : AttnJudged s) (ch : Channel) (midFrame : Bool) :
    linkResetReleased ch midFrame s =
      if (s.links.get ch).resetAsserted = true then
        s.withLink ch { s.links.get ch with resetAsserted := false, discardTail := midFrame }
      else s := by
  split
  · next hasserted =>
    rw [linkResetReleased, updLink, if_pos hasserted, Link.judged_eq _ (by exact hattn ch), State.withLink]
  · next hreleased => exact updLink_eq_self hattn (if_neg hreleased)

end

/-- Settles O18: ATTACH branches on the attach state, and DETACH and the link-reset input make one teardown. -/
theorem attachDetachAndLinkResetChangeTheAttachState : Obligations.AttachDetachAndLinkResetChangeTheAttachState := by
  refine ⟨?_, fun ch f s htakes => ?_, ?_⟩
  · intro ch f s hlistens hwellFormed hsteady hbare l
    rw [exec_attach hlistens hwellFormed hsteady.idle]
    constructor
    · intro hattached
      rw [attachChannel_of_attached hsteady.attn hattached]
    · intro hdetached
      rw [attachChannel_of_detached hsteady.attn hbare hdetached]
  · rw [exec_detach htakes, detachChannel_eq, htakes.listens.noPhase]
    rfl
  · intro ch s l held
    have hexec : exec (.linkReset ch) s = .next (workArrival (linkResetAsserted ch s)) := rfl
    let asserted := updLink ch (fun l => { l with resetAsserted := true, response := none, discardTail := false }) s
    have hphase : (asserted.links.get ch).dataPhase = l.dataPhase := by simp [asserted, l]
    have htorn : asserted.tornDown ch = held.tornDown ch := by
      cases ch <;> rfl
    refine ⟨fun hattached hnone => ?_, fun hattached hsome => ?_, fun hdetached hsteady => ?_, fun hattn midFrame => ?_⟩
    · rw [hexec, linkResetAsserted, if_pos hattached, detachChannel_eq, hphase, hnone, htorn]
      rfl
    · rw [hexec, linkResetAsserted, if_pos hattached, detachChannel_eq, hphase, htorn,
        if_pos (Option.isSome_iff_ne_none.mpr hsome)]
    · have hheld : linkResetAsserted ch s = held := by
        rw [linkResetAsserted, if_neg (Bool.eq_false_iff.mp hdetached), updLink, Link.judged_eq _ (by exact hsteady.attn ch)]
        rfl
      have hidle : IdleHasNothingDue held := hsteady.idle
      rw [hexec, hheld, workArrival_eq_self hidle]
    · have hexec : exec (.linkResetRelease ch midFrame) s = .next (linkResetReleased ch midFrame s) := rfl
      rw [hexec, linkResetReleased_eq hattn]
      exact ⟨fun h => by rw [if_pos h], fun h => by rw [if_neg (Bool.eq_false_iff.mp h)]⟩

/-! ## INQUIRE (R177) -/

theorem EntryState.isCommitting_eq (x : EntryState) :
    x.isCommitting = (x == .committing || x == .committingNewer) := by
  cases x <;> rfl

/-- Settles O19: the record carries each item, and the committing count is the one of R79. -/
theorem inquireAnswersWithTheStateAsItStands : Obligations.InquireAnswersWithTheStateAsItStands := by
  intro ch f s hlistens hwellFormed hsteady
  have hexec : exec (.inquire ch f) s = .next (inquire ch f.tag s) :=
    congrArg Host.Outcome.next (hlistens.answerFrame_eq hsteady.idle rfl hwellFormed rfl)
  rw [hexec, inquire, accept, respond_eq_answered hsteady.attn, inquireRecord, committingCount]
  simp only [EntryState.isCommitting_eq]
  rfl

/-! ## LOCK (R149) -/

section
variable {s : State} {ch : Channel} {f : Frame}

theorem isExtent_iff (first count : Nat) :
    isExtent first count = true ↔ 1 ≤ count ∧ count ≤ 65535 ∧ first + count ≤ lbaCount := by
  simp [isExtent, inLbaRange, and_assoc]

theorem field16_le (f : Frame) (i : Nat) : field16 f i ≤ 65535 := Nat.le_of_lt_succ (BitVec.isLt _)

theorem lockMode_eq_none_iff (f : Frame) : lockMode f = none ↔ 1 < field16 f 3 := by
  unfold lockMode
  generalize field16 f 3 = mode
  match mode with
  | 0 | 1 | n + 2 => simp

/-- The first case of R149 that applies. -/
theorem lockObjection_eq (ch : Channel) (f : Frame) (s : State) :
    lockObjection ch f s =
      if ¬ (1 ≤ field16 f 2 ∧ field32 f 0 + field16 f 2 ≤ lbaCount) then some .range
      else if 1 < field16 f 3 then some .range
      else if 8 ≤ s.cu.locks.countP (fun e => e.owner == ch) then some .limit
      else if ∃ e ∈ s.cu.locks, e.first < field32 f 0 + field16 f 2 ∧ field32 f 0 < e.first + e.count then some .conflict
      else none := by
  have hextent : (!isExtent (field32 f 0) (field16 f 2)) = true ↔
      ¬ (1 ≤ field16 f 2 ∧ field32 f 0 + field16 f 2 ≤ lbaCount) := by
    rw [Bool.not_eq_true', ← Bool.not_eq_true, isExtent_iff]
    have := field16_le f 2
    grind
  simp [lockObjection, hextent, lockMode_eq_none_iff, LockEntry.meets, runsMeet]

theorem exec_lock (h : Takes s ch .lock f) (hstate : s.cc.state ∈ [CartState.ready, .readOnly]) :
    exec (.lock ch f) s = .next (lockExtent ch f s) := by
  have hgate : gate .lock s = none := by
    simp only [List.mem_cons, List.not_mem_nil, or_false] at hstate
    rcases hstate with hstate | hstate <;> simp [gate, hstate, workObjection]
  refine congrArg Host.Outcome.next (h.answerFrame_eq (by decide) rfl hgate ?_)
  unfold lockExtent
  split <;> rfl

theorem lockExtent_of_some (hattn : AttnJudged s) {r : RefusalReason} (h : lockObjection ch f s = some r) :
    lockExtent ch f s = s.answered ch f.tag (.refused r) := by
  simp only [lockExtent, h]
  exact respond_eq_answered hattn ..

theorem lockExtent_of_none (hattn : AttnJudged s) (h : lockObjection ch f s = none) :
    lockExtent ch f s =
      State.answered { s with cu := { s.cu with locks := insertLock (newLock ch f s) s.cu.locks } } ch f.tag
        (.accepted (.handle (lowestHandle s.cu.locks))) := by
  simp only [lockExtent, h]
  exact respond_eq_answered (by exact hattn) ..

end

/-- Settles O22: the objections come in the order of R149, and with none the lowest free handle is the new entry's,
whose place is by its first LBA. -/
theorem locksAreGrantedOrRefusedByTheFirstCaseThatApplies :
    Obligations.LocksAreGrantedOrRefusedByTheFirstCaseThatApplies := by
  constructor
  · intro ch f s mode htakes hstate hlocks hmode first count hcount hrange howned hfree
    have hnone : lockObjection ch f s = none := by
      have hfield : ¬ 1 < field16 f 3 := by
        rw [← lockMode_eq_none_iff, hmode]
        simp
      have hfree' : ¬ ∃ e ∈ s.cu.locks, e.first < first + count ∧ first < e.first + e.count := by
        rintro ⟨e, he, hmeets⟩
        have := hfree e he
        omega
      rw [lockObjection_eq, if_neg (not_not.mpr ⟨hcount, hrange⟩), if_neg hfield, if_neg (by omega), if_neg hfree']
    obtain ⟨hlowest, hunused, hbelow⟩ := lowestHandle_spec s.cu.locks (hlocks.length_lt ch howned)
    refine ⟨lowestHandle s.cu.locks, insertLock (newLock ch f s) s.cu.locks, by omega, hunused, hbelow, ?_,
      hlocks.newLock ch f hnone, ?_⟩
    · have hnew : newLock ch f s = ⟨ch, first, count, mode, lowestHandle s.cu.locks⟩ := by
        simp [newLock, hmode, first, count]
      rw [← hnew]
      exact insertLock_perm _ _
    · rw [exec_lock htakes hstate, lockExtent_of_none htakes.steady.attn hnone]
  · intro ch f s htakes hstate first count owned refusedFor
    have hrefused {r : RefusalReason} (h : lockObjection ch f s = some r) : refusedFor r :=
      (exec_lock htakes hstate).trans (congrArg _ (lockExtent_of_some htakes.steady.attn h))
    refine ⟨fun hbad => hrefused ?_, fun hcount hrange => ⟨fun hmode => hrefused ?_, fun hmode =>
      ⟨fun hfull => hrefused ?_, fun hroom hmeets => hrefused ?_⟩⟩⟩
    · rw [lockObjection_eq, if_pos (by omega)]
    all_goals rw [lockObjection_eq, if_neg (not_not.mpr ⟨hcount, hrange⟩)]
    · rw [if_pos hmode]
    · rw [if_neg (by omega), if_pos hfull]
    · rw [if_neg (by omega), if_neg (by omega), if_pos hmeets]

/-! ## SET_DRIVE (R156) -/

section
variable {s : State}

/-- A notice to both links of a state whose ATTN stands as judged. -/
theorem notifyBoth_eq_told (h : AttnJudged s) (e : EventFlag) : notifyBoth e s = s.told e := by
  have ha : AttnJudged (notify .a e s) := fun ch => ((Calm.refl s).notify .a e).attn ch (h ch)
  rw [notifyBoth, notify_eq_told ha, notify_eq_told h]
  rfl

theorem AttnJudged.told (h : AttnJudged s) (e : EventFlag) : AttnJudged (s.told e) := by
  rw [← notifyBoth_eq_told h]
  exact fun ch => ((Calm.refl s).notifyBoth e).attn ch (h ch)

end

theorem settingsAsked_eq (f : Frame) (x : Settings) :
    settingsAsked f x =
      let given := fun (i : Nat) => if field16 f i = 65535 then none else some (field16 f i)
      { readRetries := match given 0 with | some v => if 7 < v then 7 else v | none => x.readRetries
        reassignLimit := match given 1 with | some v => if 3 < v then 3 else v | none => x.reassignLimit
        verifyPolicy :=
          match given 2 with | some v => if v = 1 then .never else .always | none => x.verifyPolicy
        dirtyLimit :=
          match given 3 with | some v => if v < 8 then 8 else if 64 < v then 64 else v | none => x.dirtyLimit } := by
  have hmost (most : Nat) : (fun v => Nat.min v most) = fun v => if most < v then most else v := by
    funext v
    show min v most = _
    split <;> omega
  have hbetween : (fun v => Nat.max 8 (Nat.min v 64)) = fun v => if v < 8 then 8 else if 64 < v then 64 else v := by
    funext v
    show max 8 (min v 64) = _
    split <;> (try split) <;> omega
  simp only [settingsAsked, Settings.written, hmost, hbetween, chosen, settingField, policyOf] <;> rfl

/-- Settles O25: the settings asked for are the clamped ones, the notice goes to both links, and only a raised dirty
limit tells of space. -/
theorem setDriveAppliesEachSettingClamped : Obligations.SetDriveAppliesEachSettingClamped := by
  intro ch f s htakes held given now written
  have hnow : settingsAsked f s.cu.settings = now := settingsAsked_eq f s.cu.settings
  have hattn : AttnJudged { s with cu := { s.cu with settings := now } } := htakes.steady.attn
  have hexec : exec (.setDrive ch f) s = .next (workArrival (setDrive ch f s)) :=
    congrArg Host.Outcome.next (answerFrame_of_toOwner (htakes.judgeFrame_eq_toOwner (by decide) rfl rfl))
  rw [hexec, setDrive, writeSettings, hnow, notifyBoth_eq_told hattn]
  constructor
  · intro hlower
    have hidle : IdleHasNothingDue (written.answered ch f.tag (.accepted (.settings now))) := htakes.steady.idle
    rw [if_neg (Nat.not_lt.mpr hlower), accept, respond_eq_answered (hattn.told .settings), workArrival_eq_self hidle]
  · intro hraised
    rw [if_pos hraised]

end Sys2Proof.Machine
end

section
/-! SUPPORT and PROOFS. Refused reads and writes, space and freeing events, deliveries, FLUSH and PULL_FAULTS
(Sections 4 and 5): settles O27, O28, O29 and O32. -/

namespace Sys2Proof.Machine

/-! ## One link's record replaced -/

@[simp] theorem State.withLink_links (s : State) (ch : Channel) (l : Link) :
    (s.withLink ch l).links = s.links.set ch l := rfl

theorem State.withLink_get (s : State) (ch : Channel) (l : Link) : (s.withLink ch l).links.get ch = l :=
  PerChannel.get_set_self ..

@[simp] theorem State.withLink_withLink (s : State) (ch : Channel) (l m : Link) :
    (s.withLink ch l).withLink ch m = s.withLink ch m := by
  simp [State.withLink]

/-- A change of a link's record that leaves what R173 judges. -/
theorem updLink_eq_withLink {s : State} {ch : Channel} {g : Link → Link}
    (h : (g (s.links.get ch)).attn = (g (s.links.get ch)).attnDue) :
    updLink ch g s = s.withLink ch (g (s.links.get ch)) := by
  rw [updLink, Link.judged_eq _ h, State.withLink]

theorem AttnJudged.withLink {s : State} (h : AttnJudged s) {ch : Channel} {l : Link} (hl : l.attn = l.attnDue) :
    AttnJudged (s.withLink ch l) := by
  intro c
  rw [State.withLink_links, PerChannel.get_set]
  split
  · exact hl
  · exact h c

/-! ## Requests that the link and the gate have let through (R164 to R166) -/

section
variable {s : State} {ch : Channel} {k : FrameKind} {f : Frame}

theorem Admitted.judgeFrame_eq_toOwner (h : Admitted s ch k f) (hdata : k ≠ .data) :
    judgeFrame ch k f s = .toOwner := by
  obtain ⟨⟨hlistens, hattached, hwellFormed, -⟩, htag, hroom, hgate⟩ := h
  simp [hlistens.judgeFrame_eq, judgeIdle, hattached, hwellFormed, hdata, htag, hroom, hgate]

theorem exec_read (h : Admitted s ch .read f) :
    exec (.read ch f) s = .next (workArrival (readRequest ch f.tag (field32 f 0) (field16 f 2) s)) :=
  congrArg Host.Outcome.next (answerFrame_of_toOwner (h.judgeFrame_eq_toOwner (by decide)))

theorem exec_write (h : Admitted s ch .write f) :
    exec (.write ch f) s = .next (workArrival (writeHeader ch f s)) :=
  congrArg Host.Outcome.next (answerFrame_of_toOwner (h.judgeFrame_eq_toOwner (by decide)))

theorem exec_flush (h : Admitted s ch .flush f) :
    exec (.flush ch f) s = .next (workArrival (flushRequest ch f.tag (field32 f 0) (field16 f 2) s)) :=
  congrArg Host.Outcome.next (answerFrame_of_toOwner (h.judgeFrame_eq_toOwner (by decide)))

theorem Admitted.attn (h : Admitted s ch k f) : AttnJudged s := h.takes.steady.attn

theorem Admitted.idle (h : Admitted s ch k f) : IdleHasNothingDue s := h.takes.steady.idle

/-- No request of a fresh tag is outstanding (R165). -/
theorem Admitted.notMem_outstanding (h : Admitted s ch k f) (kind : QueuedKind) :
    ⟨f.tag, kind⟩ ∉ (s.links.get ch).outstanding := fun hmem => by
  have hused : tagInUse s ch f.tag = true := (tagInUse_iff s ch f.tag).mpr (.inl ⟨_, hmem, rfl⟩)
  rw [h.tag] at hused
  cases hused

/-- A refused request leaves nothing but its response, and a mark or another change that offers nothing. -/
theorem workArrival_refuse {r t : State} (hattn : AttnJudged r) (hidle : IdleHasNothingDue r) {tag : Byte}
    {reason : RefusalReason} (ht : t = refuse ch tag reason r) : workArrival t = r.answered ch tag (.refused reason) := by
  subst ht
  rw [refuse, respond_eq_answered hattn]
  exact workArrival_eq_self hidle

/-- A queued request joins the outstanding set. -/
theorem addOutstanding_eq (h : AttnJudged s) (ch : Channel) (tag : Byte) (kind : QueuedKind) :
    addOutstanding ch tag kind s =
      s.withLink ch { s.links.get ch with outstanding := (s.links.get ch).outstanding ++ [⟨tag, kind⟩] } :=
  updLink_eq_withLink (by exact h ch)

/-- The report of a request that has just joined the outstanding set takes it out again (R167). -/
theorem posted_of_added {l : Link} (hattached : l.attached = true) {r : Report}
    (hfresh : ⟨r.tag, r.kind⟩ ∉ l.outstanding) :
    (Link.posted r { l with outstanding := l.outstanding ++ [⟨r.tag, r.kind⟩] }).judged =
      { l with
        reports := l.reports ++ [r], flags := l.flags ||| 1, attn := (l.flags ||| 1) &&& l.mask != 0 } := by
  rw [Link.judged_posted_of_mem (by exact hattached) (by simp)]
  simp [List.erase_append_right _ hfresh]

end

/-! ## Refusals of READ and WRITE (R66, R73, R151) -/

section
variable {s : State} {ch : Channel} {f : Frame}

theorem isRequestRun_iff (first count : Nat) :
    isRequestRun first count = true ↔ 1 ≤ count ∧ count ≤ 32 ∧ first + count ≤ lbaCount := by
  simp [isRequestRun, inLbaRange, and_assoc]

theorem isLockedFor_iff (s : State) (ch : Channel) (bars : LockMode → Bool) (first count : Nat) :
    isLockedFor s ch bars first count = true ↔
      ∃ e ∈ s.cu.locks, e.owner = other ch ∧ bars e.mode = true ∧ e.first < first + count ∧
        first < e.first + e.count := by
  simp [isLockedFor, LockEntry.meets, runsMeet, and_assoc]

theorem LockMode.barsReads_iff (m : LockMode) : m.barsReads = true ↔ m ∈ [LockMode.fullGuard] := by
  cases m <;> decide

theorem LockMode.barsWrites_iff (m : LockMode) : m.barsWrites = true ↔ m ∈ [LockMode.writeGuard, .fullGuard] := by
  cases m <;> decide

theorem writeMode_eq_none_iff (f : Frame) : writeMode f = none ↔ 1 < field16 f 3 := by
  unfold writeMode
  generalize field16 f 3 = mode
  match mode with
  | 0 | 1 | n + 2 => simp

/-- The evictable entries do not make the room. -/
theorem spaceFor_eq_false_iff (m : Nat) (isHit : Nat → Bool) (s : State) :
    spaceFor m isHit s = false ↔ (evictable isHit s).length < evictionsNeeded m s := by
  simp [spaceFor]

theorem writeRoom_eq_false_iff (ch : Channel) (count : Nat) (s : State) :
    writeRoom ch count s = false ↔
      s.cu.settings.dirtyLimit < committingCount s ch + count ∨ spaceFor count (fun _ => false) s = false := by
  rw [writeRoom, Bool.and_eq_false_iff, decide_eq_false_iff_not, Nat.not_le]

/-- The first case of R66 that applies, before the search for space. -/
theorem readObjections_eq (ch : Channel) (first count : Nat) (s : State) :
    readObjections ch first count s =
      if ¬ isRequestRun first count = true then some .range
      else if isLockedFor s ch LockMode.barsReads first count = true then some .locked
      else if 32 ≤ s.sc.reads.countP (fun r => r.channel == ch) then some .limit
      else none := by
  simp [readObjections]

/-- The first case of R73 that applies, before the search for room. -/
theorem writeObjections_eq (ch : Channel) (f : Frame) (s : State) :
    writeObjections ch f s =
      if ¬ isRequestRun (field32 f 0) (field16 f 2) = true ∨ writeMode f = none then some .range
      else if isLockedFor s ch LockMode.barsWrites (field32 f 0) (field16 f 2) = true then some .locked
      else if maxTake < s.sc.takes + field16 f 2 then some .limit
      else none := by
  simp [writeObjections]

theorem exec_read_of_objection (h : Admitted s ch .read f) {r : RefusalReason}
    (hr : readObjections ch (field32 f 0) (field16 f 2) s = some r) :
    exec (.read ch f) s = .next (s.answered ch f.tag (.refused r)) := by
  rw [exec_read h, readRequest, hr]
  exact congrArg _ (workArrival_refuse h.attn h.idle rfl)

theorem exec_read_of_noSpace (h : Admitted s ch .read f)
    (hr : readObjections ch (field32 f 0) (field16 f 2) s = none)
    (hspace : spaceFor (missCount s (field32 f 0) (field16 f 2)) (inRun (field32 f 0) (field16 f 2)) s = false) :
    exec (.read ch f) s = .next
      ((setWant ch (some ⟨.read, missCount s (field32 f 0) (field16 f 2)⟩) s).answered ch f.tag (.refused .retry)) := by
  rw [exec_read h, readRequest, hr]
  simp only [hspace, Bool.false_eq_true, if_false]
  exact congrArg _ (workArrival_refuse (by exact h.attn) (by exact h.idle) rfl)

theorem exec_write_of_objection (h : Admitted s ch .write f) {r : RefusalReason}
    (hr : writeObjections ch f s = some r) :
    exec (.write ch f) s = .next (s.answered ch f.tag (.refused r)) := by
  rw [exec_write h, writeHeader, hr]
  exact congrArg _ (workArrival_refuse h.attn h.idle rfl)

theorem exec_write_of_noRoom (h : Admitted s ch .write f) (hr : writeObjections ch f s = none)
    (hroom : writeRoom ch (field16 f 2) s = false) :
    exec (.write ch f) s = .next
      ((setWant ch (some ⟨.write, field16 f 2⟩) s).answered ch f.tag (.refused .retry)) := by
  rw [exec_write h, writeHeader, hr]
  simp only [hroom, Bool.false_eq_true, if_false]
  exact congrArg _ (workArrival_refuse (by exact h.attn) (by exact h.idle) rfl)

end

/-- Settles O27: the objections come in the order of R66 and R73, and after them only space or the dirty limit is
missing. -/
theorem readsAndWritesAreRefusedByTheFirstCaseThatApplies :
    Obligations.ReadsAndWritesAreRefusedByTheFirstCaseThatApplies := by
  intro ch f s first count misses hit inRange barred reads noSpace marked
  have hrun : isRequestRun first count = true ↔ inRange := isRequestRun_iff first count
  have hreads : isLockedFor s ch LockMode.barsReads first count = true ↔ barred [.fullGuard] := by
    simp only [isLockedFor_iff, LockMode.barsReads_iff, barred]
  have hwrites : isLockedFor s ch LockMode.barsWrites first count = true ↔ barred [.writeGuard, .fullGuard] := by
    simp only [isLockedFor_iff, LockMode.barsWrites_iff, barred]
  have hmode : ¬ writeMode f = none ↔ field16 f 3 ≤ 1 := by
    rw [writeMode_eq_none_iff]
    omega
  constructor
  · intro hread refusedIn
    have hobjection := readObjections_eq ch first count s
    simp only [hrun, hreads] at hobjection
    refine ⟨fun hrange => ?_, fun hrange hbarred => ?_, fun hrange hfree hfull => ?_,
      fun hrange hfree hroom hspace => ?_⟩
    · exact exec_read_of_objection hread (by rw [hobjection, if_pos hrange])
    all_goals rw [if_neg (not_not.mpr hrange)] at hobjection
    · exact exec_read_of_objection hread (by rw [hobjection, if_pos hbarred])
    all_goals rw [if_neg hfree] at hobjection
    · exact exec_read_of_objection hread (by rw [hobjection, if_pos hfull])
    · rw [if_neg (Nat.not_le.mpr hroom)] at hobjection
      exact exec_read_of_noSpace hread hobjection ((spaceFor_eq_false_iff ..).mpr hspace)
  · intro hwrite refusedIn full
    have hobjection := writeObjections_eq ch f s
    change _ = if ¬ isRequestRun first count = true ∨ _ then _ else
      if isLockedFor s ch LockMode.barsWrites first count = true then _ else _ at hobjection
    simp only [hrun, hwrites] at hobjection
    constructor
    · intro hbad
      refine exec_write_of_objection hwrite ?_
      rw [hobjection, if_pos (hbad.imp_right (writeMode_eq_none_iff f).mpr)]
    · intro hrange hfield
      rw [if_neg (not_or.mpr ⟨not_not.mpr hrange, hmode.mpr hfield⟩)] at hobjection
      refine ⟨fun hbarred => ?_, fun hfree hfull => ?_, fun hfree hcounter hroom => ?_⟩
      · exact exec_write_of_objection hwrite (by rw [hobjection, if_pos hbarred])
      all_goals rw [if_neg hfree] at hobjection
      · exact exec_write_of_objection hwrite (by rw [hobjection, if_pos hfull])
      · rw [if_neg hcounter] at hobjection
        refine exec_write_of_noRoom hwrite hobjection ?_
        exact (writeRoom_eq_false_iff ch count s).mpr (hroom.imp_right (spaceFor_eq_false_iff ..).mpr)

/-! ## Finding space (R64) -/

section
variable {s : State}

theorem entryAt_some {lba : Nat} {e : Entry} (h : entryAt s lba = some e) : e ∈ s.sc.entries ∧ e.lba = lba :=
  ⟨List.mem_of_find?_eq_some h, by simpa using List.find?_some h⟩

theorem isUnpinnedClean_iff (s : State) (lba : Nat) :
    isUnpinnedClean s lba = true ↔ ∃ e, entryAt s lba = some e ∧ e.state = .clean ∧ pinCount s lba = 0 := by
  unfold isUnpinnedClean
  cases entryAt s lba <;> simp

/-- The buffers of an LBA's entry, none where there is no entry. -/
def buffersAt (s : State) (lba : Nat) : List Nat :=
  match entryAt s lba with
  | some e => e.buffers
  | none => []

/-- The cache without the entries of some LBAs, whose buffers stand at the tail of the free list in that order. -/
def State.without (s : State) (gone : List Nat) : State :=
  { s with sc := { s.sc with
      entries := s.sc.entries.filter fun e => !gone.contains e.lba
      freeList := s.sc.freeList ++ gone.flatMap (buffersAt s)
      recency := s.sc.recency.filter fun lba => !gone.contains lba } }

theorem without_nil (s : State) : s.without [] = s := by
  simp [State.without]

/-- An eviction removes one entry (R64, step 3). -/
theorem evict_eq_without (hrecency : s.sc.recency.Nodup) {lba : Nat} (h : (entryAt s lba).isSome = true) :
    evict s lba = s.without [lba] := by
  obtain ⟨e, he⟩ := Option.isSome_iff_exists.mp h
  obtain ⟨-, rfl⟩ := entryAt_some he
  simp only [evict, he, removeEntry, freeBuffers, State.without, List.flatMap_cons, List.flatMap_nil, List.append_nil,
    buffersAt, hrecency.erase_eq_filter, List.contains_cons, List.contains_nil, Bool.or_false]
  rfl

/-- The other entries stand where they stood. -/
theorem entryAt_without_of_ne {x lba : Nat} (h : x ≠ lba) : entryAt (s.without [lba]) x = entryAt s x := by
  simp only [entryAt, State.without, List.find?_filter]
  congr 1
  funext e
  by_cases hx : e.lba = x <;> simp [hx, h]

theorem without_without {lba : Nat} {gone : List Nat} (h : lba ∉ gone) :
    (s.without [lba]).without gone = s.without (lba :: gone) := by
  have hbuffers : gone.flatMap (buffersAt (s.without [lba])) = gone.flatMap (buffersAt s) :=
    List.flatMap_congr fun x hx => by
      have hne : x ≠ lba := ne_of_mem_of_not_mem hx h
      simp only [buffersAt, entryAt_without_of_ne hne]
  rw [State.without, hbuffers]
  simp only [State.without, List.filter_filter, List.flatMap_cons, List.flatMap_nil, List.append_nil,
    List.append_assoc, List.contains_cons, List.contains_nil, Bool.or_false, Bool.not_or, Bool.and_comm]

/-- Evictions one after another remove their entries, and their buffers return in that order. -/
theorem foldl_evict (gone : List Nat) : ∀ {s : State}, gone.Nodup → s.sc.recency.Nodup →
    (∀ lba ∈ gone, (entryAt s lba).isSome = true) → gone.foldl evict s = s.without gone := by
  induction gone with
  | nil => exact fun _ _ _ => (without_nil _).symm
  | cons lba gone ih =>
    intro s hnodup hrecency hsome
    obtain ⟨hnew, hgone⟩ := List.nodup_cons.mp hnodup
    rw [List.foldl_cons, evict_eq_without hrecency (hsome lba List.mem_cons_self), ih hgone (hrecency.filter _) ?_,
      without_without hnew]
    intro x hx
    rw [entryAt_without_of_ne (ne_of_mem_of_not_mem hx hnew)]
    exact hsome x (List.mem_cons_of_mem _ hx)

theorem evictFor_eq_without (hrecency : s.sc.recency.Nodup) (m : Nat) (isHit : Nat → Bool) :
    evictFor m isHit s = s.without (victims m isHit s) := by
  refine foldl_evict _ ((hrecency.filter _).sublist (List.take_sublist ..)) hrecency fun lba hlba => ?_
  have hmem := List.mem_filter.mp (List.mem_of_mem_take hlba)
  have hclean := (Bool.and_eq_true _ _).mp hmem.2
  obtain ⟨e, he, -⟩ := (isUnpinnedClean_iff s lba).mp hclean.1
  rw [he]
  rfl

/-! ## Marks and waiting streams (R80, R136) -/

/-- A prefetch leaves the other stream's context alone. -/
theorem prefetchOne_su_other (ch : Channel) (s : State) :
    (prefetchOne ch s).su.get (other ch) = s.su.get (other ch) := by
  unfold prefetchOne
  dsimp only
  split
  · split
    · exact PerChannel.get_set_other ..
    · exact PerChannel.get_set_other ..
  · split
    · rw [updStream_su, PerChannel.get_set_other, createReading_su, evictFor_su]
    · exact PerChannel.get_set_other ..

theorem prefetchUpTo_su_other (ch : Channel) (n : Nat) :
    ∀ s : State, (prefetchUpTo ch n s).su.get (other ch) = s.su.get (other ch) := by
  induction n with
  | zero => exact fun _ => rfl
  | succ n ih =>
    intro s
    unfold prefetchUpTo
    split
    · dsimp only
      split
      · exact prefetchOne_su_other ch s
      · rw [ih, prefetchOne_su_other]
    · rfl

theorem prefetch_su_other (ch : Channel) (s : State) : (prefetch ch s).su.get (other ch) = s.su.get (other ch) :=
  prefetchUpTo_su_other ch _ s

theorem retryPrefetch_of_waiting {ch : Channel} (h : (s.su.get ch).prefetchWaiting = true) :
    retryPrefetch ch s = prefetch ch s := if_pos h

theorem retryPrefetch_of_not_waiting {ch : Channel} (h : (s.su.get ch).prefetchWaiting = false) :
    retryPrefetch ch s = s := if_neg (Bool.eq_false_iff.mp h)

/-- Only with both streams waiting is their order free (log entry 8). -/
theorem retryPrefetches_of_one_idle (h : s.su.a.prefetchWaiting = false ∨ s.su.b.prefetchWaiting = false) :
    retryPrefetches s = retryPrefetch .b (retryPrefetch .a s) := by
  have hone : (s.su.a.prefetchWaiting && s.su.b.prefetchWaiting) = false := Bool.and_eq_false_iff.mpr h
  simp [retryPrefetches, hone]

theorem retryPrefetches_of_none_waiting (h : ∀ ch, (s.su.get ch).prefetchWaiting = false) : retryPrefetches s = s := by
  rw [retryPrefetches_of_one_idle (.inl (h .a)), retryPrefetch_of_not_waiting (h .a), retryPrefetch_of_not_waiting (h .b)]

theorem retryPrefetches_of_one_waiting {ch : Channel} (h : (s.su.get ch).prefetchWaiting = true)
    (hother : (s.su.get (other ch)).prefetchWaiting = false) : retryPrefetches s = prefetch ch s := by
  cases ch with
  | a =>
    have hb : ((prefetch .a s).su.get .b).prefetchWaiting = false := by
      have := prefetch_su_other .a s
      rw [other] at this
      rw [this]
      exact hother
    rw [retryPrefetches_of_one_idle (.inr hother), retryPrefetch_of_waiting h, retryPrefetch_of_not_waiting hb]
  | b =>
    have ha : (s.su.get .a).prefetchWaiting = false := hother
    rw [retryPrefetches_of_one_idle (.inl ha), retryPrefetch_of_not_waiting ha, retryPrefetch_of_waiting h]

theorem retryPrefetches_of_both_waiting (h : ∀ ch, (s.su.get ch).prefetchWaiting = true) :
    ∃ ch, retryPrefetches s = retryPrefetch (other ch) (retryPrefetch ch { s with freeCount := s.freeCount + 1 }) := by
  have hboth : (s.su.a.prefetchWaiting && s.su.b.prefetchWaiting) = true := by
    have ha := h .a
    have hb := h .b
    exact (Bool.and_eq_true _ _).mpr ⟨ha, hb⟩
  rw [retryPrefetches, if_pos hboth]
  by_cases horder : Config.freeStreamOrder s.freeCount = true
  · exact ⟨.b, if_pos horder⟩
  · exact ⟨.a, if_neg horder⟩

theorem checkWant_of_met {ch : Channel} {w : Want} (h : s.sc.wants.get ch = some w) (hmet : wantMet ch w s = true) :
    checkWant ch s = notify ch .space (setWant ch none s) := by
  simp [checkWant, h, hmet]

theorem checkWant_of_not_met {ch : Channel} {w : Want} (h : s.sc.wants.get ch = some w)
    (hmet : ¬ wantMet ch w s = true) : checkWant ch s = s := by
  simp [checkWant, h, hmet]

theorem wantMet_iff (ch : Channel) (w : Want) (s : State) :
    wantMet ch w s = true ↔
      Nat.max (w.count - (freeSlots s).length) (w.count - s.sc.freeList.length) ≤
          (s.sc.recency.filter fun lba => isUnpinnedClean s lba).length ∧
        (w.kind = .write → committingCount s ch + w.count ≤ s.cu.settings.dirtyLimit) := by
  cases hkind : w.kind <;> simp [wantMet, spaceFor, evictionsNeeded, evictable, hkind]

theorem evictedSince_iff (before after : State) :
    evictedSince before after = true ↔ ∃ e ∈ before.sc.entries, e ∉ after.sc.entries := by
  simp [evictedSince]

end

/-- Settles O28: the victims of R64 are distinct LBAs with entries, so evicting them one by one leaves the others, and
each freeing event is a check of the marks followed by the streams that wait. -/
theorem spaceIsFoundByEvictingAndFreeingEventsAreTold : Obligations.SpaceIsFoundByEvictingAndFreeingEventsAreTold := by
  refine ⟨?_, ?_, fun s => ⟨rfl, retryPrefetches_of_none_waiting, fun _ => retryPrefetches_of_one_waiting,
    retryPrefetches_of_both_waiting, fun ch => ⟨retryPrefetch_of_waiting, retryPrefetch_of_not_waiting⟩,
    fun before => ⟨fun h => ?_, fun h => ?_⟩, fun lbas => ⟨fun h => ?_, fun h => ?_⟩⟩⟩
  · intro m isHit s hrecency gone freed
    have hfreed : evictFor m isHit s = freed := evictFor_eq_without hrecency m isHit
    constructor
    · intro hnone
      have hvictims : victims m isHit s = [] := hnone
      exact ⟨by rw [evictFor, hvictims]; rfl, by rw [makeSpace, hvictims]⟩
    · intro hsome
      rcases makeSpace_cases m isHit s with ⟨hnone, -⟩ | ⟨-, hspace⟩
      · exact absurd hnone hsome
      · exact ⟨hfreed, hspace.trans (congrArg checkWants hfreed)⟩
  · intro ch s
    refine ⟨fun hnone => by rw [checkWant, hnone], ?_⟩
    intro w hw met
    refine ⟨fun hmet => ?_, fun hmet => ?_⟩
    · exact checkWant_of_met hw ((wantMet_iff ch w s).mpr hmet)
    · exact checkWant_of_not_met hw fun h => hmet ((wantMet_iff ch w s).mp h)
  · exact if_pos ((evictedSince_iff before s).mpr h)
  · refine if_neg fun hgone => ?_
    obtain ⟨e, he, hnot⟩ := (evictedSince_iff before s).mp hgone
    exact hnot (h e he)
  · refine if_pos (List.any_eq_true.mpr ?_)
    obtain ⟨lba, hlba, hfree⟩ := h
    exact ⟨lba, hlba, (isUnpinnedClean_iff s lba).mpr hfree⟩
  · refine if_neg fun hany => ?_
    obtain ⟨lba, hlba, hfree⟩ := List.any_eq_true.mp hany
    obtain ⟨e, he, hclean, hpins⟩ := (isUnpinnedClean_iff s lba).mp hfree
    exact (h lba hlba e he).elim (fun h => h hclean) fun h => h hpins

end Sys2Proof.Machine
end

section
/-! SUPPORT and PROOFS. Deliveries, DISCARD, FLUSH and PULL_FAULTS (Sections 4 and 5): settles O29 and O32. -/

namespace Sys2Proof.Machine

/-! ## PULL_DATA and DISCARD (R71, R72, R169) -/

section
variable {s : State} {ch : Channel} {f : Frame}

theorem readRecord_some {tag : Byte} {r : ReadRecord} (h : readRecord s ch tag = some r) :
    r.channel = ch ∧ r.tag = tag := by
  simpa using List.find?_some h

theorem exec_pullData (h : Takes s ch .pullData f) :
    exec (.pullData ch f) s = .next (workArrival (pullData ch f.tag s)) :=
  congrArg Host.Outcome.next (answerFrame_of_toOwner (h.judgeFrame_eq_toOwner (by decide) rfl rfl))

theorem exec_discard (h : Takes s ch .discard f) :
    exec (.discard ch f) s = .next (workArrival (discardRead ch f.tag s)) :=
  congrArg Host.Outcome.next (answerFrame_of_toOwner (h.judgeFrame_eq_toOwner (by decide) rfl rfl))

/-- A delivery changes the channel's record of the tag, and removes it with its last reference (R71). -/
theorem deliverFrom_eq {r : ReadRecord} (hr : r.channel = ch ∧ r.tag = f.tag) (rest : List ReadRef) (s : State) :
    deliverFrom r rest s =
      { s with sc := { s.sc with
          reads := if rest = [] then s.sc.reads.filter fun y => !(y.channel == ch && y.tag == f.tag)
            else s.sc.reads.map fun y => if y.channel = ch ∧ y.tag = f.tag then { y with refs := rest } else y } } := by
  obtain ⟨rfl, htag⟩ := hr
  simp [deliverFrom, htag]

/-- The newest data of an entry is its newer buffer's where there is one (R60). -/
theorem newestData_eq (s : State) (e : Entry) :
    newestData s e = if e.blank then 0 else bufferData s (e.newer.getD e.current) := by
  unfold newestData
  cases e.newer <;> rfl

theorem pullData_of_bad (hattn : AttnJudged s) {r : ReadRecord} {x : ReadRef} {rest : List ReadRef} {b : BadStatus}
    (hr : readRecord s ch f.tag = some r) (hcomplete : r.complete = true) (hrefs : r.refs = x :: rest)
    (hbad : x.cond = .bad b) :
    pullData ch f.tag s =
      (deliverFrom r rest s).answered ch f.tag (.sector (badFrame x.lba b false (x.lba - r.first))) := by
  simp only [pullData, hr, hcomplete, if_true, pullComplete, hrefs, hbad]
  exact respond_eq_answered (by exact hattn) ..

theorem pullData_of_ready (hattn : AttnJudged s) {r : ReadRecord} {x : ReadRef} {rest : List ReadRef} {e : Entry}
    (hr : readRecord s ch f.tag = some r) (hcomplete : r.complete = true) (hrefs : r.refs = x :: rest)
    (hready : x.cond = .ready) (he : entryAt s x.lba = some e) :
    pullData ch f.tag s =
      afterRelease [x.lba] (State.answered (touch x.lba (deliverFrom r rest s)) ch f.tag
        (.sector (dataFrame s e false (x.lba - r.first)))) := by
  simp only [pullData, hr, hcomplete, if_true, pullComplete, hrefs, hready, deliverReady, he]
  rw [respond_eq_answered hattn]
  rfl

theorem ReadRef.pins_eq (x : ReadRef) : x.pins = (x.cond == .waiting || x.cond == .ready) := by
  unfold ReadRef.pins
  cases x.cond <;> rfl

end

/-- Settles O29: a pull and a DISCARD branch on the record of the tag, and a pull of a complete one on the condition of
its lowest reference. -/
theorem pullDataDeliversAndDiscardReleases : Obligations.PullDataDeliversAndDiscardReleases := by
  refine ⟨fun ch f s htakes => ⟨fun hnone => ?_, fun r hr => ⟨fun hpending => ?_, ?_⟩⟩,
    fun ch f s htakes => ⟨fun hnone => ?_, ?_⟩⟩
  · rw [exec_pullData htakes]
    simp only [pullData, hnone, answerEmpty]
    rw [respond_eq_answered htakes.steady.attn]
    exact congrArg _ (workArrival_eq_self (by exact htakes.steady.idle))
  · rw [exec_pullData htakes]
    simp only [pullData, hr, hpending, answerEmpty]
    rw [if_neg (by decide), respond_eq_answered htakes.steady.attn]
    exact congrArg _ (workArrival_eq_self (by exact htakes.steady.idle))
  · intro x rest hcomplete hrefs left
    have hleft : deliverFrom r rest s = { s with sc := { s.sc with reads := left } } :=
      deliverFrom_eq (readRecord_some hr) rest s
    constructor
    · intro b hbad
      rw [exec_pullData htakes, pullData_of_bad htakes.steady.attn hr hcomplete hrefs hbad, hleft]
      exact congrArg _ (workArrival_eq_self (by exact htakes.steady.idle))
    · intro e hready he
      rw [exec_pullData htakes, pullData_of_ready htakes.steady.attn hr hcomplete hrefs hready he, hleft, dataFrame,
        newestData_eq, (entryAt_some he).2]
      rfl
  · rw [exec_discard htakes]
    simp only [discardRead, hnone, accept]
    rw [respond_eq_answered htakes.steady.attn]
    exact congrArg _ (workArrival_eq_self (by exact htakes.steady.idle))
  · intro r hr held removed reported
    obtain ⟨hchannel, htag⟩ := readRecord_some hr
    have hheld : r.pinned = held := by
      simp only [ReadRecord.pinned, held, funext ReadRef.pins_eq]
    have hremoved : removeRead r s = removed := by simp only [removeRead, hchannel, htag, removed]
    rw [exec_discard htakes]
    simp only [discardRead, hr, hheld, hremoved]
    rfl

/-! ## FLUSH and PULL_FAULTS (R97, R101) -/

section
variable {s : State} {ch : Channel} {f : Frame}

theorem flushSectors_eq (s : State) (first count : Nat) :
    flushSectors s first count =
      (s.sc.entries.filter fun e =>
        (e.state == .committing || e.state == .committingNewer) && (first ≤ e.lba && e.lba < first + count)).map
          fun e => (⟨e.lba, e.take.getD 0, .pending, false⟩ : WaitSector) := by
  simp only [flushSectors, EntryState.isCommitting_eq, inRun]

/-- The report of a fresh request, made at once, leaves the outstanding set as it was and joins the reports. -/
theorem postReport_addOutstanding (hattn : AttnJudged s) (hattached : (s.links.get ch).attached = true) {tag : Byte}
    {kind : QueuedKind} (hfresh : ⟨tag, kind⟩ ∉ (s.links.get ch).outstanding) (status : ReportStatus) (detail : Nat)
    (mark : Bool) :
    postReport ch tag kind status detail mark (addOutstanding ch tag kind s) =
      let l := s.links.get ch
      s.withLink ch
        { l with
          reports := l.reports ++ [⟨tag, kind, status, detail, mark, s.timer.revolution⟩]
          flags := l.flags ||| 1, attn := (l.flags ||| 1) &&& l.mask != 0 } := by
  have hposted := posted_of_added (r := ⟨tag, kind, status, detail, mark, s.timer.revolution⟩) hattached hfresh
  rw [addOutstanding_eq hattn]
  show State.withLink _ ch (Link.judged (Link.posted _ (PerChannel.get _ ch))) = _
  rw [State.withLink_get, State.withLink_withLink]
  exact congrArg (s.withLink ch) hposted

theorem startFlushRequest_of_nil {tag : Byte} {first count : Nat} (h : flushSectors s first count = []) :
    startFlushRequest ch tag first count s = postReport ch tag .flush .ok 0 false s := by
  simp [startFlushRequest, h]

theorem startFlushRequest_of_ne_nil {tag : Byte} {first count : Nat} (h : flushSectors s first count ≠ []) :
    startFlushRequest ch tag first count s =
      addWaiter ⟨.flush, ch, tag, first, count, flushSectors s first count⟩ s := by
  simp [startFlushRequest, h]

theorem exec_flush_of_refused (h : Admitted s ch .flush f) (hrange : ¬ isExtent (field32 f 0) (field16 f 2) = true) :
    exec (.flush ch f) s = .next (s.answered ch f.tag (.refused .range)) := by
  rw [exec_flush h, flushRequest, if_neg hrange]
  exact congrArg _ (workArrival_refuse h.attn h.idle rfl)

theorem exec_flush_of_accepted (h : Admitted s ch .flush f) (hrange : isExtent (field32 f 0) (field16 f 2) = true) :
    exec (.flush ch f) s = .next (workArrival (accept ch f.tag .plain
      (startFlushRequest ch f.tag (field32 f 0) (field16 f 2) (addOutstanding ch f.tag .flush s)))) := by
  rw [exec_flush h, flushRequest, if_pos hrange]

/-- A link that stands as judged takes a response without any other change. -/
theorem accept_withLink {l : Link} (hl : l.attn = l.attnDue) (tag : Byte) (x : Acceptance) (r : State) :
    accept ch tag x (r.withLink ch l) = r.withLink ch { l with response := some ⟨tag, .accepted x⟩ } := by
  rw [accept, respond, updLink_eq_withLink (by rw [State.withLink_get]; exact hl), State.withLink_get,
    State.withLink_withLink]

theorem exec_pullFaults (h : Takes s ch .pullFaults f) :
    exec (.pullFaults ch f) s = .next (workArrival (pullFaults ch f.tag s)) :=
  congrArg Host.Outcome.next (answerFrame_of_toOwner (h.judgeFrame_eq_toOwner (by decide) rfl rfl))

theorem FaultList.empty_iff (l : FaultList) : (l.records.isEmpty && !l.more) = true ↔ l = ⟨[], false⟩ := by
  obtain ⟨records, more⟩ := l
  simp

end

/-- Settles O32: a FLUSH branches on its run and on what is committing in it, PULL_FAULTS on the list. -/
theorem flushWaitsForWhatIsCommittingAndFaultsArePulled :
    Obligations.FlushWaitsForWhatIsCommittingAndFaultsArePulled := by
  intro ch f s l
  constructor
  · intro hflush first count sectors
    have hrange : isExtent first count = true ↔ 1 ≤ count ∧ count ≤ 65535 ∧ first + count ≤ lbaCount :=
      isExtent_iff first count
    have hmost : count ≤ 65535 := field16_le f 2
    have hattn := hflush.attn ch
    have hsectors : flushSectors (addOutstanding ch f.tag .flush s) first count = sectors := flushSectors_eq ..
    refine ⟨fun hbad => exec_flush_of_refused hflush fun h => ?_, fun hcount hlast hnone => ?_,
      fun hcount hlast hsome => ?_⟩
    · have := hrange.mp h
      omega
    · rw [exec_flush_of_accepted hflush (hrange.mpr ⟨hcount, hmost, hlast⟩)]
      rw [startFlushRequest_of_nil (hsectors.trans hnone), postReport_addOutstanding hflush.attn
        hflush.takes.attached (hflush.notMem_outstanding .flush), accept_withLink]
      · exact congrArg _ (workArrival_eq_self (by exact hflush.idle))
      · rw [Link.attnDue_of_attached (by exact hflush.takes.attached)]
    · rw [exec_flush_of_accepted hflush (hrange.mpr ⟨hcount, hmost, hlast⟩)]
      rw [startFlushRequest_of_ne_nil (hsectors.trans_ne hsome), hsectors, addOutstanding_eq hflush.attn]
      change Host.Outcome.next (workArrival (accept ch f.tag .plain (State.withLink
        (addWaiter ⟨.flush, ch, f.tag, first, count, sectors⟩ s) ch _))) = _
      rw [accept_withLink (by exact hattn)]
      exact congrArg _ (workArrival_eq_self (by exact hflush.idle))
  · intro htakes held
    have hidle := htakes.steady.idle
    rw [exec_pullFaults htakes]
    constructor
    · intro hempty
      have hnone := (FaultList.empty_iff _).mpr hempty
      simp only [pullFaults]
      rw [if_pos hnone, answerEmpty, respond_eq_answered htakes.steady.attn]
      exact congrArg _ (workArrival_eq_self (by exact hidle))
    · intro hheld
      have hsome := fun h => hheld ((FaultList.empty_iff _).mp h)
      simp only [pullFaults]
      rw [if_neg hsome, respond_eq_answered (by exact htakes.steady.attn)]
      exact congrArg _ (workArrival_eq_self (by exact hidle))

end Sys2Proof.Machine
end

section
/-! SUPPORT and PROOFS. Accepted reads (Section 4.5): settles O26. -/

namespace Sys2Proof.Machine

/-! ## What evictions, marks and new READING entries leave alone -/

section
variable {s : State}

theorem checkWant_sc (ch : Channel) (s : State) : ∃ wants, (checkWant ch s).sc = { s.sc with wants := wants } := by
  unfold checkWant
  split
  · split
    · exact ⟨_, rfl⟩
    · exact ⟨_, rfl⟩
  · exact ⟨_, rfl⟩

theorem checkWants_sc (s : State) : ∃ wants, (checkWants s).sc = { s.sc with wants := wants } := by
  obtain ⟨wants, ha⟩ := checkWant_sc .a s
  obtain ⟨wants', hb⟩ := checkWant_sc .b (checkWant .a s)
  exact ⟨wants', by rw [checkWants, hb, ha]⟩

theorem entryAt_checkWants (s : State) (lba : Nat) : entryAt (checkWants s) lba = entryAt s lba := by
  obtain ⟨wants, h⟩ := checkWants_sc s
  rw [entryAt, h, entryAt]

theorem reads_checkWants (s : State) : (checkWants s).sc.reads = s.sc.reads := by
  obtain ⟨wants, h⟩ := checkWants_sc s
  rw [h]

theorem reads_evict (s : State) (lba : Nat) : (evict s lba).sc.reads = s.sc.reads := by
  unfold evict
  split <;> rfl

/-- A READING entry takes the lowest free slot and the first free buffer (R67). -/
theorem createReading_eq {slot buffer : Nat} {slots buffers : List Nat} (hslots : freeSlots s = slot :: slots)
    (hbuffers : s.sc.freeList = buffer :: buffers) (lba : Nat) :
    createReading lba s =
      { s with
        sc := { s.sc with
          entries :=
            insertBySlot ⟨slot, lba, s.rmt.translate lba, .reading, false, buffer, none, none, none, 0⟩ s.sc.entries
          freeList := buffers
          recency := s.sc.recency.erase lba ++ [lba] }
        pe := { s.pe with due := s.pe.due ++ [⟨.entry lba, .read, s.rmt.translate lba⟩] } } := by
  simp only [createReading, hslots, hbuffers, List.headD_cons, takeBuffers, List.drop_one, List.tail_cons]
  rfl

/-- Entries with another LBA stand after an eviction. -/
theorem entryAt_evict_of_ne {x lba : Nat} (h : x ≠ lba) : entryAt (evict s lba) x = entryAt s x := by
  unfold evict
  split
  · next e he =>
    obtain ⟨-, rfl⟩ := entryAt_some he
    simp only [entryAt, removeEntry, freeBuffers, List.find?_filter]
    congr 1
    funext y
    by_cases hy : y.lba = x <;> simp [hy, h]
  · rfl

theorem foldl_evict_keeps (gone : List Nat) : ∀ s : State, (gone.foldl evict s).sc.reads = s.sc.reads ∧
    ∀ x ∉ gone, entryAt (gone.foldl evict s) x = entryAt s x := by
  induction gone with
  | nil => exact fun s => ⟨rfl, fun _ _ => rfl⟩
  | cons lba gone ih =>
    intro s
    obtain ⟨hreads, hentries⟩ := ih (evict s lba)
    refine ⟨hreads.trans (reads_evict s lba), fun x hx => ?_⟩
    obtain ⟨hne, hx⟩ := not_or.mp (mt List.mem_cons.mpr hx)
    exact (hentries x hx).trans (entryAt_evict_of_ne hne)

theorem reads_makeSpace (m : Nat) (isHit : Nat → Bool) (s : State) : (makeSpace m isHit s).sc.reads = s.sc.reads := by
  rcases makeSpace_cases m isHit s with ⟨-, h⟩ | ⟨-, h⟩
  · rw [h]
  · rw [h, reads_checkWants]
    exact (foldl_evict_keeps _ s).1

/-- The hits of the request being judged are spared (R64). -/
theorem entryAt_makeSpace_of_hit (m : Nat) {isHit : Nat → Bool} {lba : Nat} (h : isHit lba = true) (s : State) :
    entryAt (makeSpace m isHit s) lba = entryAt s lba := by
  have hspared : lba ∉ victims m isHit s := fun hmem => by
    have hfree := (List.mem_filter.mp (List.mem_of_mem_take hmem)).2
    simp [h] at hfree
  rcases makeSpace_cases m isHit s with ⟨-, hspace⟩ | ⟨-, hspace⟩
  · rw [hspace]
  · rw [hspace, entryAt_checkWants]
    exact (foldl_evict_keeps _ s).2 lba hspared

/-- With room free nothing is evicted. -/
theorem makeSpace_eq_self {m : Nat} (isHit : Nat → Bool) (hslots : m ≤ (freeSlots s).length)
    (hbuffers : m ≤ s.sc.freeList.length) : makeSpace m isHit s = s := by
  have hnone : victims m isHit s = [] := by
    simp [victims, evictionsNeeded, Nat.sub_eq_zero_of_le hslots, Nat.sub_eq_zero_of_le hbuffers]
  rw [makeSpace, hnone]

theorem spaceFor_of_free {m : Nat} (isHit : Nat → Bool) (hslots : m ≤ (freeSlots s).length)
    (hbuffers : m ≤ s.sc.freeList.length) : spaceFor m isHit s = true := by
  simp [spaceFor, evictionsNeeded, Nat.sub_eq_zero_of_le hslots, Nat.sub_eq_zero_of_le hbuffers]

/-- Where every entry still stands no stream is told of evictions. -/
theorem afterEvictions_of_subset {before after : State} (h : ∀ e ∈ before.sc.entries, e ∈ after.sc.entries) :
    afterEvictions before after = after := by
  refine if_neg fun hgone => ?_
  obtain ⟨e, he, hnot⟩ := (evictedSince_iff before after).mp hgone
  exact hnot (h e he)

theorem mem_insertBySlot {e x : Entry} {l : List Entry} : x ∈ insertBySlot e l ↔ x = e ∨ x ∈ l := by
  induction l with
  | nil => simp [insertBySlot]
  | cons y l ih =>
    unfold insertBySlot
    split
    · simp
    · simp [ih, or_left_comm]

theorem find?_insertBySlot_of_false {p : Entry → Bool} {e : Entry} (h : p e = false) (l : List Entry) :
    (insertBySlot e l).find? p = l.find? p := by
  induction l with
  | nil => simp [insertBySlot, h]
  | cons y l ih =>
    unfold insertBySlot
    split
    · simp [h]
    · simp [List.find?_cons, ih]

theorem find?_insertBySlot_of_none {p : Entry → Bool} {e : Entry} (h : p e = true) {l : List Entry}
    (hl : l.find? p = none) : (insertBySlot e l).find? p = some e := by
  induction l with
  | nil => simp [insertBySlot, h]
  | cons y l ih =>
    obtain ⟨hy, hl⟩ : p y = false ∧ l.find? p = none := by simpa using hl
    unfold insertBySlot
    split
    · simp [h]
    · simp [hy, ih (by simpa using hl)]

/-- The entry that a missing sector is fetched into (R67). -/
theorem entryAt_createReading_self {lba : Nat} (h : entryAt s lba = none) :
    ∃ e, entryAt (createReading lba s) lba = some e ∧ e.state = .reading :=
  ⟨_, find?_insertBySlot_of_none (by simp) h, rfl⟩

theorem entryAt_createReading_of_ne {x lba : Nat} (h : x ≠ lba) :
    entryAt (createReading x s) lba = entryAt s lba :=
  find?_insertBySlot_of_false (by simpa using h) _

/-! ## The sectors of an accepted READ (R67) -/

theorem referTo_reads (s : State) (x : Nat) : (referTo s x).sc.reads = s.sc.reads := by
  unfold referTo
  split <;> rfl

theorem entryAt_referTo_of_some {x lba : Nat} {e : Entry} (h : entryAt s lba = some e) :
    entryAt (referTo s x) lba = some e := by
  unfold referTo
  split
  · exact h
  · next hnone =>
    have hne : x ≠ lba := by
      rintro rfl
      cases h.symm.trans hnone
    rw [entryAt_createReading_of_ne hne, h]

/-- Once the run is referred to, its held sectors stand as they stood and its missing ones are in READING. -/
theorem entryAt_foldl_referTo (lbas : List Nat) : ∀ s : State,
    (∀ lba e, entryAt s lba = some e → entryAt (lbas.foldl referTo s) lba = some e) ∧
    ∀ lba ∈ lbas, entryAt s lba = none → ∃ e, entryAt (lbas.foldl referTo s) lba = some e ∧ e.state = .reading := by
  induction lbas with
  | nil => exact fun s => ⟨fun _ _ h => h, fun _ h => nomatch h⟩
  | cons x lbas ih =>
    intro s
    obtain ⟨hheld, hmissing⟩ := ih (referTo s x)
    refine ⟨fun lba e h => hheld lba e (entryAt_referTo_of_some h), fun lba hmem hnone => ?_⟩
    by_cases hx : x = lba
    · subst hx
      have hrefer : referTo s x = createReading x s := by simp only [referTo, hnone]
      obtain ⟨e, he, hreading⟩ := entryAt_createReading_self hnone
      exact ⟨e, hheld x e (by rw [hrefer, he]), hreading⟩
    · have hnone' : entryAt (referTo s x) lba = none := by
        unfold referTo
        split
        · exact hnone
        · rw [entryAt_createReading_of_ne hx, hnone]
      exact hmissing lba ((List.mem_cons.mp hmem).resolve_left (Ne.symm hx)) hnone'

theorem foldl_referTo_reads (lbas : List Nat) : ∀ s : State, (lbas.foldl referTo s).sc.reads = s.sc.reads := by
  induction lbas with
  | nil => exact fun _ => rfl
  | cons x lbas ih => exact fun s => (ih _).trans (referTo_reads s x)

/-- A run of held sectors only moves its entries to the most-recent end. -/
theorem foldl_referTo_of_held (lbas : List Nat) : ∀ s : State, (∀ lba ∈ lbas, ∃ e, entryAt s lba = some e) →
    lbas.foldl referTo s =
      { s with sc := { s.sc with recency := lbas.foldl (fun r lba => r.erase lba ++ [lba]) s.sc.recency } } := by
  induction lbas with
  | nil => exact fun _ _ => rfl
  | cons x lbas ih =>
    intro s hheld
    obtain ⟨e, he⟩ := hheld x List.mem_cons_self
    have hrefer : referTo s x = touch x s := by simp only [referTo, he]
    rw [List.foldl_cons, hrefer]
    exact ih (touch x s) fun lba hlba => hheld lba (List.mem_cons_of_mem _ hlba)

theorem referenceTo_lba (s : State) (lba : Nat) : (referenceTo s lba).lba = lba := by
  unfold referenceTo
  split <;> rfl

theorem EntryState.hasData_iff (x : EntryState) : x.hasData = true ↔ x ≠ .reading := by
  cases x <;> decide

theorem referenceTo_cond (s : State) (lba : Nat) :
    ((∃ e, entryAt s lba = some e ∧ e.state ≠ .reading) → (referenceTo s lba).cond = .ready) ∧
      (¬ (∃ e, entryAt s lba = some e ∧ e.state ≠ .reading) → (referenceTo s lba).cond = .waiting) := by
  unfold referenceTo
  cases entryAt s lba with
  | none => simp
  | some e => simp [EntryState.hasData_iff]

/-! ## The new record (R67, R70) -/

/-- A record that still waits is not completed, and no other is of the channel and tag. -/
theorem completeReads_of_waiting {c : ReadRecord → Bool} (h : ∀ r ∈ s.sc.reads, c r = true → r.isDone = false) :
    completeReads c s = s := by
  have hends : ∀ r ∈ s.sc.reads, (!r.complete && c r && r.isDone) = false := fun r hr => by
    cases hc : c r with
    | false => simp
    | true => simp [h r hr hc]
  have hnone : (s.sc.reads.filter fun r => !r.complete && c r && r.isDone) = [] :=
    List.filter_eq_nil_iff.mpr fun r hr => by simp [hends r hr]
  have hsame : (s.sc.reads.map fun r => if !r.complete && c r && r.isDone then { r with complete := true } else r) =
      s.sc.reads := by
    conv_rhs => rw [← List.map_id s.sc.reads]
    exact List.map_congr_left fun r hr => by simp [hends r hr]
  simp only [completeReads, hnone, hsame, List.foldl_nil]

/-- The last record completes alone where the others are not concerned (R70). -/
theorem completeReads_append {c : ReadRecord → Bool} {rs : List ReadRecord} {r : ReadRecord}
    (hothers : ∀ x ∈ rs, c x = false) (hc : c r = true) (hpending : r.complete = false) (hdone : r.isDone = true) :
    completeReads c { s with sc := { s.sc with reads := rs ++ [r] } } =
      postReadReport { s with sc := { s.sc with reads := rs ++ [{ r with complete := true }] } } r := by
  have hnone : (rs.filter fun r => !r.complete && c r && r.isDone) = [] :=
    List.filter_eq_nil_iff.mpr fun x hx => by simp [hothers x hx]
  have hsame : (rs.map fun r => if !r.complete && c r && r.isDone then { r with complete := true } else r) = rs := by
    conv_rhs => rw [← List.map_id rs]
    exact List.map_congr_left fun x hx => by simp [hothers x hx]
  simp only [completeReads, List.filter_append, hnone, List.map_append, hsame]
  simp [hc, hpending, hdone]

end

/-! ## READ accepted -/

section
variable {s : State} {ch : Channel} {f : Frame}

theorem readObjections_eq_none {first count : Nat} (hcount : 1 ≤ count) (hmost : count ≤ 32)
    (hlast : first + count ≤ lbaCount)
    (hfree : ∀ e ∈ s.cu.locks, e.owner = other ch → e.mode = .fullGuard →
      e.first + e.count ≤ first ∨ first + count ≤ e.first)
    (hreads : (s.sc.reads.countP fun r => r.channel == ch) < 32) : readObjections ch first count s = none := by
  have hlocked : ¬ isLockedFor s ch LockMode.barsReads first count = true := fun h => by
    obtain ⟨e, he, howner, hbars, hmeets⟩ := (isLockedFor_iff ..).mp h
    have := hfree e he howner (by simpa using (LockMode.barsReads_iff _).mp hbars)
    omega
  rw [readObjections_eq, if_neg (not_not.mpr ((isRequestRun_iff ..).mpr ⟨hcount, hmost, hlast⟩)), if_neg hlocked,
    if_neg (by omega)]

theorem exec_read_of_accepted (h : Admitted s ch .read f)
    (hr : readObjections ch (field32 f 0) (field16 f 2) s = none)
    (hspace : spaceFor (missCount s (field32 f 0) (field16 f 2)) (inRun (field32 f 0) (field16 f 2)) s = true) :
    exec (.read ch f) s = .next (workArrival (accept ch f.tag .plain
      (startRead ch f.tag (field32 f 0) (field16 f 2) (addOutstanding ch f.tag .read s)))) := by
  rw [exec_read h, readRequest, hr]
  simp only [hspace, if_true]

/-- No read record has the channel and a fresh tag (R165). -/
theorem Admitted.fresh_read {k : FrameKind} (h : Admitted s ch k f) :
    ∀ r ∈ s.sc.reads, (r.channel == ch && r.tag == f.tag) = false := by
  intro r hr
  rw [← Bool.not_eq_true]
  intro hsame
  have hused : tagInUse s ch f.tag = true :=
    (tagInUse_iff s ch f.tag).mpr (.inr ⟨r, hr, by simpa using hsame⟩)
  rw [h.tag] at hused
  cases hused

theorem mem_runLbas {first count lba : Nat} : lba ∈ runLbas first count ↔ inRun first count lba = true := by
  simp only [runLbas, List.mem_map, List.mem_range, inRun, Bool.and_eq_true, decide_eq_true_eq]
  constructor
  · rintro ⟨i, hi, rfl⟩
    omega
  · rintro ⟨hfirst, hlast⟩
    exact ⟨lba - first, by omega, by omega⟩

/-- The free slots depend on the reservations, and on nothing else of a link. -/
theorem freeSlots_withLink {l : Link} (h : l.dataPhase = (s.links.get ch).dataPhase) :
    freeSlots (s.withLink ch l) = freeSlots s := by
  have hreserved : reservedSlots (s.withLink ch l) = reservedSlots s := by
    cases ch <;> simp_all [reservedSlots, State.withLink, PerChannel.set, PerChannel.get, Link.reservedSlots]
  simp only [freeSlots, hreserved]
  rfl

/-- A READ of held sectors completes at acceptance (R70). -/
theorem startRead_of_held {tag : Byte} {first count : Nat}
    (hfresh : ∀ r ∈ s.sc.reads, (r.channel == ch && r.tag == tag) = false)
    (hheld : ∀ lba ∈ runLbas first count, ∃ e, entryAt s lba = some e ∧ e.state ≠ .reading) :
    startRead ch tag first count s =
      postReport ch tag .read .ok count false
        { s with sc := { s.sc with
          reads := s.sc.reads ++
            [⟨ch, tag, first, count, (runLbas first count).map fun lba => ⟨lba, .ready⟩, 0, true⟩]
          recency := (runLbas first count).foldl (fun r lba => r.erase lba ++ [lba]) s.sc.recency } } := by
  have hmisses : missCount s first count = 0 := by
    refine List.countP_eq_zero.mpr fun lba hlba => ?_
    obtain ⟨e, he, -⟩ := hheld lba hlba
    simp [he]
  have hroom : makeSpace (missCount s first count) (inRun first count) s = s := by
    rw [hmisses]
    exact makeSpace_eq_self _ (Nat.zero_le _) (Nat.zero_le _)
  let recent : State := { s with sc := { s.sc with
    recency := (runLbas first count).foldl (fun r lba => r.erase lba ++ [lba]) s.sc.recency } }
  have hplaced : (runLbas first count).foldl referTo s = recent := foldl_referTo_of_held _ s fun lba hlba =>
    let ⟨e, he, _⟩ := hheld lba hlba
    ⟨e, he⟩
  have hrefs : (runLbas first count).map (referenceTo recent) = (runLbas first count).map fun lba => ⟨lba, .ready⟩ :=
    List.map_congr_left fun lba hlba => by
      obtain ⟨e, he, hdata⟩ := hheld lba hlba
      have he' : entryAt recent lba = some e := he
      simp [referenceTo, he', (EntryState.hasData_iff _).mpr hdata]
  simp only [startRead, hroom, hplaced, hrefs]
  rw [completeReads_append hfresh (by simp) rfl (by simp [ReadRecord.isDone]), afterEvictions_of_subset]
  · rfl
  · exact fun _ he => he

/-- The record of an accepted READ that refers to a waiting sector does not complete. -/
theorem startRead_of_waiting {tag : Byte} {first count : Nat}
    (hfresh : ∀ r ∈ s.sc.reads, (r.channel == ch && r.tag == tag) = false)
    {placed : State}
    (hplaced : (runLbas first count).foldl referTo (makeSpace (missCount s first count) (inRun first count) s) = placed)
    (hwaiting : ∃ lba ∈ runLbas first count, (referenceTo placed lba).cond = .waiting) :
    startRead ch tag first count s =
      afterEvictions s
        { placed with sc := { placed.sc with
          reads := placed.sc.reads ++
            [⟨ch, tag, first, count, (runLbas first count).map (referenceTo placed), 0, false⟩] } } := by
  subst hplaced
  rw [startRead]
  refine congrArg (afterEvictions s) (completeReads_of_waiting fun r hr hc => ?_)
  rcases List.mem_append.mp hr with hold | hnew
  · rw [foldl_referTo_reads, reads_makeSpace] at hold
    rw [hfresh r hold] at hc
    cases hc
  · cases List.mem_singleton.mp hnew
    obtain ⟨lba, hlba, hcond⟩ := hwaiting
    refine Bool.eq_false_iff.mpr fun hdone => ?_
    have hnone := List.all_eq_true.mp hdone _ (List.mem_map_of_mem hlba)
    simp [hcond] at hnone

end

/-- Settles O26: the run's held sectors become most recent and its missing ones are fetched, in LBA order, and the
record completes at once exactly where nothing is missing or in READING. -/
theorem acceptedReadsReferToHeldSectorsAndFetchMissingOnes :
    Obligations.AcceptedReadsReferToHeldSectorsAndFetchMissingOnes := by
  refine ⟨?_, ?_, ?_⟩
  · intro ch f s h first count lbas l hcount hmost hlast hfree hreads hheld
    have hmisses : missCount s first count = 0 := by
      refine List.countP_eq_zero.mpr fun lba hlba => ?_
      obtain ⟨e, he, -⟩ := hheld lba hlba
      simp [he]
    have hspace : spaceFor (missCount s first count) (inRun first count) s = true :=
      spaceFor_of_free _ (by omega) (by omega)
    rw [exec_read_of_accepted h (readObjections_eq_none hcount hmost hlast hfree hreads) hspace,
      startRead_of_held (by exact h.fresh_read) (by exact hheld)]
    let done : State := { s with sc := { s.sc with
      reads := s.sc.reads ++ [⟨ch, f.tag, first, count, lbas.map fun lba => ⟨lba, .ready⟩, 0, true⟩]
      recency := lbas.foldl (fun r lba => r.erase lba ++ [lba]) s.sc.recency } }
    have hreported := postReport_addOutstanding (s := done) h.attn h.takes.attached (h.notMem_outstanding .read) .ok
      count false
    change Host.Outcome.next (workArrival (accept ch f.tag .plain
      (postReport ch f.tag .read .ok count false (addOutstanding ch f.tag .read done)))) = _
    rw [hreported, accept_withLink]
    · exact congrArg _ (workArrival_eq_self (by exact h.idle))
    · rw [Link.attnDue_of_attached (by exact h.takes.attached)]
  · intro ch f s slot buffer slots buffers h lba l place hone hlast hfree hreads hmiss hslots hbuffers
    have hqueued := addOutstanding_eq h.attn ch f.tag .read
    have hmisses : missCount s lba (field16 f 2) = 1 := by simp [missCount, runLbas, hone, hmiss]
    have hspace : spaceFor (missCount s lba (field16 f 2)) (inRun lba (field16 f 2)) s = true :=
      spaceFor_of_free _ (by simp [hmisses, hslots]) (by simp [hmisses, hbuffers])
    have hobjection : readObjections ch lba (field16 f 2) s = none :=
      readObjections_eq_none (by omega) (by omega) (by omega) (by rw [hone]; simpa [Nat.lt_succ_iff] using hfree) hreads
    let queued := addOutstanding ch f.tag .read s
    have hfree' : freeSlots queued = slot :: slots := by
      rw [← hslots, show queued = _ from hqueued]
      exact freeSlots_withLink rfl
    have hbuffers' : queued.sc.freeList = buffer :: buffers := hbuffers
    have hroom : makeSpace (missCount queued lba (field16 f 2)) (inRun lba (field16 f 2)) queued = queued :=
      makeSpace_eq_self _ (by rw [hfree']; exact hmisses.trans_le (by simp))
        (by rw [hbuffers']; exact hmisses.trans_le (by simp))
    have hplaced : (runLbas lba (field16 f 2)).foldl referTo
        (makeSpace (missCount queued lba (field16 f 2)) (inRun lba (field16 f 2)) queued) =
          createReading lba queued := by
      have hmiss' : entryAt queued lba = none := hmiss
      rw [hroom, hone]
      simp [runLbas, referTo, hmiss']
    have hwaiting : (referenceTo (createReading lba queued) lba) = ⟨lba, .waiting⟩ := by
      obtain ⟨e, he, hreading⟩ := entryAt_createReading_self (s := queued) hmiss
      simp [referenceTo, he, hreading, EntryState.hasData]
    rw [exec_read_of_accepted h hobjection hspace, startRead_of_waiting (by exact h.fresh_read) hplaced
      ⟨lba, by simp [runLbas, hone], by rw [hwaiting]⟩, afterEvictions_of_subset]
    · have hrefs : (runLbas lba (field16 f 2)).map (referenceTo (createReading lba queued)) = [⟨lba, .waiting⟩] := by
        simp [runLbas, hone, hwaiting]
      rw [hrefs, createReading_eq hfree' hbuffers', show queued = _ from hqueued, hone]
      refine congrArg (fun t => Host.Outcome.next (workArrival t)) (?_ : accept ch f.tag .plain
        (State.withLink { s with sc := _, pe := _ } ch _) = _)
      rw [accept_withLink (by exact h.attn ch)]
      rfl
    · exact fun e he => mem_insertBySlot.mpr (.inr he)
  · intro ch f s h first count lbas misses hit l ready hcount hmost hlast hfree hreads hspace hnotReady queued placed
    have hqueued : addOutstanding ch f.tag .read s = queued := addOutstanding_eq h.attn ..
    have hplaced : (runLbas first count).foldl referTo
        (makeSpace (missCount queued first count) (inRun first count) queued) = placed := by
      refine congrArg (fun g => List.foldl g _ _) (funext₂ fun r x => ?_)
      unfold referTo
      cases entryAt r x <;> rfl
    have hspared (lba : Nat) (hlba : lba ∈ lbas) :
        entryAt (makeSpace (missCount queued first count) (inRun first count) queued) lba = entryAt s lba :=
      entryAt_makeSpace_of_hit _ (mem_runLbas.mp hlba) queued
    have hready (lba : Nat) (hlba : lba ∈ lbas) :
        (∃ e, entryAt placed lba = some e ∧ e.state ≠ .reading) ↔ ready lba := by
      obtain ⟨hheld, hmissing⟩ := entryAt_foldl_referTo lbas
        (makeSpace (missCount queued first count) (inRun first count) queued)
      rw [← hplaced]
      cases he : entryAt s lba with
      | some e =>
        have hkept := hheld lba e ((hspared lba hlba).trans he)
        exact ⟨fun ⟨x, hx, hdata⟩ => ⟨e, he, by cases hkept.symm.trans hx; exact hdata⟩,
          fun ⟨x, hx, hdata⟩ => ⟨e, hkept, by cases he.symm.trans hx; exact hdata⟩⟩
      | none =>
        obtain ⟨e, hfetched, hreading⟩ := hmissing lba hlba ((hspared lba hlba).trans he)
        exact ⟨fun ⟨x, hx, hdata⟩ => absurd hreading (by cases hfetched.symm.trans hx; exact hdata),
          fun ⟨x, hx, _⟩ => by cases he.symm.trans hx⟩
    obtain ⟨lba, hlba, hwaits⟩ := hnotReady
    refine ⟨lbas.map (referenceTo placed), ?_, fun x hx => ?_, ?_⟩
    · simp [Function.comp_def, referenceTo_lba]
    · obtain ⟨y, hy, rfl⟩ := List.mem_map.mp hx
      rw [referenceTo_lba, ← hready y hy]
      exact referenceTo_cond placed y
    · rw [exec_read_of_accepted h (readObjections_eq_none hcount hmost hlast hfree hreads) (decide_eq_true hspace),
        hqueued, startRead_of_waiting (by exact h.fresh_read) hplaced
          ⟨lba, hlba, (referenceTo_cond placed lba).2 fun hr => hwaits ((hready lba hlba).mp hr)⟩]
      rfl

end Sys2Proof.Machine
end

section
/-! SUPPORT and PROOFS. The take and the write's data phase (Sections 4.6, 5.2 and 5.6): settles O30 and O31. -/

namespace Sys2Proof.Machine

/-! ## A take by the state of its entry (R75 to R77) -/

section
variable {s : State} {e : Entry} {lba : Nat}

theorem updEntry_eq (lba : Nat) (g : Entry → Entry) (s : State) :
    updEntry lba g s =
      { s with sc := { s.sc with entries := s.sc.entries.map fun x => if x.lba = lba then g x else x } } := by
  simp only [updEntry, beq_iff_eq]

/-- Two changes of an entry in a row are one change. -/
theorem updEntry_updEntry {g : Entry → Entry} (h : ∀ x, (g x).lba = x.lba) (k : Entry → Entry) (s : State) :
    updEntry lba k (updEntry lba g s) = updEntry lba (fun x => k (g x)) s := by
  simp only [updEntry_eq, List.map_map]
  congr 3
  funext x
  by_cases hx : x.lba = lba <;> simp [hx, h]

theorem updEntry_createTask (lba l : Nat) (g : Entry → Entry) (addr : Phys) (buffer take : Nat) (s : State) :
    updEntry lba g (createTask l addr buffer take s) = createTask l addr buffer take (updEntry lba g s) := rfl

theorem updTask_eq (lba : Nat) (g : CommitTask → CommitTask) (s : State) :
    updTask lba g s =
      { s with cmu := { s.cmu with tasks := s.cmu.tasks.map fun x => if x.lba = lba then g x else x } } := by
  simp only [updTask, beq_iff_eq]

theorem withdraw_eq (o : OpOwner) (s : State) :
    withdraw o s =
      { s with pe := { s.pe with
        due := s.pe.due.filter fun op => op.owner != o
        pass := s.pe.pass.map fun c => if c.op.owner = o then { c with withdrawn := true } else c } } := by
  simp only [withdraw, withdrawAll, Engine.withdrawn, beq_iff_eq]
  rfl

/-- A take finds the entry of its LBA and stamps it (R62, R75). -/
theorem takeSector_of_entry (h : entryAt s lba = some e) (ch : Channel) (buffer : Nat) :
    takeSector ch s (lba, buffer) =
      touch lba (updEntry lba (fun x => { x with writer := some ch, take := some (s.sc.takes + 1), blank := false })
        (match e.state with
          | .reading => takeReading e buffer (s.sc.takes + 1) { s with sc := { s.sc with takes := s.sc.takes + 1 } }
          | .clean => takeClean e buffer (s.sc.takes + 1) { s with sc := { s.sc with takes := s.sc.takes + 1 } }
          | .committing =>
            takeCommitting e buffer (s.sc.takes + 1) { s with sc := { s.sc with takes := s.sc.takes + 1 } }
          | .committingNewer => takeNewer e buffer { s with sc := { s.sc with takes := s.sc.takes + 1 } })) := by
  have h' : entryAt { s with sc := { s.sc with takes := s.sc.takes + 1 } } lba = some e := h
  simp only [takeSector, takeCase, h'] <;> rfl

end

/-- Settles O31, by the state of the entry and, in COMMITTING, the stage of its task. -/
theorem aTakeActsByTheStateOfItsEntry : Obligations.ATakeActsByTheStateOfItsEntry := by
  intro ch s lba buffer e he take taken
  obtain ⟨hmem, rfl⟩ := entryAt_some he
  refine ⟨?_, ?_, ?_, ?_⟩
  · intro hstate r
    rw [takeSector_of_entry he, hstate]
    have hr : takeReading e buffer take { s with sc := { s.sc with takes := take } } = r := by
      simp only [takeReading, withdraw_eq, replaceCurrent, updEntry_eq]
      rfl
    simp only [show s.sc.takes + 1 = take from rfl, hr, updEntry_eq]
    rfl
  · intro hstate t
    rw [takeSector_of_entry he, hstate]
    simp only [takeClean, replaceCurrent]
    rw [updEntry_createTask, updEntry_updEntry, updEntry_eq]
    · rfl
    · exact fun _ => rfl
  · intro task hstate htask
    have htask' : taskAt { s with sc := { s.sc with takes := take } } e.lba = some task := htask
    refine ⟨fun hstage => ?_, fun hstage => ?_⟩ <;> rw [takeSector_of_entry he, hstate]
    · have hbefore : takeCommitting e buffer take { s with sc := { s.sc with takes := take } } =
          updTask e.lba (fun y => { y with buffer := buffer, take := take })
            (updEntry e.lba (fun x => { x with current := buffer })
              (freeBuffers [e.current] { s with sc := { s.sc with takes := take } })) := by
        unfold takeCommitting
        rw [htask']
        cases hst : task.stage <;> simp_all
      simp only [show s.sc.takes + 1 = take from rfl, hbefore]
      change touch e.lba (updTask e.lba _ (updEntry e.lba _ (updEntry e.lba _ _))) = _
      rw [updEntry_updEntry, updEntry_eq, updTask_eq]
      · rfl
      · exact fun _ => rfl
    · have hverifying : takeCommitting e buffer take { s with sc := { s.sc with takes := take } } =
          updEntry e.lba (fun x => { x with state := .committingNewer, newer := some buffer })
            { s with sc := { s.sc with takes := take } } := by
        unfold takeCommitting
        rw [htask', Option.map_some, hstage]
      simp only [show s.sc.takes + 1 = take from rfl, hverifying]
      rw [updEntry_updEntry, updEntry_eq]
      · simp [taken, touch]
      · exact fun _ => rfl
  · intro hstate
    rw [takeSector_of_entry he, hstate]
    simp only [takeNewer]
    rw [updEntry_updEntry, updEntry_eq]
    · rfl
    · exact fun _ => rfl

/-! ## WRITE accepted, and its data phase (R73, R74, R163) -/

section
variable {s : State} {ch : Channel} {f : Frame}

theorem exec_write_of_accepted (h : Admitted s ch .write f) (hr : writeObjections ch f s = none)
    (hroom : writeRoom ch (field16 f 2) s = true) :
    exec (.write ch f) s = .next (workArrival (accept ch f.tag .plain
      (startWrite ch f (addOutstanding ch f.tag .write s)))) := by
  simp only [exec_write h, writeHeader, hr, hroom, if_true]

theorem writeObjections_eq_none (hcount : 1 ≤ field16 f 2) (hmost : field16 f 2 ≤ 32)
    (hlast : field32 f 0 + field16 f 2 ≤ lbaCount) {mode : WriteMode} (hmode : writeMode f = some mode)
    (hfree : ∀ e ∈ s.cu.locks, e.owner = other ch →
      e.first + e.count ≤ field32 f 0 ∨ field32 f 0 + field16 f 2 ≤ e.first)
    (htakes : s.sc.takes + field16 f 2 ≤ maxTake) : writeObjections ch f s = none := by
  have hlocked : ¬ isLockedFor s ch LockMode.barsWrites (field32 f 0) (field16 f 2) = true := fun h => by
    obtain ⟨e, he, howner, -, hmeets⟩ := (isLockedFor_iff ..).mp h
    have := hfree e he howner
    omega
  have hrun : isRequestRun (field32 f 0) (field16 f 2) = true := (isRequestRun_iff ..).mpr ⟨hcount, hmost, hlast⟩
  rw [writeObjections_eq, if_neg (by simp [hrun, hmode]), if_neg hlocked, if_neg (by omega)]

/-- With room free the reservation is made of it, and nothing is evicted. -/
theorem startWrite_of_free (hattn : AttnJudged s) (hslots : field16 f 2 ≤ (freeSlots s).length)
    (hbuffers : field16 f 2 ≤ s.sc.freeList.length) :
    startWrite ch f s =
      State.withLink { s with sc := { s.sc with freeList := s.sc.freeList.drop (field16 f 2) } } ch
        { s.links.get ch with dataPhase := some (reservation f s) } := by
  rw [startWrite, makeSpace_eq_self _ hslots hbuffers]
  rw [afterEvictions_of_subset (by exact fun _ he => he)]
  exact updLink_eq_withLink (by exact hattn ch)

/-- In a data phase a DATA frame reaches its owner, whatever its length. -/
theorem exec_data_of_phase (hreset : (s.links.get ch).resetAsserted = false)
    (htail : (s.links.get ch).discardTail = false) {d : DataPhase} (hd : (s.links.get ch).dataPhase = some d) :
    exec (.data ch f) s = .next (workArrival (dataFrameReceived ch f s)) := by
  have hverdict : judgeFrame ch .data f s = .toOwner := by simp [judgeFrame, hreset, htail, hd]
  exact congrArg _ (answerFrame_of_toOwner hverdict)

theorem placeData_eq (hattn : AttnJudged s) (d : DataPhase) (f : Frame) :
    placeData ch d f s =
      State.withLink { s with sc := { s.sc with
        buffers := s.sc.buffers.setIfInBounds (d.buffers.getD d.received 0) (dataPayload f) } } ch
        { s.links.get ch with dataPhase := some { d with received := d.received + 1 } } :=
  updLink_eq_withLink (by exact hattn ch)

theorem endDataPhase_eq (hattn : AttnJudged s) (ch : Channel) :
    endDataPhase ch s = s.withLink ch { s.links.get ch with dataPhase := none } :=
  updLink_eq_withLink (by exact hattn ch)

/-- A DATA frame that is not the last one fills the next buffer. -/
theorem exec_data_of_notLast (hattn : AttnJudged s) (hidle : IdleHasNothingDue s)
    (hreset : (s.links.get ch).resetAsserted = false) (htail : (s.links.get ch).discardTail = false) {d : DataPhase}
    (hd : (s.links.get ch).dataPhase = some d) (hfull : isFullData f = true) (hmore : d.received + 1 < d.count) :
    exec (.data ch f) s = .next (State.withLink { s with sc := { s.sc with
        buffers := s.sc.buffers.setIfInBounds (d.buffers.getD d.received 0) (dataPayload f) } } ch
      { s.links.get ch with
        dataPhase := some { d with received := d.received + 1 }
        response := some ⟨f.tag, .accepted .plain⟩ }) := by
  rw [exec_data_of_phase hreset htail hd]
  simp only [dataFrameReceived, hd, hfull, if_true, if_pos hmore]
  rw [placeData_eq hattn, accept_withLink (by exact hattn ch)]
  exact congrArg _ (workArrival_eq_self (by exact hidle))

/-- The last DATA frame makes the take. -/
theorem exec_data_of_last (hattn : AttnJudged s) (hreset : (s.links.get ch).resetAsserted = false)
    (htail : (s.links.get ch).discardTail = false) {d : DataPhase} (hd : (s.links.get ch).dataPhase = some d)
    (hfull : isFullData f = true) (hlast : d.count ≤ d.received + 1) :
    exec (.data ch f) s = .next (workArrival (accept ch f.tag .plain (makeTake ch d
      (State.withLink { s with sc := { s.sc with
          buffers := s.sc.buffers.setIfInBounds (d.buffers.getD d.received 0) (dataPayload f) } } ch
        { s.links.get ch with dataPhase := some { d with received := d.received + 1 } })))) := by
  rw [exec_data_of_phase hreset htail hd]
  simp only [dataFrameReceived, hd, hfull, if_true, if_neg (not_lt.mpr hlast)]
  rw [placeData_eq hattn]

/-- A run of takes keeps ATTN as it is judged. -/
theorem AttnJudged.takes (h : AttnJudged s) (ch : Channel) (xs : List (Nat × Nat)) :
    AttnJudged (xs.foldl (takeSector ch) s) := fun x =>
  (Calm.foldl (f := Machine.takeSector ch) (fun s y => (Calm.refl s).takeSector ch y) xs (Calm.refl s)).attn x (h x)

theorem state_of_takes (ch : Channel) (xs : List (Nat × Nat)) (s : State) :
    (xs.foldl (takeSector ch) s).cc.state = s.cc.state :=
  (Calm.foldl (f := Machine.takeSector ch) (fun s y => (Calm.refl s).takeSector ch y) xs (Calm.refl s)).cart

/-- A stamp that an entry bears already changes nothing. -/
theorem map_stamp_insertBySlot {e : Entry} {entries : List Entry} (hothers : ∀ x ∈ entries, x.lba ≠ e.lba)
    {g : Entry → Entry} (he : g e = e) :
    (insertBySlot e entries).map (fun x => if x.lba = e.lba then g x else x) = insertBySlot e entries := by
  conv_rhs => rw [← List.map_id (insertBySlot e entries)]
  refine List.map_congr_left fun x hx => ?_
  rcases mem_insertBySlot.mp hx with rfl | hx
  · simp [he]
  · simp [hothers x hx]

/-- A take of an LBA with no entry makes one in the lowest reserved slot, most recent, with its task (R76). -/
theorem takeSector_of_none {lba slot : Nat} (h : entryAt s lba = none) (hrecency : lba ∉ s.sc.recency)
    {d : DataPhase} (hd : (s.links.get ch).dataPhase = some d) (hslots : d.slots = [slot])
    (hattn : AttnJudged s) (buffer : Nat) :
    takeSector ch s (lba, buffer) =
      { s with
        sc := { s.sc with
          takes := s.sc.takes + 1
          entries := insertBySlot ⟨slot, lba, s.rmt.translate lba, .committing, false, buffer, none, some ch,
            some (s.sc.takes + 1), 0⟩ s.sc.entries
          recency := s.sc.recency ++ [lba] }
        cmu := { s.cmu with tasks := s.cmu.tasks ++
          [⟨lba, s.rmt.translate lba, .eraseDue, buffer, s.sc.takes + 1, s.cu.settings.verifyPolicy, 0,
            s.rmt.unverifiedMove (s.rmt.translate lba), none⟩] }
        pe := { s.pe with due := s.pe.due ++ [⟨.task lba, .erase, s.rmt.translate lba⟩] }
        links := s.links.set ch { s.links.get ch with dataPhase := some { d with slots := [] } } } := by
  have hothers : ∀ x ∈ s.sc.entries, x.lba ≠ lba := fun x hx hlba => by
    have := List.find?_eq_none.mp h x hx
    simp [hlba] at this
  have hstamped := map_stamp_insertBySlot
    (e := ⟨slot, lba, s.rmt.translate lba, .committing, false, buffer, none, some ch, some (s.sc.takes + 1), 0⟩)
    (g := fun e => { e with writer := some ch, take := some (s.sc.takes + 1), blank := false }) hothers rfl
  have hlink : updLink ch (fun l => { l with dataPhase := l.dataPhase.map fun d => { d with slots := d.slots.tail } })
      { s with sc := { s.sc with takes := s.sc.takes + 1 } } =
        State.withLink { s with sc := { s.sc with takes := s.sc.takes + 1 } } ch
          { s.links.get ch with dataPhase := some { d with slots := [] } } := by
    rw [updLink_eq_withLink (by exact hattn ch), hd]
    simp [hslots]
  have h' : entryAt { s with sc := { s.sc with takes := s.sc.takes + 1 } } lba = none := h
  have hreserved : (s.links.get ch).reservedSlots.headD 0 = slot := by simp [Link.reservedSlots, hd, hslots]
  simp only [takeSector, takeCase, h', takeNew, hlink]
  have hrecent : (s.sc.recency ++ [lba]).erase lba ++ [lba] = s.sc.recency ++ [lba] := by
    simp [List.erase_append, hrecency]
  simp only [hreserved, addEntry, updEntry_eq, touch, takenEntry, State.withLink,
    List.erase_of_not_mem hrecency]
  simp only [createTask, offer, hstamped, hrecent]
  rfl

end

/-- Settles O30: the reservation is made of the room found, a frame that is not the last one fills a buffer, and the
last one makes the take, whose answer is read off the mode and the cartridge state. -/
theorem aWriteReservesItsSpaceIsFilledAndTaken : Obligations.AWriteReservesItsSpaceIsFilledAndTaken := by
  refine ⟨?_, ?_⟩
  · intro ch f s mode h first count l hcount hmost hlast hmode hfree htakes hdirty hslots hbuffers
    have hspace : spaceFor count (fun _ => false) s = true := spaceFor_of_free _ hslots hbuffers
    have hroom : writeRoom ch count s = true := by simp [writeRoom, hdirty, hspace]
    rw [exec_write_of_accepted h (writeObjections_eq_none hcount hmost hlast hmode hfree htakes) hroom,
      addOutstanding_eq h.attn]
    let queued := s.withLink ch { l with outstanding := l.outstanding ++ [⟨f.tag, .write⟩] }
    have hqueued : AttnJudged queued := h.attn.withLink (by exact h.attn ch)
    have hslots' : freeSlots queued = freeSlots s := freeSlots_withLink rfl
    have hreserved : reservation f queued =
        ⟨f.tag, first, count, mode, 0, s.sc.freeList.take count, (freeSlots s).take count⟩ := by
      simp only [reservation, hslots', hmode, Option.getD_some]
      rfl
    rw [startWrite_of_free hqueued (by rw [hslots']; exact hslots) (by exact hbuffers), hreserved,
      accept_withLink (by exact hqueued ch)]
    refine congrArg _ ((workArrival_eq_self (by exact h.idle)).trans ?_)
    simp only [queued, State.withLink, PerChannel.get_set_self, PerChannel.set_set]
    rfl
  · intro ch f s d hattn hidle hreset htail hd hfull l filled
    refine ⟨exec_data_of_notLast hattn hidle hreset htail hd hfull, ?_⟩
    intro closed finished reported answered
    have hanswered {r : State} (hcart : r.cc.state = s.cc.state)
        (h : finished (answerTake ch d (s.sc.takes + 1) r)) : answered r := by
      refine ⟨fun hmode => ?_, fun hmode hfailed => ?_, fun hmode hrun => ?_⟩
      · simpa only [answerTake, hmode] using h
      · simpa only [answerTake, hmode, hcart, hfailed, if_true] using h
      · simp only [answerTake, hmode, hcart, hrun, if_false] at h
        exact h
    let whole : State := State.withLink { s with sc := { s.sc with buffers := filled } } ch
      { l with dataPhase := some { d with received := d.received + 1 } }
    have hwhole : AttnJudged whole := AttnJudged.withLink (by exact hattn) (by exact hattn ch)
    let answer : State → Host.Outcome State Fault Refusal := fun r => .next (workArrival (accept ch f.tag .plain r))
    let pairs := ((List.range d.count).map fun i => d.first + i).zip d.buffers
    have htaken (hlast : d.count ≤ d.received + 1) (hloaded : s.rmt.loaded = true) :
        answered (closed (pairs.foldl (takeSector ch) whole)) := by
      refine hanswered (state_of_takes ch pairs whole) ?_
      have hmade : makeTake ch d whole =
          drainCheck (freeingEvent (answerTake ch d (s.sc.takes + 1) (closed (pairs.foldl (takeSector ch) whole)))) := by
        have hloaded' : whole.rmt.loaded = true := hloaded
        rw [makeTake, if_pos hloaded', takeLoaded, endDataPhase_eq (by exact hwhole.takes ch pairs)]
        rfl
      exact (exec_data_of_last hattn hreset htail hd hfull hlast).trans (congrArg answer hmade)
    refine ⟨fun hlast => ⟨htaken hlast, fun hunloaded => ?_⟩, ?_⟩
    · have hmade : makeTake ch d whole = drainCheck (freeingEvent (reported .mediumFault d.first (closed
          { whole with sc := { whole.sc with freeList := s.sc.freeList ++ d.buffers } }))) := by
        have hunloaded' : ¬ whole.rmt.loaded = true := by simp [whole, State.withLink, hunloaded]
        rw [makeTake, if_neg hunloaded', takeUnloaded, endDataPhase_eq (by exact hwhole)]
        rfl
      exact (exec_data_of_last hattn hreset htail hd hfull hlast).trans (congrArg answer hmade)
    · intro buffer slot hone hloaded hmiss hrecency take place
      have hcount : d.count = 1 := congrArg DataPhase.count hone
      have hbuffers : d.buffers = [buffer] := congrArg DataPhase.buffers hone
      have hslots : d.slots = [slot] := congrArg DataPhase.slots hone
      have hfirst := htaken (by omega) hloaded
      have hpairs : pairs = [(d.first, buffer)] := by simp [pairs, hcount, hbuffers]
      rw [hpairs, List.foldl_cons, List.foldl_nil, takeSector_of_none (d := { d with received := d.received + 1 }) (by exact hmiss)
        (by exact hrecency) (by exact congrArg Link.dataPhase (State.withLink_get ..)) hslots hwhole] at hfirst
      simp only [whole, closed, State.withLink, PerChannel.get_set_self, PerChannel.set_set] at hfirst
      exact hfirst

end Sys2Proof.Machine
end

section
/-! SUPPORT and PROOFS. References, read outcomes and waiters (Sections 4.5, 4.9, 5.6 and 7.6): settles O53, O55 and
O56. -/

namespace Sys2Proof.Machine

/-! ## References that become ready or resolve bad (R68, R69, R138, R139) -/

section
variable {s : State}

theorem ReadRecord.readied_eq (lba : Nat) (r : ReadRecord) :
    r.readied lba = { r with refs := r.refs.map fun x =>
      if x.lba = lba ∧ x.cond = .waiting then { x with cond := .ready } else x } := by
  simp only [ReadRecord.readied, Bool.and_eq_true, beq_iff_eq]

theorem ReadRecord.spoiled_eq (lba : Nat) (status : BadStatus) (r : ReadRecord) :
    r.spoiled lba status =
      { r with
        bad := if r.complete then r.bad else
          r.bad + r.refs.countP fun x => x.lba == lba && (x.cond == .waiting || x.cond == .ready)
        refs := r.refs.map fun x =>
          if x.lba == lba && (x.cond == .waiting || x.cond == .ready) then { x with cond := .bad status } else x } := by
  simp only [ReadRecord.spoiled, ReadRecord.pinsOn, ReadRef.pins_eq]

theorem streamReadied_of_risen {ch : Channel} {lba : Nat} (h : (s.su.get ch).level = 0 ∧
    ((s.su.get ch).refs.map fun x => if x.lba = lba then { x with ready := true } else x).countP StreamRef.ready = 1) :
    streamReadied ch lba s = notify ch .streamData { s with su := s.su.set ch { s.su.get ch with
      refs := (s.su.get ch).refs.map fun x => if x.lba = lba then { x with ready := true } else x } } := by
  simp only [streamReadied, beq_iff_eq, updStream]
  exact if_pos h

theorem streamReadied_of_not_risen {ch : Channel} {lba : Nat} (h : ¬ ((s.su.get ch).level = 0 ∧
    ((s.su.get ch).refs.map fun x => if x.lba = lba then { x with ready := true } else x).countP StreamRef.ready = 1)) :
    streamReadied ch lba s = { s with su := s.su.set ch { s.su.get ch with
      refs := (s.su.get ch).refs.map fun x => if x.lba = lba then { x with ready := true } else x } } := by
  simp only [streamReadied, beq_iff_eq, updStream]
  exact if_neg h

theorem streamSpoiled_of_find {ch : Channel} {lba : Nat} {x : StreamRef}
    (h : (s.su.get ch).refs.find? (fun y => y.lba == lba) = some x) (status : BadStatus) :
    streamSpoiled ch lba status s = faultStream ch x.position status s := by
  simp only [streamSpoiled, h]

theorem streamSpoiled_of_absent {ch : Channel} {lba : Nat} (h : ∀ x ∈ (s.su.get ch).refs, x.lba ≠ lba)
    (status : BadStatus) : streamSpoiled ch lba status s = s := by
  have hnone : (s.su.get ch).refs.find? (fun y => y.lba == lba) = none := by simpa using h
  simp only [streamSpoiled, hnone]

end

/-- The first reference that meets a test, at a known place. -/
theorem find?_append_cons {α : Type} {p : α → Bool} {before after : List α} {x : α} (hx : p x = true)
    (hbefore : ∀ y ∈ before, p y = false) : (before ++ x :: after).find? p = some x := by
  have hnone : before.find? p = none := List.find?_eq_none.mpr fun y hy => by simp [hbefore y hy]
  simp [List.find?_append, hnone, hx]

/-- Settles O55: references by the record's changes, streams by their level and their first reference. -/
theorem referencesBecomeReadyOrResolveBad : Obligations.ReferencesBecomeReadyOrResolveBad := by
  refine ⟨fun ch e s h => notify_eq_told h ch e, fun lba status s => ?_⟩
  intro completed pinned
  refine ⟨?_, ?_, fun ch => ?_⟩
  · simp only [refsReady, mapReads, funext (ReadRecord.readied_eq lba)]
    rfl
  · simp only [refsBad, mapReads, funext (ReadRecord.spoiled_eq lba status)]
    rfl
  · intro t refs level readied
    refine ⟨fun h0 h1 => streamReadied_of_risen ⟨h0, h1⟩, fun h => ?_, fun h => streamSpoiled_of_absent h status,
      fun before x after hrefs hx hbefore => ?_⟩
    · exact streamReadied_of_not_risen fun ⟨h0, h1⟩ => h.elim (absurd h0) (absurd h1)
    · have hfind : t.refs.find? (fun y => y.lba == lba) = some x := by
        rw [hrefs]
        exact find?_append_cons (by simpa using hx) fun y hy => by simpa using hbefore y hy
      exact streamSpoiled_of_find hfind status

/-! ## Read outcomes (R68, R69) -/

section
variable {s : State} {e : Entry} {addr : Phys} {o : PassOutcome}

theorem entryOutcome_of_reading (h : entryAt s e.lba = some e) (hreading : e.state = .reading) :
    entryOutcome e.lba e.addr o s =
      match o with
      | .good p _ => readArrived e p false s
      | .blank => readArrived e 0 true s
      | .unreadable =>
        if s.cu.settings.readRetries < e.retries + 1 then readGivenUp e s
        else updEntry e.lba (fun x => { x with retries := x.retries + 1 }) s
      | _ => s := by
  simp only [entryOutcome, h]
  exact if_pos ⟨hreading, trivial⟩

theorem entryOutcome_of_elsewhere (h : entryAt s e.lba = some e) (helse : e.state ≠ .reading ∨ e.addr ≠ addr) :
    entryOutcome e.lba addr o s = s := by
  simp only [entryOutcome, h]
  exact if_neg fun ⟨hreading, haddr⟩ => helse.elim (absurd hreading) (absurd haddr)

theorem readArrived_eq (e : Entry) (p : Payload) (blank : Bool) (s : State) :
    readArrived e p blank s =
      let r := refsReady e.lba
        { s with
          sc := { s.sc with
            buffers := s.sc.buffers.setIfInBounds e.current p
            entries := s.sc.entries.map fun x =>
              if x.lba = e.lba then { x with state := .clean, blank := blank, retries := 0 } else x }
          pe := { s.pe with
            due := s.pe.due.filter fun op => op.owner != .entry e.lba
            pass := s.pe.pass.map fun c => if c.op.owner = .entry e.lba then { c with withdrawn := true } else c } }
      if isUnpinnedClean r e.lba then freeingEvent r else r := by
  simp only [readArrived, withdraw_eq, updEntry_eq]
  rfl

end

/-- Settles O56, by the outcome and by the retries counted so far. -/
theorem readOutcomesReachTheirEntries : Obligations.ReadOutcomesReachTheirEntries := by
  intro e s he settled arrived
  refine ⟨fun hreading => ?_, fun addr o helse => entryOutcome_of_elsewhere he helse⟩
  refine ⟨fun data n => ?_, ?_, fun hleft => ?_, fun hover => ?_⟩ <;> rw [entryOutcome_of_reading he hreading]
  · exact readArrived_eq e data false s
  · exact readArrived_eq e 0 true s
  · simp only [if_neg (show ¬ s.cu.settings.readRetries < e.retries + 1 by omega)]
    exact updEntry_eq ..
  · simp only [if_pos (show s.cu.settings.readRetries < e.retries + 1 by omega), readGivenUp, withdraw_eq]
    rfl

/-! ## Waiters (R98 to R103, R194) -/

section
variable {s : State}

/-- How a waiter ends: status, detail and the SUPERSEDED mark. -/
abbrev Ending := ReportStatus × Nat × Bool

/-- The waiters that end report, oldest registered first; the others stay, each as `after` leaves it. -/
def judgedWaiters (after : Waiter → Waiter) (ended : Waiter → Option Ending) (s : State) : State :=
  s.cmu.waiters.foldl
    (fun r w => match ended w with
      | some x => postReport w.channel w.tag w.kind.queued x.1 x.2.1 x.2.2 r
      | none => r)
    { s with cmu := { s.cmu with waiters := (s.cmu.waiters.filter fun w => (ended w).isNone).map after } }

theorem judgeWaiters_eq {judge : Waiter → Waiter × Option Completion} {after : Waiter → Waiter}
    {ended : Waiter → Option Ending}
    (hended : ∀ w, (judge w).2 = (ended w).map fun x => ⟨x.1, x.2.1, x.2.2⟩)
    (hafter : ∀ w, ended w = none → (judge w).1 = after w)
    (hsame : ∀ w, (judge w).1.channel = w.channel ∧ (judge w).1.tag = w.tag ∧ (judge w).1.kind = w.kind) (s : State) :
    judgeWaiters judge s = judgedWaiters after ended s := by
  have hleft {g : Waiter → Option Waiter} (hg : ∀ w, g w = if (ended w).isNone then some (after w) else none) :
      s.cmu.waiters.filterMap g = (s.cmu.waiters.filter fun w => (ended w).isNone).map after := by
    rw [← List.filterMap_eq_map, List.filterMap_filter]
    exact congrArg (List.filterMap · s.cmu.waiters) (funext fun w => (hg w).trans (by split <;> simp_all))
  have hpost (r : State) (w : Waiter) : postCompletion r (judge w) = match ended w with
      | some x => postReport w.channel w.tag w.kind.queued x.1 x.2.1 x.2.2 r
      | none => r := by
    obtain ⟨hch, htag, hkind⟩ := hsame w
    cases hw : ended w with
    | none => simp [postCompletion, hended, hw]
    | some x => simp [postCompletion, hended, hw, hch, htag, hkind]
  simp only [judgeWaiters, List.foldl_map, List.filterMap_map, hpost]
  rw [hleft fun w => ?_]
  · rfl
  · cases hw : ended w with
    | none => simp [hended, hw, hafter]
    | some x => simp [hended, hw]

/-- Every sector of a waiter is SATISFIED. -/
def Waiter.done (w : Waiter) : Bool := w.sectors.all fun x => x.cond == .satisfied

/-- How a waiter reports OK (R100, R101). -/
def Waiter.okEnding (w : Waiter) : Ending :=
  match w.kind with
  | .sync => (.ok, w.count, w.sectors.any WaitSector.superseded)
  | .flush => (.ok, w.sectors.length, false)

theorem Waiter.satisfied_eq (w : Waiter) :
    w.satisfied = (if w.done then some w.okEnding else none).map fun x => ⟨x.1, x.2.1, x.2.2⟩ := by
  have hdone : w.done = !w.sectors.any WaitSector.isOpen := by
    simp only [Waiter.done, List.not_any_eq_all_not, WaitSector.isOpen, bne, Bool.not_not]
  rw [Waiter.satisfied, hdone]
  cases w.sectors.any WaitSector.isOpen with
  | true => simp
  | false => cases hk : w.kind <;> simp [Waiter.okEnding, hk]

/-- A judgement that changes a waiter's sectors and ends it where all are SATISFIED. -/
theorem judgeWaiters_of_sectors (settle : WaitSector → WaitSector) (s : State) :
    judgeWaiters (fun w =>
        ({ w with sectors := w.sectors.map settle }, Waiter.satisfied { w with sectors := w.sectors.map settle })) s =
      judgedWaiters (fun w => { w with sectors := w.sectors.map settle })
        (fun w =>
          if Waiter.done { w with sectors := w.sectors.map settle } then
            some (Waiter.okEnding { w with sectors := w.sectors.map settle })
          else none) s :=
  judgeWaiters_eq (fun _ => Waiter.satisfied_eq _) (fun _ _ => rfl) (fun _ => ⟨rfl, rfl, rfl⟩) s

/-- A judgement that ends some waiters and leaves the others as they are. -/
theorem judgeWaiters_of_ended (ended : Waiter → Option Ending) (s : State) :
    judgeWaiters (fun w => (w, (ended w).map fun x => ⟨x.1, x.2.1, x.2.2⟩)) s = judgedWaiters id ended s :=
  judgeWaiters_eq (fun _ => rfl) (fun _ _ => rfl) (fun _ => ⟨rfl, rfl, rfl⟩) s

theorem FinishRecord.covered_iff (f : FinishRecord) (v : Nat) :
    f.covered v = true ↔ ∀ g, f.gen = some g → g ≤ v := by
  unfold FinishRecord.covered
  cases f.gen <;> simp

/-- A waiting sector that a finishing record judges (R98). -/
def WaitSector.settledAs (f : FinishRecord) (cond : WaitCond) (x : WaitSector) : WaitSector :=
  if f.judges x then { x with cond := cond, superseded := x.superseded || x.take < f.take } else x

theorem judgeFinish_of_judged {f : FinishRecord} {cond : WaitCond}
    (hcond : (if f.covered s.rmt.verifiedGen then .satisfied else .awaitingTable (f.gen.getD 0)) = cond)
    (hmark : f.covered s.rmt.verifiedGen = true ∨ s.rmt.fault = false) :
    judgeFinish f s = judgedWaiters (fun w => { w with sectors := w.sectors.map (WaitSector.settledAs f cond) })
      (fun w =>
        if Waiter.done { w with sectors := w.sectors.map (WaitSector.settledAs f cond) } then
          some (Waiter.okEnding { w with sectors := w.sectors.map (WaitSector.settledAs f cond) })
        else none) s := by
  have hsettle : f.settle s.rmt.verifiedGen = WaitSector.settledAs f cond := by
    subst hcond
    rfl
  rw [← judgeWaiters_of_sectors, judgeFinish, ← hsettle]
  refine congrArg (judgeWaiters · s) (funext fun w => ?_)
  have hno : (!f.covered s.rmt.verifiedGen && s.rmt.fault && w.sectors.any f.judges) = false := by
    rcases hmark with h | h <;> simp [h]
  simp [FinishRecord.judgeWaiter, hno]

theorem map_settledAs_of_none {f : FinishRecord} {w : Waiter} (h : w.sectors.any f.judges = false) (cond : WaitCond) :
    { w with sectors := w.sectors.map (WaitSector.settledAs f cond) } = w := by
  have hsame : w.sectors.map (WaitSector.settledAs f cond) = w.sectors := by
    conv_rhs => rw [← List.map_id w.sectors]
    refine List.map_congr_left fun x hx => if_neg ?_
    simpa using List.any_eq_false.mp h x hx
  rw [hsame]

/-- Under the fault mark a record that is not covered ends the waiters it judges (R98). -/
theorem judgeFinish_of_faulted {f : FinishRecord} (hcovered : f.covered s.rmt.verifiedGen = false)
    (hfault : s.rmt.fault = true) :
    judgeFinish f s =
      judgedWaiters
        (fun w => { w with sectors := w.sectors.map (WaitSector.settledAs f (.awaitingTable (f.gen.getD 0))) })
        (fun w =>
          if w.sectors.any f.judges then some (.tableFault, f.lba, false)
          else if w.done then some w.okEnding else none) s := by
  have hsettle : f.settle s.rmt.verifiedGen = WaitSector.settledAs f (.awaitingTable (f.gen.getD 0)) := by
    funext x
    simp [FinishRecord.settle, WaitSector.settledAs, hcovered]
  have hwaiter (w : Waiter) : f.judgeWaiter s.rmt w =
      if w.sectors.any f.judges then (w, some ⟨.tableFault, f.lba, false⟩) else (w, w.satisfied) := by
    cases hany : w.sectors.any f.judges with
    | true => simp [FinishRecord.judgeWaiter, hcovered, hfault, hany]
    | false => simp [FinishRecord.judgeWaiter, hany, hsettle, map_settledAs_of_none hany]
  refine judgeWaiters_eq (fun w => ?_) (fun w hw => ?_) (fun w => ?_) s <;> rw [hwaiter] <;>
    cases hany : w.sectors.any f.judges
  · simp [Waiter.satisfied_eq]
  · simp
  · simp [map_settledAs_of_none hany]
  · simp [hany] at hw
  · simp
  · simp

end

/-- Settles O53: every judgement is of the form of `judgedWaiters`, by what the table covers. -/
theorem waitersAreSatisfiedByFinishesAndVerifiedTables :
    Obligations.WaitersAreSatisfiedByFinishesAndVerifiedTables := by
  unfold Obligations.WaitersAreSatisfiedByFinishesAndVerifiedTables
  intro done ok judged
  refine ⟨fun lba take gen s => ?_, fun v s => ?_⟩
  · intro covered judges settle after
    have hcovered : covered ↔ (FinishRecord.mk lba take gen).covered s.rmt.verifiedGen = true :=
      (FinishRecord.covered_iff ⟨lba, take, gen⟩ s.rmt.verifiedGen).symm
    refine ⟨fun h => ?_, fun g hg h => ?_⟩
    · have h' := hcovered.mp h
      exact judgeFinish_of_judged (by rw [if_pos h']) (.inl h')
    · have h' : (FinishRecord.mk lba take gen).covered s.rmt.verifiedGen = false := by simpa using mt hcovered.mpr h
      subst hg
      refine ⟨fun hfault => ?_, fun hfault => ?_⟩
      · exact judgeFinish_of_judged (by rw [h']; rfl) (.inr hfault)
      · exact judgeFinish_of_faulted h' hfault
  · intro release after awaits
    refine ⟨?_, ?_⟩
    · exact judgeWaiters_of_sectors (WaitSector.released v) s
    · refine (congrArg (judgeWaiters · s) (funext fun w => ?_)).trans
        (judgeWaiters_of_ended (fun w => if w.sectors.any awaits then
          some (.tableFault, ((w.sectors.filter awaits).map WaitSector.lba).foldl min lbaCount, false) else none) s)
      have hawaits : WaitSector.awaits v = awaits := rfl
      rw [hawaits]
      cases w.sectors.any awaits <;> rfl

end Sys2Proof.Machine
end

section
/-! SUPPORT and PROOFS. Commit tasks: their stages, their failure and the clearing for eject (Sections 4.9, 5.3 to
5.5 and 5.7): settles O50, O51 and O52. -/

namespace Sys2Proof.Machine

/-! ## What reports and grants leave alone -/

section
variable {s : State}

/-- A run of operations that change links only changes links only. -/
theorem foldl_linksOnly {α : Type} {f : State → α → State} (hf : ∀ s x, ∃ links, f s x = { s with links := links })
    (xs : List α) : ∀ s, ∃ links, xs.foldl f s = { s with links := links } := by
  induction xs with
  | nil => exact fun s => ⟨s.links, rfl⟩
  | cons x xs ih =>
    intro s
    obtain ⟨links, h⟩ := hf s x
    obtain ⟨links', h'⟩ := ih (f s x)
    exact ⟨links', by rw [List.foldl_cons, h', h]⟩

theorem judgedWaiters_linksOnly (after : Waiter → Waiter) (ended : Waiter → Option Ending) (s : State) :
    ∃ links, judgedWaiters after ended s =
      { s with
        links := links
        cmu := { s.cmu with waiters := (s.cmu.waiters.filter fun w => (ended w).isNone).map after } } := by
  obtain ⟨links, h⟩ := foldl_linksOnly (f := fun r w => match ended w with
      | some x => postReport w.channel w.tag w.kind.queued x.1 x.2.1 x.2.2 r
      | none => r) (fun r w => by
    cases ended w with
    | none => exact ⟨r.links, rfl⟩
    | some x => exact ⟨_, rfl⟩) s.cmu.waiters
    { s with cmu := { s.cmu with waiters := (s.cmu.waiters.filter fun w => (ended w).isNone).map after } }
  exact ⟨links, h⟩

/-- The waiters that meet a test report a status, and are gone. -/
theorem judgedWaiters_of_gone (gone : Waiter → Bool) (status : ReportStatus) (detail : Waiter → Nat) (s : State) :
    judgedWaiters id (fun w => if gone w then some (status, detail w, false) else none) s =
      (s.cmu.waiters.filter gone).foldl
        (fun r w => postReport w.channel w.tag w.kind.queued status (detail w) false r)
        { s with cmu := { s.cmu with waiters := s.cmu.waiters.filter fun w => !gone w } } := by
  have hleft : (s.cmu.waiters.filter fun w =>
      (if gone w then some (status, detail w, false) else none : Option Ending).isNone) =
        s.cmu.waiters.filter fun w => !gone w :=
    congrArg (List.filter · s.cmu.waiters) (funext fun w => by cases gone w <;> rfl)
  rw [judgedWaiters, List.map_id, hleft, List.foldl_filter]
  refine congrArg (fun f => List.foldl f _ s.cmu.waiters) (funext₂ fun r w => ?_)
  cases gone w <;> rfl

theorem failWaiters_eq (lba : Nat) (s : State) :
    failWaiters lba s =
      (s.cmu.waiters.filter (Waiter.holdsOpen lba)).foldl
        (fun r w => postReport w.channel w.tag w.kind.queued .writeFault lba false r)
        { s with cmu := { s.cmu with waiters := s.cmu.waiters.filter fun w => !w.holdsOpen lba } } := by
  rw [← judgedWaiters_of_gone (Waiter.holdsOpen lba) .writeFault fun _ => lba, ← judgeWaiters_of_ended, failWaiters]
  refine congrArg (judgeWaiters · s) (funext fun w => ?_)
  cases w.holdsOpen lba <;> rfl

theorem ejectWaiters_eq (lba : Nat) (s : State) :
    ejectWaiters lba s =
      (s.cmu.waiters.filter (Waiter.holdsOpen lba)).foldl
        (fun r w => postReport w.channel w.tag w.kind.queued .mediumFault (w.lowest WaitSector.isOpen) false r)
        { s with cmu := { s.cmu with waiters := s.cmu.waiters.filter fun w => !w.holdsOpen lba } } := by
  rw [← judgedWaiters_of_gone (Waiter.holdsOpen lba) .mediumFault (Waiter.lowest WaitSector.isOpen),
    ← judgeWaiters_of_ended, ejectWaiters]
  refine congrArg (judgeWaiters · s) (funext fun w => ?_)
  cases w.holdsOpen lba <;> rfl

theorem endAllWaiters_eq (s : State) :
    endAllWaiters s =
      (s.cmu.waiters.filter fun _ => true).foldl
        (fun r w => postReport w.channel w.tag w.kind.queued .mediumFault (w.lowest WaitSector.isOpen) false r)
        { s with cmu := { s.cmu with waiters := s.cmu.waiters.filter fun _ => false } } := by
  exact (judgeWaiters_of_ended (fun w => some (.mediumFault, w.lowest WaitSector.isOpen, false)) s).trans
    (judgedWaiters_of_gone (fun _ => true) .mediumFault (Waiter.lowest WaitSector.isOpen) s)

/-- Ended waiters leave everything but the waiters and the links. -/
theorem foldl_ended_linksOnly (gone : Waiter → Bool) (status : ReportStatus) (detail : Waiter → Nat) (s : State) :
    ∃ links, (s.cmu.waiters.filter gone).foldl
        (fun r w => postReport w.channel w.tag w.kind.queued status (detail w) false r)
        { s with cmu := { s.cmu with waiters := s.cmu.waiters.filter fun w => !gone w } } =
      { s with links := links, cmu := { s.cmu with waiters := s.cmu.waiters.filter fun w => !gone w } } := by
  obtain ⟨links, h⟩ := foldl_linksOnly
    (f := fun r (w : Waiter) => postReport w.channel w.tag w.kind.queued status (detail w) false r)
    (fun r w => ⟨_, rfl⟩) (s.cmu.waiters.filter gone)
    { s with cmu := { s.cmu with waiters := s.cmu.waiters.filter fun w => !gone w } }
  exact ⟨links, h⟩

/-- A deferred-fault record changes the lists and the links only (R96). -/
theorem recordFor_rest (writer : Option Channel) (waited : Channel → Bool) (r : FaultRecord) (s : State) :
    ∃ links faults, recordFor writer waited r s =
      { s with links := links, cmu := { s.cmu with faults := faults } } := by
  unfold recordFor
  split
  · split
    · exact ⟨s.links, s.cmu.faults, rfl⟩
    · unfold addFault
      split
      · exact ⟨_, _, rfl⟩
      · exact ⟨s.links, s.cmu.faults, rfl⟩
  · exact ⟨s.links, s.cmu.faults, rfl⟩

theorem grantSpare_sc (home : Phys) (z j : Nat) (s : State) : (grantSpare home z j s).sc = s.sc := by
  unfold grantSpare tableChanged
  split <;> rfl

end

/-! ## The stages of a commit task (R90 to R94) -/

section
variable {s : State} {t : CommitTask} {e : Entry}

theorem removeTask_eq (lba : Nat) (s : State) :
    removeTask lba s =
      { s with
        cmu := { s.cmu with tasks := s.cmu.tasks.filter fun y => y.lba != lba }
        pe := { s.pe with
          due := s.pe.due.filter fun op => op.owner != .task lba
          pass := s.pe.pass.map fun c => if c.op.owner = .task lba then { c with withdrawn := true } else c } } := by
  rw [removeTask, withdraw_eq]

theorem restage_eq (t : CommitTask) (s : State) :
    restage t s =
      { s with
        cmu := { s.cmu with tasks := s.cmu.tasks.map fun y => if y.lba = t.lba then t else y }
        pe := { s.pe with
          due := (s.pe.due.filter fun op => op.owner != .task t.lba) ++ [⟨.task t.lba, t.stage.pass, t.addr⟩]
          pass := s.pe.pass.map fun c => if c.op.owner = .task t.lba then { c with withdrawn := true } else c } } := by
  rw [restage, withdraw_eq, updTask_eq]
  rfl

/-- A finish whose entry holds no newer data makes the entry CLEAN (R92). -/
theorem finishTask_of_committing (he : entryAt s t.lba = some e) (hstate : e.state = .committing) :
    finishTask t s = judgeFinish ⟨t.lba, t.take, t.reassignGen⟩ (freeingEvent
      (updEntry t.lba (fun x => { x with state := .clean }) (removeTask t.lba s))) := by
  obtain ⟨-, hlba⟩ := entryAt_some he
  have he' : entryAt (removeTask t.lba s) t.lba = some e := he
  simp only [finishTask, he', finishEntry, hstate, hlba]

/-- A finish whose entry holds newer data promotes it to a task of its own (R92). -/
theorem finishTask_of_newer (he : entryAt s t.lba = some e) (hstate : e.state = .committingNewer) {b : Nat}
    (hnewer : e.newer = some b) :
    finishTask t s = judgeFinish ⟨t.lba, t.take, t.reassignGen⟩ (freeingEvent
      (createTask t.lba e.addr b (e.take.getD 0) (promote e b (removeTask t.lba s)))) := by
  obtain ⟨-, hlba⟩ := entryAt_some he
  have he' : entryAt (removeTask t.lba s) t.lba = some e := he
  simp only [finishTask, he', finishEntry, hstate, hnewer, hlba]

theorem verifyFailed_of_granted (hleft : t.used < s.cu.settings.reassignLimit) (he : entryAt s t.lba = some e) {j : Nat}
    (hj : s.rmt.judgeSpare (zoneOfLba t.lba) = .ok j) :
    verifyFailed t s = moveToSpare t e (spareAt (zoneOfLba t.lba) j) (s.rmt.generation + 1)
      (grantSpare (homeOf t.lba) (zoneOfLba t.lba) j s) := by
  simp only [verifyFailed, if_neg (not_le.mpr hleft), hj, he]

end

/-- Settles O50, by the stage and the outcome; a finish and a move by what the entry holds. -/
theorem commitStagesFollowTheirOutcomes : Obligations.CommitStagesFollowTheirOutcomes := by
  intro t s ht without restaged finished left
  refine ⟨fun hstage => ?_, fun hstage hpolicy hmark => ?_, fun hstage hmark => ?_, fun e o hends he => ?_,
    fun e j hstage hleft he hj => ?_⟩
  · have hdone : stageOutcome t .done s = restage { t with stage := .writeDue } s := by
      simp only [stageOutcome, hstage]
    exact hdone.trans (restage_eq ..)
  · have hdone : stageOutcome t .done s = restage { t with stage := .verifyDue, takeAtMark := none } s := by
      simp only [stageOutcome, hstage, writeDone, hmark, hpolicy, if_true]
    rw [hdone]
    exact restage_eq ..
  · have hdone : stageOutcome t .done s = updTask t.lba (fun _ => { t with takeAtMark := none }) s := by
      simp only [stageOutcome, hstage, writeDone, if_neg hmark]
    rw [hdone, updTask_eq]
  · have hdone : stageOutcome t o s = finishTask t s := by
      rcases hends with ⟨hstage, rfl⟩ | ⟨hstage, rfl, hpolicy, hmark⟩
      · simp only [stageOutcome, hstage]
      · simp only [stageOutcome, hstage, writeDone, hmark, hpolicy, if_true]
        rfl
    rw [hdone]
    refine ⟨fun hstate => ?_, fun b hstate hnewer => ?_⟩
    · rw [finishTask_of_committing he hstate, updEntry_eq, removeTask_eq]
    · rw [finishTask_of_newer he hstate hnewer, promote, updEntry_eq, removeTask_eq, (entryAt_some he).2]
      rfl
  · intro spare granted moved
    have hfailed : stageOutcome t .fail s = moveToSpare t e spare (s.rmt.generation + 1) granted := by
      simp only [stageOutcome, hstage]
      exact verifyFailed_of_granted hleft he hj
    have hsc : granted.sc = s.sc := grantSpare_sc ..
    rw [hfailed]
    refine ⟨fun hstate => ?_, fun b hstate hnewer => ?_⟩
    · simp only [moveToSpare, hstate, restage_eq, updEntry_eq, hsc]
      rfl
    · have hlba := (entryAt_some he).2
      simp only [moveToSpare, hstate, hnewer, promote, hlba, restage_eq]
      rw [updEntry_updEntry, updEntry_eq]
      · simp only [freeBuffers, hsc]
        rfl
      · exact fun _ => rfl

/-! ## A failed task (R41, R94 to R96) -/

section
variable {s : State} {t : CommitTask} {e : Entry}

theorem judgeSpare_of_barred {table : RemapTable} (z : Nat)
    (h : table.loaded = false ∨ table.fault = true ∨ table.generation = maxGeneration) :
    table.judgeSpare z = .error .tableFault := by
  rcases h with h | h | h <;> simp [RemapTable.judgeSpare, h]

theorem judgeSpare_of_none {table : RemapTable} {z : Nat}
    (h : ¬ (table.loaded = false ∨ table.fault = true ∨ table.generation = maxGeneration))
    (hused : ∀ j < 10 * (29 - z), ∃ r ∈ table.entries, r.zone = z ∧ r.index = j) :
    table.judgeSpare z = .error .noSpare := by
  obtain ⟨hloaded, hfault, hgeneration⟩ : table.loaded = true ∧ table.fault = false ∧
      table.generation ≠ maxGeneration := by simpa [not_or] using h
  have hnone : ((List.range (sparesIn z)).find? fun j => !table.spareUsed z j) = none := by
    refine List.find?_eq_none.mpr fun j hj => ?_
    obtain ⟨r, hr, hz, hindex⟩ := hused j (List.mem_range.mp hj)
    have : table.spareUsed z j = true := List.any_eq_true.mpr ⟨r, hr, by simp [hz, hindex]⟩
    simp [this]
  simp [RemapTable.judgeSpare, hloaded, hfault, hgeneration, hnone]

theorem loseEntry_of_entry {lba : Nat} (he : entryAt s lba = some e) :
    loseEntry lba s = freeingEvent (refsBad lba .lost (removeEntry e s)) := by
  simp only [loseEntry, he]

/-- A failed task ends its waiters, leaves its record and loses its entry (R95). -/
theorem failTask_eq (he : entryAt s t.lba = some e) (reason : FaultReason) :
    ∃ known, recordFor e.writer (fun ch => hasSyncOn ch t.lba s) ⟨t.lba, reason⟩ (failWaiters t.lba s) = known ∧
      failTask t reason s = freeingEvent (refsBad t.lba .lost
        { known with
          cmu := { known.cmu with tasks := s.cmu.tasks.filter fun y => y.lba != t.lba }
          pe := { s.pe with
            due := s.pe.due.filter fun op => op.owner != .task t.lba
            pass := s.pe.pass.map fun c => if c.op.owner = .task t.lba then { c with withdrawn := true } else c }
          sc := { s.sc with
            entries := s.sc.entries.filter fun x => x.lba != t.lba
            recency := s.sc.recency.erase t.lba
            freeList := s.sc.freeList ++ e.buffers } }) := by
  obtain ⟨links, hwaiters⟩ := foldl_ended_linksOnly (Waiter.holdsOpen t.lba) .writeFault (fun _ => t.lba) s
  obtain ⟨links', faults, hrecord⟩ := recordFor_rest e.writer (fun ch => hasSyncOn ch t.lba s) ⟨t.lba, reason⟩
    (failWaiters t.lba s)
  rw [failWaiters_eq, hwaiters] at hrecord
  refine ⟨_, rfl, ?_⟩
  have hlba := (entryAt_some he).2
  rw [failTask, he, Option.bind_some, failWaiters_eq, hwaiters, hrecord, removeTask_eq]
  rw [loseEntry_of_entry (e := e) (by exact he)]
  simp only [removeEntry, freeBuffers, hlba]

end

/-- Settles O51: the reason is read off the limit and the table, and a failed task is of one form. -/
theorem aFailedTaskEndsItsWaitersAndLeavesARecord : Obligations.AFailedTaskEndsItsWaitersAndLeavesARecord := by
  unfold Obligations.AFailedTaskEndsItsWaitersAndLeavesARecord
  intro recorded t e s reason hstage he z barred hreason holds told known
  have hfailed : stageOutcome t .fail s = failTask t reason s := by
    have hverify : stageOutcome t .fail s = verifyFailed t s := by simp only [stageOutcome, hstage]
    rw [hverify]
    rcases hreason with ⟨hlimit, rfl⟩ | ⟨hleft, hbarred, rfl⟩ | ⟨hleft, hfree, rfl, hused⟩
    · simp only [verifyFailed, if_pos hlimit]
    · simp only [verifyFailed, if_neg (not_le.mpr hleft), judgeSpare_of_barred _ hbarred]
    · have hnone := judgeSpare_of_none (z := zoneOfLba t.lba) hfree hused
      simp only [verifyFailed, if_neg (not_le.mpr hleft), hnone]
  obtain ⟨r, hr, hlost⟩ := failTask_eq he reason
  have hknown : r = known := by
    rw [← hr, failWaiters_eq]
    cases hwriter : e.writer with
    | none => simp only [recordFor, known, hwriter]; rfl
    | some ch =>
      simp only [recordFor, known, hwriter]
      rfl
  rw [hfailed, hlost, hknown]

/-! ## The clearing for eject (R82, R103) -/

section
variable {s : State}

/-- The reads' bad counts when every reference resolves LOST (R82). -/
def ReadRecord.badAtLoss (r : ReadRecord) : Nat :=
  r.bad + r.refs.countP fun x => x.cond == .waiting || x.cond == .ready

theorem ReadRecord.allLost_eq (r : ReadRecord) :
    r.allLost =
      { r with
        bad := if r.complete then r.bad else r.badAtLoss
        refs := r.refs.map fun x =>
          if x.cond == .waiting || x.cond == .ready then { x with cond := .bad .lost } else x } := by
  simp only [ReadRecord.allLost, funext ReadRef.pins_eq]
  rfl

theorem ReadRecord.allLost_isDone (r : ReadRecord) : r.allLost.isDone = true := by
  simp only [ReadRecord.isDone, ReadRecord.allLost, List.all_map, List.all_eq_true]
  intro x _
  cases hx : x.cond <;> simp [ReadRef.pins, hx]

/-- Every read record completes when every reference resolves LOST (R82). -/
theorem completeReads_allLost (s : State) :
    completeReads (fun _ => true) (mapReads ReadRecord.allLost s) =
      (s.sc.reads.filter fun r => !r.complete).foldl
        (fun t r =>
          if r.badAtLoss = 0 then postReport r.channel r.tag .read .ok r.count false t
          else postReport r.channel r.tag .read .degraded r.badAtLoss false t)
        { s with sc := { s.sc with reads := s.sc.reads.map fun r => { r.allLost with complete := true } } } := by
  have hreads : ((s.sc.reads.map ReadRecord.allLost).map fun r =>
      if !r.complete && true && r.isDone then { r with complete := true } else r) =
        s.sc.reads.map fun r => { r.allLost with complete := true } := by
    rw [List.map_map]
    refine List.map_congr_left fun r _ => ?_
    have hsame : r.allLost.complete = r.complete := rfl
    cases hc : r.complete with
    | true => simp [ReadRecord.allLost, hc]
    | false => simp [ReadRecord.allLost_isDone, hsame, hc]
  have hends : ((s.sc.reads.map ReadRecord.allLost).filter fun r => !r.complete && true && r.isDone) =
      (s.sc.reads.filter fun r => !r.complete).map ReadRecord.allLost := by
    rw [List.filter_map]
    refine congrArg (List.map _) (congrArg (List.filter · s.sc.reads) (funext fun r => ?_))
    have hsame : r.allLost.complete = r.complete := rfl
    simp [ReadRecord.allLost_isDone, hsame]
  simp only [completeReads, mapReads, hreads, hends, List.foldl_map]
  refine List.foldl_ext _ _ _ fun t r hr => ?_
  have hpending : r.complete = false := by simpa using (List.mem_filter.mp hr).2
  simp [postReadReport, ReadRecord.allLost_eq, hpending]

theorem clearCache_eq (s : State) :
    clearCache s = freeingEvent
      ((s.sc.reads.filter fun r => !r.complete).foldl
        (fun t r =>
          if r.badAtLoss = 0 then postReport r.channel r.tag .read .ok r.count false t
          else postReport r.channel r.tag .read .degraded r.badAtLoss false t)
        { s with
          pe := s.pe.withdrawn OpOwner.isEntry
          sc := { s.sc with
            entries := [], recency := [], freeList := s.sc.freeList ++ s.sc.entries.flatMap Entry.buffers
            reads := s.sc.reads.map fun r => { r.allLost with complete := true } } }) := by
  rw [clearCache, completeReads_allLost]
  rfl

/-- CMU's part of the clearing changes its own record, the links and the due set only. -/
theorem foldl_ejectEntry_rest (start : State) (entries : List Entry) (s : State) :
    ∃ links waiters faults, entries.foldl (ejectEntry start) s =
      { s with links := links, cmu := { s.cmu with waiters := waiters, faults := faults } } := by
  induction entries generalizing s with
  | nil => exact ⟨_, _, _, rfl⟩
  | cons e entries ih =>
    obtain ⟨links, hended⟩ := foldl_ended_linksOnly (Waiter.holdsOpen e.lba) .mediumFault
      (Waiter.lowest WaitSector.isOpen) s
    obtain ⟨links', faults, hrecord⟩ := recordFor_rest e.writer (fun ch => hasSyncOn ch e.lba start) ⟨e.lba, .ejected⟩
      (ejectWaiters e.lba s)
    obtain ⟨links'', waiters, faults', hrest⟩ := ih (ejectEntry start s e)
    refine ⟨links'', waiters, faults', ?_⟩
    rw [List.foldl_cons, hrest, ejectEntry, hrecord, ejectWaiters_eq, hended]

theorem endAllWaiters_rest (s : State) :
    ∃ links, endAllWaiters s = { s with links := links, cmu := { s.cmu with waiters := [] } } := by
  obtain ⟨links, h⟩ := judgedWaiters_linksOnly id (fun w => some (.mediumFault, w.lowest WaitSector.isOpen, false)) s
  exact ⟨links, (judgeWaiters_of_ended _ s).trans (h.trans (by simp))⟩

/-- The last blocks of the clearing: locks, mount reads, mount progress and table. -/
theorem clearedParts_eq (s : State) :
    unloadTable (clearMount (withdrawAll OpOwner.isMount (removeAllLocks s))) =
      { s with
        cc := { s.cc with mount := clearedMount }, cu := { s.cu with locks := [] }
        rmt := RemapTable.unloaded, pe := s.pe.withdrawn OpOwner.isMount } := rfl

theorem clearCommit_rest (s : State) :
    ∃ links faults, clearCommit s =
      { s with links := links, cmu := ⟨[], [], [], faults⟩, pe := s.pe.withdrawn OpOwner.isCommit } := by
  obtain ⟨links, waiters, faults, hdealt⟩ := foldl_ejectEntry_rest s
    (s.sc.entries.filter fun e => e.state.isCommitting) s
  obtain ⟨links', hended⟩ := endAllWaiters_rest
    ((s.sc.entries.filter fun e => e.state.isCommitting).foldl (ejectEntry s) s)
  rw [hdealt] at hended
  exact ⟨links', faults, by simp only [clearCommit, hdealt, hended]; rfl⟩

end

/-- Settles O52: each block of the clearing, entry by entry and record by record. -/
theorem theClearingForEjectEndsTheWork : Obligations.TheClearingForEjectEndsTheWork := by
  intro s recorded holds lowest ended synced dealt committing known lost bad without
  refine ⟨?_, ?_, clearedParts_eq (clearCache (clearCommit (closeBothStreams s)))⟩
  · have hended (gone : Waiter → Bool) (r : State) : ended gone r = (r.cmu.waiters.filter gone).foldl
        (fun r w => postReport w.channel w.tag w.kind.queued .mediumFault (w.lowest WaitSector.isOpen) false r)
        { r with cmu := { r.cmu with waiters := r.cmu.waiters.filter fun w => !gone w } } := rfl
    have hdealt : ejectEntry s = dealt := by
      funext r e
      have hwaiters : ejectWaiters e.lba r = ended (holds e.lba) r := ejectWaiters_eq ..
      rw [ejectEntry, hwaiters]
      cases hwriter : e.writer with
      | none => simp only [recordFor, dealt, hwriter]
      | some ch =>
        simp only [recordFor, dealt, hwriter]
        rfl
    have hcommitting : (s.sc.entries.filter fun e => e.state.isCommitting) = committing :=
      congrArg (List.filter · s.sc.entries) (funext fun e => EntryState.isCommitting_eq _)
    have hknown : endAllWaiters (committing.foldl dealt s) = known := endAllWaiters_eq _
    have hpe : known.pe = s.pe := by
      obtain ⟨links, waiters, faults, hrest⟩ := foldl_ejectEntry_rest s committing s
      obtain ⟨links', hended⟩ := endAllWaiters_rest (committing.foldl dealt s)
      rw [← hknown, hended, ← hdealt, hrest]
    simp only [clearCommit, hcommitting, hdealt, hknown, withdrawAll]
    rw [hpe]
    rfl
  · exact (clearCache_eq s).trans (by simp only [ReadRecord.allLost_eq]; rfl)

end Sys2Proof.Machine
end

section
/-! SUPPORT and PROOFS. The clearing, the eject, INITIALISE and the delivery of outcomes (Sections 2.3, 2.7, 2.8, 4.9
and 5.7): settles O33, O34 and O48. -/

namespace Sys2Proof.Machine

/-! ## Freeing events with no stream to prefetch -/

section
variable {s : State}

theorem checkWants_rest (s : State) :
    ∃ links wants, checkWants s = { s with links := links, sc := { s.sc with wants := wants } } := by
  have hone (ch : Channel) (s : State) :
      ∃ links wants, checkWant ch s = { s with links := links, sc := { s.sc with wants := wants } } := by
    unfold checkWant
    split
    · split
      · exact ⟨_, _, rfl⟩
      · exact ⟨_, _, rfl⟩
    · exact ⟨_, _, rfl⟩
  obtain ⟨links, wants, ha⟩ := hone .a s
  obtain ⟨links', wants', hb⟩ := hone .b (checkWant .a s)
  exact ⟨links', wants', by rw [checkWants, hb, ha]⟩

theorem prefetch_eq_self {ch : Channel} (h : (s.su.get ch).canPrefetch = false) : prefetch ch s = s := by
  unfold prefetch
  cases (s.su.get ch).depth with
  | zero => rfl
  | succ n => simp [prefetchUpTo, h]

theorem retryPrefetch_eq_self {ch : Channel} (h : (s.su.get ch).canPrefetch = false) : retryPrefetch ch s = s := by
  rw [retryPrefetch, prefetch_eq_self h, ite_self]

theorem retryPrefetches_rest (h : ∀ ch, (s.su.get ch).canPrefetch = false) :
    ∃ n, retryPrefetches s = { s with freeCount := n } := by
  have ha (n : Nat) : retryPrefetch .a { s with freeCount := n } = { s with freeCount := n } :=
    retryPrefetch_eq_self (by exact h .a)
  have hb (n : Nat) : retryPrefetch .b { s with freeCount := n } = { s with freeCount := n } :=
    retryPrefetch_eq_self (by exact h .b)
  unfold retryPrefetches
  split
  · refine ⟨s.freeCount + 1, ?_⟩
    split <;> simp only [ha, hb]
  · refine ⟨s.freeCount, ?_⟩
    rw [retryPrefetch_eq_self (h .a), retryPrefetch_eq_self (h .b)]

/-- With no stream to prefetch a freeing event changes links, marks and the count of free values only. -/
theorem freeingEvent_rest (h : ∀ ch, (s.su.get ch).canPrefetch = false) :
    ∃ links wants n, freeingEvent s =
      { s with links := links, sc := { s.sc with wants := wants }, freeCount := n } := by
  obtain ⟨links, wants, hwants⟩ := checkWants_rest s
  obtain ⟨n, hretried⟩ := retryPrefetches_rest (s := checkWants s) (by rw [hwants]; exact h)
  exact ⟨links, wants, n, by rw [freeingEvent, hretried, hwants]⟩

theorem canPrefetch_of_not_opened {t : Stream} (h : t.state ≠ .opened) : t.canPrefetch = false := by
  simp [Stream.canPrefetch, h]

end

/-! ## The clearing (R31, R82) -/

section
variable {s : State}

/-- With no stream to prefetch the cache is emptied, and its links, marks and reads change with it. -/
theorem clearCache_rest (h : ∀ ch, (s.su.get ch).canPrefetch = false) :
    ∃ links wants n, clearCache s =
      { s with
        links := links
        freeCount := n
        pe := s.pe.withdrawn OpOwner.isEntry
        sc := { s.sc with
          entries := [], recency := [], freeList := s.sc.freeList ++ s.sc.entries.flatMap Entry.buffers, wants := wants
          reads := s.sc.reads.map fun r => { r.allLost with complete := true } } } := by
  let emptied : State :=
    { s with
      pe := s.pe.withdrawn OpOwner.isEntry
      sc := { s.sc with
        entries := [], recency := [], freeList := s.sc.freeList ++ s.sc.entries.flatMap Entry.buffers
        reads := s.sc.reads.map fun r => { r.allLost with complete := true } } }
  obtain ⟨links, hreads⟩ := foldl_linksOnly
    (f := fun t (r : ReadRecord) =>
      if r.badAtLoss = 0 then postReport r.channel r.tag .read .ok r.count false t
      else postReport r.channel r.tag .read .degraded r.badAtLoss false t)
    (fun t r => by split <;> exact ⟨_, rfl⟩) (s.sc.reads.filter fun r => !r.complete) emptied
  obtain ⟨links', wants, n, hfreed⟩ := freeingEvent_rest (s := { emptied with links := links }) h
  exact ⟨links', wants, n, (clearCache_eq s).trans ((congrArg freeingEvent hreads).trans hfreed)⟩

/-- The engine's record after every owner's operations are withdrawn. -/
def Engine.cleared (pe : Engine) : Engine :=
  ((pe.withdrawn OpOwner.isCommit).withdrawn OpOwner.isEntry).withdrawn OpOwner.isMount

/-- The owners of the three blocks are all the owners. -/
theorem Engine.cleared_due (pe : Engine) : pe.cleared.due = [] := by
  simp only [Engine.cleared, Engine.withdrawn, List.filter_filter]
  refine List.filter_eq_nil_iff.mpr fun op _ => ?_
  cases op.owner <;> simp [OpOwner.isCommit, OpOwner.isEntry, OpOwner.isMount]

/-- The part after the clearing (R31): what is left of each block. -/
theorem clearPart_rest (s : State) :
    ∃ links faults wants n, clearPart s =
      { s with
        links := links
        freeCount := n
        cc := { s.cc with mount := clearedMount }
        cu := { s.cu with locks := [] }
        cmu := ⟨[], [], [], faults⟩
        pe := s.pe.cleared
        rmt := RemapTable.unloaded
        sc := { s.sc with
          entries := [], recency := [], freeList := s.sc.freeList ++ s.sc.entries.flatMap Entry.buffers, wants := wants
          reads := s.sc.reads.map fun r => { r.allLost with complete := true } }
        su := ⟨Stream.closed, Stream.closed⟩ } := by
  obtain ⟨links, faults, hcommit⟩ := clearCommit_rest (closeBothStreams s)
  have hclosed : ∀ ch, ((clearCommit (closeBothStreams s)).su.get ch).canPrefetch = false := fun ch => by
    rw [hcommit]
    cases ch <;> rfl
  obtain ⟨links', wants, n, hcache⟩ := clearCache_rest hclosed
  refine ⟨links', faults, wants, n, ?_⟩
  rw [clearPart, clearedParts_eq, hcache, hcommit]
  rfl

/-- The commit tasks once the current pass is cut off: the take at mark of a task not withdrawn is cleared (R115). -/
def cutOffTasks (s : State) : List CommitTask :=
  s.cmu.tasks.map fun y => match s.pe.pass with
    | some c => if c.withdrawn = false ∧ c.op.owner = .task y.lba then { y with takeAtMark := none } else y
    | none => y

theorem cutOffPass_eq (s : State) :
    cutOffPass s = { s with cmu := { s.cmu with tasks := cutOffTasks s }, pe := { s.pe with pass := none } } := by
  unfold cutOffPass cutOffTasks
  cases hpass : s.pe.pass with
  | none =>
    simp only [List.map_id']
    rw [← hpass]
  | some c =>
    cases hw : c.withdrawn with
    | true => simp [hw]
    | false =>
      cases ho : c.op.owner with
      | task lba => simp [clearTakeAtMark, updTask_eq, hw, ho, @eq_comm _ lba]
      | _ => simp [clearTakeAtMark, hw, ho]

theorem stopEngine_eq (s : State) :
    stopEngine s =
      { s with
        cmu := { s.cmu with tasks := cutOffTasks s }
        pe := { s.pe with
          state := .stopped, pass := none, move := none, retry := none, settle := none, seekFaults := 0
          goWaiting := false }
        mci := { s.mci with hold := s.mci.hold || s.pe.state == .held, stepReq := false } } := by
  rw [stopEngine, cutOffPass_eq]

/-- What a part holds once it is cleared and its spindle is on the way to rest (R30 to R33). -/
structure SpunDown (s t : State) : Prop where
  state : t.cc.state = .spinningDown
  limit : t.cc.limit = some ⟨.stop, s.clock + 5000000⟩
  eject : t.cc.eject = s.cc.eject
  prior : t.cc.prior = s.cc.prior
  mount : t.cc.mount = clearedMount
  motor : t.outputs.motorOn = false
  engine : t.pe.state = .stopped
  due : t.pe.due = []
  table : t.rmt = RemapTable.unloaded
  entries : t.sc.entries = []
  recency : t.sc.recency = []
  freeList : t.sc.freeList = s.sc.freeList ++ s.sc.entries.flatMap Entry.buffers
  reads : ∀ r ∈ t.sc.reads, r.complete = true
  tasks : t.cmu.tasks = []
  tableTasks : t.cmu.tableTasks = []
  waiters : t.cmu.waiters = []
  streams : t.su = ⟨Stream.closed, Stream.closed⟩
  coordination : t.cu = { s.cu with locks := [] }
  pending : t.pending = s.pending

theorem enterSpinningDown_of_turning (h : s.lines.spindleAtRest = false) :
    enterSpinningDown s = enterCartState .spinningDown (startLimit .stop (stopMotor s)) :=
  if_neg (by simp [h])

/-- A spindle that starts to spin down keeps what the clearing left. -/
theorem SpunDown.of_cleared {r : State} (hrest : s.lines.spindleAtRest = false)
    (hr : (r = stopEngine (clearPart s)) ∨ (s.pe.state = .stopped ∧ r = clearPart s)) :
    SpunDown s (enterSpinningDown r) := by
  obtain ⟨links, faults, wants, n, hcleared⟩ := clearPart_rest s
  have hreads : ∀ r ∈ s.sc.reads.map fun r => { r.allLost with complete := true }, r.complete = true := fun r hr => by
    obtain ⟨x, -, rfl⟩ := List.mem_map.mp hr
    rfl
  rcases hr with rfl | ⟨hstopped, rfl⟩
  · rw [stopEngine_eq, hcleared, enterSpinningDown_of_turning (by exact hrest)]
    exact ⟨rfl, rfl, rfl, rfl, rfl, rfl, rfl, Engine.cleared_due _, rfl, rfl, rfl, rfl, hreads, rfl, rfl, rfl, rfl, rfl,
      rfl⟩
  · rw [hcleared, enterSpinningDown_of_turning (by exact hrest)]
    exact ⟨rfl, rfl, rfl, rfl, rfl, rfl, hstopped, Engine.cleared_due _, rfl, rfl, rfl, rfl, hreads, rfl, rfl, rfl, rfl, rfl,
      rfl⟩

theorem drainMet_iff (s : State) :
    drainMet s = true ↔ s.cmu.tasks = [] ∧ s.cmu.tableTasks = [] ∧ (s.rmt.state = .clean ∨ s.rmt.fault = true) ∧
      s.links.a.dataPhase = none ∧ s.links.b.dataPhase = none := by
  simp [drainMet, and_assoc]

theorem drainCheck_eq_self (h : s.cc.state ≠ .draining ∨ drainMet s = false) : drainCheck s = s :=
  if_neg fun ⟨hstate, hmet⟩ => h.elim (absurd hstate) fun hnot => by simp [hmet] at hnot

theorem drainCheck_of_met (h : s.cc.state = .draining) (hmet : drainMet s = true) :
    drainCheck s = enterSpinningDown (stopEngine (clearPart s)) := if_pos ⟨h, hmet⟩

end

/-! ## Outcomes and their owners (R4, R89, R113) -/

section
variable {s : State} {op : DueOp} {o : PassOutcome}

theorem deliver_entry {lba : Nat} (h : op.owner = .entry lba) : deliver op o s = entryOutcome lba op.addr o s := by
  simp only [deliver, h]

theorem deliver_task {lba : Nat} (h : op.owner = .task lba) :
    deliver op o s = taskOutcome lba op.addr op.kind o s := by
  simp only [deliver, h]

theorem deliver_table {c : TableCopy} {i : Nat} (h : op.owner = .table c i) :
    deliver op o s = tableOutcome c i op.kind o s := by
  simp only [deliver, h]

theorem deliver_mount {c : TableCopy} {i : Nat} (h : op.owner = .mount c i) :
    deliver op o s = mountDelivered c i o s := by
  simp only [deliver, h]

end

/-- Settles O48: outcomes by the corrections, owners by the operation's record, the drain by its condition. -/
theorem outcomesAreJudgedAndReachTheirOwners : Obligations.OutcomesAreJudgedAndReachTheirOwners := by
  refine ⟨⟨fun data n => ?_, rfl, rfl, rfl, rfl, fun found => ⟨rfl, rfl⟩⟩, fun op o s => ?_, fun s => ?_,
    fun o s => ⟨fun lba ho => ?_, fun ho => ?_⟩⟩
  · exact ⟨fun h => if_pos h, fun h => if_neg (not_le.mpr h), fun h => if_pos h, fun h => if_neg (not_le.mpr h)⟩
  · intro pass
    have hpass (stage : Stage) : stage.pass = pass stage := by cases stage <;> rfl
    refine ⟨fun lba => deliver_entry, fun lba ho => ?_, fun c i ho => ?_, fun c i ho => ?_⟩
    · rw [deliver_task ho]
      refine ⟨fun hnone => by simp only [taskOutcome, hnone], fun t ht => ⟨fun hkind haddr => ?_, fun helse => ?_⟩⟩
      · simp only [taskOutcome, ht, hpass, hkind, haddr, and_self, if_true]
      · simp only [taskOutcome, ht, hpass]
        exact if_neg fun ⟨hkind, haddr⟩ => helse.elim (absurd hkind) (absurd haddr)
    · rw [deliver_table ho]
      refine ⟨fun hnone => by simp only [tableOutcome, hnone], fun t ht => ⟨fun hkind => ?_, fun helse => ?_⟩⟩
      · simp only [tableOutcome, ht, hpass, hkind, if_true]
      · simp only [tableOutcome, ht, hpass, if_neg helse]
    · rw [deliver_mount ho]
      refine ⟨fun hopen => ?_, fun hresolved => ?_⟩
      · have : mountDelivered c i o s = mountOutcome c i o s := if_pos (by simp [hopen])
        exact ⟨this, this⟩
      · have : mountDelivered c i o s = s := if_neg (by simpa using hresolved)
        exact ⟨this, this⟩
  · intro met
    refine ⟨fun h => drainCheck_eq_self (h.imp_right fun hnot => ?_), fun hdraining hmet hrest => ?_⟩
    · simpa using mt (drainMet_iff s).mp hnot
    · intro t
      have ht : t = enterSpinningDown (stopEngine (clearPart s)) :=
        drainCheck_of_met hdraining ((drainMet_iff s).mpr hmet)
      have hdown : SpunDown s t := ht ▸ SpunDown.of_cleared hrest (.inl rfl)
      have hpass : t.pe.pass = none := by
        obtain ⟨links, faults, wants, n, hcleared⟩ := clearPart_rest s
        rw [ht, stopEngine_eq, hcleared, enterSpinningDown_of_turning (by exact hrest)]
        rfl
      exact ⟨hdown.state, hdown.limit, hdown.eject, hdown.mount, hdown.motor, hdown.engine, hpass, hdown.due,
        hdown.table, hdown.entries, hdown.waiters, hdown.streams, hdown.coordination⟩
  · subst ho
    exact updTask_eq ..
  · unfold clearTakeAtMark
    split
    · next lba => exact absurd rfl (ho lba)
    · rfl

/-! ## EJECT, the button and INITIALISE (R28 to R35) -/

section
variable {s : State} {ch : Channel} {f : Frame}

theorem exec_eject (h : Admitted s ch .eject f) :
    exec (.eject ch f) s = .next (workArrival (ejectRequest ch f.tag s)) :=
  congrArg _ (answerFrame_of_toOwner (h.judgeFrame_eq_toOwner (by decide)))

theorem exec_initialise (h : Admitted s ch .initialise f) :
    exec (.initialise ch f) s = .next (workArrival (initialiseRequest ch f.tag s)) :=
  congrArg _ (answerFrame_of_toOwner (h.judgeFrame_eq_toOwner (by decide)))

theorem enterCartState_of_judged (h : AttnJudged s) (st : CartState) :
    enterCartState st s = State.told .cartridge { s with cc := { s.cc with state := st } } :=
  notifyBoth_eq_told (by exact h) _

/-- Outside UNUSABLE and FAILED an eject starts a drain. -/
theorem startEject_of_running (h : s.cc.state ∈ [CartState.ready, .readOnly, .unformatted]) (r : EjectRequest) :
    startEject r s = drainCheck (enterCartState .draining { s with cc := { s.cc with eject := some r } }) := by
  unfold startEject
  cases hst : s.cc.state <;> simp_all

theorem drainMet_enterCartState (st : CartState) (s : State) : drainMet (enterCartState st s) = drainMet s := by
  simp only [drainMet, enterCartState, notifyBoth, notify, updLink, PerChannel.set, Link.judged_dataPhase,
    noticed_dataPhase, PerChannel.get]

theorem drainMet_withLink {l : Link} (h : l.dataPhase = (s.links.get ch).dataPhase) :
    drainMet (s.withLink ch l) = drainMet s := by
  cases ch <;> simp_all [drainMet, State.withLink, PerChannel.set, PerChannel.get]

/-- With work left an eject only enters DRAINING. -/
theorem startEject_of_work (hattn : AttnJudged s) (h : s.cc.state ∈ [CartState.ready, .readOnly, .unformatted])
    (hwork : drainMet s = false) (r : EjectRequest) :
    startEject r s =
      State.told .cartridge { s with cc := { s.cc with state := .draining, eject := some r } } := by
  rw [startEject_of_running h, drainCheck_eq_self (.inr (by exact (drainMet_enterCartState _ _).trans hwork))]
  exact enterCartState_of_judged (by exact hattn) _

theorem drainMet_eq_false_iff (s : State) :
    drainMet s = false ↔ s.cmu.tasks ≠ [] ∨ s.cmu.tableTasks ≠ [] ∨ (s.rmt.state ≠ .clean ∧ s.rmt.fault = false) ∨
      s.links.a.dataPhase ≠ none ∨ s.links.b.dataPhase ≠ none := by
  rw [← Bool.not_eq_true, drainMet_iff]
  simp only [not_and_or, not_or, Bool.not_eq_true]

/-- An eject with nothing to drain, and one from UNUSABLE or FAILED, clears the part. -/
theorem startEject_spunDown (hrest : s.lines.spindleAtRest = false) (r : EjectRequest)
    (hstate : s.cc.state ∈ [CartState.ready, .readOnly, .unformatted, .unusable, .failed])
    (hfailed : s.cc.state = .failed → s.pe.state = .stopped)
    (hmet : s.cc.state ∈ [CartState.ready, .readOnly, .unformatted] → drainMet s = true) :
    SpunDown { s with cc := { s.cc with eject := some r } } (startEject r s) := by
  have hrunning (hrun : s.cc.state ∈ [CartState.ready, .readOnly, .unformatted]) :
      SpunDown { s with cc := { s.cc with eject := some r } } (startEject r s) := by
    rw [startEject_of_running hrun, drainCheck_of_met (by rfl) (by exact (drainMet_enterCartState _ _).trans (hmet hrun))]
    have hdown := SpunDown.of_cleared
      (s := enterCartState .draining { s with cc := { s.cc with eject := some r } }) hrest (.inl rfl)
    exact ⟨hdown.state, hdown.limit, hdown.eject, hdown.prior, hdown.mount, hdown.motor, hdown.engine, hdown.due,
      hdown.table, hdown.entries, hdown.recency, hdown.freeList, hdown.reads, hdown.tasks, hdown.tableTasks, hdown.waiters,
      hdown.streams, hdown.coordination, hdown.pending⟩
  simp only [List.mem_cons, List.not_mem_nil, or_false] at hstate hrunning
  rcases hstate with h | h | h | h | h
  · exact hrunning (.inl h)
  · exact hrunning (.inr (.inl h))
  · exact hrunning (.inr (.inr h))
  · simp only [startEject, h]
    exact SpunDown.of_cleared hrest (.inl rfl)
  · simp only [startEject, h]
    exact SpunDown.of_cleared hrest (.inr ⟨hfailed h, rfl⟩)

end

/-- Settles O33: with work left the drain begins, and without it the part is cleared and spun down. -/
theorem anEjectDrainsThePartOrClearsIt : Obligations.AnEjectDrainsThePartOrClearsIt := by
  refine ⟨fun ch f s => ?_, fun ch f s h hsound hrest hmet => ?_⟩
  · intro work draining
    refine ⟨fun h hstate hwork => ?_, fun hsteady => ⟨fun hrefused => ?_, fun hlet hstate hwork => ?_⟩⟩
    · let queued := s.withLink ch
        { s.links.get ch with outstanding := (s.links.get ch).outstanding ++ [⟨f.tag, .eject⟩] }
      have hqueued : AttnJudged queued := h.attn.withLink (by exact h.attn ch)
      have hwork' : drainMet queued = false := (drainMet_withLink (by rfl)).trans ((drainMet_eq_false_iff s).mpr hwork)
      rw [exec_eject h, ejectRequest, addOutstanding_eq h.attn, startEject_of_work hqueued (by exact hstate) hwork',
        accept, respond_eq_answered (AttnJudged.told (by exact hqueued) _)]
      exact congrArg _ (workArrival_eq_self (by exact h.idle))
    · have hobjection : ∃ x, ejectObjection s = some x := Option.ne_none_iff_exists'.mp hrefused
      obtain ⟨x, hx⟩ := hobjection
      have hsame : buttonPressed s = s := by simp only [buttonPressed, hx]
      exact congrArg Host.Outcome.next ((congrArg workArrival hsame).trans (workArrival_eq_self hsteady.idle))
    · have hlet' : ejectObjection s = none := hlet
      have hpressed : buttonPressed s = draining .button s := by
        simp only [buttonPressed, hlet']
        exact startEject_of_work hsteady.attn hstate ((drainMet_eq_false_iff s).mpr hwork) .button
      exact congrArg Host.Outcome.next
        ((congrArg workArrival hpressed).trans (workArrival_eq_self (by exact hsteady.idle)))
  · let queued := s.withLink ch
      { s.links.get ch with outstanding := (s.links.get ch).outstanding ++ [⟨f.tag, .eject⟩] }
    have hstate : s.cc.state ∈ [CartState.ready, .readOnly, .unformatted, .unusable, .failed] := by
      have hgate : ejectObjection s = none := h.gate
      unfold ejectObjection at hgate
      cases hst : s.cc.state <;> simp_all
    have hfailed (hf : s.cc.state = .failed) : s.pe.state = .stopped := hsound.engine.mpr (by rw [hf]; rfl)
    have hdown := startEject_spunDown (s := queued) hrest (.channel ch f.tag) hstate hfailed fun hrun =>
      (drainMet_withLink (by rfl)).trans (hmet hrun)
    let t := accept ch f.tag .plain (startEject (.channel ch f.tag) queued)
    have ht : workArrival t = t := workArrival_eq_self (.of_stopped hdown.engine)
    refine ⟨t, ?_, ?_⟩
    · rw [exec_eject h, ejectRequest, addOutstanding_eq h.attn]
      exact congrArg _ ht
    · refine ⟨hdown.state, hdown.limit, hdown.eject, hdown.mount, hdown.motor, hdown.engine, hdown.due, hdown.table,
        hdown.entries, hdown.recency, hdown.freeList, hdown.reads, hdown.tasks, hdown.tableTasks, hdown.waiters,
        hdown.streams, hdown.coordination, ?_, hdown.pending⟩
      simp [t, accept, respond, updLink]

section
variable {s : State} {ch : Channel} {f : Frame}

/-- A new table's record, its tasks and its offers (R45, R54, R88). -/
theorem startNewTable_eq (s : State) :
    startNewTable s =
      { s with
        rmt :=
          { loaded := true, entries := [], state := .flushing, changedAgain := false, fault := false, generation := 1
            verifiedGen := 0, progress := some ⟨.writing 0, .waiting⟩, image := imageArea (tableImage 1 [])
            assemblyB := s.rmt.assemblyB }
        cmu := { s.cmu with tableTasks := s.cmu.tableTasks ++
          ((List.range 28).map fun i => ⟨.a, i, .eraseDue, 0, false⟩) ++
          (List.range 28).map fun i => ⟨.b, i, .eraseDue, 0, true⟩ }
        pe := { s.pe with
          due := s.pe.due ++ (List.range 28).map fun i => (⟨.table .a i, .erase, ⟨0, i⟩⟩ : DueOp) } } := by
  simp only [startNewTable, startFlushAt, offerAll, copyTasks, List.map_map]
  rfl

end

/-- Settles O34, by the two states in which the gate lets an INITIALISE through. -/
theorem initialiseStartsAnEmptyTable : Obligations.InitialiseStartsAnEmptyTable := by
  intro ch f s h l table tasks offered
  let queued := s.withLink ch { l with outstanding := l.outstanding ++ [⟨f.tag, .initialise⟩] }
  have hqueued : AttnJudged queued := h.attn.withLink (by exact h.attn ch)
  have hexec : exec (.initialise ch f) s =
      .next (workArrival (accept ch f.tag .plain (startInitialise ch f.tag queued))) := by
    rw [exec_initialise h, initialiseRequest, addOutstanding_eq h.attn]
  refine ⟨fun hstate => ?_, fun hstate => ?_⟩
  · have hnot : ¬ queued.cc.state = .ready := by simp [queued, State.withLink, hstate]
    rw [hexec, startInitialise, if_neg hnot, startNewTable_eq, accept, respond_eq_answered (by exact hqueued)]
    simp only [State.answered, queued, State.withLink, PerChannel.get_set_self, PerChannel.set_set]
    rfl
  · have hgate : initialiseObjection s = none := h.gate
    have hready : readyForInitialise s = true := by
      simp only [initialiseObjection, hstate] at hgate
      by_contra hnot
      simp [hnot] at hgate
    obtain ⟨-, -, -, -, ⟨ha, hb⟩, -⟩ := (readyForInitialise_iff s).mp hready
    have hclosed : ∀ ch, (s.su.get ch).canPrefetch = false := fun ch => by
      cases ch
      · exact canPrefetch_of_not_opened (by simp [PerChannel.get, ha])
      · exact canPrefetch_of_not_opened (by simp [PerChannel.get, hb])
    obtain ⟨links, wants, n, hcleared⟩ := clearCache_rest
      (s := { queued with cc := { queued.cc with initialise := some ⟨ch, f.tag⟩ } }) hclosed
    refine ⟨_, hexec, ?_⟩
    rw [startInitialise, if_pos (by exact hstate), hcleared, startNewTable_eq]
    refine ⟨rfl, rfl, rfl, rfl, rfl, rfl, fun r hr => ?_, rfl, rfl, by simp [accept, respond, updLink]⟩
    obtain ⟨x, -, rfl⟩ := List.mem_map.mp hr
    rfl

end Sys2Proof.Machine
end

section
/-! SUPPORT and PROOFS. Entry to FAILED (Sections 2.5, 4.9, 5.7 and 7.6): settles O39 and O40. -/

namespace Sys2Proof.Machine

/-! ## States whose reports agree -/

/-- What reports read and change of a link. -/
def Link.queues (l : Link) : Bool × List Outstanding × List Report := (l.attached, l.outstanding, l.reports)

/-- Two states in which a report would be posted, or dropped, alike. -/
structure ReportsAgree (s t : State) : Prop where
  revolution : t.timer.revolution = s.timer.revolution
  queues : ∀ ch, (t.links.get ch).queues = (s.links.get ch).queues

section
variable {s t r : State}

theorem ReportsAgree.refl (s : State) : ReportsAgree s s := ⟨rfl, fun _ => rfl⟩

theorem ReportsAgree.of_links (hlinks : t.links = s.links) (htimer : t.timer.revolution = s.timer.revolution) :
    ReportsAgree s t :=
  ⟨htimer, fun _ => by rw [hlinks]⟩

theorem ReportsAgree.trans (h : ReportsAgree s t) (k : ReportsAgree t r) : ReportsAgree s r :=
  ⟨k.revolution.trans h.revolution, fun ch => (k.queues ch).trans (h.queues ch)⟩

theorem ReportsAgree.symm (h : ReportsAgree s t) : ReportsAgree t s :=
  ⟨h.revolution.symm, fun ch => (h.queues ch).symm⟩

/-- Two links with the same queues take a report alike. -/
theorem Link.posted_queues {l m : Link} (h : m.queues = l.queues) (x : Report) :
    (m.posted x).judged.queues = (l.posted x).judged.queues := by
  simp only [Link.queues, Prod.mk.injEq] at h
  obtain ⟨hattached, houtstanding, hreports⟩ := h
  simp only [Link.posted, Link.noticed, hattached, houtstanding, hreports]
  split <;> simp_all [Link.queues]

theorem ReportsAgree.postReport (h : ReportsAgree s t) (ch : Channel) (tag : Byte) (kind : QueuedKind)
    (status : ReportStatus) (detail : Nat) (mark : Bool) :
    ReportsAgree (postReport ch tag kind status detail mark s) (postReport ch tag kind status detail mark t) := by
  refine ⟨h.revolution, fun c => ?_⟩
  simp only [Machine.postReport, updLink, PerChannel.get_set, h.revolution]
  split
  · exact Link.posted_queues (h.queues ch) _
  · exact h.queues c

theorem Link.noticed_queues (e : EventFlag) (l : Link) : (l.noticed e).judged.queues = l.queues := by
  simp only [Link.queues, Link.noticed]
  split <;> rfl

theorem ReportsAgree.notify (h : ReportsAgree s t) (ch : Channel) (e : EventFlag) :
    ReportsAgree s (notify ch e t) := by
  refine h.trans ⟨rfl, fun c => ?_⟩
  simp only [Machine.notify, updLink, PerChannel.get_set]
  split
  · next hc => subst hc; exact Link.noticed_queues e _
  · rfl

/-- A run of notices and the like leaves the reports alone. -/
theorem ReportsAgree.foldl {α : Type} {f : State → α → State} (hf : ∀ s x, ReportsAgree s (f s x)) (xs : List α) :
    ∀ s, ReportsAgree s (xs.foldl f s) := by
  induction xs with
  | nil => exact fun s => .refl s
  | cons x xs ih => exact fun s => (hf s x).trans (ih _)

/-- A run of the same reports on states whose reports agree. -/
theorem ReportsAgree.foldl_congr {α : Type} {f : State → α → State}
    (hf : ∀ s t x, ReportsAgree s t → ReportsAgree (f s x) (f t x)) (xs : List α) :
    ∀ {s t}, ReportsAgree s t → ReportsAgree (xs.foldl f s) (xs.foldl f t) := by
  induction xs with
  | nil => exact fun h => h
  | cons x xs ih => exact fun h => ih (hf _ _ x h)

theorem ReportsAgree.checkWants (s : State) : ReportsAgree s (checkWants s) := by
  have hone (ch : Channel) (s : State) : ReportsAgree s (checkWant ch s) := by
    unfold checkWant
    split
    · split
      · exact ReportsAgree.notify (by exact .of_links rfl rfl) ..
      · exact .refl s
    · exact .refl s
  exact (hone .a s).trans (hone .b _)

end

/-! ## Streams that lose a reference (R139, R140) -/

section
variable {s : State} {t : Stream}

/-- A stream after the entry of an LBA is removed (R139). -/
def Stream.spoiledBy (t : Stream) (lba : Nat) : Stream :=
  match t.refs.find? fun x => x.lba == lba with
  | some x => t.faultedAt x.position .lost
  | none => t

/-- A stream after entry to FAILED found it with the references it has (R140). -/
def Stream.failed (t : Stream) : Stream :=
  if t.state = .opened ∧ t.prefetchCursor < t.positions then t.faultedAt t.prefetchCursor .lost else t

theorem streamSpoiled_rest (ch : Channel) (lba : Nat) (s : State) :
    ReportsAgree s (streamSpoiled ch lba .lost s) ∧ ∃ links, streamSpoiled ch lba .lost s =
      { s with links := links, su := s.su.set ch ((s.su.get ch).spoiledBy lba) } := by
  cases hfind : (s.su.get ch).refs.find? fun x => x.lba == lba with
  | none =>
    have hsame : streamSpoiled ch lba .lost s = s := by simp only [streamSpoiled, hfind]
    rw [hsame]
    refine ⟨.refl s, s.links, ?_⟩
    simp only [Stream.spoiledBy, hfind, PerChannel.set_get]
  | some x =>
    rw [streamSpoiled_of_find hfind]
    refine ⟨ReportsAgree.notify (by exact .of_links rfl rfl) .., ?_⟩
    simp only [Stream.spoiledBy, hfind]
    exact ⟨_, rfl⟩

theorem failStream_rest (ch : Channel) (s : State) :
    ReportsAgree s (failStream ch s) ∧ ∃ links, failStream ch s =
      { s with links := links, su := s.su.set ch (s.su.get ch).failed } := by
  by_cases h : (s.su.get ch).state = .opened ∧ (s.su.get ch).prefetchCursor < (s.su.get ch).positions
  · have hfails : failStream ch s = faultStream ch (s.su.get ch).prefetchCursor .lost s := if_pos h
    rw [hfails]
    refine ⟨ReportsAgree.notify (by exact .of_links rfl rfl) .., ?_⟩
    rw [Stream.failed, if_pos h]
    exact ⟨_, rfl⟩
  · have hsame : failStream ch s = s := if_neg h
    rw [hsame]
    refine ⟨.refl s, s.links, ?_⟩
    rw [Stream.failed, if_neg h, PerChannel.set_get]

theorem Stream.failed_canPrefetch (t : Stream) : t.failed.canPrefetch = false := by
  unfold Stream.failed
  split
  · simp [Stream.canPrefetch, Stream.faultedAt]
  · next h => simpa [Stream.canPrefetch] using fun ho hp => absurd ⟨ho, hp⟩ h

/-- With no reference to the lost entries a stream stands. -/
theorem Stream.foldl_spoiledBy_of_absent (gone : List Nat) (h : ∀ x ∈ t.refs, x.lba ∉ gone) :
    gone.foldl Stream.spoiledBy t = t := by
  induction gone with
  | nil => rfl
  | cons lba gone ih =>
    have hnone : t.refs.find? (fun x => x.lba == lba) = none :=
      List.find?_eq_none.mpr fun x hx => by simpa using (not_or.mp (mt List.mem_cons.mpr (h x hx))).1
    have hsame : t.spoiledBy lba = t := by simp only [Stream.spoiledBy, hnone]
    rw [List.foldl_cons, hsame]
    exact ih fun x hx hmem => h x hx (List.mem_cons_of_mem _ hmem)

/-- The references of a stream stand in order of their positions. -/
def Stream.Ordered (t : Stream) : Prop := t.refs.Pairwise fun x y => x.position < y.position

theorem Stream.InStep.ordered (h : t.InStep) : t.Ordered := by
  have hpositions : (t.refs.map StreamRef.position).Pairwise (· < ·) := by
    have hfits := h.fits
    unfold Stream.StateFits at hfits
    split at hfits
    · rw [hfits]
      exact List.Pairwise.nil
    · rw [hfits]
      exact List.pairwise_lt_range'
    · rw [hfits.1]
      exact List.Pairwise.nil
    · obtain ⟨p, -, -, -, -, hrefs⟩ := hfits
      rw [hrefs]
      exact List.pairwise_lt_range'
  exact List.pairwise_map.mp hpositions

/-- Of the references to lost entries the first decides, whatever the order of the entries. -/
theorem Stream.foldl_spoiledBy_of_first (gone : List Nat) : ∀ {t : Stream}, t.Ordered →
    ∀ {before after : List StreamRef} {x : StreamRef}, t.refs = before ++ x :: after → x.lba ∈ gone →
      (∀ y ∈ before, y.lba ∉ gone) → gone.foldl Stream.spoiledBy t = t.faultedAt x.position .lost := by
  induction gone with
  | nil => exact fun _ _ _ _ _ hx => absurd hx List.not_mem_nil
  | cons lba gone ih =>
    intro t hordered before after x hrefs hx hbefore
    have hpairs : (before ++ x :: after).Pairwise fun x y => x.position < y.position := by
      rw [← hrefs]
      exact hordered
    obtain ⟨-, htail, hacross⟩ := List.pairwise_append.mp hpairs
    have hkept (p : Nat) (hp : x.position ≤ p) : before.filter (fun y => y.position < p) = before :=
      List.filter_eq_self.mpr fun y hy => by
        simpa using (hacross y hy x List.mem_cons_self).trans_le hp
    rw [List.foldl_cons]
    by_cases hlba : x.lba = lba
    · have hfind : t.refs.find? (fun y => y.lba == lba) = some x := by
        rw [hrefs]
        refine find?_append_cons (by simpa using hlba) fun y hy => ?_
        simpa using (not_or.mp (mt List.mem_cons.mpr (hbefore y hy))).1
      have hspoiled : t.spoiledBy lba = t.faultedAt x.position .lost := by simp only [Stream.spoiledBy, hfind]
      have hleft : (t.faultedAt x.position .lost).refs = before := by
        have hnone : (x :: after).filter (fun y => y.position < x.position) = [] :=
          List.filter_eq_nil_iff.mpr fun y hy => by
            rcases List.mem_cons.mp hy with rfl | hy
            · simp
            · simpa using (List.rel_of_pairwise_cons htail hy).le
        simp only [Stream.faultedAt, hrefs, List.filter_append, hkept _ le_rfl, hnone, List.append_nil]
      rw [hspoiled]
      exact Stream.foldl_spoiledBy_of_absent gone fun y hy hmem =>
        hbefore y (hleft ▸ hy) (List.mem_cons_of_mem _ hmem)
    · have hx' : x.lba ∈ gone := (List.mem_cons.mp hx).resolve_left hlba
      have hbefore' : ∀ y ∈ before, y.lba ∉ gone := fun y hy hmem => hbefore y hy (List.mem_cons_of_mem _ hmem)
      cases hfind : t.refs.find? fun y => y.lba == lba with
      | none =>
        have hsame : t.spoiledBy lba = t := by simp only [Stream.spoiledBy, hfind]
        rw [hsame]
        exact ih hordered hrefs hx' hbefore'
      | some y =>
        have hspoiled : t.spoiledBy lba = t.faultedAt y.position .lost := by simp only [Stream.spoiledBy, hfind]
        have hy : y ∈ after := by
          have hmem := List.mem_of_find?_eq_some hfind
          have hylba : y.lba = lba := by simpa using List.find?_some hfind
          rw [hrefs, List.mem_append, List.mem_cons] at hmem
          rcases hmem with hmem | rfl | hmem
          · exact absurd (hylba ▸ List.mem_cons_self) (hbefore y hmem)
          · exact absurd hylba hlba
          · exact hmem
        have hlater : x.position < y.position := List.rel_of_pairwise_cons htail hy
        have hleft : (t.faultedAt y.position .lost).refs =
            before ++ x :: after.filter (fun z => z.position < y.position) := by
          simp only [Stream.faultedAt, hrefs, List.filter_append, hkept _ hlater.le, List.filter_cons]
          simp [hlater]
        have hordered' : (t.faultedAt y.position .lost).Ordered := hordered.filter _
        rw [hspoiled, ih hordered' hleft hx' hbefore']
        have hrefs' : ((t.faultedAt y.position .lost).refs.filter fun z => z.position < x.position) =
            t.refs.filter fun z => z.position < x.position := by
          simp only [Stream.faultedAt, List.filter_filter]
          refine List.filter_congr fun z _ => ?_
          simp only [← Bool.decide_and, decide_eq_decide]
          omega
        simp only [Stream.faultedAt] at hrefs' ⊢
        rw [hrefs']

end

/-! ## The cache at entry to FAILED (R82) -/

section
variable {s : State}

/-- Nothing completes where every record is complete. -/
theorem completeReads_of_complete (h : ∀ r ∈ s.sc.reads, r.complete = true) (c : ReadRecord → Bool) :
    completeReads c s = s := by
  have hnone : (s.sc.reads.filter fun r => !r.complete && c r && r.isDone) = [] :=
    List.filter_eq_nil_iff.mpr fun r hr => by simp [h r hr]
  have hsame : (s.sc.reads.map fun r => if !r.complete && c r && r.isDone then { r with complete := true } else r) =
      s.sc.reads := by
    conv_rhs => rw [← List.map_id s.sc.reads]
    exact List.map_congr_left fun r hr => by simp [h r hr]
  simp only [completeReads, hnone, hsame, List.foldl_nil]

/-- What the loss of references leaves of a read record. -/
def ReadRecord.name (r : ReadRecord) : Channel × Byte × Bool := (r.channel, r.tag, r.complete)

/-- What the cache's part of the failure leaves, once every read left is complete. -/
structure ReadingDropped (gone : List Entry) (s t : State) : Prop where
  agree : ReportsAgree s t
  reads : t.sc.reads.map ReadRecord.name = s.sc.reads.map ReadRecord.name
  entries : t.sc.entries = s.sc.entries.filter fun x => !(gone.map Entry.lba).contains x.lba
  freeList : t.sc.freeList = s.sc.freeList ++ gone.flatMap Entry.buffers
  streams : ∀ ch, t.su.get ch = (gone.map Entry.lba).foldl Stream.spoiledBy (s.su.get ch)
  rest : ∃ links sc su pe, t = { s with links := links, sc := sc, su := su, pe := pe } ∧
    pe.state = s.pe.state ∧ pe.move = s.pe.move ∧ (s.pe.pass = none → pe.pass = none)

theorem dropReading_dropped (h : ∀ r ∈ s.sc.reads, r.complete = true) (e : Entry) :
    ReadingDropped [e] s (dropReading s e) := by
  let removed : State := removeEntry e (withdraw (.entry e.lba) s)
  let spoiled : State := mapReads (ReadRecord.spoiled e.lba .lost) removed
  have hcomplete : ∀ r ∈ spoiled.sc.reads, r.complete = true := fun r hr => by
    obtain ⟨x, hx, rfl⟩ := List.mem_map.mp hr
    exact h x hx
  have hdropped : dropReading s e = streamSpoiled .b e.lba .lost (streamSpoiled .a e.lba .lost spoiled) := by
    rw [dropReading, refsBad, completeReads_of_complete hcomplete]
  obtain ⟨hagree, links, ha⟩ := streamSpoiled_rest .a e.lba spoiled
  obtain ⟨hagree', links', hb⟩ := streamSpoiled_rest .b e.lba (streamSpoiled .a e.lba .lost spoiled)
  have hagrees : ReportsAgree s (dropReading s e) := by
    rw [hdropped]
    have hspoiled : ReportsAgree s spoiled := .of_links rfl rfl
    exact (hspoiled.trans hagree).trans hagree'
  rw [hb, ha] at hdropped
  refine ⟨hagrees, ?_, ?_, ?_, fun ch => ?_, ?_⟩ <;> rw [hdropped]
  · simp [spoiled, removed, mapReads, removeEntry, freeBuffers, withdraw, withdrawAll, ReadRecord.name,
      ReadRecord.spoiled]
  · refine List.filter_congr fun x _ => ?_
    rw [Bool.eq_iff_iff]
    simp
  · simp [spoiled, removed, mapReads, removeEntry, freeBuffers, withdraw, withdrawAll]
  · cases ch <;> rfl
  · exact ⟨_, _, _, _, rfl, rfl, rfl, fun hpass => by
      simp [spoiled, removed, mapReads, removeEntry, freeBuffers, withdraw, withdrawAll, Engine.withdrawn, hpass]⟩

theorem ReadingDropped.nil (s : State) : ReadingDropped [] s s :=
  ⟨.refl s, rfl, by simp, by simp, fun _ => rfl, _, _, _, _, rfl, rfl, rfl, fun h => h⟩

theorem ReadingDropped.complete {gone : List Entry} {t : State} (h : ReadingDropped gone s t)
    (hs : ∀ r ∈ s.sc.reads, r.complete = true) : ∀ r ∈ t.sc.reads, r.complete = true := fun r hr => by
  have hname : r.name ∈ s.sc.reads.map ReadRecord.name := h.reads ▸ List.mem_map_of_mem hr
  obtain ⟨x, hx, hsame⟩ := List.mem_map.mp hname
  have hflag : x.complete = r.complete := congrArg (fun n => n.2.2) hsame
  rw [← hflag]
  exact hs x hx

theorem ReadingDropped.cons {e : Entry} {gone : List Entry} {r t : State} (h : ReadingDropped [e] s r)
    (k : ReadingDropped gone r t) : ReadingDropped (e :: gone) s t := by
  obtain ⟨links, sc, su, pe, hr, hstate, hmove, hpass⟩ := h.rest
  obtain ⟨links', sc', su', pe', ht, hstate', hmove', hpass'⟩ := k.rest
  refine ⟨h.agree.trans k.agree, k.reads.trans h.reads, ?_, ?_, fun ch => ?_, links', sc', su', pe', ?_, ?_, ?_, ?_⟩
  · rw [k.entries, h.entries, List.filter_filter]
    refine List.filter_congr fun x _ => ?_
    rw [Bool.eq_iff_iff]
    simp [and_comm]
  · rw [k.freeList, h.freeList]
    simp
  · rw [k.streams, h.streams]
    rfl
  · rw [ht, hr]
  · rw [hstate', hr, hstate]
  · rw [hmove', hr, hmove]
  · intro hnone
    exact hpass' (by rw [hr]; exact hpass hnone)

theorem foldl_dropReading (gone : List Entry) : ∀ {s : State}, (∀ r ∈ s.sc.reads, r.complete = true) →
    ReadingDropped gone s (gone.foldl dropReading s) := by
  induction gone with
  | nil => exact fun _ => .nil _
  | cons e gone ih =>
    intro s h
    have hfirst := dropReading_dropped h e
    exact hfirst.cons (ih (hfirst.complete h))

end

/-! ## The reports at entry to FAILED (R26, R102) -/

/-- A request that ends MEDIUM_FAULT: channel, tag, kind and detail. -/
abbrev FaultedRequest := Channel × Byte × QueuedKind × Nat

/-- The reports of requests that end MEDIUM_FAULT, one after another. -/
def postFaults (xs : List FaultedRequest) (s : State) : State :=
  xs.foldl (fun r x => postReport x.1 x.2.1 x.2.2.1 .mediumFault x.2.2.2 false r) s

/-- The READs not complete, oldest accepted first. -/
def State.faultedReads (s : State) (detail : Nat → Nat) : List FaultedRequest :=
  (s.sc.reads.filter fun r => !r.complete).zipIdx.map fun x => (x.1.channel, x.1.tag, .read, detail x.2)

/-- The waiters, each with its lowest LBA not SATISFIED. -/
def State.faultedWaiters (s : State) : List FaultedRequest :=
  s.cmu.waiters.map fun w => (w.channel, w.tag, w.kind.queued, w.lowest WaitSector.isOpen)

/-- The EJECT in progress. -/
def State.faultedEject (s : State) : List FaultedRequest :=
  match s.cc.eject with
  | some (.channel ch tag) => [(ch, tag, .eject, 0)]
  | _ => []

/-- The INITIALISE in progress. -/
def State.faultedInitialise (s : State) : List FaultedRequest :=
  match s.cc.initialise with
  | some r => [(r.channel, r.tag, .initialise, 0)]
  | none => []

section
variable {s t : State}

theorem ReportsAgree.postFaults (h : ReportsAgree s t) (xs : List FaultedRequest) :
    ReportsAgree (postFaults xs s) (postFaults xs t) :=
  ReportsAgree.foldl_congr (fun _ _ x h => h.postReport x.1 x.2.1 x.2.2.1 .mediumFault x.2.2.2 false) xs h

theorem postFaults_append (xs ys : List FaultedRequest) (s : State) :
    postFaults (xs ++ ys) s = postFaults ys (postFaults xs s) := List.foldl_append

/-- The reads not complete are reported, oldest accepted first, and their records are gone (R26, R195). -/
theorem foldl_failRead (rs : List ReadRecord) : ∀ (s : State) (k n : Nat), s.freeCount = n + k →
    ReportsAgree
      (Machine.postFaults ((rs.zipIdx k).map fun x =>
        (x.1.channel, x.1.tag, QueuedKind.read, (Config.freeReadDetail (n + x.2)).toNat)) s)
      (rs.foldl failRead s) ∧
    ∃ links m, rs.foldl failRead s = { s with links := links, freeCount := m } := by
  induction rs with
  | nil => exact fun s _ _ _ => ⟨.refl s, _, _, rfl⟩
  | cons r rs ih =>
    intro s k n hcount
    obtain ⟨hagree, links, m, hrest⟩ := ih (failRead s r) (k + 1) n (by
      simp only [failRead]
      exact congrArg (· + 1) hcount)
    have hfirst : ReportsAgree
        (postReport r.channel r.tag .read .mediumFault (Config.freeReadDetail (n + k)).toNat false s)
        (failRead s r) := by
      rw [failRead, hcount]
      exact ReportsAgree.postReport (by exact .of_links rfl rfl) ..
    refine ⟨?_, links, m, ?_⟩
    · rw [List.zipIdx_cons, List.map_cons, List.foldl_cons]
      exact (hfirst.postFaults _).trans hagree
    · rw [List.foldl_cons, hrest]
      rfl

theorem failReads_rest (s : State) :
    ReportsAgree (postFaults (s.faultedReads fun i => (Config.freeReadDetail (s.freeCount + i)).toNat) s)
      (failReads s) ∧
    ∃ links m, failReads s =
      { s with
        links := links, freeCount := m
        sc := { s.sc with reads := s.sc.reads.filter ReadRecord.complete } } := by
  obtain ⟨hagree, links, m, hrest⟩ := foldl_failRead (s.sc.reads.filter fun r => !r.complete)
    { s with sc := { s.sc with reads := s.sc.reads.filter ReadRecord.complete } } 0 s.freeCount rfl
  exact ⟨(ReportsAgree.postFaults (by exact .of_links rfl rfl) _).trans hagree, links, m, hrest⟩

theorem endAllWaiters_agree (s : State) : ReportsAgree (postFaults s.faultedWaiters s) (endAllWaiters s) := by
  have hall : (s.cmu.waiters.filter fun _ => true) = s.cmu.waiters := by simp
  have hnone : (s.cmu.waiters.filter fun _ => false) = [] := by simp
  rw [endAllWaiters_eq, hall, hnone, postFaults, State.faultedWaiters, List.foldl_map]
  exact ReportsAgree.foldl_congr
    (fun _ _ (w : Waiter) h => h.postReport w.channel w.tag w.kind.queued .mediumFault (w.lowest WaitSector.isOpen) false)
    s.cmu.waiters (by exact .of_links rfl rfl)

theorem endEject_rest (s : State) :
    ReportsAgree (postFaults s.faultedEject s) (endEject .mediumFault s) ∧ ∃ links, endEject .mediumFault s =
      { s with links := links, cc := { s.cc with eject := none } } := by
  cases h : s.cc.eject with
  | none =>
    simp only [endEject, State.faultedEject, h]
    exact ⟨.of_links rfl rfl, _, rfl⟩
  | some r =>
    cases r <;> simp only [endEject, State.faultedEject, h] <;> exact ⟨.of_links rfl rfl, _, rfl⟩

theorem endInitialise_rest (s : State) :
    ReportsAgree (postFaults s.faultedInitialise s) (endInitialise .mediumFault s) ∧
      ∃ links, endInitialise .mediumFault s =
        { s with links := links, cc := { s.cc with initialise := none } } := by
  cases h : s.cc.initialise <;> simp only [endInitialise, State.faultedInitialise, h] <;>
    exact ⟨.of_links rfl rfl, _, rfl⟩

theorem freeingEvent_agree (h : ∀ ch, (s.su.get ch).canPrefetch = false) : ReportsAgree s (freeingEvent s) := by
  obtain ⟨links, wants, hwants⟩ := checkWants_rest s
  obtain ⟨n, hretried⟩ := retryPrefetches_rest (s := checkWants s) (by rw [hwants]; exact h)
  rw [freeingEvent, hretried]
  exact (ReportsAgree.checkWants s).trans (.of_links rfl rfl)

/-- The entries in READING, in slot order. -/
def State.reading (s : State) : List Entry := s.sc.entries.filter fun e => e.state == .reading

/-- What entry to FAILED leaves of the work of both channels (R26, step 2). -/
structure WorkFailed (s t : State) : Prop where
  reports : ∃ detail, ReportsAgree
    (postFaults (s.faultedReads detail ++ s.faultedWaiters ++ s.faultedEject ++ s.faultedInitialise) s) t
  reads : t.sc.reads.map ReadRecord.name = (s.sc.reads.filter ReadRecord.complete).map ReadRecord.name
  entries : t.sc.entries = s.sc.entries.filter fun x => !(s.reading.map Entry.lba).contains x.lba
  freeList : t.sc.freeList = s.sc.freeList ++ s.reading.flatMap Entry.buffers
  streams : ∀ ch, t.su.get ch = ((s.reading.map Entry.lba).foldl Stream.spoiledBy (s.su.get ch)).failed
  rest : ∃ links sc su pe n, t =
      { s with
        links := links, sc := sc, su := su, pe := pe, freeCount := n
        cc := { s.cc with eject := none, initialise := none }
        cmu := { s.cmu with waiters := [] } } ∧
    pe.state = s.pe.state ∧ pe.move = s.pe.move ∧ (s.pe.pass = none → pe.pass = none)

/-- The cache's part of the failure: reads reported, READING entries gone. -/
theorem dropAllReading_failReads (s : State) :
    (∃ detail, ReportsAgree (postFaults (s.faultedReads detail) s) (dropAllReading (failReads s))) ∧
    ∃ r, ReadingDropped s.reading r (dropAllReading (failReads s)) ∧ ∃ links m, r =
      { s with
        links := links, freeCount := m
        sc := { s.sc with reads := s.sc.reads.filter ReadRecord.complete } } := by
  obtain ⟨hreads, links, m, hrest⟩ := failReads_rest s
  have hcomplete : ∀ r ∈ (failReads s).sc.reads, r.complete = true := fun r hr => by
    rw [hrest] at hr
    exact (List.mem_filter.mp hr).2
  have hreading : (failReads s).reading = s.reading := by
    rw [State.reading, hrest]
    rfl
  have hdropped : ReadingDropped s.reading (failReads s) (dropAllReading (failReads s)) := by
    rw [← hreading]
    exact foldl_dropReading _ hcomplete
  exact ⟨⟨_, hreads.trans hdropped.agree⟩, _, hdropped, links, m, hrest⟩

/-- The streams' part of the failure. -/
theorem failStreams_rest (s : State) :
    ReportsAgree s (failStream .b (failStream .a s)) ∧ ∃ links su, failStream .b (failStream .a s) =
      { s with links := links, su := su } ∧ ∀ ch, su.get ch = (s.su.get ch).failed := by
  obtain ⟨hagree, links, ha⟩ := failStream_rest .a s
  obtain ⟨hagree', links', hb⟩ := failStream_rest .b (failStream .a s)
  refine ⟨hagree.trans hagree', links', _, by rw [hb, ha], fun ch => ?_⟩
  cases ch <;> rfl

/-- The waiters, the EJECT and the INITIALISE end. -/
theorem endRequests_rest (s : State) :
    ReportsAgree (postFaults (s.faultedWaiters ++ s.faultedEject ++ s.faultedInitialise) s)
      (endInitialise .mediumFault (endEject .mediumFault (endAllWaiters s))) ∧
    ∃ links, endInitialise .mediumFault (endEject .mediumFault (endAllWaiters s)) =
      { s with
        links := links
        cc := { s.cc with eject := none, initialise := none }
        cmu := { s.cmu with waiters := [] } } := by
  obtain ⟨links, hwaiters⟩ := endAllWaiters_rest s
  have hwaited := endAllWaiters_agree s
  rw [hwaiters] at hwaited ⊢
  obtain ⟨hejected, links', heject⟩ := endEject_rest { s with links := links, cmu := { s.cmu with waiters := [] } }
  rw [heject] at hejected ⊢
  obtain ⟨hended, links'', hinitialise⟩ := endInitialise_rest
    { s with links := links', cmu := { s.cmu with waiters := [] }, cc := { s.cc with eject := none } }
  rw [postFaults_append, postFaults_append]
  exact ⟨(((hwaited.postFaults s.faultedEject).trans hejected).postFaults s.faultedInitialise).trans hended, links'',
    hinitialise⟩

theorem failWork_failed (s : State) : WorkFailed s (failWork s) := by
  obtain ⟨⟨detail, hreads⟩, r, hdropped, links, m, hr⟩ := dropAllReading_failReads s
  obtain ⟨links', sc, su, pe, hd, hstate, hmove, hpass⟩ := hdropped.rest
  have hwork : failWork s = freeingEvent (endInitialise .mediumFault (endEject .mediumFault (endAllWaiters
      (failStream .b (failStream .a (dropAllReading (failReads s))))))) := rfl
  rw [hwork]
  generalize dropAllReading (failReads s) = d at *
  obtain ⟨hfaulted, links'', su', hf, hsu⟩ := failStreams_rest d
  rw [hf] at hfaulted ⊢
  obtain ⟨hended, links3, he⟩ := endRequests_rest { d with links := links'', su := su' }
  have hstill : ∀ ch, (su'.get ch).canPrefetch = false := fun ch => by
    rw [hsu]
    exact Stream.failed_canPrefetch _
  rw [he] at hended ⊢
  obtain ⟨links4, wants, n, hfreed⟩ := freeingEvent_rest
    (s := { d with
      links := links3, su := su', cc := { d.cc with eject := none, initialise := none }
      cmu := { d.cmu with waiters := [] } }) hstill
  have hagree := freeingEvent_agree
    (s := { d with
      links := links3, su := su', cc := { d.cc with eject := none, initialise := none }
      cmu := { d.cmu with waiters := [] } }) hstill
  have hrequests : State.faultedWaiters { d with links := links'', su := su' } = s.faultedWaiters ∧
      State.faultedEject { d with links := links'', su := su' } = s.faultedEject ∧
      State.faultedInitialise { d with links := links'', su := su' } = s.faultedInitialise := by
    subst hd hr
    exact ⟨rfl, rfl, rfl⟩
  obtain ⟨hw, hej, hin⟩ := hrequests
  rw [hw, hej, hin] at hended
  refine ⟨⟨detail, ?_⟩, ?_, ?_, ?_, fun ch => ?_, ?_⟩
  · rw [List.append_assoc, List.append_assoc, postFaults_append, ← List.append_assoc]
    exact (((hreads.trans hfaulted).postFaults _).trans hended).trans hagree
  · rw [hfreed]
    exact hdropped.reads.trans (by rw [hr])
  · rw [hfreed]
    exact hdropped.entries.trans (by rw [hr])
  · rw [hfreed]
    exact hdropped.freeList.trans (by rw [hr])
  · rw [hfreed]
    refine (hsu ch).trans ?_
    rw [hdropped.streams, hr]
  · subst hd hr
    exact ⟨_, _, _, _, _, hfreed, hstate, hmove, hpass⟩

/-- The part at entry to FAILED, before the other blocks complete their work: outputs released, engine STOPPED. -/
def State.stoppedDead (s : State) (links : PerChannel Link) : State :=
  { s with
    links := links
    outputs := ⟨false, false, false⟩
    cc := { s.cc with state := .failed, limit := none, prior := none }
    cmu := { s.cmu with tasks := cutOffTasks s }
    pe := { s.pe with
      state := .stopped, pass := none, move := none, retry := none, settle := none, seekFaults := 0
      goWaiting := false }
    mci := { s.mci with hold := s.mci.hold || s.pe.state == .held, stepReq := false } }

theorem enterCartState_agree (st : CartState) (s : State) : ReportsAgree s (enterCartState st s) :=
  (ReportsAgree.notify (ReportsAgree.notify (by exact .of_links rfl rfl) .a .cartridge) .b .cartridge : _)

theorem enterFailed_rest (s : State) :
    ∃ links, ReportsAgree s (s.stoppedDead links) ∧ WorkFailed (s.stoppedDead links) (enterFailed s) := by
  let quiet : State := { s.stoppedDead s.links with cc := { s.cc with limit := none, prior := none } }
  have hquiet : enterFailed s = failWork (enterCartState .failed quiet) := by
    rw [enterFailed, stopEngine_eq]
    rfl
  have hagree : ReportsAgree s (enterCartState .failed quiet) :=
    ReportsAgree.trans (by exact .of_links rfl rfl) (enterCartState_agree .failed quiet)
  rw [hquiet]
  exact ⟨_, hagree, failWork_failed _⟩

theorem WorkFailed.entries_not_reading (h : WorkFailed s t) : ∀ e ∈ t.sc.entries, e.state ≠ .reading := by
  intro e he hreading
  rw [h.entries] at he
  obtain ⟨hmem, hkept⟩ := List.mem_filter.mp he
  have : e ∈ s.reading := List.mem_filter.mpr ⟨hmem, by simp [hreading]⟩
  simp only [Bool.not_eq_true', List.contains_eq_mem, decide_eq_false_iff_not] at hkept
  exact hkept (List.mem_map_of_mem this)

theorem WorkFailed.reads_complete (h : WorkFailed s t) : ∀ r ∈ t.sc.reads, r.complete = true := by
  intro r hr
  have hname : r.name ∈ (s.sc.reads.filter ReadRecord.complete).map ReadRecord.name := h.reads ▸ List.mem_map_of_mem hr
  obtain ⟨x, hx, hsame⟩ := List.mem_map.mp hname
  have hflag : x.complete = r.complete := congrArg (fun n => n.2.2) hsame
  rw [← hflag]
  exact (List.mem_filter.mp hx).2

/-- Where all entries have their own LBAs, exactly the READING ones are gone. -/
theorem WorkFailed.entries_of_nodup (h : WorkFailed s t) (hnodup : (s.sc.entries.map Entry.lba).Nodup) :
    t.sc.entries = s.sc.entries.filter fun e => e.state != .reading := by
  rw [h.entries]
  refine List.filter_congr fun x hx => ?_
  have hiff : x.lba ∈ s.reading.map Entry.lba ↔ x.state = .reading := by
    refine ⟨fun hmem => ?_, fun hstate => List.mem_map_of_mem (List.mem_filter.mpr ⟨hx, by simp [hstate]⟩)⟩
    obtain ⟨e, he, hlba⟩ := List.mem_map.mp hmem
    obtain ⟨he, hstate⟩ := List.mem_filter.mp he
    have hsame : e = x := List.inj_on_of_nodup_map hnodup he hx hlba
    simpa [hsame] using hstate
  rw [Bool.eq_iff_iff]
  simp [hiff]

/-- The cut-off tasks of a stopped engine are the tasks. -/
theorem cutOffTasks_of_noPass (h : s.pe.pass = none) : cutOffTasks s = s.cmu.tasks := by
  simp [cutOffTasks, h]

end

/-! ## Expired limits and lost indexes (R24, R26) -/

section
variable {s : State}

/-- The four limits and the commands of their expiry. -/
theorem exec_limitExpiry {kind : LimitKind} {c : Instr}
    (h : (kind, c) ∈ [(LimitKind.clamp, Instr.clampLimitExpiry), (.lock, .lockLimitExpiry),
      (.stop, .stopLimitExpiry), (.switch, .switchLimitExpiry)]) (s : State) :
    exec c s = .next (limitExpires kind s) := by
  simp only [List.mem_cons, List.not_mem_nil, or_false, Prod.mk.injEq] at h
  rcases h with ⟨rfl, rfl⟩ | ⟨rfl, rfl⟩ | ⟨rfl, rfl⟩ | ⟨rfl, rfl⟩ <;> rfl

theorem limitExpires_of_running {kind : LimitKind} {deadline : Nat} (h : s.cc.limit = some ⟨kind, deadline⟩) :
    limitExpires kind s = enterFailed (passToClock deadline s) := by
  simp only [limitExpires, h, if_true]

theorem limitExpires_of_other {kind : LimitKind} (h : s.cc.limit.map MechLimit.kind ≠ some kind) :
    limitExpires kind s = s := by
  unfold limitExpires
  split
  · next l hl => exact if_neg fun hk => h (by rw [hl, Option.map_some, hk])
  · rfl

/-- The state at a counted mechanism fault, before RECOVERING or FAILED is entered. -/
def State.faultCounted (s : State) : State :=
  { stopEngine s with cc := { s.cc with recoveryCount := s.cc.recoveryCount + 1 } }

theorem mechanismFault_of_third (hlocked : s.cc.state.isLocked = true) (hcount : 2 ≤ s.cc.recoveryCount) :
    mechanismFault s = enterFailed s.faultCounted := by
  rw [mechanismFault, if_pos hlocked]
  simp only [stopEngine_cc]
  exact if_neg (by omega)

theorem mechanismFault_of_recovery (hlocked : s.cc.state.isLocked = true) (hcount : s.cc.recoveryCount < 2) :
    mechanismFault s = enterCartState .recovering (startLimit .lock (startMotor
      { s.faultCounted with cc := { s.faultCounted.cc with prior := some s.cc.state, lockRun := 0 } })) := by
  rw [mechanismFault, if_pos hlocked]
  simp only [stopEngine_cc]
  exact if_pos (by omega)

theorem indexLost_of_locked (hlocked : s.cc.state.isLocked = true) :
    indexLost s = mechanismFault (passUntil 60000 s) := if_pos hlocked

theorem indexLost_of_third (hlocked : s.cc.state.isLocked = true) (hcount : 2 ≤ s.cc.recoveryCount) :
    indexLost s = enterFailed (passUntil 60000 s).faultCounted :=
  (indexLost_of_locked hlocked).trans (mechanismFault_of_third (by exact hlocked) (by exact hcount))

end

/-- Settles O39: an expired limit and a third fault enter FAILED, a first or second fault enters RECOVERING. -/
theorem anExpiredLimitOrLostIndexFailsTheCartridge : Obligations.AnExpiredLimitOrLostIndexFailsTheCartridge := by
  unfold Obligations.AnExpiredLimitOrLostIndexFailsTheCartridge
  intro cutOff
  refine ⟨fun s kind c hc => ⟨fun deadline hlimit => ?_, fun hother => ?_⟩, fun s => ?_⟩
  · obtain ⟨links, -, hfailed⟩ := enterFailed_rest (passToClock deadline s)
    obtain ⟨links', sc, su, pe, n, ht, hstate, hmove, hpass⟩ := hfailed.rest
    refine ⟨_, (exec_limitExpiry hc s).trans (congrArg _ (limitExpires_of_running hlimit)), ?_⟩
    have hentries := hfailed.entries_not_reading
    have hreads := hfailed.reads_complete
    rw [ht] at hentries hreads ⊢
    exact ⟨rfl, rfl, rfl, rfl, rfl, rfl, rfl, hstate, hmove, hpass rfl, hentries, hreads, rfl, rfl, rfl, rfl, rfl⟩
  · exact (exec_limitExpiry hc s).trans (congrArg _ (limitExpires_of_other hother))
  · intro gone
    refine ⟨fun hlocked hcount hattn => ?_, fun hlocked hcount => ?_, fun hnot => ?_⟩
    · refine congrArg Host.Outcome.next ((indexLost_of_locked hlocked).trans ?_)
      rw [mechanismFault_of_recovery (by exact hlocked) (by exact hcount), State.faultCounted, stopEngine_eq, enterCartState_of_judged (by exact hattn)]
      rfl
    · obtain ⟨links, -, hfailed⟩ := enterFailed_rest (passUntil 60000 s).faultCounted
      obtain ⟨links', sc, su, pe, n, ht, hstate, hmove, hpass⟩ := hfailed.rest
      refine ⟨_, congrArg Host.Outcome.next (indexLost_of_third hlocked hcount), ?_⟩
      have hpass' : (passUntil 60000 s).faultCounted.pe.pass = none := stopEngine_pass _
      have htasks : cutOffTasks (passUntil 60000 s).faultCounted = cutOff s := by
        rw [cutOffTasks_of_noPass hpass', State.faultCounted, stopEngine_eq]
        rfl
      have htable : (passUntil 60000 s).faultCounted.rmt = s.rmt := by
        rw [State.faultCounted, stopEngine_eq]
        rfl
      rw [ht]
      exact ⟨rfl, hstate, hpass rfl, rfl, htasks, htable⟩
    · exact congrArg Host.Outcome.next (if_neg (by simp [hnot]))

/-! ## The work at entry to FAILED (R26, R82, R102, R140) -/

section
variable {s q t : State}

/-- What a failing command leaves before FAILED is entered: everything that the work is reckoned by. -/
structure SameWork (s q : State) : Prop where
  agree : ReportsAgree s q
  cache : q.sc = s.sc
  streams : q.su = s.su
  waiters : q.cmu.waiters = s.cmu.waiters
  eject : q.cc.eject = s.cc.eject
  initialise : q.cc.initialise = s.cc.initialise

theorem enterFailed_of_sameWork (h : SameWork s q) : ∃ r, SameWork s r ∧ WorkFailed r (enterFailed q) := by
  obtain ⟨links, hagree, hfailed⟩ := enterFailed_rest q
  exact ⟨_, ⟨h.agree.trans hagree, h.cache, h.streams, h.waiters, h.eject, h.initialise⟩, hfailed⟩

/-- The three ways into FAILED begin from states with the same work. -/
theorem exec_failing {c : Instr}
    (h : (∃ kind deadline, s.cc.limit = some ⟨kind, deadline⟩ ∧
      (kind, c) ∈ [(LimitKind.clamp, Instr.clampLimitExpiry), (.lock, .lockLimitExpiry),
        (.stop, .stopLimitExpiry), (.switch, .switchLimitExpiry)]) ∨
      (c = .cartridgeSwitchOpens ∧ s.cc.state ∉ [CartState.empty, .loading, .ejecting, .failed]) ∨
      (c = .indexLoss ∧ s.cc.state.isLocked = true ∧ 2 ≤ s.cc.recoveryCount)) :
    ∃ q, SameWork s q ∧ exec c s = .next (enterFailed q) := by
  rcases h with ⟨kind, deadline, hlimit, hc⟩ | ⟨rfl, hstate⟩ | ⟨rfl, hlocked, hcount⟩
  · exact ⟨passToClock deadline s, ⟨.of_links rfl rfl, rfl, rfl, rfl, rfl, rfl⟩,
      (exec_limitExpiry hc s).trans (congrArg _ (limitExpires_of_running hlimit))⟩
  · have hopens : switchOpens s = enterFailed { s with lines := { s.lines with switchClosed := false } } := by
      simp only [List.mem_cons, List.not_mem_nil, or_false, not_or] at hstate
      obtain ⟨h1, h2, h3, h4⟩ := hstate
      unfold switchOpens
      split
      · next h => exact absurd h h1
      · next h => exact absurd h h4
      · next h => exact absurd h h2
      · next h => exact absurd h h3
      · rfl
    exact ⟨{ s with lines := { s.lines with switchClosed := false } }, ⟨.of_links rfl rfl, rfl, rfl, rfl, rfl, rfl⟩, congrArg Host.Outcome.next hopens⟩
  · have hsame : SameWork s (passUntil 60000 s).faultCounted := by
      rw [State.faultCounted, stopEngine_eq]
      exact ⟨.of_links rfl rfl, rfl, rfl, rfl, rfl, rfl⟩
    exact ⟨(passUntil 60000 s).faultCounted, hsame, congrArg Host.Outcome.next (indexLost_of_third hlocked hcount)⟩

end

/-- Settles O40: each way into FAILED leaves the same work, and its reports, records, entries and streams are those
of `failWork`. -/
theorem entryToFailedCompletesTheWorkOfBothChannels : Obligations.EntryToFailedCompletesTheWorkOfBothChannels := by
  intro s c hc lowest reading
  obtain ⟨q, hq, hexec⟩ := exec_failing hc
  obtain ⟨r, hr, hfailed⟩ := enterFailed_of_sameWork hq
  obtain ⟨detail, hreports⟩ := hfailed.reports
  have hreading : r.reading = s.reading := by rw [State.reading, hr.cache, State.reading]
  have hlost (lba : Nat) : lba ∈ s.reading.map Entry.lba ↔ reading lba := by
    simp only [List.mem_map, State.reading, List.mem_filter, beq_iff_eq]
    exact ⟨fun ⟨e, ⟨he, hstate⟩, hlba⟩ => ⟨e, he, hlba, hstate⟩, fun ⟨e, he, hlba, hstate⟩ => ⟨e, ⟨he, hstate⟩, hlba⟩⟩
  have hstreams (ch : Channel) : (enterFailed q).su.get ch =
      ((s.reading.map Entry.lba).foldl Stream.spoiledBy (s.su.get ch)).failed := by
    rw [hfailed.streams, hreading, hr.streams]
  refine ⟨_, detail, hexec, ?_, ?_, fun hnodup => ?_, fun ch hstep => ?_⟩
  · have hsame : r.faultedReads detail ++ r.faultedWaiters ++ r.faultedEject ++ r.faultedInitialise =
        s.faultedReads detail ++ s.faultedWaiters ++ s.faultedEject ++ s.faultedInitialise := by
      simp only [State.faultedReads, State.faultedWaiters, State.faultedEject, State.faultedInitialise, hr.cache,
        hr.waiters, hr.eject, hr.initialise]
    rw [hsame] at hreports
    have hposted := (hr.agree.postFaults _).trans hreports
    intro reads waiters eject initialise reported c
    have hqueues := hposted.queues c
    have hreported : postFaults (s.faultedReads detail ++ s.faultedWaiters ++ s.faultedEject ++ s.faultedInitialise) s =
        reported := rfl
    rw [hreported] at hqueues
    simp only [Link.queues, Prod.mk.injEq] at hqueues
    obtain ⟨-, houtstanding, hunread⟩ := hqueues
    exact ⟨houtstanding, hunread⟩
  · have hnames := hfailed.reads
    rw [hr.cache] at hnames
    refine hnames.trans (List.map_congr_left fun x hx => ?_)
    rw [ReadRecord.name, (List.mem_filter.mp hx).2]
  · rw [← hr.cache] at hnodup
    refine ⟨?_, ?_⟩
    · rw [hfailed.entries_of_nodup hnodup, hr.cache]
    · rw [hfailed.freeList, hreading, hr.cache]
      rfl
  · intro st lostAt
    rw [show lostAt = fun p => (enterFailed q).su.get ch = st.faultedAt p .lost from rfl, hstreams]
    refine ⟨fun hnone => ?_, fun before x after hrefs hx hbefore => ?_⟩
    · rw [Stream.foldl_spoiledBy_of_absent _ fun x hx => mt (hlost x.lba).mp (hnone x hx)]
      refine ⟨fun hopened hleft => if_pos ⟨hopened, hleft⟩, fun hstands => if_neg fun ⟨hopened, hleft⟩ => ?_⟩
      exact hstands.elim (absurd hopened) hleft.ne
    · rw [Stream.foldl_spoiledBy_of_first _ hstep.ordered hrefs ((hlost x.lba).mpr hx) fun y hy =>
        mt (hlost y.lba).mp (hbefore y hy)]
      exact if_neg (by simp [Stream.faultedAt])

end Sys2Proof.Machine
end

section
/-! SUPPORT and PROOFS. Loading, leaving, lock and the resets (Sections 1.5, 2.2 to 2.9): settles O38, O41 and O42. -/

namespace Sys2Proof.Machine

/-! ## Index events with no head on a track (R10, R12, R107) -/

section
variable {s : State} {elapsed : Nat} {found : Found}

/-- A sector end concerns an engine at rest on a track only. -/
theorem sectorEnds_of_not_onTrack (h : s.pe.state = .stopped ∨ s.pe.state = .moving) (cut : Bool) (found : Found) :
    sectorEnds cut found s = s := by
  rcases h with h | h <;> simp only [sectorEnds, h]

/-- A mark concerns an engine at rest on a track only. -/
theorem sectorMark_of_not_onTrack (h : s.pe.state = .stopped ∨ s.pe.state = .moving) (sector angle : Nat) :
    sectorMark sector angle s = s := by
  rcases h with h | h <;> simp [sectorMark, settledAt, performs, h]

/-- With the engine STOPPED or MOVING an index event is the timer's work alone. -/
theorem exec_indexEvent_of_not_onTrack
    (h : (indexTimer elapsed s).pe.state = .stopped ∨ (indexTimer elapsed s).pe.state = .moving) :
    exec (.indexEvent elapsed found) s = .next (indexTimer elapsed s) := by
  have harrives : indexArrives elapsed found s = indexTimer elapsed s := by
    rw [indexArrives, sectorEnds_of_not_onTrack h, sectorMark_of_not_onTrack h]
  have hidle : (indexTimer elapsed s).pe.state ≠ .idle := by
    rcases h with h | h <;> rw [h] <;> decide
  exact congrArg Host.Outcome.next ((congrArg workArrival harrives).trans (workArrival_eq_self (.of_state hidle)))

/-- The settle point after one more index event (log entry 13). -/
def Engine.wrapped (pe : Engine) : Engine :=
  { pe with settle := pe.settle.map fun p => { p with wraps := p.wraps + 1 } }

/-- The state at an index event, its period measured, before the spindle monitor acts. -/
def State.measured (s : State) (elapsed : Nat) : State :=
  { s with
    clock := s.clock + (elapsed - s.timer.elapsed)
    timer := ⟨elapsed, elapsed, true, s.timer.revolution + 1⟩ }

theorem indexTimer_of_unseen (hseen : s.timer.indexSeen = false) (elapsed : Nat) :
    indexTimer elapsed s =
      { s with
        clock := s.clock + (elapsed - s.timer.elapsed)
        timer := ⟨s.timer.period, 0, true, s.timer.revolution + 1⟩
        pe := s.pe.wrapped } := by
  cases hst : s.cc.state <;> simp [indexTimer, passUntil, hseen, hst] <;> rfl

theorem indexTimer_of_seen (hseen : s.timer.indexSeen = true) (hle : s.timer.elapsed ≤ elapsed) :
    indexTimer elapsed s =
      { judgePeriod elapsed (s.measured elapsed) with
        timer :=
          ⟨(judgePeriod elapsed (s.measured elapsed)).timer.period, 0, true,
            if (s.cc.state == .spinningUp && (judgePeriod elapsed (s.measured elapsed)).cc.state == .mounting) &&
              Config.lockIndexCounted then 1 else (judgePeriod elapsed (s.measured elapsed)).timer.revolution⟩
        pe := (judgePeriod elapsed (s.measured elapsed)).pe.wrapped } := by
  have hif : (passUntil elapsed s).timer.indexSeen = true := hseen
  have helapsed : (passUntil elapsed s).timer.elapsed = elapsed := Nat.max_eq_right hle
  have hmeasured : { passUntil elapsed s with
      timer := ⟨elapsed, elapsed, true, (passUntil elapsed s).timer.revolution + 1⟩ } = s.measured elapsed := rfl
  simp only [indexTimer, hif, if_true, helapsed, hmeasured]
  rfl

/-- An index event after one seen, with the spindle monitor's judgement known. -/
theorem exec_indexEvent_of_judged {r : State} (hseen : s.timer.indexSeen = true) (hle : s.timer.elapsed ≤ elapsed)
    (hr : judgePeriod elapsed (s.measured elapsed) = r) (hengine : r.pe.state = .stopped ∨ r.pe.state = .moving) :
    exec (.indexEvent elapsed found) s = .next
      { r with
        timer := ⟨r.timer.period, 0, true,
          if (s.cc.state == .spinningUp && r.cc.state == .mounting) && Config.lockIndexCounted then 1
          else r.timer.revolution⟩
        pe := r.pe.wrapped } := by
  have htimer := indexTimer_of_seen hseen hle
  rw [hr] at htimer
  rw [exec_indexEvent_of_not_onTrack (by rw [htimer]; exact hengine), htimer]

/-- The same where no lock is reached in SPINNING_UP: the revolution counter goes on. -/
theorem exec_indexEvent_of_notLocked {r : State} (hseen : s.timer.indexSeen = true) (hle : s.timer.elapsed ≤ elapsed)
    (hr : judgePeriod elapsed (s.measured elapsed) = r) (hengine : r.pe.state = .stopped ∨ r.pe.state = .moving)
    (hlocked : s.cc.state = .spinningUp → r.cc.state ≠ .mounting) :
    exec (.indexEvent elapsed found) s = .next
      { r with timer := ⟨r.timer.period, 0, true, r.timer.revolution⟩, pe := r.pe.wrapped } := by
  have hnot : (s.cc.state == .spinningUp && r.cc.state == .mounting) = false := by simpa using hlocked
  rw [exec_indexEvent_of_judged hseen hle hr hengine]
  simp only [hnot, Bool.false_and, Bool.false_eq_true, if_false]

/-! ## The spindle monitor (R19, R20, R25) -/

theorem judgePeriod_of_elsewhere (h : s.cc.state ≠ .spinningUp) (h' : s.cc.state ≠ .recovering) (period : Nat) :
    judgePeriod period s = s := if_neg (by simp [h, h'])

theorem judgePeriod_of_outside {period : Nat} (h : s.cc.state = .spinningUp ∨ s.cc.state = .recovering)
    (hout : period < 19800 ∨ 20200 < period) :
    judgePeriod period s = { s with cc := { s.cc with lockRun := 0 } } := by
  have hnot : ¬ (19800 ≤ period ∧ period ≤ 20200) := by omega
  rw [judgePeriod, if_pos h, if_neg hnot]
  rfl

theorem judgePeriod_of_inside {period : Nat} (h : s.cc.state = .spinningUp ∨ s.cc.state = .recovering)
    (hlow : 19800 ≤ period) (hhigh : period ≤ 20200) (hrun : s.cc.lockRun < 7) :
    judgePeriod period s = { s with cc := { s.cc with lockRun := s.cc.lockRun + 1 } } := by
  have hmin : Nat.min (s.cc.lockRun + 1) 8 = s.cc.lockRun + 1 := Nat.min_eq_left (by omega)
  rw [judgePeriod, if_pos h]
  simp only [if_pos (show 19800 ≤ period ∧ period ≤ 20200 from ⟨hlow, hhigh⟩),
    if_neg (show ¬ 8 ≤ s.cc.lockRun + 1 by omega), hmin]

theorem judgePeriod_of_lock {period : Nat} (h : s.cc.state = .spinningUp ∨ s.cc.state = .recovering)
    (hlow : 19800 ≤ period) (hhigh : period ≤ 20200) (hrun : s.cc.lockRun = 7) :
    judgePeriod period s =
      if s.cc.state = .spinningUp then lockInSpinUp { s with cc := { s.cc with lockRun := 8 } }
      else lockInRecovery { s with cc := { s.cc with lockRun := 8 } } := by
  rw [judgePeriod, if_pos h]
  simp only [if_pos (show 19800 ≤ period ∧ period ≤ 20200 from ⟨hlow, hhigh⟩), hrun]
  rfl

/-- The 56 mount reads, behind what is due of the other blocks (R20, R25). -/
def Engine.mountDue (pe : Engine) : List DueOp :=
  (pe.due.filter fun op => !op.owner.isMount) ++
    ((List.range 28).map fun i => (⟨.mount .a i, .read, ⟨0, i⟩⟩ : DueOp)) ++
    (List.range 28).map fun i => (⟨.mount .b i, .read, ⟨1, i⟩⟩ : DueOp)

theorem offerMountReads_due (s : State) : (offerMountReads s).pe.due = s.pe.due ++
    ((List.range 28).map fun i => (⟨.mount .a i, .read, ⟨0, i⟩⟩ : DueOp)) ++
    (List.range 28).map fun i => (⟨.mount .b i, .read, ⟨1, i⟩⟩ : DueOp) := by
  rw [List.append_assoc]
  rfl

theorem lockInRecovery_of_running {back : CartState} (hattn : AttnJudged s) (hprior : s.cc.prior = some back)
    (hmounting : back ≠ .mounting) (hdrain : back = .draining → drainMet s = false) :
    lockInRecovery s = State.told .cartridge
      { s with
        cc := { s.cc with state := back, prior := none, limit := none }
        pe := { s.pe with
          state := .moving, retry := none, seekFaults := 0
          move := some ⟨.recalibrate, 0, .erase, false, false, s.clock⟩ } } := by
  have hback : s.cc.prior.getD .mounting = back := by rw [hprior]; rfl
  simp only [lockInRecovery, hback, if_neg hmounting]
  rw [drainCheck_eq_self, enterCartState_of_judged (by exact hattn)]
  · rfl
  · by_cases hb : back = .draining
    · refine .inr ((?_ : _ = drainMet (enterCartState back s)).trans ((drainMet_enterCartState back s).trans (hdrain hb)))
      rfl
    · exact .inl hb

/-- A return to MOUNTING begins the mount anew (R25). -/
theorem lockInRecovery_of_mounting (hprior : s.cc.prior = some .mounting) :
    lockInRecovery s = offerMountReads (restartMount (startEngine (enterCartState .mounting
      { s with cc := { s.cc with prior := none, limit := none } }))) := by
  have hback : s.cc.prior.getD .mounting = .mounting := by rw [hprior]; rfl
  simp only [lockInRecovery, hback, if_true]
  rfl

/-- A return to DRAINING with nothing left to drain spins down (R30, log entry 26). -/
theorem lockInRecovery_of_drained (hprior : s.cc.prior = some .draining) (hmet : drainMet s = true) :
    ∃ q, q.lines = s.lines ∧ q.cc.prior = none ∧ lockInRecovery s = enterSpinningDown (stopEngine (clearPart q)) := by
  have hback : s.cc.prior.getD .mounting = .draining := by rw [hprior]; rfl
  have hmet' : drainMet (startEngine (enterCartState .draining
      { cancelLimit s with cc := { (cancelLimit s).cc with prior := none } })) = true :=
    (drainMet_enterCartState .draining s).trans hmet
  simp only [lockInRecovery, hback]
  refine ⟨_, ?_, ?_, (if_neg (by decide)).trans (drainCheck_of_met rfl hmet')⟩ <;> rfl

end

/-- Settles O42, by what the spindle monitor makes of the period. -/
theorem indexEventsMeasureThePeriodAndReachLock : Obligations.IndexEventsMeasureThePeriodAndReachLock := by
  intro elapsed found s hstopped hle turned mountDue
  refine ⟨fun hunseen => ?_, fun hseen hspin hrecover => ?_, fun hseen hstate => ⟨fun hout => ?_, fun hlow hhigh hrun => ?_⟩,
    fun hseen hlow hhigh hrun => ⟨fun hspin => ?_, fun back hrecover hprior hattn => ⟨fun hmounting hdrain => ?_,
      fun hmounting => ?_, fun hdraining hmet hrest => ?_⟩⟩⟩
  · have htimer := indexTimer_of_unseen hunseen elapsed
    rw [exec_indexEvent_of_not_onTrack (.inl (by rw [htimer]; exact hstopped)), htimer]
    rfl
  · rw [exec_indexEvent_of_notLocked hseen hle (judgePeriod_of_elsewhere (by exact hspin) (by exact hrecover) _)
      (.inl (by exact hstopped)) (fun h => absurd h hspin)]
    rfl
  · rw [exec_indexEvent_of_notLocked hseen hle (judgePeriod_of_outside (by exact hstate) hout)
      (.inl (by exact hstopped)) (fun h => by simp [State.measured, h])]
    rfl
  · rw [exec_indexEvent_of_notLocked hseen hle (judgePeriod_of_inside (by exact hstate) hlow hhigh (by exact hrun))
      (.inl (by exact hstopped)) (fun h => by simp [State.measured, h])]
    rfl
  · have hlock := judgePeriod_of_lock (s := s.measured elapsed) (.inl hspin) hlow hhigh hrun
    rw [if_pos (by exact hspin)] at hlock
    refine ⟨_, exec_indexEvent_of_judged hseen hle hlock (.inr rfl), rfl, rfl, rfl, rfl, rfl, rfl, rfl, rfl, rfl, ?_⟩
    exact offerMountReads_due _
  all_goals
    have hnot : s.cc.state ≠ .spinningUp := by rw [hrecover]; decide
    have hlock := judgePeriod_of_lock (s := s.measured elapsed) (.inr hrecover) hlow hhigh hrun
    rw [if_neg (by exact hnot)] at hlock
  · rw [lockInRecovery_of_running (by exact hattn) (by exact hprior) hmounting (by exact hdrain)] at hlock
    rw [exec_indexEvent_of_notLocked hseen hle hlock (.inr rfl) (fun h => absurd h hnot)]
    rfl
  · subst hmounting
    rw [lockInRecovery_of_mounting (by exact hprior)] at hlock
    refine ⟨_, exec_indexEvent_of_judged hseen hle hlock (.inr rfl), rfl, rfl, rfl, rfl, rfl, rfl, rfl, ?_⟩
    exact offerMountReads_due _
  · subst hdraining
    obtain ⟨q, hlines, hq, hdown⟩ := lockInRecovery_of_drained
      (s := { s.measured elapsed with cc := { s.cc with lockRun := 8 } }) hprior hmet
    have hspun := SpunDown.of_cleared (s := q) (by rw [hlines]; exact hrest) (.inl rfl)
    rw [← hdown] at hspun
    refine ⟨_, exec_indexEvent_of_judged hseen hle hlock (.inl hspun.engine), hspun.state, hspun.prior.trans hq, hspun.engine,
      hspun.motor, hspun.entries, hspun.table⟩

/-! ## The resets (R36) -/

section
variable {s : State}

theorem State.told_of_detached (h : ∀ ch, (s.links.get ch).attached = false) (e : EventFlag) : s.told e = s := by
  have ha : s.links.a.told e = s.links.a := if_neg (Bool.not_eq_true _ ▸ h .a)
  have hb : s.links.b.told e = s.links.b := if_neg (Bool.not_eq_true _ ▸ h .b)
  rw [State.told, ha, hb]

theorem Link.told_told (l : Link) (e : EventFlag) : (l.told e).told e = l.told e := by
  unfold Link.told
  split
  · simp [BitVec.or_assoc]
  · rfl

theorem State.told_told (s : State) (e : EventFlag) : (s.told e).told e = s.told e := by
  simp only [State.told, Link.told_told]

/-- Where no link is attached, a change of cartridge state changes no link. -/
theorem enterCartState_of_detached (hattn : AttnJudged s) (h : ∀ ch, (s.links.get ch).attached = false)
    (st : CartState) : enterCartState st s = { s with cc := { s.cc with state := st } } := by
  rw [enterCartState_of_judged hattn, State.told_of_detached (by exact h)]

theorem blocksReset_detached (found : MechanismFound) (strap : Bool) (s : State) (ch : Channel) :
    ((blocksReset found strap s).links.get ch).attached = false := by
  cases ch <;> rfl

theorem blocksReset_attnJudged (found : MechanismFound) (strap : Bool) (s : State) :
    AttnJudged (blocksReset found strap s) := fun ch => by
  cases ch <;> rfl

/-- LOADING after a reset, or SPINNING_UP at once where a hub is found clamped (R36). -/
theorem resetPart_of_closed {found : MechanismFound} (hclosed : found.switchClosed = true) (strap : Bool) (s : State) :
    resetPart found strap s =
      if found.hubClamped then
        { blocksReset found strap s with
          cc := { Controller.atReset with
            state := .spinningUp, tab := found.tabSet, limit := some ⟨.lock, s.clock + 6000000⟩ }
          outputs := ⟨false, true, false⟩
          lines := ⟨true, true, found.tabSet, false, strap⟩ }
      else
        { blocksReset found strap s with
          cc := { Controller.atReset with state := .loading, limit := some ⟨.clamp, s.clock + 2000000⟩ }
          outputs := ⟨true, false, false⟩ } := by
  have hloading := enterCartState_of_detached
    (s := startLimit .clamp { blocksReset found strap s with
      outputs := { (blocksReset found strap s).outputs with clampCommand := true } })
    (blocksReset_attnJudged found strap s) (blocksReset_detached found strap s) .loading
  have hlines : (blocksReset found strap s).lines.hubClamped = found.hubClamped := rfl
  rw [resetPart, if_pos hclosed, enterLoading, hloading, hlines]
  cases hhub : found.hubClamped with
  | false => rfl
  | true =>
    simp only [if_true, clampDone]
    rw [enterCartState_of_detached (by exact blocksReset_attnJudged found strap s)
      (by exact blocksReset_detached found strap s)]
    simp only [blocksReset, startLimit, startMotor, hclosed, hhub]
    rfl

end

/-- Settles O41, by the switch and the hub as the mechanism is found. -/
theorem resetsPutEveryBlockAtItsResetValues : Obligations.ResetsPutEveryBlockAtItsResetValues := by
  intro found s kept cleared after
  have hreset (strap : Bool) : resetPart found strap s = after strap := by
    cases hclosed : found.switchClosed with
    | true =>
      rw [resetPart_of_closed hclosed]
      simp only [after, hclosed, if_true]
      rfl
    | false =>
      simp only [after, hclosed]
      exact if_neg (by simp [hclosed])
  refine ⟨fun strap => congrArg _ (hreset strap), congrArg _ (hreset _), fun hsent => ?_, fun hnot => ?_,
    fun hsent hnone => ?_⟩
  · exact congrArg _ ((if_pos hsent).trans (hreset _))
  · exact congrArg _ (if_neg hnot)
  · have hdue : eventDue s = true := by simp [eventDue, clearDue, hsent]
    simp only [step, hnone, idleTick, hdue, if_true]

/-! ## Into the drive and out of it (R18, R26, R33) -/

section
variable {s : State}

theorem clampDone_of_judged (hattn : AttnJudged s) :
    clampDone s = State.told .cartridge
      { s with
        cc := { s.cc with
          state := .spinningUp, tab := s.lines.tabSet, lockRun := 0, limit := some ⟨.lock, s.clock + 6000000⟩ }
        outputs := { s.outputs with clampCommand := false, motorOn := true }
        timer := { s.timer with indexSeen := false }
        lines := { s.lines with spindleAtRest := false } } :=
  enterCartState_of_judged (by exact hattn) _

/-- LOADING, with its notice. -/
theorem loading_of_judged (hattn : AttnJudged s) :
    enterCartState .loading (startLimit .clamp { s with outputs := { s.outputs with clampCommand := true } }) =
      State.told .cartridge
        { s with
          cc := { s.cc with state := .loading, limit := some ⟨.clamp, s.clock + 2000000⟩ }
          outputs := { s.outputs with clampCommand := true } } :=
  enterCartState_of_judged (by exact hattn) _

theorem enterEmpty_of_judged (hattn : AttnJudged s) :
    enterEmpty s = endEject .ok (State.told .cartridge
      { s with
        cc := { s.cc with state := .empty, limit := none, tab := false }
        outputs := { s.outputs with ejectFired := false } }) :=
  congrArg (endEject .ok) (enterCartState_of_judged (by exact hattn) _)

theorem endEject_of_button (h : s.cc.eject = some .button) (status : ReportStatus) :
    endEject status s = { s with cc := { s.cc with eject := none } } := by
  simp only [endEject, h]

theorem endEject_of_channel {ch : Channel} {tag : Byte} (h : s.cc.eject = some (.channel ch tag))
    (status : ReportStatus) :
    endEject status s =
      { postReport ch tag .eject status 0 false s with
        cc := { (postReport ch tag .eject status 0 false s).cc with eject := none } } := by
  simp only [endEject, h]

/-- EJECTING, with its notice. -/
theorem ejecting_of_judged (hattn : AttnJudged s) :
    enterCartState .ejecting (startLimit .switch
        { s with
          outputs := { s.outputs with ejectFired := true }, lines := { s.lines with hubClamped := false } }) =
      State.told .cartridge
        { s with
          cc := { s.cc with state := .ejecting, limit := some ⟨.switch, s.clock + 2000000⟩ }
          outputs := { s.outputs with ejectFired := true }
          lines := { s.lines with hubClamped := false } } :=
  enterCartState_of_judged (by exact hattn) _

/-- With the switch already open EJECTING is passed through, and the eject ends (R33). -/
theorem enterEjecting_of_open (hattn : AttnJudged s) (hopen : s.lines.switchClosed = false) :
    enterEjecting s = endEject .ok (State.told .cartridge
      { s with
        cc := { s.cc with state := .empty, limit := none, tab := false }
        outputs := { s.outputs with ejectFired := false }
        lines := { s.lines with hubClamped := false } }) := by
  have hejecting := ejecting_of_judged hattn
  have hnot : ¬ s.lines.switchClosed = true := by simp [hopen]
  rw [enterEjecting, if_neg hnot, hejecting, enterEmpty_of_judged (AttnJudged.told (by exact hattn) _)]
  refine congrArg (endEject .ok) ?_
  simp only [State.told, Link.told_told]

end

/-- Settles O38, by the state in which each of the mechanism's reports finds the part. -/
theorem aCartridgeEntersAndLeavesTheDrive : Obligations.ACartridgeEntersAndLeavesTheDrive := by
  refine ⟨fun hub tab s hattn => ?_, fun s hattn => ?_⟩
  · intro closed spun
    refine ⟨fun hempty => congrArg Host.Outcome.next ?_, fun hnot => congrArg Host.Outcome.next (if_neg hnot),
      fun hloading => congrArg Host.Outcome.next ((if_pos hloading).trans (clampDone_of_judged (by exact hattn))),
      fun hnot => congrArg Host.Outcome.next (if_neg hnot)⟩
    have hcloses : switchCloses hub tab s = enterLoading closed := if_pos hempty
    rw [hcloses, enterLoading, loading_of_judged (by exact hattn)]
    cases hub with
    | false => rfl
    | true =>
      refine (if_pos rfl).trans ?_
      rw [clampDone_of_judged (AttnJudged.told (by exact hattn) _)]
      simp only [spun, State.told, Link.told_told]
      rfl
  · intro opened rested emptied
    refine ⟨fun h => ?_, fun h => ?_, fun h hej => ?_, fun ch tag h hej => ?_, fun h => ?_, fun h hclosed => ?_,
      fun h hopen => ?_, fun h => ⟨fun hon => ?_, fun hoff => ?_⟩⟩
    · have : switchOpens s = opened := by
        rcases h with h | h <;> simp only [switchOpens, h] <;> rfl
      exact congrArg Host.Outcome.next this
    · have : switchOpens s = enterCartState .empty
          (cancelLimit { opened with outputs := { s.outputs with clampCommand := false } }) := by
        simp only [switchOpens, h]
        rfl
      exact congrArg Host.Outcome.next (this.trans (enterCartState_of_judged (by exact hattn) _))
    · have hempties : switchOpens s = enterEmpty opened := by
        simp only [switchOpens, h]
        rfl
      rw [enterEmpty_of_judged (by exact hattn), endEject_of_button (by exact hej)] at hempties
      exact congrArg Host.Outcome.next hempties
    · have hempties : switchOpens s = enterEmpty opened := by
        simp only [switchOpens, h]
        rfl
      rw [enterEmpty_of_judged (by exact hattn), endEject_of_channel (by exact hej)] at hempties
      exact congrArg Host.Outcome.next hempties
    · obtain ⟨q, -, hexec⟩ := exec_failing (s := s) (.inr (.inl ⟨rfl, h⟩))
      obtain ⟨links, -, hfailed⟩ := enterFailed_rest q
      obtain ⟨links', sc, su, pe, n, ht, hstate, -⟩ := hfailed.rest
      refine ⟨_, hexec, ?_⟩
      rw [ht]
      exact ⟨rfl, rfl, rfl, hstate, rfl, rfl⟩
    · have hstops : spindleStops s = enterEjecting (cancelLimit rested) := if_pos h
      have hejecting := ejecting_of_judged (s := cancelLimit rested) hattn
      rw [enterEjecting, hejecting, if_pos (by exact hclosed)] at hstops
      exact congrArg Host.Outcome.next hstops
    · have hstops : spindleStops s = enterEjecting (cancelLimit rested) := if_pos h
      rw [enterEjecting_of_open (by exact hattn) (by exact hopen)] at hstops
      refine ⟨fun hej => ?_, fun ch tag hej => ?_⟩
      · rw [endEject_of_button (by exact hej)] at hstops
        exact congrArg Host.Outcome.next hstops
      · rw [endEject_of_channel (by exact hej)] at hstops
        exact congrArg Host.Outcome.next hstops
    · exact congrArg Host.Outcome.next ((if_neg h).trans (if_pos hon))
    · exact congrArg Host.Outcome.next ((if_neg h).trans (if_neg (by simp [hoff])))

end Sys2Proof.Machine
end

section
/-! SUPPORT and PROOFS. Table tasks and the ends of flushes (Sections 2.4, 2.8, 3.4 and 5.3): settles O54. -/

namespace Sys2Proof.Machine

/-! ## The engine without some owners' operations -/

section
variable {s : State}

/-- A withdrawal that another one contains adds nothing. -/
theorem Engine.withdrawn_withdrawn {p q : OpOwner → Bool} (h : ∀ o, p o = true → q o = true) (pe : Engine) :
    (pe.withdrawn p).withdrawn q = pe.withdrawn q := by
  have hdue : (pe.due.filter fun op => !p op.owner).filter (fun op => !q op.owner) =
      pe.due.filter fun op => !q op.owner := by
    rw [List.filter_filter]
    refine List.filter_congr fun op _ => ?_
    cases hp : p op.owner with
    | true => simp [h _ hp]
    | false => simp
  have hpass : (pe.pass.map fun c => if p c.op.owner then { c with withdrawn := true } else c).map
      (fun c => if q c.op.owner then { c with withdrawn := true } else c) =
        pe.pass.map fun c => if q c.op.owner then { c with withdrawn := true } else c := by
    cases pe.pass with
    | none => rfl
    | some c =>
      cases hp : p c.op.owner with
      | true => simp [hp, h _ hp]
      | false => simp [hp]
  simp only [Engine.withdrawn, hdue, hpass]

end

/-! ## Table tasks (R46, R88, R93) -/

section
variable {s : State} {t : TableTask} {p : FlushProgress}

theorem restageTable_eq (t : TableTask) (s : State) :
    restageTable t s =
      { s with
        cmu := { s.cmu with tableTasks := s.cmu.tableTasks.map fun y =>
          if y.copy = t.copy ∧ y.sector = t.sector then t else y }
        pe := { s.pe.withdrawn (fun o => o == .table t.copy t.sector) with
          due := (s.pe.withdrawn fun o => o == .table t.copy t.sector).due ++
            [⟨.table t.copy t.sector, t.stage.pass, ⟨t.copy.track, t.sector⟩⟩] } } := by
  simp only [restageTable, updTableTask, Bool.and_eq_true, beq_iff_eq]
  rfl

/-- The state without a verified sector's task (R46). -/
def State.sectorDone (s : State) (t : TableTask) : State :=
  { s with
    cmu := { s.cmu with tableTasks := s.cmu.tableTasks.filter fun y => !(y.copy == t.copy && y.sector == t.sector) }
    pe := s.pe.withdrawn fun o => o == .table t.copy t.sector }

theorem removeTableTask_eq (t : TableTask) (s : State) : removeTableTask t.copy t.sector s = s.sectorDone t := rfl

/-- The state without a failed copy's tasks (R93). -/
def State.copyDone (s : State) (c : TableCopy) : State :=
  { s with
    cmu := { s.cmu with tableTasks := s.cmu.tableTasks.filter fun y => y.copy != c }
    pe := s.pe.withdrawn (OpOwner.isTableOf c) }

theorem withdrawCopy_sectorDone (t : TableTask) (s : State) :
    withdrawCopy t.copy (s.sectorDone t) = s.copyDone t.copy := by
  have htasks : (s.cmu.tableTasks.filter fun y => !(y.copy == t.copy && y.sector == t.sector)).filter
      (fun y => y.copy != t.copy) = s.cmu.tableTasks.filter fun y => y.copy != t.copy := by
    rw [List.filter_filter]
    refine List.filter_congr fun y _ => ?_
    cases hc : y.copy == t.copy <;> simp [bne, hc]
  have hpe : (s.pe.withdrawn fun o => o == .table t.copy t.sector).withdrawn (OpOwner.isTableOf t.copy) =
      s.pe.withdrawn (OpOwner.isTableOf t.copy) :=
    Engine.withdrawn_withdrawn (fun o ho => by
      rw [beq_iff_eq] at ho
      simp [ho, OpOwner.isTableOf]) _
  simp only [withdrawCopy, State.sectorDone, withdrawAll, htasks, hpe]
  rfl

theorem setCopy_of_progress (h : s.rmt.progress = some p) (c : TableCopy) (x : CopyStatus) :
    setCopy c x s = { s with rmt := { s.rmt with progress := some (p.set c x) } } := by
  simp only [setCopy, h, Option.map_some]

/-- A sector verified that is not the last of its copy is counted (R46). -/
theorem sectorVerified_of_more (h : s.rmt.progress = some p) {c : TableCopy} {n : Nat} (hn : p.get c = .writing n)
    (hmore : n < 27) :
    sectorVerified c s = { s with rmt := { s.rmt with progress := some (p.set c (.writing (n + 1))) } } := by
  simp only [sectorVerified, h, Option.map_some, hn, if_neg (show ¬ n + 1 = 28 by omega)]
  exact setCopy_of_progress h c _

theorem sectorVerified_of_last (h : s.rmt.progress = some p) {c : TableCopy} (hlast : p.get c = .writing 27) :
    sectorVerified c s = copyLeaves c true s := by
  simp only [sectorVerified, h, Option.map_some, hlast, if_true]

theorem sectorAbandoned_of_writing (h : s.rmt.progress = some p) {c : TableCopy} {n : Nat}
    (hn : p.get c = .writing n) : sectorAbandoned c s = copyLeaves c false (withdrawCopy c s) := by
  simp only [sectorAbandoned, h, Option.map_some, hn]

/-! ## Copies that leave WRITING (R47) -/

theorem tableVerified_rest (v : Nat) (s : State) :
    ∃ links waiters, tableVerified v s = { s with links := links, cmu := { s.cmu with waiters := waiters } } := by
  obtain ⟨links, h⟩ := judgedWaiters_linksOnly
    (fun w => { w with sectors := w.sectors.map (WaitSector.released v) })
    (fun w =>
      if Waiter.done { w with sectors := w.sectors.map (WaitSector.released v) } then
        some (Waiter.okEnding { w with sectors := w.sectors.map (WaitSector.released v) })
      else none) s
  exact ⟨links, _, (judgeWaiters_of_sectors (WaitSector.released v) s).trans h⟩

/-- Copy B's tasks are due, its status WRITING (R47, R93). -/
def State.copyBStarts (s : State) (a : CopyStatus) : State :=
  { s with
    cmu := { s.cmu with tableTasks := s.cmu.tableTasks.map fun y => if y.copy = .b then { y with held := false } else y }
    pe := { s.pe with due := s.pe.due ++ (s.cmu.tableTasks.filter fun y => y.copy == .b).map TableTask.op }
    rmt := { s.rmt with progress := some ⟨a, .writing 0⟩ } }

theorem releaseCopyB_eq (h : s.rmt.progress = some p) : releaseCopyB s = s.copyBStarts p.copyA := by
  have hops : ((s.cmu.tableTasks.map fun y => if y.copy = .b then { y with held := false } else y).filter
      fun y => y.copy == .b).map TableTask.op = (s.cmu.tableTasks.filter fun y => y.copy == .b).map TableTask.op := by
    rw [List.filter_map, List.map_map]
    have hfilter : ((fun y : TableTask => y.copy == .b) ∘ fun y => if y.copy = .b then { y with held := false } else y) =
        fun y => y.copy == .b := by
      funext y
      by_cases hy : y.copy = .b <;> simp [hy]
    rw [hfilter]
    refine List.map_congr_left fun y _ => ?_
    by_cases hy : y.copy = .b <;> simp [TableTask.op, hy]
  simp only [releaseCopyB, hops, setCopy, h]
  rfl

/-- The verified generation is the flush's, and the waiters are told (R47, R99). -/
def State.generationVerified (s : State) (now : FlushProgress) : State :=
  tableVerified s.rmt.generation
    { s with rmt := { s.rmt with verifiedGen := s.rmt.generation, progress := some now } }

theorem raiseVerified_setCopy (h : s.rmt.progress = some p) (c : TableCopy) :
    raiseVerified (setCopy c .verified s) = s.generationVerified (p.set c .verified) := by
  rw [setCopy_of_progress h]
  rfl

theorem copyALeaves_verified (h : s.rmt.progress = some p) :
    copyLeaves .a true s = (s.generationVerified { p with copyA := .verified }).copyBStarts .verified := by
  obtain ⟨links, waiters, hrest⟩ := tableVerified_rest s.rmt.generation
    { s with rmt := { s.rmt with verifiedGen := s.rmt.generation, progress := some { p with copyA := .verified } } }
  have hprogress : (s.generationVerified { p with copyA := .verified }).rmt.progress =
      some { p with copyA := .verified } := by
    rw [State.generationVerified, hrest]
  have hleaves : copyLeaves .a true s = releaseCopyB (s.generationVerified { p with copyA := .verified }) :=
    congrArg releaseCopyB (raiseVerified_setCopy h .a)
  rw [hleaves, releaseCopyB_eq hprogress]

theorem copyALeaves_failed (h : s.rmt.progress = some p) : copyLeaves .a false s = s.copyBStarts .failed := by
  have hleaves : copyLeaves .a false s = releaseCopyB (setCopy .a .failed s) := rfl
  rw [hleaves, setCopy_of_progress h, releaseCopyB_eq (p := p.set .a .failed) rfl]
  rfl

/-! ## The end of a flush (R48, R49) -/

/-- The table after a flush that ended well: CLEAN, or in the next flush (R48). -/
def State.flushDone (s : State) : State :=
  if s.rmt.changedAgain then
    { s with
      rmt := { s.rmt with
        generation := min (s.rmt.generation + 1) maxGeneration
        image := imageArea (tableImage (min (s.rmt.generation + 1) maxGeneration) s.rmt.entries)
        changedAgain := false
        progress := some ⟨.writing 0, .waiting⟩, state := .flushing }
      cmu := { s.cmu with tableTasks := s.cmu.tableTasks ++
        ((List.range 28).map fun i => ⟨.a, i, .eraseDue, 0, false⟩) ++
        (List.range 28).map fun i => ⟨.b, i, .eraseDue, 0, true⟩ }
      pe := { s.pe with due := s.pe.due ++ (List.range 28).map fun i => (⟨.table .a i, .erase, ⟨0, i⟩⟩ : DueOp) } }
  else { s with rmt := { s.rmt with progress := none, state := .clean } }

theorem startFlush_eq (s : State) :
    startFlush s =
      { s with
        rmt := { s.rmt with
          generation := min (s.rmt.generation + 1) maxGeneration
          image := imageArea (tableImage (min (s.rmt.generation + 1) maxGeneration) s.rmt.entries)
          changedAgain := false
          progress := some ⟨.writing 0, .waiting⟩, state := .flushing }
        cmu := { s.cmu with tableTasks := s.cmu.tableTasks ++
          ((List.range 28).map fun i => ⟨.a, i, .eraseDue, 0, false⟩) ++
          (List.range 28).map fun i => ⟨.b, i, .eraseDue, 0, true⟩ }
        pe := { s.pe with
          due := s.pe.due ++ (List.range 28).map fun i => (⟨.table .a i, .erase, ⟨0, i⟩⟩ : DueOp) } } := by
  simp only [startFlush, startFlushAt, offerAll, copyTasks, List.map_map]
  rfl

theorem endFlushWell_eq (s : State) : endFlushWell s = flushEndedWell s.flushDone := by
  refine congrArg flushEndedWell ?_
  cases hchanged : s.rmt.changedAgain with
  | true => simp only [State.flushDone, hchanged, if_true, startFlush_eq]
  | false => simp [State.flushDone, hchanged]

/-- The table's record decides what follows a flush, whatever the waiters' reports changed. -/
theorem flushDone_of_table {r : State} (hgeneration : r.rmt.generation = s.rmt.generation)
    (hentries : r.rmt.entries = s.rmt.entries) (hchanged : r.rmt.changedAgain = s.rmt.changedAgain) :
    r.flushDone =
      if s.rmt.changedAgain then
        { r with
          rmt := { r.rmt with
            generation := min (s.rmt.generation + 1) maxGeneration
            image := imageArea (tableImage (min (s.rmt.generation + 1) maxGeneration) s.rmt.entries)
            changedAgain := false
            progress := some ⟨.writing 0, .waiting⟩, state := .flushing }
          cmu := { r.cmu with tableTasks := r.cmu.tableTasks ++
            ((List.range 28).map fun i => ⟨.a, i, .eraseDue, 0, false⟩) ++
            (List.range 28).map fun i => ⟨.b, i, .eraseDue, 0, true⟩ }
          pe := { r.pe with due := r.pe.due ++ (List.range 28).map fun i => (⟨.table .a i, .erase, ⟨0, i⟩⟩ : DueOp) } }
      else { r with rmt := { r.rmt with progress := none, state := .clean } } := by
  simp only [State.flushDone, hgeneration, hentries, hchanged]

/-- A flush that ends well overwrites its progress. -/
theorem flushDone_of_progress (x : Option FlushProgress) (s : State) :
    State.flushDone { s with rmt := { s.rmt with progress := x } } = s.flushDone := rfl

theorem copyBLeaves_verified {n : Nat} (h : s.rmt.progress = some ⟨.verified, .writing n⟩) (verified : Bool) :
    copyLeaves .b verified s = flushEndedWell s.flushDone := by
  have hdone (x : CopyStatus) : endFlushWell (setCopy .b x s) = flushEndedWell s.flushDone := by
    rw [endFlushWell_eq, setCopy_of_progress h, flushDone_of_progress]
  simp only [copyLeaves, copyBLeaves, h, Option.map_some, Option.getD_some]
  cases verified with
  | true => exact hdone .verified
  | false => exact hdone .failed

theorem copyBLeaves_first_verified {n : Nat} (h : s.rmt.progress = some ⟨.failed, .writing n⟩) :
    copyLeaves .b true s = flushEndedWell (s.generationVerified ⟨.failed, .verified⟩).flushDone := by
  have hraised : raiseVerified (setCopy .b .verified s) = s.generationVerified ⟨.failed, .verified⟩ :=
    raiseVerified_setCopy h .b
  simp only [copyLeaves, copyBLeaves, h, Option.map_some, Option.getD_some]
  exact (congrArg endFlushWell hraised).trans (endFlushWell_eq _)

theorem tableFaulted_rest (v : Nat) (s : State) :
    ∃ links waiters, tableFaulted v s = { s with links := links, cmu := { s.cmu with waiters := waiters } } := by
  let ended : Waiter → Option Ending := fun w =>
    if w.sectors.any (WaitSector.awaits v) then some (.tableFault, w.lowest (WaitSector.awaits v), false) else none
  obtain ⟨links, h⟩ := judgedWaiters_linksOnly id ended s
  refine ⟨links, _, Eq.trans ?_ h⟩
  rw [← judgeWaiters_of_ended, tableFaulted]
  refine congrArg (judgeWaiters · s) (funext fun w => ?_)
  simp only [ended]
  split <;> rfl

/-- Both copies failed (R49). -/
def State.tableFaulted (s : State) : State :=
  Machine.tableFaulted s.rmt.generation
    { s with rmt := { s.rmt with progress := none, changedAgain := false, fault := true, state := .dirty } }

theorem copyBLeaves_failed {n : Nat} (h : s.rmt.progress = some ⟨.failed, .writing n⟩) :
    copyLeaves .b false s = tableFaultReported s.tableFaulted := by
  have hended : endFlushFaulted (setCopy .b .failed s) = tableFaultReported s.tableFaulted := by
    rw [endFlushFaulted, setCopy_of_progress h]
    rfl
  simp only [copyLeaves, copyBLeaves, h, Option.map_some, Option.getD_some]
  exact hended

theorem flushEndedWell_of_none (h : s.cc.initialise = none) : flushEndedWell s = drainCheck s := by
  simp only [flushEndedWell, h]

theorem endInitialise_of_some {ch : Channel} {tag : Byte} (h : s.cc.initialise = some ⟨ch, tag⟩)
    (status : ReportStatus) :
    endInitialise status s =
      { postReport ch tag .initialise status 0 false s with
        cc := { (postReport ch tag .initialise status 0 false s).cc with initialise := none } } := by
  simp only [endInitialise, h]

theorem flushEndedWell_of_some {ch : Channel} {tag : Byte} (h : s.cc.initialise = some ⟨ch, tag⟩)
    (hattn : AttnJudged s) :
    flushEndedWell s = endInitialise .ok (State.told .cartridge { s with cc := { s.cc with state := .ready } }) := by
  have hended : flushEndedWell s = endInitialise .ok (enterCartState .ready s) := by simp only [flushEndedWell, h]
  rw [hended, enterCartState_of_judged hattn]

theorem tableFaultReported_of_some {ch : Channel} {tag : Byte} (h : s.cc.initialise = some ⟨ch, tag⟩)
    (hattn : AttnJudged s) :
    tableFaultReported s =
      endInitialise .tableFault (State.told .cartridge { s with cc := { s.cc with state := .unusable } }) := by
  have hended : tableFaultReported s = endInitialise .tableFault (enterCartState .unusable s) := by
    simp only [tableFaultReported, h]
  rw [hended, enterCartState_of_judged hattn]

theorem tableFaultReported_of_none (h : s.cc.initialise = none) :
    tableFaultReported s = if s.cc.state = .ready then enterCartState .readOnly s else drainCheck s := by
  simp only [tableFaultReported, h]

/-- The waiters told of a generation leave ATTN judged and the controller's record alone. -/
theorem generationVerified_keeps (s : State) (now : FlushProgress) :
    (s.generationVerified now).cc = s.cc ∧ (AttnJudged s → AttnJudged (s.generationVerified now)) := by
  obtain ⟨links, waiters, hrest⟩ := tableVerified_rest s.rmt.generation
    { s with rmt := { s.rmt with verifiedGen := s.rmt.generation, progress := some now } }
  refine ⟨by rw [State.generationVerified, hrest], fun h ch => ?_⟩
  exact ((Calm.refl { s with rmt := { s.rmt with verifiedGen := s.rmt.generation, progress := some now } }).tableVerified
    s.rmt.generation).attn ch (h ch)

theorem tableFaulted_keeps (s : State) :
    s.tableFaulted.cc = s.cc ∧ (AttnJudged s → AttnJudged s.tableFaulted) := by
  obtain ⟨links, waiters, hrest⟩ := tableFaulted_rest s.rmt.generation
    { s with rmt := { s.rmt with progress := none, changedAgain := false, fault := true, state := .dirty } }
  refine ⟨by rw [State.tableFaulted, hrest], fun h ch => ?_⟩
  exact ((Calm.refl { s with rmt := { s.rmt with
    progress := none, changedAgain := false, fault := true, state := .dirty } }).tableFaulted
      s.rmt.generation).attn ch (h ch)

/-- What a flush that ends well makes of the part (R30, R35, R48), from the state in which its last copy left. -/
theorem flushEnds {r : State} {o : PassOutcome} (hr : tableStageOutcome t o s = flushEndedWell r.flushDone)
    (hcc : r.cc = s.cc) (hattn : AttnJudged s → AttnJudged r) :
    (s.cc.initialise = none → tableStageOutcome t o s = drainCheck r.flushDone) ∧
    (s.cc.initialise = none → s.cc.state ≠ .draining → tableStageOutcome t o s = r.flushDone) ∧
    (∀ ch tag, s.cc.initialise = some ⟨ch, tag⟩ → AttnJudged s →
      let told := postReport ch tag .initialise .ok 0 false
        (State.told .cartridge { r.flushDone with cc := { r.flushDone.cc with state := .ready } })
      tableStageOutcome t o s = { told with cc := { told.cc with initialise := none } }) := by
  have hdone : r.flushDone.cc = s.cc ∧ (AttnJudged s → AttnJudged r.flushDone) := by
    unfold State.flushDone
    split
    · exact ⟨hcc, hattn⟩
    · exact ⟨hcc, hattn⟩
  obtain ⟨hcc', hattn'⟩ := hdone
  refine ⟨fun hnone => ?_, fun hnone hstate => ?_, fun ch tag hsome h => ?_⟩
  · rw [hr, flushEndedWell_of_none (by rw [hcc']; exact hnone)]
  · rw [hr, flushEndedWell_of_none (by rw [hcc']; exact hnone), drainCheck_eq_self (.inl (by rw [hcc']; exact hstate))]
  · rw [hr, flushEndedWell_of_some (by rw [hcc']; exact hsome) (hattn' h)]
    refine endInitialise_of_some ?_ _
    rw [← hsome, ← hcc']
    rfl

end

/-- Settles O54, by the stage of the task, its copy and the status of the other one. -/
theorem tableTasksVerifyTheirCopiesAndFlushesEnd : Obligations.TableTasksVerifyTheirCopiesAndFlushesEnd := by
  intro t s ht without mine restaged others verified abandoned copyBStarts clean
  refine ⟨fun hstage => ?_, fun hstage => ?_, fun hstage hless => ?_, fun p hp hstage => ?_⟩
  · simp only [tableStageOutcome, hstage]
    exact restageTable_eq ..
  · simp only [tableStageOutcome, hstage]
    exact restageTable_eq ..
  · simp only [tableStageOutcome, hstage, if_pos hless]
    exact restageTable_eq ..
  · intro raised
    have hpass : tableStageOutcome t .pass s = sectorVerified t.copy (s.sectorDone t) := by
      simp only [tableStageOutcome, hstage]
      rfl
    have hfail (hover : 2 ≤ t.restarts) : tableStageOutcome t .fail s = sectorAbandoned t.copy (s.sectorDone t) := by
      simp only [tableStageOutcome, hstage, if_neg (not_lt.mpr hover)]
      rfl
    have hp' : (s.sectorDone t).rmt.progress = some p := hp
    have hp'' : (s.copyDone t.copy).rmt.progress = some p := hp
    refine ⟨fun n hn hmore => ?_, fun hcopy hlast => ?_, fun n hcopy hn hover => ?_, fun hcopy => ?_,
      fun n hcopy hn hover hattn => ?_⟩
    · rw [hpass, sectorVerified_of_more hp' hn hmore]
      rfl
    · have hleaves : copyLeaves t.copy true (s.sectorDone t) =
          ((s.sectorDone t).generationVerified { p with copyA := .verified }).copyBStarts .verified := by
        rw [hcopy]
        exact copyALeaves_verified hp'
      rw [hpass, sectorVerified_of_last hp' (by rw [hcopy]; exact hlast), hleaves]
      rfl
    · have hleaves : copyLeaves t.copy false (s.copyDone t.copy) = (s.copyDone t.copy).copyBStarts .failed := by
        rw [hcopy]
        exact copyALeaves_failed hp''
      rw [hfail hover, sectorAbandoned_of_writing hp' (by rw [hcopy]; exact hn), withdrawCopy_sectorDone, hleaves]
      rfl
    · intro ends
      refine ⟨?_, ?_, ?_⟩
      · rintro rfl
        have hleaves : copyLeaves t.copy true (s.sectorDone t) = flushEndedWell (s.sectorDone t).flushDone := by
          rw [hcopy]
          exact copyBLeaves_verified hp' true
        exact flushEnds (r := s.sectorDone t)
          (by rw [hpass, sectorVerified_of_last hp' (by rw [hcopy]; rfl), hleaves]) rfl fun h => h
      · rintro rfl
        have hleaves : copyLeaves t.copy true (s.sectorDone t) =
            flushEndedWell ((s.sectorDone t).generationVerified ⟨.failed, .verified⟩).flushDone := by
          rw [hcopy]
          exact copyBLeaves_first_verified hp'
        obtain ⟨hcc, hattn⟩ := generationVerified_keeps (s.sectorDone t) ⟨.failed, .verified⟩
        have hends := flushEnds (s := s) (r := (s.sectorDone t).generationVerified ⟨.failed, .verified⟩)
          (by rw [hpass, sectorVerified_of_last hp' (by rw [hcopy]; rfl), hleaves]) hcc hattn
        obtain ⟨links, waiters, hrest⟩ := tableVerified_rest s.rmt.generation
          { s.sectorDone t with rmt := { s.rmt with
            verifiedGen := s.rmt.generation, progress := some ⟨.failed, .verified⟩ } }
        have htable : ((s.sectorDone t).generationVerified ⟨.failed, .verified⟩).rmt =
            { s.rmt with verifiedGen := s.rmt.generation, progress := some ⟨.failed, .verified⟩ } :=
          congrArg State.rmt hrest
        rw [flushDone_of_table (s := s) (by rw [htable]) (by rw [htable]) (by rw [htable])] at hends
        exact hends
      · intro n hboth hover
        subst hboth
        have hleaves : copyLeaves t.copy false (s.copyDone t.copy) =
            flushEndedWell (s.copyDone t.copy).flushDone := by
          rw [hcopy]
          exact copyBLeaves_verified (by rw [← hcopy]; exact hp'') false
        exact flushEnds (r := s.copyDone t.copy)
          (by rw [hfail hover, sectorAbandoned_of_writing hp' (by rw [hcopy]; rfl), withdrawCopy_sectorDone, hleaves])
          rfl fun h => h
    · subst hn
      have hleaves : copyLeaves t.copy false (s.copyDone t.copy) =
          tableFaultReported (s.copyDone t.copy).tableFaulted := by
        rw [hcopy]
        exact copyBLeaves_failed (by rw [← hcopy]; exact hp'')
      have hfailed : tableStageOutcome t .fail s = tableFaultReported (s.copyDone t.copy).tableFaulted := by
        rw [hfail hover, sectorAbandoned_of_writing hp' (by rw [hcopy]; rfl), withdrawCopy_sectorDone, hleaves]
      intro r entered
      obtain ⟨hcc, hkept⟩ := tableFaulted_keeps (s.copyDone t.copy)
      have hattn' : AttnJudged r := hkept hattn
      have hcc' : r.cc = s.cc := hcc
      have hfailed' : tableStageOutcome t .fail s = tableFaultReported r := hfailed
      refine ⟨fun hnone hready => ?_, fun hnone hother => ?_, fun ch tag hsome => ?_⟩
      · rw [hfailed', tableFaultReported_of_none (by rw [hcc']; exact hnone), if_pos (by rw [hcc']; exact hready)]
        exact enterCartState_of_judged hattn' _
      · rw [hfailed', tableFaultReported_of_none (by rw [hcc']; exact hnone), if_neg (by rw [hcc']; exact hother)]
      · rw [hfailed', tableFaultReported_of_some (by rw [hcc']; exact hsome) hattn']
        exact endInitialise_of_some (by rw [← hsome, ← hcc']; rfl) _

end Sys2Proof.Machine
end

section
/-! SUPPORT and PROOFS. Spares, grants and translation (Sections 1.4, 3.1 to 3.4 and 5.2): settles O49. -/

namespace Sys2Proof.Machine

/-! ## The ACTIVE entry of a home (R8, R40) -/

section
variable {table : RemapTable} {entries : List RemapEntry} {e : RemapEntry} {home : Phys}

theorem RemapEntry.home?_eq_some_iff (e : RemapEntry) (home : Phys) :
    e.home? = some home ↔ e.kind = .active home := by
  unfold RemapEntry.home?
  cases e.kind <;> simp

theorem RemapEntry.home?_isSome_iff (e : RemapEntry) : e.home?.isSome = true ↔ e.kind ≠ .spent := by
  unfold RemapEntry.home?
  cases e.kind <;> simp

/-- Two entries of a sound table with one home are one entry. -/
theorem EntriesSound.eq_of_home (h : EntriesSound entries) {x y : RemapEntry} (hx : x ∈ entries) (hy : y ∈ entries)
    (hkx : x.kind = .active home) (hky : y.kind = .active home) : x = y := by
  have hhx := (x.home?_eq_some_iff home).mpr hkx
  have hhy := (y.home?_eq_some_iff home).mpr hky
  obtain ⟨earlier, later, rfl⟩ := List.append_of_mem hx
  have hnodup : ((earlier.filterMap RemapEntry.home?) ++ home :: later.filterMap RemapEntry.home?).Nodup := by
    simpa [List.filterMap_append, hhx] using h.homes
  obtain ⟨hnot, -⟩ := List.nodup_cons.mp (List.nodup_middle.mp hnodup)
  rcases List.mem_append.mp hy with hin | hin
  · exact absurd (List.mem_append_left _ (List.mem_filterMap.mpr ⟨y, hin, hhy⟩)) hnot
  · rcases List.mem_cons.mp hin with heq | hin
    · exact heq.symm
    · exact absurd (List.mem_append_right _ (List.mem_filterMap.mpr ⟨y, hin, hhy⟩)) hnot

/-- Two entries of a sound table with one spare address are one entry. -/
theorem EntriesSound.eq_of_spare (h : EntriesSound entries) {x y : RemapEntry} (hx : x ∈ entries) (hy : y ∈ entries)
    (hspare : x.spare = y.spare) : x = y := by
  obtain ⟨hzx, hix⟩ := h.inBand x hx
  obtain ⟨hzy, hiy⟩ := h.inBand y hy
  obtain ⟨hz, hi⟩ := spareAt_injective hzx hix hzy hiy hspare
  exact List.inj_on_of_nodup_map h.spares hx hy (by rw [hz, hi])

theorem activeFor_eq_none (h : ∀ e ∈ table.entries, e.kind ≠ .active home) : table.activeFor home = none :=
  List.find?_eq_none.mpr fun e he hhome => h e he ((e.home?_eq_some_iff home).mp (by simpa using hhome))

theorem activeFor_eq_some (h : EntriesSound table.entries) (he : e ∈ table.entries) (hkind : e.kind = .active home) :
    table.activeFor home = some e := by
  cases hfind : table.activeFor home with
  | none =>
    have := List.find?_eq_none.mp hfind e he
    simp [(e.home?_eq_some_iff home).mpr hkind] at this
  | some x =>
    have hx := List.mem_of_find?_eq_some hfind
    have hkx : x.kind = .active home := (x.home?_eq_some_iff home).mp (by simpa using List.find?_some hfind)
    rw [h.eq_of_home hx he hkx hkind]

theorem translate_of_unloaded (h : table.loaded = false) (lba : Nat) : table.translate lba = homeOf lba :=
  if_neg (by simp [h])

theorem translate_of_none (h : table.activeFor (homeOf lba) = none) : table.translate lba = homeOf lba := by
  simp only [RemapTable.translate, h, ite_self]

theorem translate_of_active {lba : Nat} (hloaded : table.loaded = true) (h : table.activeFor (homeOf lba) = some e) :
    table.translate lba = spareAt e.zone e.index := by
  simp only [RemapTable.translate, hloaded, h, if_true]
  rfl

theorem judgeSpare_of_free {z j : Nat}
    (h : ¬ (table.loaded = false ∨ table.fault = true ∨ table.generation = maxGeneration)) (hj : j < sparesIn z)
    (hfree : ¬ ∃ e ∈ table.entries, e.zone = z ∧ e.index = j)
    (hused : ∀ k < j, ∃ e ∈ table.entries, e.zone = z ∧ e.index = k) : table.judgeSpare z = .ok j := by
  obtain ⟨hloaded, hfault, hgeneration⟩ : table.loaded = true ∧ table.fault = false ∧
      table.generation ≠ maxGeneration := by simpa [not_or] using h
  have hiff (k : Nat) : table.spareUsed z k = true ↔ ∃ e ∈ table.entries, e.zone = z ∧ e.index = k := by
    simp [RemapTable.spareUsed]
  have hfind : ((List.range (sparesIn z)).find? fun k => !table.spareUsed z k) = some j := by
    rw [List.find?_range_eq_some]
    refine ⟨by simpa using mt (hiff j).mp hfree, List.mem_range.mpr hj, fun k hk => ?_⟩
    simpa using (hiff k).mpr (hused k hk)
  simp [RemapTable.judgeSpare, hloaded, hfault, hgeneration, hfind]

end

/-! ## Grants (R38, R42 to R44) -/

section
variable {table : RemapTable} {home : Phys} {z j : Nat} {s : State}

theorem insertEntry_eq_append (e : RemapEntry) (l : List RemapEntry) :
    ∃ earlier later, l = earlier ++ later ∧ insertEntry e l = earlier ++ e :: later := by
  induction l with
  | nil => exact ⟨[], [], rfl, rfl⟩
  | cons x l ih =>
    unfold insertEntry
    split
    · exact ⟨[], x :: l, rfl, rfl⟩
    · obtain ⟨earlier, later, hl, hinsert⟩ := ih
      exact ⟨x :: earlier, later, by rw [hl]; rfl, by rw [hinsert]; rfl⟩

/-- An entry takes its place: what stands before it precedes it, and it precedes what stands behind it. -/
theorem insertEntry_place {e : RemapEntry} {l : List RemapEntry} (h : l.Pairwise fun x y => x.precedes y = true)
    (ht : ∀ x ∈ l, e.precedes x = true ∨ x.precedes e = true) :
    ∃ earlier later, l = earlier ++ later ∧ insertEntry e l = earlier ++ e :: later ∧
      (∀ y ∈ earlier, y.precedes e = true) ∧ ∀ y ∈ later, e.precedes y = true := by
  obtain ⟨earlier, later, hl, hinsert⟩ := insertEntry_eq_append e l
  have hordered := insertEntry_pairwise e l h ht
  rw [hinsert] at hordered
  obtain ⟨-, htail, hacross⟩ := List.pairwise_append.mp hordered
  exact ⟨earlier, later, hl, hinsert, fun y hy => hacross y hy e List.mem_cons_self,
    fun y hy => List.rel_of_pairwise_cons htail hy⟩

/-- An entry after the spare of its home has been replaced (R43). -/
def RemapEntry.respared (home : Phys) (z j gen : Nat) (e : RemapEntry) : RemapEntry :=
  if e.kind = .active home then ⟨.active home, z, j, gen⟩ else e

theorem respared_kind (home : Phys) (z j gen : Nat) (e : RemapEntry) : (e.respared home z j gen).kind = e.kind := by
  unfold RemapEntry.respared
  split
  · next h => exact h.symm
  · rfl

theorem respared_precedes (home : Phys) (z j gen : Nat) (x y : RemapEntry) :
    (x.respared home z j gen).precedes (y.respared home z j gen) = x.precedes y := by
  unfold RemapEntry.precedes
  rw [respared_kind, respared_kind]
  cases hx : x.kind <;> cases hy : y.kind <;> simp [RemapEntry.respared, hx, hy]

theorem granted_of_none (h : table.activeFor home = none) :
    table.granted home z j = insertEntry ⟨.active home, z, j, table.generation + 1⟩ table.entries := by
  simp only [RemapTable.granted, h]

theorem granted_of_some {old : RemapEntry} (h : table.activeFor home = some old) :
    table.granted home z j = insertEntry ⟨.spent, old.zone, old.index, table.generation + 1⟩
      (table.entries.map (RemapEntry.respared home z j (table.generation + 1))) := by
  have hmap : (fun e : RemapEntry => if e.home? == some home then
      { e with zone := z, index := j, generation := table.generation + 1 } else e) =
        RemapEntry.respared home z j (table.generation + 1) := by
    funext e
    cases e with
    | mk kind zone index generation =>
      cases kind with
      | spent => simp [RemapEntry.respared, RemapEntry.home?]
      | active other =>
        by_cases h : other = home
        · simp [RemapEntry.respared, RemapEntry.home?, h]
        · simp [RemapEntry.respared, RemapEntry.home?, h]
  simp only [RemapTable.granted, h, hmap]

/-- After a grant the home has its new spare (R42, R43). -/
theorem activeFor_granted (home : Phys) (z j : Nat) (table : RemapTable) :
    ∃ e, (table.granted home z j).find? (fun e => e.home? == some home) = some e ∧ e.zone = z ∧ e.index = j := by
  cases hold : table.activeFor home with
  | none =>
    obtain ⟨earlier, later, hl, hinsert⟩ :=
      insertEntry_eq_append ⟨.active home, z, j, table.generation + 1⟩ table.entries
    refine ⟨⟨.active home, z, j, table.generation + 1⟩, ?_, rfl, rfl⟩
    rw [granted_of_none hold, hinsert]
    refine find?_append_cons (by simp [RemapEntry.home?]) fun y hy => ?_
    simpa using List.find?_eq_none.mp hold y (by rw [hl]; exact List.mem_append_left _ hy)
  | some old =>
    have hmem := List.mem_of_find?_eq_some hold
    have hhome : old.kind = .active home := (old.home?_eq_some_iff home).mp (by simpa using List.find?_some hold)
    rw [granted_of_some hold]
    have hperm := insertEntry_perm ⟨.spent, old.zone, old.index, table.generation + 1⟩
      (table.entries.map (RemapEntry.respared home z j (table.generation + 1)))
    cases hfind : (insertEntry ⟨.spent, old.zone, old.index, table.generation + 1⟩
        (table.entries.map (RemapEntry.respared home z j (table.generation + 1)))).find?
          fun e => e.home? == some home with
    | none =>
      have hnew := List.find?_eq_none.mp hfind (old.respared home z j (table.generation + 1))
        (hperm.mem_iff.mpr (List.mem_cons_of_mem _ (List.mem_map_of_mem hmem)))
      refine absurd ?_ hnew
      simp [(RemapEntry.home?_eq_some_iff _ _).mpr ((respared_kind ..).trans hhome)]
    | some e =>
      have hkind : e.kind = .active home := (e.home?_eq_some_iff home).mp (by simpa using List.find?_some hfind)
      refine ⟨e, rfl, ?_⟩
      rcases List.mem_cons.mp (hperm.mem_iff.mp (List.mem_of_find?_eq_some hfind)) with rfl | he
      · cases hkind
      · obtain ⟨x, -, rfl⟩ := List.mem_map.mp he
        rw [respared_kind] at hkind
        simp [RemapEntry.respared, hkind]

theorem grantSpare_table (home : Phys) (z j : Nat) (s : State) :
    (grantSpare home z j s).rmt.loaded = s.rmt.loaded ∧
      (grantSpare home z j s).rmt.entries = s.rmt.granted home z j := by
  unfold grantSpare tableChanged
  split <;> exact ⟨rfl, rfl⟩

end

/-! ## The order of the table after a grant -/

section
variable {table : RemapTable} {home : Phys}

/-- The entry of a home not yet moved has its place among the others (R38, R42). -/
theorem active_comparable (h : ∀ e ∈ table.entries, e.kind ≠ .active home) (z j gen : Nat) :
    ∀ x ∈ table.entries, (⟨.active home, z, j, gen⟩ : RemapEntry).precedes x = true ∨
      x.precedes ⟨.active home, z, j, gen⟩ = true := by
  intro x hx
  unfold RemapEntry.precedes
  cases hkind : x.kind with
  | spent => exact .inl rfl
  | active other => exact Phys.before_total fun heq => h x hx (heq ▸ hkind)

/-- The SPENT entry of the spare that a home gives up has its place among the others (R43). -/
theorem spent_comparable (hsound : EntriesSound table.entries) {old : RemapEntry} (hold : old ∈ table.entries)
    (hkind : old.kind = .active home) (z j gen : Nat) :
    ∀ x ∈ table.entries.map (RemapEntry.respared home z j gen),
      (⟨.spent, old.zone, old.index, gen⟩ : RemapEntry).precedes x = true ∨
        x.precedes ⟨.spent, old.zone, old.index, gen⟩ = true := by
  intro x hx
  obtain ⟨y, hy, rfl⟩ := List.mem_map.mp hx
  unfold RemapEntry.precedes
  rw [respared_kind]
  cases hy' : y.kind with
  | active other => exact .inr rfl
  | spent =>
    have hsame : y.respared home z j gen = y := by simp [RemapEntry.respared, hy']
    rw [hsame]
    refine Phys.before_total fun heq => ?_
    have : y = old := hsound.eq_of_spare hy hold heq.symm
    rw [this, hkind] at hy'
    cases hy'

theorem respared_ordered (hsound : EntriesSound table.entries) (z j gen : Nat) :
    (table.entries.map (RemapEntry.respared home z j gen)).Pairwise fun x y => x.precedes y = true := by
  rw [List.pairwise_map]
  refine hsound.ordered.imp fun {x y} hxy => ?_
  rw [respared_precedes]
  exact hxy

end

/-! ## A moved sector not yet in a verified copy (R87) -/

section
variable {table : RemapTable} {addr : Phys}

theorem unverifiedMove_of_not_spare (h : ∀ e ∈ table.entries, e.kind = .spent ∨ spareAt e.zone e.index ≠ addr) :
    table.unverifiedMove addr = none := by
  have hfind : (table.entries.find? fun r => r.home?.isSome && r.spare == addr) = none := by
    refine List.find?_eq_none.mpr fun e he hmatch => ?_
    obtain ⟨hsome, hspare⟩ : e.home?.isSome = true ∧ e.spare = addr := by simpa using hmatch
    rcases h e he with hspent | hne
    · exact e.home?_isSome_iff.mp hsome hspent
    · exact hne hspare
  simp only [RemapTable.unverifiedMove, hfind]

theorem unverifiedMove_of_active (hsound : EntriesSound table.entries) {e : RemapEntry} (he : e ∈ table.entries)
    (hkind : e.kind ≠ .spent) (hspare : spareAt e.zone e.index = addr) :
    table.unverifiedMove addr = if table.verifiedGen < e.generation then some e.generation else none := by
  cases hfind : table.entries.find? fun r => r.home?.isSome && r.spare == addr with
  | none =>
    have := List.find?_eq_none.mp hfind e he
    simp [e.home?_isSome_iff.mpr hkind, RemapEntry.spare, hspare] at this
  | some r =>
    have hr : r.home?.isSome = true ∧ r.spare = addr := by simpa using List.find?_some hfind
    have : r = e := hsound.eq_of_spare (List.mem_of_find?_eq_some hfind) he (hr.2.trans hspare.symm)
    simp only [RemapTable.unverifiedMove, hfind, this]

end

/-! ## The obligation -/

theorem translate_after_grant {s : State} {home : Phys} {lba : Nat} (hloaded : s.rmt.loaded = true)
    (hhome : homeOf lba = home) (z j : Nat) : (grantSpare home z j s).rmt.translate lba = spareAt z j := by
  obtain ⟨hload, hentries⟩ := grantSpare_table home z j s
  obtain ⟨e, hfind, rfl, rfl⟩ := activeFor_granted home z j s.rmt
  refine translate_of_active (hload.trans hloaded) ?_
  unfold RemapTable.activeFor
  rw [hentries, hhome]
  exact hfind

/-- Settles O49, a fact of the table's entries at a time. -/
theorem sparesAreGrantedAndTranslated : Obligations.SparesAreGrantedAndTranslated := by
  unfold Obligations.SparesAreGrantedAndTranslated
  refine ⟨fun table lba => ⟨fun hunloaded => translate_of_unloaded hunloaded lba, fun _ hnone => ?_,
    fun e he hloaded hsound hkind => ?_⟩, ?_, ?_, ?_, fun table addr => ⟨unverifiedMove_of_not_spare,
      fun e he hsound hkind hspare => ⟨fun hlater => ?_, fun hkept => ?_⟩⟩⟩
  · exact translate_of_none (activeFor_eq_none hnone)
  · exact translate_of_active hloaded (activeFor_eq_some hsound he hkind)
  · intro table z barred used
    exact ⟨fun hbarred => judgeSpare_of_barred z hbarred, fun hopen hall => judgeSpare_of_none hopen hall,
      fun j hj hopen hfree hused => judgeSpare_of_free hopen hj hfree hused⟩
  · intro table home z j hsound before follows added
    have hfollows {x y : RemapEntry} (h : x.precedes y = true) : follows y x := by
      unfold RemapEntry.precedes at h
      simp only [follows]
      cases hx : x.kind <;> cases hy : y.kind <;> simp only [hx, hy] at h ⊢
      · exact (Phys.before_iff _ _).mp h
      · cases h
      · exact (Phys.before_iff _ _).mp h
    refine ⟨fun hnone => ?_, fun old hold hkind => ?_⟩
    · obtain ⟨earlier, later, hl, hinsert, hbefore, hafter⟩ := insertEntry_place hsound.ordered
        (active_comparable hnone z j (table.generation + 1))
      exact ⟨earlier, later, hl, (granted_of_none (activeFor_eq_none hnone)).trans hinsert,
        fun y hy => hfollows (hbefore y hy), fun y hy => hfollows (hafter y hy)⟩
    · obtain ⟨earlier, later, hl, hinsert, hbefore, hafter⟩ :=
        insertEntry_place (respared_ordered hsound z j (table.generation + 1))
          (spent_comparable hsound hold hkind z j (table.generation + 1))
      exact ⟨earlier, later, hl, (granted_of_some (activeFor_eq_some hsound hold hkind)).trans hinsert,
        fun y hy => hfollows (hbefore y hy), fun y hy => hfollows (hafter y hy)⟩
  · intro home z j s table next
    refine ⟨fun hclean => ?_, fun hflushing => ?_, fun lba hloaded hhome => translate_after_grant hloaded hhome z j⟩
    · simp only [grantSpare, tableChanged, hclean, startFlush_eq]
      rfl
    · simp only [grantSpare, tableChanged, hflushing, table]
  · rw [unverifiedMove_of_active hsound he hkind hspare, if_pos hlater]
  · rw [unverifiedMove_of_active hsound he hkind hspare, if_neg (Nat.not_lt.mpr hkept)]

end Sys2Proof.Machine
end

section
/-! SUPPORT and PROOFS. Streams: opening, closing, prefetch and delivery (Section 7): settles O35, O36 and O37. -/

namespace Sys2Proof.Machine

/-! ## What one prefetch leaves alone (R135) -/

section
variable {s : State} {ch : Channel}

theorem evict_links (s : State) (lba : Nat) : (evict s lba).links = s.links := by
  unfold evict
  split <;> rfl

theorem evict_wants (s : State) (lba : Nat) : (evict s lba).sc.wants = s.sc.wants := by
  unfold evict
  split <;> rfl

theorem evictFor_keeps (m : Nat) (isHit : Nat → Bool) (s : State) :
    (evictFor m isHit s).links = s.links ∧ (evictFor m isHit s).sc.wants = s.sc.wants := by
  have hfold (gone : List Nat) : ∀ r : State, (gone.foldl evict r).links = r.links ∧
      (gone.foldl evict r).sc.wants = r.sc.wants := by
    induction gone with
    | nil => exact fun _ => ⟨rfl, rfl⟩
    | cons lba gone ih =>
      intro r
      obtain ⟨hlinks, hwants⟩ := ih (evict r lba)
      exact ⟨hlinks.trans (evict_links r lba), hwants.trans (evict_wants r lba)⟩
  exact hfold _ s

theorem createReading_links (lba : Nat) (s : State) : (createReading lba s).links = s.links := rfl

theorem createReading_wants (lba : Nat) (s : State) : (createReading lba s).sc.wants = s.sc.wants := rfl

/-- A stream's change, over the contexts that stood before. -/
theorem updStream_of_su {r : State} {su : PerChannel Stream} (h : r.su = su) (ch : Channel) (g : Stream → Stream) :
    updStream ch g r = { r with su := su.set ch (g (su.get ch)) } := by
  rw [← h]
  rfl

/-- Evictions for a request whose room is free are none (R64). -/
theorem evictFor_eq_self {m : Nat} (isHit : Nat → Bool) (hslots : m ≤ (freeSlots s).length)
    (hbuffers : m ≤ s.sc.freeList.length) : evictFor m isHit s = s := by
  have hnone : evictionsNeeded m s = 0 := by
    simp [evictionsNeeded, Nat.sub_eq_zero_of_le hslots, Nat.sub_eq_zero_of_le hbuffers]
  simp [evictFor, victims, hnone]

/-- One sector's room can be found by an eviction exactly where an entry is evictable (R64). -/
theorem spaceFor_one_iff (hfull : freeSlots s = [] ∨ s.sc.freeList = []) :
    spaceFor 1 (fun _ => false) s = true ↔ ∃ v ∈ s.sc.recency, isUnpinnedClean s v = true := by
  have hneed : evictionsNeeded 1 s = 1 := by
    rcases hfull with h | h <;> simp [evictionsNeeded, h]
  simp [spaceFor, hneed, evictable, Nat.one_le_iff_ne_zero]

theorem canPrefetch_iff (t : Stream) :
    t.canPrefetch = true ↔
      t.state = .opened ∧ t.prefetchCursor < t.positions ∧ t.level + t.inFlight < t.depth := by
  simp [Stream.canPrefetch, and_assoc]

end

/-! ## One prefetch, case by case (R135) -/

section
variable {s : State} {ch : Channel} {lba : Nat} {e : Entry}

/-- A held sector is referred to, ready when it has data. -/
theorem prefetchOne_of_held (hlba : positionLba (s.su.get ch).extents (s.su.get ch).prefetchCursor = lba)
    (he : entryAt s lba = some e) :
    prefetchOne ch s =
      if e.state.hasData = true ∧ (s.su.get ch).level = 0 then
        notify ch .streamData (updStream ch (Stream.prefetched lba e.state.hasData) (touch lba s))
      else updStream ch (Stream.prefetched lba e.state.hasData) (touch lba s) := by
  simp only [prefetchOne, hlba, he]

theorem prefetchOne_of_space (hlba : positionLba (s.su.get ch).extents (s.su.get ch).prefetchCursor = lba)
    (he : entryAt s lba = none) (hspace : spaceFor 1 (fun _ => false) s = true) :
    prefetchOne ch s =
      updStream ch (Stream.prefetched lba false) (createReading lba (evictFor 1 (fun _ => false) s)) := by
  simp only [prefetchOne, hlba, he, hspace, if_true]

theorem prefetchOne_of_noSpace (hlba : positionLba (s.su.get ch).extents (s.su.get ch).prefetchCursor = lba)
    (he : entryAt s lba = none) (hspace : spaceFor 1 (fun _ => false) s = false) :
    prefetchOne ch s = updStream ch (fun t => { t with prefetchWaiting := true }) s := by
  simp [prefetchOne, hlba, he, hspace]

/-- A prefetch either waits or takes the position at the cursor. -/
theorem prefetchOne_su_self (ch : Channel) (s : State) :
    (prefetchOne ch s).su.get ch = { s.su.get ch with prefetchWaiting := true } ∨
      ∃ lba ready, (prefetchOne ch s).su.get ch = (s.su.get ch).prefetched lba ready := by
  obtain ⟨lba, hlba⟩ : ∃ lba, positionLba (s.su.get ch).extents (s.su.get ch).prefetchCursor = lba := ⟨_, rfl⟩
  cases he : entryAt s lba with
  | some e =>
    refine .inr ⟨lba, e.state.hasData, ?_⟩
    rw [prefetchOne_of_held hlba he]
    split <;> exact PerChannel.get_set_self ..
  | none =>
    cases hspace : spaceFor 1 (fun _ => false) s with
    | true =>
      refine .inr ⟨lba, false, ?_⟩
      rw [prefetchOne_of_space hlba he hspace, updStream_su, PerChannel.get_set_self, createReading_su, evictFor_su]
    | false =>
      refine .inl ?_
      rw [prefetchOne_of_noSpace hlba he hspace]
      exact PerChannel.get_set_self ..

end

/-! ## The repetition (R135) -/

section
variable {s : State} {ch : Channel}

/-- A prefetch that did not wait has one position fewer to make up its depth. -/
theorem prefetchOne_room (h : ((prefetchOne ch s).su.get ch).prefetchWaiting = false) :
    ((prefetchOne ch s).su.get ch).depth = (s.su.get ch).depth ∧
      ((prefetchOne ch s).su.get ch).refs.length = (s.su.get ch).refs.length + 1 := by
  rcases prefetchOne_su_self ch s with hsu | ⟨lba, ready, hsu⟩
  · rw [hsu] at h
    cases h
  · rw [hsu]
    simp [Stream.prefetched]

/-- More repetitions than the depth leaves room for change nothing. -/
theorem prefetchUpTo_succ (n : Nat) : ∀ s : State, (s.su.get ch).depth ≤ n + (s.su.get ch).refs.length →
    prefetchUpTo ch (n + 1) s = prefetchUpTo ch n s := by
  induction n with
  | zero =>
    intro s h
    have hstops : (s.su.get ch).canPrefetch = false := by
      rw [Bool.eq_false_iff, ne_eq, canPrefetch_iff, Stream.level_add_inFlight]
      omega
    simp [prefetchUpTo, hstops]
  | succ n ih =>
    intro s h
    rw [prefetchUpTo, prefetchUpTo.eq_2 ch s n]
    dsimp only
    cases hwaiting : ((prefetchOne ch s).su.get ch).prefetchWaiting with
    | true => simp
    | false =>
      obtain ⟨hdepth, hrefs⟩ := prefetchOne_room hwaiting
      rw [ih (prefetchOne ch s) (by omega)]

theorem prefetch_of_goesOn (h : (s.su.get ch).canPrefetch = true) :
    prefetch ch s =
      if ((prefetchOne ch s).su.get ch).prefetchWaiting = true then prefetchOne ch s
      else prefetch ch (prefetchOne ch s) := by
  obtain ⟨-, -, hroom⟩ := (canPrefetch_iff _).mp h
  rw [Stream.level_add_inFlight] at hroom
  obtain ⟨n, hn⟩ : ∃ n, (s.su.get ch).depth = n + 1 := ⟨(s.su.get ch).depth - 1, by omega⟩
  have hunfold : prefetch ch s = if ((prefetchOne ch s).su.get ch).prefetchWaiting = true then prefetchOne ch s
      else prefetchUpTo ch n (prefetchOne ch s) := by
    simp only [prefetch, hn, prefetchUpTo, h, if_true]
  rw [hunfold]
  refine ite_congr rfl (fun _ => rfl) fun hgoes => ?_
  obtain ⟨hdepth, hrefs⟩ := prefetchOne_room (Bool.eq_false_iff.mpr hgoes)
  rw [prefetch, hdepth, hn, prefetchUpTo_succ n _ (by omega)]

end

/-- Settles O36, a case of one prefetch at a time; the repetition by the room that each leaves. -/
theorem aPrefetchTakesThePositionAtItsCursor : Obligations.APrefetchTakesThePositionAtItsCursor := by
  unfold Obligations.APrefetchTakesThePositionAtItsCursor
  intro ch s t lba place fetched recent
  have hhere : positionLba (s.su.get ch).extents (s.su.get ch).prefetchCursor = lba := rfl
  refine ⟨?_, fun hnone => ⟨fun slot slots buffer buffers hslots hbuffers => ?_, fun hfull hsome => ?_,
    fun hfull hall => ?_⟩, ?_⟩
  · intro e he held
    refine ⟨fun hreading => ?_, fun hdata hlevel => ?_, fun hdata hlevel hattn => ?_⟩
    · rw [prefetchOne_of_held hhere he, hreading]
      rfl
    · rw [prefetchOne_of_held hhere he, if_neg (fun h => hlevel h.2), (EntryState.hasData_iff _).mpr hdata]
      rfl
    · rw [prefetchOne_of_held hhere he, (EntryState.hasData_iff _).mpr hdata, if_pos ⟨rfl, hlevel⟩,
        notify_eq_told (by exact hattn)]
      rfl
  · have hone : 1 ≤ (freeSlots s).length ∧ 1 ≤ s.sc.freeList.length := by simp [hslots, hbuffers]
    have hspace : spaceFor 1 (fun _ => false) s = true := spaceFor_of_free _ hone.1 hone.2
    have hnoEviction : evictFor 1 (fun _ => false) s = s := evictFor_eq_self _ hone.1 hone.2
    rw [prefetchOne_of_space hhere hnone hspace, hnoEviction, createReading_eq hslots hbuffers]
    rfl
  · have hprefetch := prefetchOne_of_space hhere hnone ((spaceFor_one_iff hfull).mpr hsome)
    obtain ⟨hlinks, hwants⟩ := evictFor_keeps 1 (fun _ => false) s
    refine ⟨?_, by rw [hprefetch, updStream_links, createReading_links, hlinks],
      by rw [hprefetch, updStream_sc, createReading_wants, hwants]⟩
    exact hprefetch.trans (updStream_of_su ((createReading_su ..).trans (evictFor_su ..)) ch _)
  · have hspace : spaceFor 1 (fun _ => false) s = false := by
      rw [Bool.eq_false_iff, ne_eq, spaceFor_one_iff hfull]
      rintro ⟨v, hv, hclean⟩
      exact absurd ((hall v hv).symm.trans hclean) (by decide)
    exact prefetchOne_of_noSpace hhere hnone hspace
  · intro goesOn once
    refine ⟨fun hstops => ?_, fun hgoes hwaits => ?_, fun hgoes hwaits => ?_⟩
    · exact prefetch_eq_self (Bool.eq_false_iff.mpr fun h => hstops ((canPrefetch_iff _).mp h))
    · rw [prefetch_of_goesOn ((canPrefetch_iff _).mpr hgoes), if_pos hwaits]
    · rw [prefetch_of_goesOn ((canPrefetch_iff _).mpr hgoes), if_neg (Bool.eq_false_iff.mp hwaits)]

/-! ## OPEN_STREAM and CLOSE_STREAM (R134, R144) -/

section
variable {s : State} {ch : Channel} {f : Frame}

theorem exec_openStream (h : Takes s ch .openStream f) (hstate : s.cc.state ∈ [CartState.ready, .readOnly]) :
    exec (.openStream ch f) s = .next (workArrival (openStream ch f s)) := by
  have hgate : gate .openStream s = none := by
    simp only [List.mem_cons, List.not_mem_nil, or_false] at hstate
    rcases hstate with hstate | hstate <;> simp [gate, hstate, workObjection]
  exact congrArg Host.Outcome.next (answerFrame_of_toOwner (h.judgeFrame_eq_toOwner (by decide) rfl hgate))

theorem exec_closeStream (h : Takes s ch .closeStream f) :
    exec (.closeStream ch f) s = .next (workArrival (closeStream ch f.tag s)) :=
  congrArg Host.Outcome.next (answerFrame_of_toOwner (h.judgeFrame_eq_toOwner (by decide) rfl rfl))

theorem exec_pullStream (h : Takes s ch .pullStream f) :
    exec (.pullStream ch f) s = .next (workArrival (pullStream ch f.tag s)) :=
  congrArg Host.Outcome.next (answerFrame_of_toOwner (h.judgeFrame_eq_toOwner (by decide) rfl rfl))

/-- An answer alone offers nothing to an idle engine. -/
theorem workArrival_answered {r : State} (hidle : IdleHasNothingDue r) (ch : Channel) (tag : Byte)
    (body : ResponseBody) : workArrival (r.answered ch tag body) = r.answered ch tag body :=
  workArrival_eq_self (by exact hidle)

theorem extentsDisjoint_iff (extents : List Extent) :
    extentsDisjoint extents = true ↔
      extents.Pairwise fun x y => x.first + x.count ≤ y.first ∨ y.first + y.count ≤ x.first := by
  induction extents with
  | nil => simp [extentsDisjoint]
  | cons x rest ih =>
    have hmeets (y : Extent) : (!runsMeet x.first x.count y.first y.count) = true ↔
        (x.first + x.count ≤ y.first ∨ y.first + y.count ≤ x.first) := by
      simp only [runsMeet, Bool.not_eq_true', Bool.and_eq_false_iff, decide_eq_false_iff_not]
      omega
    simp only [extentsDisjoint, Bool.and_eq_true, List.all_eq_true, hmeets, ih, List.pairwise_cons]

/-- The extents that R134 takes: 1 to 8, each of LBAs that exist, no two with an LBA in common. -/
def extentsTaken (extents : List Extent) : Prop :=
  1 ≤ extents.length ∧ extents.length ≤ 8 ∧
    (∀ x ∈ extents, 1 ≤ x.count ∧ x.count ≤ 65535 ∧ x.first + x.count ≤ lbaCount) ∧
    extents.Pairwise fun x y => x.first + x.count ≤ y.first ∨ y.first + y.count ≤ x.first

/-- A FULL_GUARD of the other channel bars one of the extents (R151). -/
def extentsBarred (s : State) (ch : Channel) (extents : List Extent) : Prop :=
  ∃ e ∈ s.cu.locks, e.owner = other ch ∧ e.mode = .fullGuard ∧
    ∃ x ∈ extents, e.first < x.first + x.count ∧ x.first < e.first + e.count

theorem anyBarred_iff (s : State) (ch : Channel) (extents : List Extent) :
    (extents.any fun x => isLockedFor s ch LockMode.barsReads x.first x.count) = true ↔
      extentsBarred s ch extents := by
  simp only [List.any_eq_true, isLockedFor_iff, LockMode.barsReads_iff, List.mem_singleton, extentsBarred]
  exact ⟨fun ⟨x, hx, e, he, howner, hmode, hmeets⟩ => ⟨e, he, howner, hmode, x, hx, hmeets⟩,
    fun ⟨e, he, howner, hmode, x, hx, hmeets⟩ => ⟨x, hx, e, he, howner, hmode, hmeets⟩⟩

theorem streamObjection_of_notClosed (h : (s.su.get ch).state ≠ .closed) (extents : List Extent) :
    streamObjection ch extents s = some .inUse :=
  if_pos h

theorem streamObjection_of_notTaken (h : (s.su.get ch).state = .closed) {extents : List Extent}
    (hextents : ¬ extentsTaken extents) : streamObjection ch extents s = some .range := by
  rw [streamObjection, if_neg (not_not.mpr h)]
  split
  · rfl
  · next hlength =>
    split
    · rfl
    · next hany =>
      split
      · rfl
      · next hdisjoint =>
        refine absurd ⟨by omega, by omega, fun x hx => ?_, (extentsDisjoint_iff _).mp (by simpa using hdisjoint)⟩ hextents
        rw [← isExtent_iff]
        by_contra hbad
        exact hany (List.any_eq_true.mpr ⟨x, hx, by simpa using hbad⟩)

theorem streamObjection_of_taken (h : (s.su.get ch).state = .closed) {extents : List Extent}
    (hextents : extentsTaken extents) :
    streamObjection ch extents s =
      if (extents.any fun x => isLockedFor s ch LockMode.barsReads x.first x.count) = true then some .locked
      else none := by
  obtain ⟨hsome, hmost, hinRange, hdisjoint⟩ := hextents
  have hany : ¬ (extents.any fun x => !isExtent x.first x.count) = true := by
    simpa [isExtent_iff] using hinRange
  rw [streamObjection, if_neg (not_not.mpr h), if_neg (by omega), if_neg hany,
    if_neg (by simp [(extentsDisjoint_iff _).mpr hdisjoint])]

theorem openStream_of_objection (hattn : AttnJudged s) {r : RefusalReason}
    (h : streamObjection ch (streamExtents f) s = some r) :
    openStream ch f s = s.answered ch f.tag (.refused r) := by
  simp only [openStream, h, refuse]
  exact respond_eq_answered (by exact hattn) ..

theorem closeStream_of_closed (hattn : AttnJudged s) (h : s.su.get ch = Stream.closed) (tag : Byte) :
    closeStream ch tag s = s.answered ch tag (.accepted (.pins 0)) := by
  have hsame : updStream ch (fun _ => Stream.closed) s = s := by
    rw [updStream, ← h, PerChannel.set_get]
  rw [closeStream, hsame, h]
  exact respond_eq_answered (by exact hattn) ..

end

/-- Settles O35: the objections come in the order of R134, and with none the context opens and prefetches. -/
theorem streamsOpenAreRefusedAndClose : Obligations.StreamsOpenAreRefusedAndClose := by
  unfold Obligations.StreamsOpenAreRefusedAndClose
  refine fun ch f s => ⟨?_, ?_⟩
  · intro htakes hstate extents depth low positions inRange barred opened refusedFor
    have hrefused {r : RefusalReason} (h : streamObjection ch (streamExtents f) s = some r) : refusedFor r := by
      refine (exec_openStream htakes hstate).trans (congrArg Host.Outcome.next ?_)
      rw [openStream_of_objection htakes.steady.attn h, workArrival_answered htakes.steady.idle]
    refine ⟨fun hclosed hextents hfree => ?_, fun hnotClosed => hrefused (streamObjection_of_notClosed hnotClosed _),
      fun hclosed hextents => hrefused (streamObjection_of_notTaken hclosed hextents),
      fun hclosed hextents hbarred => hrefused ?_⟩
    · have hnone : streamObjection ch (streamExtents f) s = none := by
        rw [streamObjection_of_taken hclosed hextents, if_neg fun h => hfree ((anyBarred_iff ..).mp h)]
      have hopened : accept ch f.tag (.stream depth low positions)
          (updStream ch (fun _ => openedStream extents (field16 f 0) (field16 f 1)) s) = opened :=
        respond_eq_answered (by exact htakes.steady.attn) ..
      rw [exec_openStream htakes hstate, ← hopened]
      simp only [openStream, hnone]
      rfl
    · rw [streamObjection_of_taken hclosed hextents, if_pos ((anyBarred_iff ..).mpr hbarred)]
  · intro htakes held
    refine ⟨exec_closeStream htakes, fun hclosed => ?_⟩
    rw [exec_closeStream htakes, closeStream_of_closed htakes.steady.attn hclosed,
      workArrival_answered htakes.steady.idle]

/-! ## The stream under a freeing event -/

/-- What delivery reads of a stream context, which prefetch leaves alone. -/
structure Stream.SameDelivery (t u : Stream) : Prop where
  state     : u.state = t.state
  cursor    : u.deliveryCursor = t.deliveryCursor
  positions : u.positions = t.positions
  lowWater  : u.lowWater = t.lowWater

section
variable {ch : Channel}

theorem Stream.SameDelivery.rfl (t : Stream) : t.SameDelivery t := ⟨Eq.refl _, Eq.refl _, Eq.refl _, Eq.refl _⟩

theorem Stream.SameDelivery.trans {t u v : Stream} (h : t.SameDelivery u) (k : u.SameDelivery v) : t.SameDelivery v :=
  ⟨k.state.trans h.state, k.cursor.trans h.cursor, k.positions.trans h.positions, k.lowWater.trans h.lowWater⟩

theorem prefetchUpTo_sameDelivery (ch : Channel) (n : Nat) :
    ∀ s : State, (s.su.get ch).SameDelivery ((prefetchUpTo ch n s).su.get ch) := by
  induction n with
  | zero => exact fun s => .rfl _
  | succ n ih =>
    intro s
    have honce : (s.su.get ch).SameDelivery ((prefetchOne ch s).su.get ch) := by
      rcases prefetchOne_su_self ch s with h | ⟨lba, ready, h⟩ <;> rw [h] <;> exact ⟨rfl, rfl, rfl, rfl⟩
    unfold prefetchUpTo
    split
    · dsimp only
      split
      · exact honce
      · exact honce.trans (ih _)
    · exact .rfl _

theorem prefetch_sameDelivery (d c : Channel) (s : State) : (s.su.get c).SameDelivery ((prefetch d s).su.get c) := by
  by_cases hsame : c = d
  · rw [hsame]
    exact prefetchUpTo_sameDelivery d _ s
  · have hother : c = other d := by cases c <;> cases d <;> simp_all [other]
    rw [hother, prefetch_su_other]
    exact .rfl _

theorem retryPrefetch_sameDelivery (d c : Channel) (s : State) :
    (s.su.get c).SameDelivery ((retryPrefetch d s).su.get c) := by
  unfold retryPrefetch
  split
  · exact prefetch_sameDelivery d c s
  · exact .rfl _

theorem retryPrefetches_sameDelivery (c : Channel) (s : State) :
    (s.su.get c).SameDelivery ((retryPrefetches s).su.get c) := by
  have hboth (d d' : Channel) (r : State) : (r.su.get c).SameDelivery ((retryPrefetch d (retryPrefetch d' r)).su.get c) :=
    (retryPrefetch_sameDelivery d' c r).trans (retryPrefetch_sameDelivery d c _)
  unfold retryPrefetches
  split
  · dsimp only
    split
    · exact hboth .a .b { s with freeCount := s.freeCount + 1 }
    · exact hboth .b .a { s with freeCount := s.freeCount + 1 }
  · exact hboth .b .a s

theorem afterRelease_sameDelivery {c : Channel} {s : State} {t : Stream} (h : s.su.get c = t) (lbas : List Nat) :
    t.SameDelivery ((afterRelease lbas s).su.get c) := by
  subst h
  unfold afterRelease
  split
  · have h := retryPrefetches_sameDelivery c (checkWants s)
    rw [checkWants_su] at h
    exact h
  · exact .rfl _

end

/-! ## PULL_STREAM (R141, R142) -/

section
variable {s : State} {ch : Channel} {f : Frame} {x : StreamRef} {rest : List StreamRef}

/-- The first reference stands at the delivery cursor, and no other does (R131). -/
theorem Stream.InStep.head {t : Stream} (h : t.InStep) (hrefs : t.refs = x :: rest) :
    x.position = t.deliveryCursor ∧ (∀ y ∈ rest, y.position ≠ t.deliveryCursor) ∧
      (t.state = .opened ∨ t.state = .faulted ∧ ∃ p, t.faultPosition = some p ∧ t.deliveryCursor < p) := by
  have hhead {n : Nat} (hpositions : t.refs.map StreamRef.position = List.range' t.deliveryCursor n) :
      x.position = t.deliveryCursor ∧ 0 < n ∧ ∀ y ∈ rest, y.position ≠ t.deliveryCursor := by
    rw [hrefs] at hpositions
    cases n with
    | zero => cases hpositions
    | succ n =>
      obtain ⟨hx, hrest⟩ := List.cons.inj hpositions
      refine ⟨hx, n.succ_pos, fun y hy => ?_⟩
      have hmem : y.position ∈ List.range' (t.deliveryCursor + 1) n := hrest ▸ List.mem_map_of_mem hy
      have := List.mem_range'_1.mp hmem
      omega
  have hfits := h.fits
  unfold Stream.StateFits at hfits
  split at hfits
  · rw [hfits] at hrefs
    cases hrefs
  · next hstate =>
    obtain ⟨hx, -, hrest⟩ := hhead hfits
    exact ⟨hx, hrest, .inl hstate⟩
  · rw [hfits.1] at hrefs
    cases hrefs
  · next hstate =>
    obtain ⟨p, hp, -, -, -, hpositions⟩ := hfits
    obtain ⟨hx, hroom, hrest⟩ := hhead hpositions
    exact ⟨hx, hrest, .inr ⟨hstate, p, hp, by omega⟩⟩

theorem pullStream_of_head {t : Stream} (ht : s.su.get ch = t) (h : t.InStep) (hrefs : t.refs = x :: rest)
    (tag : Byte) : pullStream ch tag s = pullPosition ch tag s := by
  obtain ⟨-, -, hstate | ⟨hstate, p, hp, hbelow⟩⟩ := h.head hrefs
  · simp only [pullStream, ht, hstate]
  · simp only [pullStream, ht, hstate, pullFaulted, hp, hbelow, if_true]

theorem nextRef_of_head {t : Stream} (h : t.InStep) (hrefs : t.refs = x :: rest) : t.nextRef = some x := by
  obtain ⟨hx, -⟩ := h.head hrefs
  simp [Stream.nextRef, hrefs, hx]

theorem delivered_of_head {t : Stream} (h : t.InStep) (hrefs : t.refs = x :: rest) :
    t.delivered = { t with refs := rest, deliveryCursor := t.deliveryCursor + 1 } := by
  obtain ⟨hx, hrest, -⟩ := h.head hrefs
  have hkeep : rest.filter (fun y => y.position != t.deliveryCursor) = rest :=
    List.filter_eq_self.mpr fun y hy => by simpa using hrest y hy
  simp [Stream.delivered, hrefs, hx, hkeep]

theorem deliverPosition_eq (hattn : AttnJudged s) {t : Stream} (ht : s.su.get ch = t) (h : t.InStep)
    (hrefs : t.refs = x :: rest) (tag : Byte) (e : Entry) :
    deliverPosition ch tag e s =
      afterRelease [e.lba] (State.answered
        { s with
          su := s.su.set ch { t with refs := rest, deliveryCursor := t.deliveryCursor + 1 }
          sc := { s.sc with recency := s.sc.recency.erase e.lba ++ [e.lba] } } ch tag
        (.sector (dataFrame s e true t.deliveryCursor))) := by
  subst ht
  rw [deliverPosition, respond_eq_answered (by exact hattn), ← delivered_of_head h hrefs]
  rfl

theorem answerEmpty_eq (hattn : AttnJudged s) (ch : Channel) (tag : Byte) :
    answerEmpty ch tag false false s = s.answered ch tag (.empty false false) :=
  respond_eq_answered (by exact hattn) ..

/-- A pull that is answered EMPTY. -/
theorem exec_pullStream_of_empty (h : Takes s ch .pullStream f)
    (hpull : pullStream ch f.tag s = answerEmpty ch f.tag false false s) :
    exec (.pullStream ch f) s = .next (s.answered ch f.tag (.empty false false)) := by
  rw [exec_pullStream h, hpull, answerEmpty_eq (by exact h.steady.attn), workArrival_answered h.steady.idle]

/-- After the last position the stream ends; before it come the notice and the prefetch (R141, steps 4 to 6). -/
theorem afterDelivery_eq {t : Stream} {r : State} (h : Stream.SameDelivery t (r.su.get ch)) (before : Nat) :
    afterDelivery ch before r =
      if t.deliveryCursor = t.positions then
        notify ch .streamEnd (updStream ch (fun t => { t with state := .ended }) r)
      else prefetchRun ch (if before = t.lowWater then notify ch .streamLow r else r) := by
  simp only [afterDelivery, h.cursor, h.positions, h.lowWater]

end

/-- Settles O37, by the stream's state and the reference at its delivery cursor. -/
theorem pullStreamDeliversInOrder : Obligations.PullStreamDeliversInOrder := by
  unfold Obligations.PullStreamDeliversInOrder
  intro ch f s htakes t empty released fetched
  refine ⟨fun hstate => ?_, fun hstate hnone => ?_, ?_, ?_⟩
  · refine exec_pullStream_of_empty htakes ?_
    have ht : s.su.get ch = t := rfl
    rcases hstate with hstate | hstate <;> simp only [pullStream, ht, hstate]
  · refine exec_pullStream_of_empty htakes ?_
    have hnext : (s.su.get ch).nextRef = none := List.find?_eq_none.mpr fun x hx => by simpa using hnone x hx
    have hopen : (s.su.get ch).state = .opened := hstate
    simp only [pullStream, hopen, pullPosition, hnext]
  · intro x rest e hinStep hrefs
    have hhead : pullStream ch f.tag s = pullPosition ch f.tag s := pullStream_of_head rfl hinStep hrefs f.tag
    have hnext : (s.su.get ch).nextRef = some x := nextRef_of_head hinStep hrefs
    refine ⟨fun hwaits => exec_pullStream_of_empty htakes ?_, fun hready he => ?_⟩
    · rw [hhead]
      simp [pullPosition, hnext, hwaits]
    have hreleased : deliverPosition ch f.tag e s = released rest e := by
      rw [deliverPosition_eq htakes.steady.attn rfl hinStep hrefs, dataFrame, newestData_eq]
    have hpull : pullStream ch f.tag s =
        if t.state = .opened then afterDelivery ch t.level (released rest e) else released rest e := by
      rw [hhead, ← hreleased]
      simp only [pullPosition, hnext, hready, he, if_true]
      rfl
    have hkept : Stream.SameDelivery { t with refs := rest, deliveryCursor := t.deliveryCursor + 1 }
        ((released rest e).su.get ch) := afterRelease_sameDelivery (PerChannel.get_set_self ..) _
    have hopened (hopen : t.state = .opened) : exec (.pullStream ch f) s = .next (workArrival
        (if t.deliveryCursor + 1 = t.positions then
          notify ch .streamEnd (updStream ch (fun t => { t with state := .ended }) (released rest e))
        else prefetchRun ch (if t.level = t.lowWater then notify ch .streamLow (released rest e)
          else released rest e))) := by
      rw [exec_pullStream htakes, hpull, if_pos hopen, afterDelivery_eq hkept]
    refine ⟨fun hopen => ⟨fun hlast => ?_, fun hmore hlow => ?_, fun hmore hlow => ?_⟩, fun hfaulted => ?_⟩
    · rw [hopened hopen, if_pos hlast]
    · refine (hopened hopen).trans ?_
      rw [if_neg (Nat.ne_of_lt hmore), if_pos hlow]
      rfl
    · refine (hopened hopen).trans ?_
      rw [if_neg (Nat.ne_of_lt hmore), if_neg hlow]
      rfl
    · rw [exec_pullStream htakes, hpull, if_neg (by rw [hfaulted]; decide)]
  · intro p status hstate hp hstatus
    have hfaulted : pullStream ch f.tag s = pullFaulted ch f.tag s := by
      have hstate' : (s.su.get ch).state = .faulted := hstate
      simp only [pullStream, hstate']
    have hp' : (s.su.get ch).faultPosition = some p := hp
    have hstatus' : (s.su.get ch).faultStatus = some status := hstatus
    refine ⟨fun hhere => ?_, fun hpast => exec_pullStream_of_empty htakes ?_⟩
    · have hpull : pullStream ch f.tag s = pullFault ch f.tag p s := by
        have hhere' : (s.su.get ch).deliveryCursor = p := hhere
        rw [hfaulted]
        simp [pullFaulted, hp', hhere']
      rw [exec_pullStream htakes, hpull, pullFault]
      simp only [hstatus', Option.getD_some]
      rw [respond_eq_answered (by exact htakes.steady.attn)]
      exact congrArg _ (workArrival_answered (by exact htakes.steady.idle) ..)
    · have hpast' : p < (s.su.get ch).deliveryCursor := hpast
      rw [hfaulted]
      simp only [pullFaulted, hp', if_neg (Nat.lt_asymm hpast'), if_neg (Nat.ne_of_gt hpast')]

end Sys2Proof.Machine
end

section
/-! SUPPORT and PROOFS. Moves and the choice (Sections 6.4 and 6.5): settles O44 and O47. -/

namespace Sys2Proof.Machine

/-! ## The end of a move (R121 to R123) -/

section
variable {s : State} {m : Move} {retry : Option Target}

/-- The state in which a move leaves the engine: dwelling on a track, unsettled. -/
def State.dwellingOn (s : State) (track : Nat) (polarity : Polarity) (retry : Option Target) : State :=
  { s with pe := { s.pe with
      state := .dwelling, headTrack := track, polarity := polarity, settle := some ⟨s.angle, 0⟩
      seekFaults := 0, retry := retry, move := none } }

theorem endMoveIfDone_of_target (hmove : s.pe.move = some m) (hseek : m.seekDone = true) (hflip : m.flipDone = true)
    (hkind : m.kind = .target) : endMoveIfDone s = s.dwellingOn m.track m.polarity none := by
  simp only [endMoveIfDone, hmove, hseek, hflip, hkind, Bool.and_self, if_true]
  rfl

theorem endMoveIfDone_of_recalibrate (hmove : s.pe.move = some m) (hseek : m.seekDone = true)
    (hflip : m.flipDone = true) (hkind : m.kind = .recalibrate) :
    endMoveIfDone s = finishRecalibrate m.polarity s := by
  simp only [endMoveIfDone, hmove, hseek, hflip, hkind, Bool.and_self, if_true]

theorem endMoveIfDone_of_part (hmove : s.pe.move = some m) (h : (m.seekDone && m.flipDone) = false) :
    endMoveIfDone s = s := by
  simp [endMoveIfDone, hmove, h]

theorem finishRecalibrate_of_none (h : s.pe.retry = none) (p : Polarity) :
    finishRecalibrate p s = s.dwellingOn 0 p none := by
  unfold finishRecalibrate State.dwellingOn
  simp only [h]
  rfl

/-- The retried move has its flip behind it: the recalibration left the head in its polarity (R123). -/
theorem finishRecalibrate_of_some {t : Target} (h : s.pe.retry = some t) :
    finishRecalibrate t.polarity s =
      if t.track = 0 then s.dwellingOn 0 t.polarity none
      else { s with pe := { s.pe with
        state := .moving, headTrack := 0, polarity := t.polarity, settle := some ⟨s.angle, 0⟩
        move := some ⟨.target, t.track, t.polarity, false, true, s.clock⟩ } } := by
  unfold finishRecalibrate
  simp only [h, startTarget, and_true]
  split
  · next htrack => rw [finishTarget, htrack]; rfl
  · next htrack => simp [settleNow, htrack, State.angle]

theorem moveReport_of_current (hmoving : s.pe.state = .moving) (hmove : s.pe.move = some m) (elapsed : Nat)
    (act : Move → State → State) : moveReport elapsed false act s = act m (passUntil elapsed s) := by
  simp [moveReport, hmoving, hmove]

theorem moveReport_of_cancelled (elapsed : Nat) (act : Move → State → State) : moveReport elapsed true act s = s := by
  unfold moveReport
  split
  · rfl
  · rfl

theorem moveReport_of_resting (h : s.pe.state ≠ .moving) (elapsed : Nat) (cancelled : Bool)
    (act : Move → State → State) : moveReport elapsed cancelled act s = s := by
  unfold moveReport
  split
  · next hmoving _ => exact absurd hmoving h
  · rfl

theorem moveLimitExpires_of_moving (hmoving : s.pe.state = .moving) (hmove : s.pe.move = some m) :
    moveLimitExpires s = seekFaulted m (passToClock (m.startedAt + 100000) s) := by
  simp only [moveLimitExpires, hmoving, hmove]
  rfl

theorem moveLimitExpires_of_resting (h : s.pe.state ≠ .moving) : moveLimitExpires s = s := by
  unfold moveLimitExpires
  split
  · next hmoving _ => exact absurd hmoving h
  · rfl

/-- The two reports that a part of the move is done. -/
theorem exec_seekComplete_of_current (hmoving : s.pe.state = .moving) (hmove : s.pe.move = some m) (elapsed : Nat) :
    exec (.seekComplete elapsed false) s = .next (endMoveIfDone
      { passUntil elapsed s with pe := { s.pe with move := some { m with seekDone := true } } }) := by
  refine congrArg Host.Outcome.next ((moveReport_of_current hmoving hmove ..).trans ?_)
  have hmove' : (passUntil elapsed s).pe.move = some m := hmove
  simp only [seekIsDone, hmove', Option.map_some]
  rfl

theorem exec_polaritySettled_of_current (hmoving : s.pe.state = .moving) (hmove : s.pe.move = some m)
    (elapsed : Nat) :
    exec (.polaritySettled elapsed false) s = .next (endMoveIfDone
      { passUntil elapsed s with pe := { s.pe with move := some { m with flipDone := true } } }) := by
  refine congrArg Host.Outcome.next ((moveReport_of_current hmoving hmove ..).trans ?_)
  have hmove' : (passUntil elapsed s).pe.move = some m := hmove
  simp only [flipIsDone, hmove', Option.map_some]
  rfl

/-! ## Seek faults (R122) -/

theorem seekFaulted_of_first (h : s.pe.seekFaults = 0) :
    seekFaulted m s =
      startRecalibrate (((retryAfter m s.pe.retry).map Target.polarity).getD .erase)
        { s with pe := { s.pe with seekFaults := 1, retry := retryAfter m s.pe.retry } } := if_pos h

theorem seekFaulted_of_second (h : s.pe.seekFaults ≠ 0) : seekFaulted m s = mechanismFault s := if_neg h

theorem retryAfter_eq (m : Move) (retry : Option Target) :
    retryAfter m retry = if m.kind = .target then some ⟨m.track, m.polarity⟩ else retry := by
  unfold retryAfter
  cases m.kind <;> rfl

/-- Both ways to a seek fault act on the fault's instant. -/
theorem exec_seekFaulted (hmoving : s.pe.state = .moving) (hmove : s.pe.move = some m) (elapsed : Nat) {c : Instr}
    (hc : c = .seekFault elapsed false ∨ c = .moveLimitExpiry) :
    ∃ clock timer, exec c s = .next (seekFaulted m { s with clock := clock, timer := timer }) := by
  rcases hc with rfl | rfl
  · exact ⟨_, _, congrArg Host.Outcome.next (moveReport_of_current hmoving hmove ..)⟩
  · exact ⟨_, _, congrArg Host.Outcome.next (moveLimitExpires_of_moving hmoving hmove)⟩

end

/-- Settles O44: a report of the second part ends the move, one of the first marks it, and a fault recalibrates or is
a mechanism fault. -/
theorem aMoveEndsWithItsLaterPartOrFaults : Obligations.AMoveEndsWithItsLaterPartOrFaults := by
  unfold Obligations.AMoveEndsWithItsLaterPartOrFaults
  refine ⟨?_, ?_⟩
  · intro elapsed s m hmoving hmove late dwelling ended
    have hended {c : Instr} (hc : exec c s = .next (endMoveIfDone
        { late with pe := { s.pe with move := some { m with seekDone := true, flipDone := true } } })) : ended c := by
      refine ⟨fun hkind => hc.trans (congrArg _ ?_), fun hkind hretry => hc.trans (congrArg _ ?_),
        fun t hkind hretry hpolarity => hc.trans (congrArg _ ?_)⟩
      · exact endMoveIfDone_of_target (m := { m with seekDone := true, flipDone := true }) rfl rfl rfl hkind
      · rw [endMoveIfDone_of_recalibrate (m := { m with seekDone := true, flipDone := true }) rfl rfl rfl hkind]
        exact finishRecalibrate_of_none (by exact hretry) m.polarity
      · rw [endMoveIfDone_of_recalibrate (m := { m with seekDone := true, flipDone := true }) rfl rfl rfl hkind]
        dsimp only
        rw [← hpolarity, finishRecalibrate_of_some (by exact hretry)]
        simp only [State.dwellingOn, dwelling, hpolarity, ← hmoving]
        rfl
    refine ⟨fun hflip => hended ?_, fun hseek => hended ?_, fun hflip => ?_, fun hseek => ?_, ⟨?_, ?_, ?_⟩, ?_⟩
    · rw [exec_seekComplete_of_current hmoving hmove, hflip]
    · rw [exec_polaritySettled_of_current hmoving hmove, hseek]
    · rw [exec_seekComplete_of_current hmoving hmove, endMoveIfDone_of_part rfl (by simp [hflip])]
    · rw [exec_polaritySettled_of_current hmoving hmove, endMoveIfDone_of_part rfl (by simp [hseek])]
    · exact congrArg Host.Outcome.next (moveReport_of_cancelled ..)
    · exact congrArg Host.Outcome.next (moveReport_of_cancelled ..)
    · exact congrArg Host.Outcome.next (moveReport_of_cancelled ..)
    · intro t hresting cancelled
      exact ⟨congrArg Host.Outcome.next (moveReport_of_resting hresting ..),
        congrArg Host.Outcome.next (moveReport_of_resting hresting ..),
        congrArg Host.Outcome.next (moveReport_of_resting hresting ..),
        congrArg Host.Outcome.next (moveLimitExpires_of_resting hresting)⟩
  · intro elapsed s m hmoving hmove retry bias recalibrating
    refine ⟨fun hfirst => ?_, fun hsecond hlocked hcount c hc => ?_, fun hsecond hlocked hcount c hc => ?_⟩
    · have hrecalibrates (r : State) (hr : r.pe = s.pe) : seekFaulted m r = recalibrating r := by
        have hbias : (retry.map Target.polarity).getD .erase = bias := by
          simp only [bias]
          cases retry <;> rfl
        have hretry : retryAfter m s.pe.retry = retry := retryAfter_eq m s.pe.retry
        rw [seekFaulted_of_first (by rw [hr]; exact hfirst), hr, hretry, hbias]
        rfl
      exact ⟨congrArg Host.Outcome.next ((moveReport_of_current hmoving hmove ..).trans (hrecalibrates _ rfl)),
        congrArg Host.Outcome.next ((moveLimitExpires_of_moving hmoving hmove).trans (hrecalibrates _ rfl))⟩
    · obtain ⟨clock, timer, hexec⟩ := exec_seekFaulted hmoving hmove elapsed hc
      refine ⟨_, hexec, ?_⟩
      rw [seekFaulted_of_second (by exact hsecond), mechanismFault_of_recovery (by exact hlocked) (by exact hcount),
        State.faultCounted, stopEngine_eq]
      exact ⟨rfl, rfl, rfl, rfl, rfl, rfl, rfl, rfl⟩
    · obtain ⟨clock, timer, hexec⟩ := exec_seekFaulted hmoving hmove elapsed hc
      refine ⟨_, hexec, ?_⟩
      rw [seekFaulted_of_second (by exact hsecond), mechanismFault_of_third (by exact hlocked) (by exact hcount),
        State.faultCounted, stopEngine_eq]
      generalize hr : State.mk _ _ _ _ _ _ _ _ _ _ _ _ _ _ _ = r
      obtain ⟨links, -, hfailed⟩ := enterFailed_rest r
      obtain ⟨links', sc, su, pe, n, ht, hstate, hmove', -⟩ := hfailed.rest
      rw [ht, ← hr]
      exact ⟨rfl, hstate, hmove', rfl, rfl⟩

/-! ## The urgent rule (R117) -/

section
variable {s : State} {ch : Channel}

theorem Stream.starving_iff (t : Stream) :
    t.starving = true ↔ t.state = .opened ∧ t.deliveryCursor < t.positions ∧ t.level < t.lowWater := by
  simp [Stream.starving, and_assoc]

/-- A starving stream with a sector in READING has a candidate, and no other stream has. -/
theorem urgentCandidate_eq_some_iff (x : UrgentCandidate) :
    urgentCandidate s ch = some x ↔
      (s.su.get ch).starving = true ∧ oldestReading s (s.su.get ch) = some x.addr ∧
        x.level = (s.su.get ch).level ∧
        x.cost = accessCost s.angle (seekTime (trackDistance s.pe.headTrack x.addr.track)) x.addr.angle := by
  cases x with
  | mk level cost addr =>
    unfold urgentCandidate
    dsimp only
    split
    · next h =>
      simp only [Option.map_eq_some_iff, UrgentCandidate.mk.injEq, h, true_and]
      constructor
      · rintro ⟨p, hp, rfl, rfl, rfl⟩
        exact ⟨hp, rfl, rfl⟩
      · rintro ⟨hp, rfl, rfl⟩
        exact ⟨addr, hp, rfl, rfl, rfl⟩
    · next h => simp [h]

/-- The candidate of a starving stream's oldest sector in READING. -/
def candidateAt (s : State) (ch : Channel) (p : Phys) : UrgentCandidate :=
  ⟨(s.su.get ch).level, accessCost s.angle (seekTime (trackDistance s.pe.headTrack p.track)) p.angle, p⟩

theorem urgentCandidate_of_starving {p : Phys} (hstarving : (s.su.get ch).starving = true)
    (holdest : oldestReading s (s.su.get ch) = some p) : urgentCandidate s ch = some (candidateAt s ch p) :=
  (urgentCandidate_eq_some_iff _).mpr ⟨hstarving, holdest, rfl, rfl⟩

theorem urgentCandidate_eq_none (h : ¬ (s.su.get ch).starving = true ∨ oldestReading s (s.su.get ch) = none) :
    urgentCandidate s ch = none := by
  rw [Option.eq_none_iff_forall_not_mem]
  intro x hx
  obtain ⟨hstarving, holdest, -⟩ := (urgentCandidate_eq_some_iff x).mp hx
  rcases h with hfed | hnone
  · exact hfed hstarving
  · rw [hnone] at holdest
    cases holdest

theorem chooseUrgent_of_one {x : UrgentCandidate} (h : urgentCandidate s ch = some x)
    (hother : urgentCandidate s (other ch) = none) (haway : x.addr.track ≠ s.pe.headTrack) :
    chooseUrgent s = some x.addr := by
  cases ch with
  | a =>
    have hother' : urgentCandidate s .b = none := hother
    simp [chooseUrgent, h, hother', haway]
  | b =>
    have hother' : urgentCandidate s .a = none := hother
    simp [chooseUrgent, h, hother', haway]

theorem chooseUrgent_of_both {x y : UrgentCandidate} (ha : urgentCandidate s .a = some x)
    (hb : urgentCandidate s .b = some y)
    (haway : x.addr.track ≠ s.pe.headTrack ∨ y.addr.track ≠ s.pe.headTrack) :
    chooseUrgent s =
      some (if y.level < x.level ∨ (y.level = x.level ∧ y.cost < x.cost) then y.addr else x.addr) := by
  simp [chooseUrgent, ha, hb, haway]

/-- No candidate lies off the head track. -/
theorem chooseUrgent_eq_none (h : ∀ ch x, urgentCandidate s ch = some x → x.addr.track = s.pe.headTrack) :
    chooseUrgent s = none := by
  cases ha : urgentCandidate s .a with
  | none =>
    cases hb : urgentCandidate s .b with
    | none => simp only [chooseUrgent, ha, hb]
    | some y => simp [chooseUrgent, ha, hb, h .b y hb]
  | some x =>
    cases hb : urgentCandidate s .b with
    | none => simp [chooseUrgent, ha, hb, h .a x ha]
    | some y => simp [chooseUrgent, ha, hb, h .a x ha, h .b y hb]

end

/-! ## The stay rule and the best rule (R118, R119) -/

section
variable {s : State}

/-- The best of a list is one of it. -/
theorem foldl_better_mem (s : State) (xs : List DueOp) : ∀ op : DueOp,
    xs.foldl (fun best x => if betterThan s x best then x else best) op ∈ op :: xs := by
  induction xs with
  | nil => exact fun op => List.mem_singleton.mpr rfl
  | cons x xs ih =>
    intro op
    rw [List.foldl_cons]
    split
    · exact List.mem_cons_of_mem _ (ih x)
    · rcases List.mem_cons.mp (ih op) with h | h
      · rw [h]
        exact List.mem_cons_self
      · exact List.mem_cons_of_mem _ (List.mem_cons_of_mem _ h)

theorem foldl_better_stays {op : DueOp} (xs : List DueOp) (h : ∀ x ∈ xs, betterThan s x op = false) :
    xs.foldl (fun best x => if betterThan s x best then x else best) op = op := by
  induction xs with
  | nil => rfl
  | cons x xs ih =>
    rw [List.foldl_cons, if_neg (by simp [h x List.mem_cons_self])]
    exact ih fun y hy => h y (List.mem_cons_of_mem _ hy)

/-- The best operation is better than all offered earlier, and none offered later is better (R119). -/
theorem chooseBest_eq {earlier later : List DueOp} {op : DueOp} (hearlier : ∀ x ∈ earlier, betterThan s op x = true)
    (hlater : ∀ x ∈ later, betterThan s x op = false) : chooseBest s (earlier ++ op :: later) = some op := by
  cases earlier with
  | nil => exact congrArg some (foldl_better_stays later hlater)
  | cons first rest =>
    have hbest := hearlier _ (foldl_better_mem s rest first)
    rw [List.cons_append, chooseBest, List.foldl_append, List.foldl_cons, if_pos hbest]
    exact congrArg some (foldl_better_stays later hlater)

theorem betterThan_iff (x y : DueOp) :
    betterThan s x y = true ↔ opCost s x < opCost s y ∨ (opCost s x = opCost s y ∧
      (x.addr.track < y.addr.track ∨ (x.addr.track = y.addr.track ∧ x.addr.sector < y.addr.sector))) := by
  simp [betterThan, Phys.before_iff]

theorem choose_of_urgent {p : Phys} (h : chooseUrgent s = some p) (due : List DueOp) :
    choose due s = some ⟨p.track, s.pe.polarity⟩ := by
  simp only [choose, h]

theorem choose_of_stay (h : chooseUrgent s = none) {due : List DueOp}
    (hhere : ∃ op ∈ due, op.addr.track = s.pe.headTrack ∧ op.kind.compatible s.pe.polarity = true) :
    choose due s = some ⟨s.pe.headTrack, s.pe.polarity⟩ := by
  have hany : (due.any fun op => op.addr.track == s.pe.headTrack && op.kind.compatible s.pe.polarity) = true := by
    simpa using hhere
  simp only [choose, h, hany, if_true]

theorem choose_of_best (h : chooseUrgent s = none) {due : List DueOp}
    (hnone : ∀ op ∈ due, ¬ (op.addr.track = s.pe.headTrack ∧ op.kind.compatible s.pe.polarity = true)) :
    choose due s = (chooseBest s due).map fun op => ⟨op.addr.track, targetPolarity op.kind s.pe.polarity⟩ := by
  have hany : (due.any fun op => op.addr.track == s.pe.headTrack && op.kind.compatible s.pe.polarity) = false := by
    simpa using hnone
  simp [choose, h, hany]

theorem makeChoice_of_stay (h : choose s.pe.due s = some ⟨s.pe.headTrack, s.pe.polarity⟩) :
    makeChoice s = { s with pe := { s.pe with state := .dwelling } } := by
  rw [makeChoice, h]
  exact if_pos ⟨rfl, rfl⟩

theorem makeChoice_of_away {t : Target} (h : choose s.pe.due s = some t)
    (haway : ¬ (t.track = s.pe.headTrack ∧ t.polarity = s.pe.polarity)) :
    makeChoice s = { s with pe := { s.pe with
      state := .moving
      move := some ⟨.target, t.track, t.polarity, t.track == s.pe.headTrack, t.polarity == s.pe.polarity, s.clock⟩ } } := by
  rw [makeChoice, h]
  exact (if_neg haway).trans (if_neg haway)

/-- An incompatible operation asks for the other bias (R109, R120). -/
theorem targetPolarity_ne {k : PassKind} {p : Polarity} (h : k.compatible p = false) : targetPolarity k p ≠ p := by
  cases k <;> cases p <;> simp_all [PassKind.compatible, targetPolarity]

/-- The cost of R15, with the move time of R13 written out. -/
theorem opCost_eq (s : State) (op : DueOp) (d : Nat)
    (hd : d = (op.addr.track - s.pe.headTrack) + (s.pe.headTrack - op.addr.track)) :
    opCost s op = accessCost s.angle
      (if op.kind.compatible s.pe.polarity then seekTime d else if d = 0 then 512 else max (seekTime d) 512)
      op.addr.angle := by
  have hdistance : trackDistance s.pe.headTrack op.addr.track = d := by rw [hd, trackDistance, Nat.add_comm]
  rw [opCost, opMoveTime, hdistance]
  cases hcompatible : op.kind.compatible s.pe.polarity with
  | true => rfl
  | false =>
    by_cases hzero : d = 0
    · rw [hzero]
      rfl
    · simp [moveTime, hzero]

end

/-- Settles O47: the three rules in their order; each names a target, and the engine stays where it is there. -/
theorem theChoiceIsUrgentThenStayThenBest : Obligations.TheChoiceIsUrgentThenStayThenBest := by
  unfold Obligations.TheChoiceIsUrgentThenStayThenBest
  intro s starving oldest distance feedCost goesTo stays goesToFeed calm here
  have hstarving (ch : Channel) : (s.su.get ch).starving = true ↔ starving ch := Stream.starving_iff _
  have hcandidate {ch : Channel} {p : Phys} (h : starving ch) (hp : oldest ch = some p) :
      urgentCandidate s ch = some (candidateAt s ch p) :=
    urgentCandidate_of_starving ((hstarving ch).mpr h) hp
  have hfeed {p : Phys} (h : chooseUrgent s = some p) : goesToFeed p := by
    have hchoice := choose_of_urgent h s.pe.due
    refine ⟨fun haway => ?_, fun hsame => ?_⟩
    · exact makeChoice_of_away hchoice fun hboth => haway hboth.1
    · exact makeChoice_of_stay (by rw [hchoice, hsame])
  have hcalm (h : calm) : chooseUrgent s = none := chooseUrgent_eq_none fun ch x hx => by
    obtain ⟨hstarves, holdest, -⟩ := (urgentCandidate_eq_some_iff x).mp hx
    exact h ch x.addr ((hstarving ch).mp hstarves) holdest
  have hcost (p : Phys) (ch : Channel) : (candidateAt s ch p).cost = feedCost p := by
    simp only [candidateAt, feedCost, distance, trackDistance, Nat.add_comm]
  refine ⟨fun ch p hs hp haway hother => hfeed ?_, ?_, fun hquiet hhere => ?_, ?_, fun hquiet hdue => ?_, fun hdone => ?_, fun op hidle hdue => ?_⟩
  · exact chooseUrgent_of_one (hcandidate hs hp)
      (urgentCandidate_eq_none (hother.imp_left fun hfed h => hfed ((hstarving _).mp h))) haway
  · intro p q ha hb hp hq haway level
    have hboth := chooseUrgent_of_both (hcandidate ha hp) (hcandidate hb hq) haway
    have hlevel (ch : Channel) (p : Phys) : (candidateAt s ch p).level = level ch := rfl
    rw [hcost, hcost, hlevel, hlevel] at hboth
    refine ⟨fun hlower => hfeed (hboth.trans (congrArg some (if_pos hlower))),
      fun hhigher => hfeed (hboth.trans (congrArg some (if_neg ?_)))⟩
    omega
  · exact makeChoice_of_stay (choose_of_stay (hcalm hquiet) hhere)
  · intro hquiet hnone earlier op later hdue cost better hearlier hlater
    have hsameCost (x : DueOp) : opCost s x = cost x := opCost_eq s x _ rfl
    have hbetter (x y : DueOp) : betterThan s x y = true ↔ better x y := by
      rw [betterThan_iff, hsameCost, hsameCost]
    have hbest : chooseBest s s.pe.due = some op := by
      rw [hdue]
      exact chooseBest_eq (fun x hx => (hbetter op x).mpr (hearlier x hx))
        fun x hx => Bool.eq_false_iff.mpr fun h => hlater x hx ((hbetter x op).mp h)
    have hchoice := choose_of_best (hcalm hquiet) hnone
    rw [hbest, Option.map_some] at hchoice
    refine makeChoice_of_away hchoice fun hboth => ?_
    have hop : ¬ here op := hnone op (by rw [hdue]; exact List.mem_append_right _ List.mem_cons_self)
    refine targetPolarity_ne (Bool.eq_false_iff.mpr fun hcompatible => hop ⟨hboth.1, hcompatible⟩) hboth.2
  · have hchoice := choose_of_best (due := []) (hcalm hquiet) (fun _ h => absurd h List.not_mem_nil)
    rw [makeChoice, hdue, hchoice]
    rfl
  · unfold workArrival
    split
    · next hidle =>
      rcases hdone with hbusy | hempty
      · exact absurd hidle hbusy
      · simp only [hempty]
    · rfl
  · simp [workArrival, hidle, hdue, makeChoice]

end Sys2Proof.Machine
end

section
/-! SUPPORT and PROOFS. Sector ends, marks, holds, steps and watches (Sections 1.5, 5.3, 6.3 and 6.6): settles O43,
O45 and O46. -/

namespace Sys2Proof.Machine

/-! ## Notices and the rest of the console's record (R181) -/

section
variable (x : ConsoleNotice) (m : Console)

theorem noticed_with_hold (b : Bool) : Console.noticed x { m with hold := b } = { m.noticed x with hold := b } := by
  unfold Console.noticed
  dsimp only
  split <;> rfl

theorem noticed_watches : (m.noticed x).watch0 = m.watch0 ∧ (m.noticed x).watch1 = m.watch1 := by
  unfold Console.noticed
  split <;> exact ⟨rfl, rfl⟩

theorem noticed_stepReq : (m.noticed x).stepReq = m.stepReq := by
  unfold Console.noticed
  split <;> rfl

end

/-! ## The hold or the choice (R111, R125) -/

section
variable {s : State}

theorem takeHold_of_judged (h : AttnJudged s) :
    takeHold s = State.told .held
      { s with
        pe := { s.pe with state := .held }
        mci := { s.mci.noticed (.heldAt s.pe.headTrack s.timer.revolution) with hold := false } } := by
  rw [takeHold, notifyBoth_eq_told (by exact h), queueNotice]
  simp only [State.told, noticed_with_hold]

theorem holdOrChoice_of_hold (hstate : s.pe.state = .dwelling ∨ s.pe.state = .idle) (hhold : s.mci.hold = true) :
    holdOrChoice s = takeHold s := by
  rcases hstate with h | h <;> simp only [holdOrChoice, h, hhold, if_true]

theorem holdOrChoice_of_choice (hstate : s.pe.state = .dwelling) (hhold : s.mci.hold = false) :
    holdOrChoice s = makeChoice s := by
  simp [holdOrChoice, hstate, hhold]

theorem holdOrChoice_of_idle (hstate : s.pe.state = .idle) (hhold : s.mci.hold = false) : holdOrChoice s = s := by
  simp [holdOrChoice, hstate, hhold]

theorem holdOrChoice_of_elsewhere (h : s.pe.state ∉ [EngineState.dwelling, .idle]) : holdOrChoice s = s := by
  cases hstate : s.pe.state <;> simp_all [holdOrChoice]

/-- With no stream to feed and a due operation on its track the engine stays (R118). -/
theorem makeChoice_eq_self (hstate : s.pe.state = .dwelling) (hstreams : ∀ ch, (s.su.get ch).state ≠ .opened)
    (hhere : ∃ op ∈ s.pe.due, op.addr.track = s.pe.headTrack ∧ op.kind.compatible s.pe.polarity = true) :
    makeChoice s = s := by
  have hcalm : chooseUrgent s = none := chooseUrgent_eq_none fun ch x hx => by
    obtain ⟨hstarving, -⟩ := (urgentCandidate_eq_some_iff x).mp hx
    exact absurd ((Stream.starving_iff _).mp hstarving).1 (hstreams ch)
  rw [makeChoice_of_stay (choose_of_stay hcalm hhere), ← hstate]

end

/-! ## The mark (R112) -/

section
variable {s : State} {sector markAngle : Nat}

theorem isSettled_iff (settle : Option SettlePoint) (markAngle : Nat) :
    isSettled settle markAngle = true ↔ ∀ p, settle = some p → p.angle + 16 ≤ markAngle + 4096 * p.wraps := by
  cases settle with
  | none => simp [isSettled]
  | some p =>
    simp only [isSettled, lead, Option.some.injEq, forall_eq']
    exact decide_eq_true_iff

theorem isSettled_eq_false {settle : Option SettlePoint} {markAngle : Nat}
    (h : ¬ ∀ p, settle = some p → p.angle + 16 ≤ markAngle + 4096 * p.wraps) : isSettled settle markAngle = false :=
  Bool.eq_false_iff.mpr (mt (isSettled_iff settle markAngle).mp h)

theorem sectorMark_of_elsewhere (h : s.pe.state ∉ [EngineState.dwelling, .held]) : sectorMark sector markAngle s = s := by
  cases hstate : s.pe.state <;> simp_all [sectorMark, settledAt, performs]

theorem sectorMark_of_unsettled (h : isSettled s.pe.settle markAngle = false) : sectorMark sector markAngle s = s := by
  simp [sectorMark, settledAt, h]

theorem settledAt_of_settled (hstate : s.pe.state ∈ [EngineState.dwelling, .held])
    (h : isSettled s.pe.settle markAngle = true) :
    settledAt markAngle s = { s with pe := { s.pe with settle := none } } := by
  simp only [List.mem_cons, List.not_mem_nil, or_false] at hstate
  rcases hstate with hstate | hstate <;> simp [settledAt, h, hstate]

theorem performs_eq_false (hstate : s.pe.state = .held) (hstep : s.mci.stepReq = false) : performs s = false := by
  simp only [performs, hstate, hstep]

theorem performs_iff (hstate : s.pe.state ∈ [EngineState.dwelling, .held]) :
    performs s = true ↔ s.pe.state = .dwelling ∨ s.mci.stepReq = true := by
  simp only [List.mem_cons, List.not_mem_nil, or_false] at hstate
  rcases hstate with hstate | hstate <;> simp [performs, hstate]

/-- A settled mark that begins no pass ends the settling. -/
theorem sectorMark_of_noPass (hstate : s.pe.state ∈ [EngineState.dwelling, .held])
    (h : isSettled s.pe.settle markAngle = true) (hnone : performs s = false ∨ opAtMark sector s = none) :
    sectorMark sector markAngle s = { s with pe := { s.pe with settle := none } } := by
  rw [sectorMark, settledAt_of_settled hstate h]
  rcases hnone with hnone | hnone
  · simp [hnone]
  · have hop : opAtMark sector { s with pe := { s.pe with settle := none } } = none := hnone
    simp only [hop, ite_self]

/-- In HELD with no step the mark ends the settling, if it is settled. -/
theorem sectorMark_of_held (hstate : s.pe.state = .held) (hstep : s.mci.stepReq = false) :
    sectorMark sector markAngle s =
      { s with pe := { s.pe with settle := if isSettled s.pe.settle markAngle then none else s.pe.settle } } := by
  cases h : isSettled s.pe.settle markAngle with
  | false => exact sectorMark_of_unsettled h
  | true => exact sectorMark_of_noPass (by simp [hstate]) h (.inl (performs_eq_false hstate hstep))

theorem sectorMark_of_op {op : DueOp} (hstate : s.pe.state ∈ [EngineState.dwelling, .held])
    (h : isSettled s.pe.settle markAngle = true) (hperforms : s.pe.state = .dwelling ∨ s.mci.stepReq = true)
    (hop : opAtMark sector s = some op) :
    sectorMark sector markAngle s = beginPass op { s with pe := { s.pe with settle := none } } := by
  have hop' : opAtMark sector { s with pe := { s.pe with settle := none } } = some op := hop
  rw [sectorMark, settledAt_of_settled hstate h]
  simp only [(performs_iff hstate).mpr hperforms, h, Bool.and_self, if_true, hop']

theorem beginPass_of_notWrite {op : DueOp} (h : op.kind ≠ .write) (s : State) :
    beginPass op s = { s with pe := { s.pe with pass := some ⟨op, false, none⟩ } } := by
  cases hkind : op.kind <;> simp_all [beginPass, recordTakeAtMark, drawData]

theorem beginPass_of_table {op : DueOp} {copy : TableCopy} {i : Nat} (h : op.kind = .write)
    (howner : op.owner = .table copy i) (s : State) :
    beginPass op s = { s with pe := { s.pe with pass := some ⟨op, false, (s.rmt.image[i]?).join⟩ } } := by
  simp [beginPass, recordTakeAtMark, drawData, h, howner]

theorem beginPass_of_task {op : DueOp} {lba : Nat} {task : CommitTask} (h : op.kind = .write)
    (howner : op.owner = .task lba) (htask : taskAt s lba = some task) :
    beginPass op s =
      { s with
        pe := { s.pe with pass := some ⟨op, false, some (bufferData s task.buffer)⟩ }
        cmu := { s.cmu with tasks := s.cmu.tasks.map fun y =>
          if y.lba = lba then { y with takeAtMark := some y.take } else y } } := by
  simp only [beginPass, recordTakeAtMark, drawData, h, howner, htask, Option.map_some, updTask_eq]

end

/-! ## The end of a pass (R113, R128) -/

section
variable {s : State} {pass : CurrentPass} {found : Found}

theorem endPass_of_none (h : s.pe.pass = none) (found : Found) : endPass found s = s := by
  simp only [endPass, h]

theorem judgeWatch_of_none {n : Nat} (h : s.mci.watchSlot n = none) (op : DueOp) (shown : ShownOutcome) :
    judgeWatch n op shown s = s := by
  simp only [judgeWatch, h]

theorem judgeWatch_of_some {n : Nat} {w : WatchSlot} (h : s.mci.watchSlot n = some w) (op : DueOp)
    (shown : ShownOutcome) :
    judgeWatch n op shown s =
      if w.matches op then { s with mci := s.mci.watched n w op shown s.timer.revolution } else s := by
  simp only [judgeWatch, h]

theorem endPass_of_some (h : s.pe.pass = some pass) (found : Found) :
    endPass found s =
      if pass.withdrawn then
        clearTakeAtMark pass.op.owner (judgeWatch 1 pass.op (pass.shown found)
          (judgeWatch 0 pass.op (pass.shown found) { s with pe := { s.pe with pass := none } }))
      else
        deliver pass.op (outcomeOf pass.op.kind found) (judgeWatch 1 pass.op (pass.shown found)
          (judgeWatch 0 pass.op (pass.shown found) { s with pe := { s.pe with pass := none } })) := by
  simp only [endPass, h]

theorem endPass_of_unwatched (h : s.pe.pass = some pass) (h0 : s.mci.watch0 = none) (h1 : s.mci.watch1 = none)
    (found : Found) :
    endPass found s =
      if pass.withdrawn then clearTakeAtMark pass.op.owner { s with pe := { s.pe with pass := none } }
      else deliver pass.op (outcomeOf pass.op.kind found) { s with pe := { s.pe with pass := none } } := by
  have hquiet : judgeWatch 1 pass.op (pass.shown found)
      (judgeWatch 0 pass.op (pass.shown found) { s with pe := { s.pe with pass := none } }) =
        { s with pe := { s.pe with pass := none } } := by
    rw [judgeWatch_of_none (n := 0) (by exact h0), judgeWatch_of_none (n := 1) (by exact h1)]
  rw [endPass_of_some h, hquiet]

end

/-! ## The sector end (R111) -/

section
variable {s : State} {found : Found} {cut : Bool}

theorem sectorEnds_of_dwelling (h : s.pe.state = .dwelling) (cut : Bool) (found : Found) :
    sectorEnds cut found s = holdOrChoice (closePass cut found s) := by
  simp only [sectorEnds, h]

theorem sectorEnds_of_idle (h : s.pe.state = .idle) (cut : Bool) (found : Found) :
    sectorEnds cut found s = holdOrChoice (closePass cut found s) := by
  simp only [sectorEnds, h]

theorem sectorEnds_of_held (h : s.pe.state = .held) (cut : Bool) (found : Found) :
    sectorEnds cut found s = heldSectorEnd cut found s := by
  simp only [sectorEnds, h]

theorem closePass_of_none (h : s.pe.pass = none) (cut : Bool) (found : Found) : closePass cut found s = s := by
  cases cut with
  | false => exact endPass_of_none h found
  | true => simp [closePass, cutOffPass, h]

theorem heldSectorEnd_of_none (h : s.pe.pass = none) (cut : Bool) (found : Found) :
    heldSectorEnd cut found s = { s with mci := { s.mci with hold := false } } := by
  simp only [heldSectorEnd, h]

theorem heldSectorEnd_of_some {pass : CurrentPass} (h : s.pe.pass = some pass) {told : State}
    (htold : closePass cut found { s with mci := { s.mci with hold := false } } = told) :
    heldSectorEnd cut found s =
      if told.pe.goWaiting = true ∧ told.pe.state = .held then
        makeChoice { stepLine cut found pass told with
          pe := { told.pe with goWaiting := false }, mci := { (stepLine cut found pass told).mci with stepReq := false } }
      else
        { stepLine cut found pass told with
          pe := { told.pe with goWaiting := false }
          mci := { (stepLine cut found pass told).mci with stepReq := false } } := by
  have hpe : (stepLine cut found pass told).pe = told.pe := by
    unfold stepLine
    split <;> rfl
  simp only [heldSectorEnd, h, htold, hpe, Bool.and_eq_true, beq_iff_eq]

/-- The instant of a sector's end inside the revolution. -/
theorem exec_sectorEnd (h : inLastSector s = false) (found : Found) :
    exec (.sectorEnd found) s = .next (workArrival (sectorMark (sectorUnderHead s + 1) (endAngle s)
      (sectorEnds false found (passUntil (s.timer.reaches (endAngle s)) s)))) :=
  congrArg (fun r => Host.Outcome.next (workArrival r)) (if_neg (by simp [h]))

theorem exec_sectorEnd_of_busy {r : State} (h : inLastSector s = false)
    (hr : sectorMark (sectorUnderHead s + 1) (endAngle s)
      (sectorEnds false found (passUntil (s.timer.reaches (endAngle s)) s)) = r)
    (hbusy : r.pe.state ≠ .idle) : exec (.sectorEnd found) s = .next r := by
  rw [exec_sectorEnd h, hr]
  exact congrArg _ (workArrival_eq_self (.of_state hbusy))

theorem endAngle_of_resting (h : s.pe.state ≠ .moving) :
    endAngle s = (sectorUnderHead s + 1) * 4096 / sectorsOn s.pe.headTrack := by
  have htrack : reckonedTrack s = s.pe.headTrack := by
    unfold reckonedTrack
    split
    · next hmoving _ => exact absurd hmoving h
    · rfl
  rw [endAngle, htrack, startAngle]

end

section
variable {s : State} {found : Found}

/-- The engine stays on a track with a due operation and no stream to feed, and the sector's end leaves it alone. -/
theorem sectorEnds_eq_self {cut : Bool} (hstate : s.pe.state = .dwelling) (hhold : s.mci.hold = false)
    (hpass : s.pe.pass = none) (hstreams : ∀ ch, (s.su.get ch).state ≠ .opened) {sector : Nat} {op : DueOp}
    (hop : opAtMark sector s = some op) : sectorEnds cut found s = s := by
  have hhere := List.find?_some hop
  simp only [Bool.and_eq_true, beq_iff_eq] at hhere
  obtain ⟨haddr, hcompatible⟩ := hhere
  have hdue := List.mem_of_find?_eq_some hop
  rw [sectorEnds_of_dwelling hstate, closePass_of_none hpass, holdOrChoice_of_choice hstate hhold,
    makeChoice_eq_self hstate hstreams ⟨op, hdue, by rw [haddr], hcompatible⟩]

end

/-- The first operation of a due list that a mark takes. -/
theorem opAtMark_of_split {s : State} {sector : Nat} {earlier later : List DueOp} {op : DueOp}
    (hdue : s.pe.due = earlier ++ op :: later)
    (hop : op.addr = ⟨s.pe.headTrack, sector⟩ ∧ op.kind.compatible s.pe.polarity = true)
    (hearlier : ∀ x ∈ earlier, ¬ (x.addr = ⟨s.pe.headTrack, sector⟩ ∧ x.kind.compatible s.pe.polarity = true)) :
    opAtMark sector s = some op := by
  rw [opAtMark, hdue]
  exact find?_append_cons (by simpa using hop) fun x hx => by simpa using hearlier x hx

/-- Settles O45: the sector's end, its choice and the mark, each by the case it is in. -/
theorem sectorEndsEndAPassAndTheMarkBeginsOne : Obligations.SectorEndsEndAPassAndTheMarkBeginsOne := by
  unfold Obligations.SectorEndsEndAPassAndTheMarkBeginsOne
  refine ⟨?_, isSettled_iff, fun s => ⟨holdOrChoice_of_choice, fun hstate hhold hattn => ?_, holdOrChoice_of_idle,
    holdOrChoice_of_elsewhere⟩, ?_⟩
  · intro found s hstate hhold hinside sector late markAngle settled
    have hresting : s.pe.state ∈ [EngineState.dwelling, .held] := by simp [hstate]
    have hangle : endAngle s = markAngle := endAngle_of_resting (by simp [hstate])
    have hbusy : s.pe.state ≠ .idle := by simp [hstate]
    refine ⟨?_, ?_⟩
    · intro op hpass hstreams hop
      have hends : sectorEnds false found late = late :=
        sectorEnds_eq_self (by exact hstate) (by exact hhold) (by exact hpass) (by exact hstreams) (sector := sector)
          (by exact hop)
      have hexec {r : State} (hmark : sectorMark sector markAngle late = r) (hr : r.pe.state ≠ .idle) :
          exec (.sectorEnd found) s = .next r := by
        exact exec_sectorEnd_of_busy hinside ((congrArg₂ (sectorMark sector) hangle hends).trans hmark) hr
      have hbegins (hsettled : settled) :
          sectorMark sector markAngle late = beginPass op { late with pe := { s.pe with settle := none } } :=
        sectorMark_of_op (by exact hresting) ((isSettled_iff _ _).mpr hsettled) (.inl (by exact hstate)) (by exact hop)
      refine ⟨fun hunsettled => ?_, fun hsettled hkind => ?_, fun copy i hsettled hkind howner => ?_,
        fun lba task hsettled hkind howner htask => ?_⟩
      · exact hexec (sectorMark_of_unsettled (isSettled_eq_false hunsettled)) hbusy
      · exact hexec ((hbegins hsettled).trans (beginPass_of_notWrite hkind _)) hbusy
      · exact hexec ((hbegins hsettled).trans (beginPass_of_table hkind howner _)) hbusy
      · exact hexec ((hbegins hsettled).trans (beginPass_of_task hkind howner (by exact htask))) hbusy
    · intro pass hpass hwatch0 hwatch1 ended told
      have hended : closePass false found late = told :=
        endPass_of_unwatched (by exact hpass) (by exact hwatch0) (by exact hwatch1) found
      rw [exec_sectorEnd hinside, sectorEnds_of_dwelling (by exact hstate), hended]
  · exact (holdOrChoice_of_hold hstate hhold).trans (takeHold_of_judged hattn)
  · intro sector markAngle s settled passed arrived here
    have hnotHere {op : DueOp} (h : ¬ here op) :
        (op.addr == ⟨s.pe.headTrack, sector⟩ && op.kind.compatible s.pe.polarity) = false := by simpa [here] using h
    refine ⟨sectorMark_of_elsewhere, fun hresting => ⟨fun hunsettled => ?_, fun hsettled hnone => ?_, ?_⟩⟩
    · exact sectorMark_of_unsettled (isSettled_eq_false hunsettled)
    · refine sectorMark_of_noPass hresting ((isSettled_iff _ _).mpr hsettled) ?_
      rcases hnone with hnone | ⟨hheld, hstep⟩
      · exact .inr (List.find?_eq_none.mpr fun op hop => by simp [hnotHere (hnone op hop)])
      · exact .inl (performs_eq_false hheld hstep)
    · intro earlier op later hsettled hdue hop hearlier hperforms
      have hbegins : passed = beginPass op arrived :=
        sectorMark_of_op hresting ((isSettled_iff _ _).mpr hsettled) hperforms (opAtMark_of_split hdue hop hearlier)
      refine ⟨fun hkind => ?_, fun lba task hkind howner htask => ?_, fun copy i hkind howner => ?_⟩
      · exact hbegins.trans (beginPass_of_notWrite hkind _)
      · exact hbegins.trans (beginPass_of_task hkind howner (by exact htask))
      · exact hbegins.trans (beginPass_of_table hkind howner _)

/-! ## Watch slots (R128, R186) -/

section
variable {s : State} {n : Nat} {w : WatchSlot} {op : DueOp}

theorem WatchSlot.matches_iff (w : WatchSlot) (op : DueOp) :
    w.matches op = true ↔ w.armed = true ∧ w.addr = op.addr ∧ w.kinds.has op.kind = true := by
  simp [WatchSlot.matches, and_assoc]

theorem judgeWatch_of_unmatched (h : s.mci.watchSlot n = some w) (hmatch : w.matches op = false)
    (shown : ShownOutcome) : judgeWatch n op shown s = s := by
  rw [judgeWatch_of_some h, hmatch]
  exact if_neg Bool.false_ne_true

theorem judgeWatch_of_matched (h : s.mci.watchSlot n = some w) (hmatch : w.matches op = true) (shown : ShownOutcome) :
    judgeWatch n op shown s = { s with mci := s.mci.watched n w op shown s.timer.revolution } := by
  rw [judgeWatch_of_some h, if_pos hmatch]

theorem watched_of_note (h : w.action = .note) (n : Nat) (shown : ShownOutcome) (stamp : BitVec 16) (m : Console) :
    m.watched n w op shown stamp = m.noticed (.watchMatch n .note op.kind op.addr shown stamp) := by
  simp only [Console.watched, h]

/-- A slot with HOLD sets the hold request and is disarmed. -/
theorem watched_of_hold (h : w.action = .hold) (n : Nat) (shown : ShownOutcome) (stamp : BitVec 16) (m : Console) :
    m.watched n w op shown stamp =
      { m.noticed (.watchMatch n .hold op.kind op.addr shown stamp) with
        hold := true
        watch0 := if n = 0 then some { w with armed := false } else m.watch0
        watch1 := if n = 0 then m.watch1 else some { w with armed := false } } := by
  obtain ⟨h0, h1⟩ := noticed_watches (.watchMatch n .hold op.kind op.addr shown stamp) m
  simp only [Console.watched, h, Console.setWatch]
  split <;> simp only [← h0, ← h1]

theorem watched_zero_of_hold (h : w.action = .hold) (shown : ShownOutcome) (stamp : BitVec 16) (m : Console) :
    m.watched 0 w op shown stamp =
      { m.noticed (.watchMatch 0 .hold op.kind op.addr shown stamp) with
        watch0 := some { w with armed := false }, hold := true } := by
  simp only [Console.watched, h, Console.setWatch, if_true]

/-- A hold taken at a sector's end, after the mark that follows. -/
theorem sectorMark_takeHold {m : Console} (hmci : s.mci = { m with hold := true }) (hattn : AttnJudged s)
    (hstep : s.mci.stepReq = false) (sector markAngle : Nat) :
    sectorMark sector markAngle (takeHold s) = State.told .held
      { s with
        pe := { s.pe with
          state := .held, settle := if isSettled s.pe.settle markAngle then none else s.pe.settle }
        mci := { m.noticed (.heldAt s.pe.headTrack s.timer.revolution) with hold := false } } := by
  rw [takeHold_of_judged hattn, sectorMark_of_held rfl (by exact (noticed_stepReq ..).trans hstep), hmci,
    noticed_with_hold]
  rfl

end

/-- Settles O46: the hold, the step and the watch slots, each by the case it is in. -/
theorem holdsStepsAndWatchesActAtTheSectorEnd : Obligations.HoldsStepsAndWatchesActAtTheSectorEnd := by
  unfold Obligations.HoldsStepsAndWatchesActAtTheSectorEnd
  refine ⟨?_, fun found s pass hpass => endPass_of_some hpass found, ?_⟩
  · intro found s hinside sector late settled stamp held
    refine ⟨fun hstate hhold hstep hpass hattn => ?_, fun hstate hpass hstep => ?_,
      fun op hstate hpass hstep hop => ⟨fun hunsettled => ?_, fun hsettled hkind => ?_⟩, ?_, ?_⟩
    · have hends : sectorEnds false found late = takeHold late := by
        have hclose : closePass false found late = late := closePass_of_none (by exact hpass) ..
        rcases hstate with h | h
        · rw [sectorEnds_of_dwelling (by exact h), hclose]
          exact holdOrChoice_of_hold (.inl h) hhold
        · rw [sectorEnds_of_idle (by exact h), hclose]
          exact holdOrChoice_of_hold (.inr h) hhold
      have hsame : s.mci = { s.mci with hold := true } := by rw [← hhold]
      refine exec_sectorEnd_of_busy hinside ?_ (by simp [held, State.told])
      refine (congrArg (sectorMark _ _) hends).trans ((sectorMark_takeHold (m := s.mci)
        (by exact hsame) (by exact hattn) (by exact hstep) _ _).trans ?_)
      simp only [held, ← hpass]
      rfl
    · refine exec_sectorEnd_of_busy hinside ?_ (by simp [hstate])
      rw [sectorEnds_of_held (by exact hstate), heldSectorEnd_of_none (by exact hpass)]
      exact sectorMark_of_held (by exact hstate) (by exact hstep)
    · have hbusy : s.pe.state ≠ .idle := by simp [hstate]
      refine exec_sectorEnd_of_busy hinside ?_ (by exact hbusy)
      rw [sectorEnds_of_held (by exact hstate), heldSectorEnd_of_none (by exact hpass)]
      exact sectorMark_of_unsettled (by exact hunsettled)
    · refine exec_sectorEnd_of_busy hinside ?_ (by simp [hstate])
      rw [sectorEnds_of_held (by exact hstate), heldSectorEnd_of_none (by exact hpass),
        sectorMark_of_op (by simp [passUntil, hstate]) (by exact hsettled) (.inr (by exact hstep)) (by exact hop),
        beginPass_of_notWrite hkind]
      rfl
    · intro pass hstate hpass hwatch0 hwatch1 ended told shown stepped
      have htold : closePass false found { late with mci := { s.mci with hold := false } } = told :=
        endPass_of_unwatched (by exact hpass) (by exact hwatch0) (by exact hwatch1) found
      rw [exec_sectorEnd hinside, sectorEnds_of_held (by exact hstate), heldSectorEnd_of_some (by exact hpass) htold]
      rfl
    · intro pass lba w hstate hpass hwithdrawn howner hwatch0 hwatch1 hmatch haction hstep hattn
      have hshown : pass.shown found = .discarded := by simp [CurrentPass.shown, hwithdrawn]
      have hends : closePass false found late =
          { late with
            pe := { s.pe with pass := none }
            mci := { s.mci.noticed (.watchMatch 0 .hold pass.op.kind pass.op.addr .discarded stamp) with
              watch0 := some { w with armed := false }, hold := true } } := by
        refine (endPass_of_some (by exact hpass) found).trans ?_
        rw [hwithdrawn, if_pos rfl, hshown, howner, judgeWatch_of_matched (n := 0) (by exact hwatch0) hmatch,
          watched_zero_of_hold haction,
          judgeWatch_of_none (n := 1) (by exact (noticed_watches ..).2.trans hwatch1)]
        rfl
      refine exec_sectorEnd_of_busy hinside ?_ (by simp [held, State.told])
      rw [sectorEnds_of_dwelling (by exact hstate), hends, holdOrChoice_of_hold (.inl (by exact hstate)) rfl,
        sectorMark_takeHold
          (m := { s.mci.noticed (.watchMatch 0 .hold pass.op.kind pass.op.addr .discarded stamp) with
            watch0 := some { w with armed := false } }) rfl (by exact hattn) (by exact (noticed_stepReq ..).trans hstep)]
      rfl
  · intro n op shown s slot listed line
    have hslot : s.mci.watchSlot n = slot := rfl
    have hlisted (k : KindSet) : k.has op.kind = listed k := by
      simp only [listed]
      cases op.kind <;> rfl
    refine ⟨fun hnone => judgeWatch_of_none (hslot.trans hnone) .., fun w hw => ⟨fun hmiss => ?_,
      fun harmed haddr hkind => ⟨fun hnote => ?_, fun hhold => ?_⟩⟩⟩
    · refine judgeWatch_of_unmatched (hslot.trans hw) (Bool.eq_false_iff.mpr fun h => ?_) shown
      obtain ⟨harmed, haddr, hkind⟩ := (w.matches_iff op).mp h
      rw [hlisted] at hkind
      simp [harmed, haddr, hkind] at hmiss
    · have hmatch := (w.matches_iff op).mpr ⟨harmed, haddr, (hlisted w.kinds).trans hkind⟩
      rw [judgeWatch_of_matched (hslot.trans hw) hmatch, watched_of_note hnote]
    · have hmatch := (w.matches_iff op).mpr ⟨harmed, haddr, (hlisted w.kinds).trans hkind⟩
      rw [judgeWatch_of_matched (hslot.trans hw) hmatch, watched_of_hold hhold]

/-! ## The index event (R10 to R12, R115) -/

section
variable {s : State} {elapsed : Nat} {found : Found}

/-- The state after the timer's work of an index event, outside SPINNING_UP and RECOVERING. -/
def State.turned (s : State) (elapsed : Nat) : State :=
  { s with
    clock := s.clock + (elapsed - s.timer.elapsed)
    timer := ⟨if s.timer.indexSeen then elapsed else s.timer.period, 0, true, s.timer.revolution + 1⟩
    pe := s.pe.wrapped }

theorem indexTimer_eq_turned (hle : s.timer.elapsed ≤ elapsed) (hspin : s.cc.state ≠ .spinningUp)
    (hrecover : s.cc.state ≠ .recovering) : indexTimer elapsed s = s.turned elapsed := by
  cases hseen : s.timer.indexSeen with
  | false =>
    rw [indexTimer_of_unseen hseen, State.turned, hseen]
    rfl
  | true =>
    have hspin' : (s.cc.state == .spinningUp) = false := by simpa using hspin
    rw [indexTimer_of_seen hseen hle, judgePeriod_of_elsewhere (by exact hspin) (by exact hrecover), State.turned, hseen,
      hspin']
    rfl

theorem exec_indexEvent (hle : s.timer.elapsed ≤ elapsed) (hspin : s.cc.state ≠ .spinningUp)
    (hrecover : s.cc.state ≠ .recovering) (found : Found) :
    exec (.indexEvent elapsed found) s =
      .next (workArrival (sectorMark 0 0 (sectorEnds (cutByIndex s) found (s.turned elapsed)))) := by
  rw [← indexTimer_eq_turned hle hspin hrecover]
  rfl

theorem cutByIndex_of_last {pass : CurrentPass} (h : s.pe.pass = some pass)
    (hlast : pass.op.addr.sector + 1 = sectorsOn s.pe.headTrack) : cutByIndex s = false := by
  simp [cutByIndex, h, hlast]

theorem cutByIndex_of_early {pass : CurrentPass} (h : s.pe.pass = some pass)
    (hearly : pass.op.addr.sector + 1 ≠ sectorsOn s.pe.headTrack) : cutByIndex s = true := by
  simp [cutByIndex, h, hearly]

theorem cutOffPass_of_some {pass : CurrentPass} (h : s.pe.pass = some pass) :
    cutOffPass s = if pass.withdrawn then { s with pe := { s.pe with pass := none } }
      else clearTakeAtMark pass.op.owner { s with pe := { s.pe with pass := none } } := by
  simp only [cutOffPass, h]

theorem clearTakeAtMark_of_task (lba : Nat) (s : State) :
    clearTakeAtMark (.task lba) s =
      { s with cmu := { s.cmu with tasks := s.cmu.tasks.map fun y =>
          if y.lba = lba then { y with takeAtMark := none } else y } } :=
  updTask_eq ..

theorem clearTakeAtMark_of_other {o : OpOwner} (h : ∀ lba, o ≠ .task lba) (s : State) : clearTakeAtMark o s = s := by
  cases o with
  | task lba => exact absurd rfl (h lba)
  | _ => rfl

theorem beginPass_state (op : DueOp) (s : State) : (beginPass op s).pe.state = s.pe.state := by
  unfold beginPass recordTakeAtMark
  split <;> rfl

theorem settledAt_state (markAngle : Nat) (s : State) : (settledAt markAngle s).pe.state = s.pe.state := by
  unfold settledAt
  split <;> rfl

/-- A mark leaves the engine's state. -/
theorem sectorMark_state (sector markAngle : Nat) (s : State) :
    (sectorMark sector markAngle s).pe.state = s.pe.state := by
  unfold sectorMark
  dsimp only
  split
  · split
    · rw [beginPass_state, settledAt_state]
    · exact settledAt_state ..
  · exact settledAt_state ..

/-- A settle point one index event on is settled at the mark of sector 0 by its angle alone. -/
theorem isSettled_turned_iff (s : State) (elapsed : Nat) :
    isSettled (s.turned elapsed).pe.settle 0 = true ↔
      ∀ p, s.pe.settle = some p → p.angle + 16 ≤ 4096 * (p.wraps + 1) := by
  rw [isSettled_iff]
  cases hsettle : s.pe.settle <;> simp [State.turned, Engine.wrapped, hsettle]

end

/-- Settles O43: the timer's work, then the sector's end and the mark of sector 0, by the engine's state. -/
theorem anIndexEventIsASectorEndAndTheMarkOfSectorZero : Obligations.AnIndexEventIsASectorEndAndTheMarkOfSectorZero := by
  unfold Obligations.AnIndexEventIsASectorEndAndTheMarkOfSectorZero
  intro elapsed found s hle hspin hrecover turned settled
  have hexec := exec_indexEvent hle hspin hrecover found
  have hself {r : State} (hends : sectorEnds (cutByIndex s) found (s.turned elapsed) = r) (hbusy : r.pe.state ≠ .idle) :
      exec (.indexEvent elapsed found) s = .next (sectorMark 0 0 r) := by
    rw [hexec, hends]
    exact congrArg _ (workArrival_eq_self (.of_state (by rw [sectorMark_state]; exact hbusy)))
  refine ⟨fun hdwelling => ⟨fun op hpass hhold hstreams hop => ?_, ?_⟩, fun hmoving => ?_, fun hidle hpass hdue =>
    ⟨fun hhold => ?_, fun hhold hattn => ?_⟩, ?_⟩
  · have hends : sectorEnds (cutByIndex s) found (s.turned elapsed) = turned :=
      sectorEnds_eq_self (by exact hdwelling) (by exact hhold) (by exact hpass) (by exact hstreams) (sector := 0)
        (by exact hop)
    have hbusy : turned.pe.state ≠ .idle := by simp [turned, hdwelling]
    refine ⟨fun hunsettled => ?_, fun hsettled hkind => ?_⟩
    · rw [hself hends hbusy]
      exact congrArg _ (sectorMark_of_unsettled (Bool.eq_false_iff.mpr (mt (isSettled_turned_iff s elapsed).mp hunsettled)))
    · have hbegins : sectorMark 0 0 turned = beginPass op { turned with pe := { s.pe with settle := none } } :=
        sectorMark_of_op (by simp [turned, hdwelling]) ((isSettled_turned_iff s elapsed).mpr hsettled)
          (.inl (by exact hdwelling)) (by exact hop)
      rw [hself hends hbusy, hbegins, beginPass_of_notWrite hkind]
  · intro pass hpass ended goesOn
    have hclosed {cut : Bool} {told : State} (hcut : cutByIndex s = cut)
        (htold : closePass cut found (s.turned elapsed) = told) : goesOn told := by
      refine hexec.trans ?_
      rw [hcut, sectorEnds_of_dwelling (by exact hdwelling), htold]
    refine ⟨fun hlast hwatch0 hwatch1 => ?_, fun hearly => ?_⟩
    · have hended := endPass_of_unwatched (s := s.turned elapsed) (by exact hpass) (by exact hwatch0) (by exact hwatch1)
        found
      refine ⟨fun hwithdrawn => hclosed (cutByIndex_of_last hpass hlast) (hended.trans ?_),
        fun hkept => hclosed (cutByIndex_of_last hpass hlast) (hended.trans ?_)⟩
      · exact if_pos hwithdrawn
      · exact if_neg (Bool.eq_false_iff.mp hkept)
    · have hended := cutOffPass_of_some (s := s.turned elapsed) (by exact hpass)
      refine ⟨fun hwithdrawn => hclosed (cutByIndex_of_early hpass hearly) (hended.trans ?_),
        fun lba hkept howner => hclosed (cutByIndex_of_early hpass hearly) (hended.trans ?_),
        fun hkept howner => hclosed (cutByIndex_of_early hpass hearly) (hended.trans ?_)⟩
      · exact if_pos hwithdrawn
      · rw [if_neg (Bool.eq_false_iff.mp hkept), howner, clearTakeAtMark_of_task]
        rfl
      · rw [if_neg (Bool.eq_false_iff.mp hkept), clearTakeAtMark_of_other howner]
        rfl
  · have hstate : (s.turned elapsed).pe.state = .moving := hmoving
    rw [hexec, sectorEnds_of_not_onTrack (.inr hstate), sectorMark_of_not_onTrack (.inr hstate)]
    exact congrArg _ (workArrival_eq_self (.of_state (by rw [hstate]; decide)))
  · have hstate : (s.turned elapsed).pe.state = .idle := hidle
    rw [hexec, sectorEnds_of_idle hstate, closePass_of_none (by exact hpass), holdOrChoice_of_idle hstate (by exact hhold),
      sectorMark_of_elsewhere (by rw [hstate]; decide)]
    exact congrArg _ (workArrival_eq_self (fun _ => hdue))
  · have hstate : (s.turned elapsed).pe.state = .idle := hidle
    have hends : sectorEnds (cutByIndex s) found (s.turned elapsed) = takeHold (s.turned elapsed) := by
      rw [sectorEnds_of_idle hstate, closePass_of_none (by exact hpass),
        holdOrChoice_of_hold (.inr hstate) (by exact hhold)]
    rw [hself (hends.trans (takeHold_of_judged (by exact hattn))) (by simp [State.told])]
    rfl
  · intro hheld ended stepOver
    have hstate : (s.turned elapsed).pe.state = .held := hheld
    refine ⟨fun hpass => ?_, ?_⟩
    · have hends : sectorEnds (cutByIndex s) found (s.turned elapsed) = ended := by
        rw [sectorEnds_of_held hstate, heldSectorEnd_of_none (by exact hpass)]
        simp only [ended, ← hpass]
        rfl
      exact hself hends (by simp [ended, turned, hheld])
    · intro pass hpass
      have hover {cut : Bool} {told : State} {m : Console} (hcut : cutByIndex s = cut)
          (htold : closePass cut found { s.turned elapsed with mci := { s.mci with hold := false } } = told)
          (hline : stepLine cut found pass told = { told with mci := m }) : stepOver told m := by
        refine hexec.trans ?_
        rw [hcut, sectorEnds_of_held hstate, heldSectorEnd_of_some (by exact hpass) (by exact htold), hline]
      refine ⟨fun hlast hwatch0 hwatch1 => ?_, fun hearly => ?_⟩
      · intro told shown
        refine hover (cutByIndex_of_last hpass hlast) ?_ ?_
        · exact endPass_of_unwatched (by exact hpass) (by exact hwatch0) (by exact hwatch1) found
        · rfl
      · intro told
        refine hover (cutByIndex_of_early hpass hearly) ?_ ?_
        · exact cutOffPass_of_some (by exact hpass)
        · rfl

end Sys2Proof.Machine
end

section
/-! SUPPORT and PROOFS. The table image and the mount (Sections 2.3, 3.5 and 11.4): settles O11, O12 and O13. -/

namespace Sys2Proof.Machine

/-! ## Records (R192) -/

section
variable {e : RemapEntry} {gmax : Nat}

/-- A record by its fields, most significant first (R192). -/
def packedRecord (gen : BitVec 32) (kind : BitVec 2) (zone : BitVec 4) (index : BitVec 9) (offset : BitVec 16) :
    BitVec 64 :=
  gen ++ (kind ++ zone ++ index ++ (0 : BitVec 1) ++ offset : BitVec 32)

theorem packedRecord_fields (gen : BitVec 32) (kind : BitVec 2) (zone : BitVec 4) (index : BitVec 9)
    (offset : BitVec 16) :
    (packedRecord gen kind zone index offset).extractLsb' 32 32 = gen ∧
      (packedRecord gen kind zone index offset).extractLsb' 30 2 = kind ∧
      (packedRecord gen kind zone index offset).extractLsb' 26 4 = zone ∧
      (packedRecord gen kind zone index offset).extractLsb' 17 9 = index ∧
      (packedRecord gen kind zone index offset).extractLsb' 0 16 = offset := by
  refine ⟨?_, ?_, ?_, ?_, ?_⟩
  all_goals
    refine BitVec.eq_of_getLsbD_eq fun i hi => ?_
    simp only [packedRecord, BitVec.getLsbD_extractLsb', BitVec.getLsbD_append, hi, decide_true, Bool.true_and]
    grind

/-- The code of an entry's kind in its record. -/
def RemapKind.recordCode : RemapKind → BitVec 2
  | .active _ => 1
  | .spent => 2

/-- The offset field of an entry's record. -/
def RemapKind.recordOffset : RemapKind → Nat
  | .active home => homeOffset home
  | .spent => 0

theorem record_eq_packed (e : RemapEntry) :
    e.record = packedRecord (BitVec.ofNat 32 e.generation) e.kind.recordCode (BitVec.ofNat 4 e.zone)
      (BitVec.ofNat 9 e.index) (BitVec.ofNat 16 e.kind.recordOffset) := by
  unfold RemapEntry.record
  cases e.kind <;> rfl

theorem sparesIn_le (z : Nat) : sparesIn z ≤ 290 := by
  simp only [sparesIn, sectorsIn]
  omega

/-- What the fields of a recordable entry's record read as. -/
theorem record_fields (h : e.Recordable gmax) (hgmax : gmax ≤ maxGeneration) :
    (e.record.extractLsb' 32 32).toNat = e.generation ∧ e.record.extractLsb' 30 2 = e.kind.recordCode ∧
      (e.record.extractLsb' 26 4).toNat = e.zone ∧ (e.record.extractLsb' 17 9).toNat = e.index ∧
      (e.record.extractLsb' 0 16).toNat = e.kind.recordOffset % 65536 := by
  obtain ⟨hgen, hkind, hzone, hindex, hoffset⟩ := packedRecord_fields (BitVec.ofNat 32 e.generation) e.kind.recordCode
    (BitVec.ofNat 4 e.zone) (BitVec.ofNat 9 e.index) (BitVec.ofNat 16 e.kind.recordOffset)
  have hmost := sparesIn_le e.zone
  have hlast := h.index
  have hgeneration := h.generation.2
  have hz := h.zone
  rw [maxGeneration] at hgmax
  rw [record_eq_packed, hgen, hkind, hzone, hindex, hoffset]
  exact ⟨(BitVec.toNat_ofNat ..).trans (Nat.mod_eq_of_lt (by omega)), rfl,
    (BitVec.toNat_ofNat ..).trans (Nat.mod_eq_of_lt (by omega)),
    (BitVec.toNat_ofNat ..).trans (Nat.mod_eq_of_lt (by omega)), BitVec.toNat_ofNat ..⟩

theorem recordOffset_of_active {home : Phys} (h : e.Recordable gmax) (hkind : e.kind = .active home) :
    homeOffset home < 1240 * sectorsIn e.zone ∧ homeAt e.zone (homeOffset home) = home := by
  obtain ⟨huser, hzone⟩ := h.home home hkind
  obtain ⟨hpresent, htrack, -⟩ := home.isUser_iff.mp huser
  rw [← hzone]
  exact ⟨homeOffset_lt_of_isUser huser, homeAt_homeOffset hpresent htrack⟩

/-- A record reads back as the entry that it was made from (R193). -/
theorem decodeRecord_record (h : e.Recordable gmax) (hgmax : gmax ≤ maxGeneration) :
    decodeRecord gmax e.record = some e := by
  obtain ⟨hgen, hcode, hzone, hindex, hoffset⟩ := record_fields h hgmax
  have hvalid : ¬ ((e.generation < 1 || gmax < e.generation || sparesIn e.zone ≤ e.index : Bool) = true) := by
    have := h.generation
    have := h.index
    simp only [Bool.or_eq_true, decide_eq_true_eq]
    omega
  unfold decodeRecord
  simp only [hgen, hcode, hzone, hindex, hoffset, if_neg hvalid]
  cases hkind : e.kind with
  | active home =>
    obtain ⟨hlt, hback⟩ := recordOffset_of_active h hkind
    have hsectors : sectorsIn e.zone ≤ 29 := by simp only [sectorsIn]; omega
    have hsmall : homeOffset home % 65536 = homeOffset home := Nat.mod_eq_of_lt (by omega)
    have hcode' : (RemapKind.active home).recordCode.toNat = 1 := rfl
    rw [hcode', if_pos rfl, RemapKind.recordOffset, hsmall, if_pos hlt, hback, ← hkind]
  | spent =>
    have hcode' : RemapKind.spent.recordCode.toNat = 2 := rfl
    rw [hcode', if_neg (by decide), if_pos rfl, ← hkind]

end

/-! ## Sectors (R192, R193) -/

/-- A sector of n record slots, slot 0 at the most significant end. -/
theorem getLsbD_foldl_records (records : List (BitVec 64)) (n : Nat) (hn : n ≤ 128) (i : Nat) :
    ((List.range n).foldl (fun (acc : Payload) r => (acc <<< 64) ||| (records.getD r 0).setWidth 8192) 0).getLsbD i =
      (decide (i < 64 * n) && (records.getD (n - 1 - i / 64) 0).getLsbD (i % 64)) := by
  induction n generalizing i with
  | zero => simp
  | succ n ih =>
    rw [List.range_succ, List.foldl_append, List.foldl_cons, List.foldl_nil]
    simp only [BitVec.getLsbD_or, BitVec.getLsbD_shiftLeft, BitVec.getLsbD_setWidth]
    rw [ih (by omega)]
    by_cases hlow : i < 64
    · have hdiv : i / 64 = 0 := Nat.div_eq_of_lt hlow
      have hmod : i % 64 = i := Nat.mod_eq_of_lt hlow
      simp [hlow, hdiv, hmod, show i < 8192 by omega, show i < 64 * (n + 1) by omega]
    · have hzero : (records.getD n 0).getLsbD i = false := BitVec.getLsbD_of_ge _ _ (by omega)
      have hmod : (i - 64) % 64 = i % 64 := by omega
      have hslot : n - 1 - (i - 64) / 64 = n + 1 - 1 - i / 64 := by omega
      rw [hzero]
      by_cases hin : i < 64 * (n + 1)
      · simp [hlow, hmod, hslot, hin, show i < 8192 by omega, show i - 64 < 64 * n by omega]
      · simp [hlow, hin, show ¬ i - 64 < 64 * n by omega]

/-- A record slot of a sector holds the record that was put there. -/
theorem recordAt_recordSector (records : List (BitVec 64)) {r : Nat} (hr : r < 128) :
    recordAt (recordSector records) r = records.getD r 0 := by
  refine BitVec.eq_of_getLsbD_eq fun i hi => ?_
  rw [recordAt, BitVec.getLsbD_extractLsb', recordSector, getLsbD_foldl_records records 128 le_rfl]
  have hdiv : (64 * (127 - r) + i) / 64 = 127 - r := by omega
  have hmod : (64 * (127 - r) + i) % 64 = i := by omega
  have hslot : 128 - 1 - (127 - r) = r := by omega
  simp only [hdiv, hmod, hslot, hi, decide_true, Bool.true_and, show 64 * (127 - r) + i < 64 * 128 by omega]

/-- The words of the header sector (R192). -/
theorem wordAt_headerSector (gen count : Nat) (sum : BitVec 32) :
    wordAt (headerSector gen count sum) 0 = BitVec.ofNat 32 gen ∧
      (wordAt (headerSector gen count sum) 1).extractLsb' 16 16 = BitVec.ofNat 16 count ∧
      wordAt (headerSector gen count sum) 2 = sum := by
  unfold headerSector
  generalize BitVec.ofNat 32 gen = g
  generalize BitVec.ofNat 16 count = c
  refine ⟨?_, ?_, ?_⟩
  all_goals
    refine BitVec.eq_of_getLsbD_eq fun i hi => ?_
    simp only [wordAt, BitVec.getLsbD_extractLsb', BitVec.getLsbD_append, BitVec.getLsbD_shiftLeft,
      BitVec.getLsbD_setWidth, hi, decide_true, Bool.true_and]
    grind

/-- The checksum of a header is counted as 0 (R193). -/
theorem withoutChecksum_headerSector (gen count : Nat) (sum : BitVec 32) :
    withoutChecksum (headerSector gen count sum) = headerSector gen count 0 := by
  unfold withoutChecksum headerSector
  generalize BitVec.ofNat 32 gen = g
  generalize BitVec.ofNat 16 count = c
  refine BitVec.eq_of_getLsbD_eq fun i hi => ?_
  have hones (j : Nat) : (0xffffffff : BitVec 32).getLsbD j = decide (j < 32) := by
    rw [show (0xffffffff : BitVec 32) = BitVec.allOnes 32 from rfl, BitVec.getLsbD_allOnes]
  simp only [BitVec.getLsbD_and, BitVec.getLsbD_not, BitVec.getLsbD_append, BitVec.getLsbD_shiftLeft,
    BitVec.getLsbD_setWidth, hones, hi, decide_true, Bool.true_and]
  by_cases hbelow : i < 8096
  · simp [hbelow]
  · by_cases hsum : i - 8096 < 32
    · simp [hbelow, hsum, show i - 8096 < 8192 by omega]
    · simp [hbelow, hsum]

theorem tableChecksum_headerSector (gen count : Nat) (sum : BitVec 32) (body : List Payload) :
    tableChecksum (headerSector gen count sum :: body) = tableChecksum (headerSector gen count 0 :: body) := by
  simp only [tableChecksum, withoutChecksum_headerSector]

/-! ## Copies (R45, R52, R193) -/

section
variable {gen : Nat} {entries : List RemapEntry}

theorem inTableOrder_of_pairwise {l : List RemapEntry} (h : l.Pairwise fun x y => x.precedes y = true) :
    inTableOrder l = true := by
  induction l with
  | nil => rfl
  | cons x l ih =>
    cases l with
    | nil => rfl
    | cons y l =>
      rw [inTableOrder, ih h.tail, List.rel_of_pairwise_cons h List.mem_cons_self]
      rfl

/-- The entry at position p stands in slot p mod 128 of record sector p div 128 (R45). -/
theorem recordAt_recordSectors {p : Nat} (hp : p < entries.length) (hmost : entries.length ≤ 3440) :
    recordAt ((recordSectors entries).getD (p / 128) 0) (p % 128) = entries[p].record := by
  have hsector : p / 128 < 27 := by omega
  have hslot : p % 128 < 128 := Nat.mod_lt _ (by decide)
  have hplace : 128 * (p / 128) + p % 128 = p := Nat.div_add_mod p 128
  simp only [recordSectors, List.getD_eq_getElem?_getD, List.getElem?_map, List.getElem?_range hsector, Option.map_some,
    Option.getD_some, recordAt_recordSector _ hslot, List.getElem?_take, if_pos hslot, List.getElem?_drop, hplace,
    List.getElem?_eq_getElem hp]

theorem records_eq (hmost : entries.length ≤ 3440) :
    ((List.range entries.length).map fun p => recordAt ((recordSectors entries).getD (p / 128) 0) (p % 128)) =
      entries.map RemapEntry.record := by
  refine List.ext_getElem (by simp) fun p hp _ => ?_
  rw [List.length_map, List.length_range] at hp
  rw [List.getElem_map, List.getElem_range, List.getElem_map, recordAt_recordSectors hp hmost]

theorem mapM_map_eq_some {α β : Type} {f : α → β} {g : β → Option α} {l : List α} (h : ∀ x ∈ l, g (f x) = some x) :
    (l.map f).mapM g = some l := by
  induction l with
  | nil => rfl
  | cons x l ih =>
    rw [List.map_cons, List.mapM_cons, h x List.mem_cons_self, ih fun y hy => h y (List.mem_cons_of_mem _ hy)]
    rfl

end

/-- The checksum agrees because its own word counts as 0, the records stand where they are read, and each reads back as
its entry. -/
theorem decodeCopy_tableImage {gen : Nat} {entries : List RemapEntry} (hfirst : 1 ≤ gen) (hlast : gen ≤ maxGeneration)
    (hmost : entries.length ≤ 3440) (hsound : EntriesSound entries) (hrecordable : ∀ e ∈ entries, e.Recordable gen) :
    decodeCopy (tableImage gen entries) = some (gen, entries) := by
  have hsum : tableChecksum (tableImage gen entries) =
      tableChecksum (headerSector gen entries.length 0 :: recordSectors entries) := tableChecksum_headerSector ..
  obtain ⟨hgen, hcount, hstored⟩ := wordAt_headerSector gen entries.length
    (tableChecksum (headerSector gen entries.length 0 :: recordSectors entries))
  have hgeneration : (BitVec.ofNat 32 gen).toNat = gen :=
    (BitVec.toNat_ofNat ..).trans (Nat.mod_eq_of_lt (by rw [maxGeneration] at hlast; omega))
  have hlength : (BitVec.ofNat 16 entries.length).toNat = entries.length :=
    (BitVec.toNat_ofNat ..).trans (Nat.mod_eq_of_lt (by omega))
  have hrecords := mapM_map_eq_some fun e he => decodeRecord_record (hrecordable e he) hlast
  have hvalid : (inTableOrder entries && distinctEntries entries) = true := by
    simp [inTableOrder_of_pairwise hsound.ordered, distinctEntries, hsound.spares, hsound.homes]
  unfold tableImage at hsum ⊢
  dsimp only at hsum ⊢
  unfold decodeCopy
  simp only [hsum, hgen, hcount, hstored, hgeneration, hlength, records_eq hmost, hrecords, hvalid, ne_eq,
    not_true_eq_false, if_false, if_true]
  rw [if_neg]
  simp only [Bool.or_eq_true, decide_eq_true_eq]
  omega

/-- Settles O11. -/
theorem tableImagesRoundTrip : Obligations.TableImagesRoundTrip :=
  fun _ _ hfirst hlast hmost hsound hrecordable => decodeCopy_tableImage hfirst hlast hmost hsound hrecordable

/-! ## The mount choice (R52, R53) -/

section
variable {s : State}

/-- What a control sector of the mount has resolved to. -/
def State.mountedAs (s : State) (j : Nat) : Option MountOutcome := (s.cc.mount[j]?).bind MountSector.outcome

theorem copyAllGood_iff (s : State) (c : TableCopy) :
    copyAllGood s.cc.mount c = true ↔ ∀ j < 28, s.mountedAs (mountIndex c j) = some .good := by
  simp [copyAllGood, State.mountedAs]

theorem mountedAs_of_lt {j : Nat} (h : j < 56) : s.mountedAs j = (s.cc.mount[j]).outcome := by
  simp [State.mountedAs, h]

/-- A test of every control sector's record. -/
theorem all_mount_iff (s : State) (p : Option MountOutcome → Bool) :
    (s.cc.mount.toList.all fun r => p r.outcome) = true ↔ ∀ j < 56, p (s.mountedAs j) = true := by
  rw [List.all_eq_true]
  constructor
  · intro h j hj
    rw [mountedAs_of_lt hj]
    exact h _ (by simp)
  · intro h r hr
    obtain ⟨j, hj, rfl⟩ := Vector.mem_iff_getElem.mp (Vector.mem_toList_iff.mp hr)
    rw [← mountedAs_of_lt hj]
    exact h j hj

theorem length_tableImage (gen : Nat) (entries : List RemapEntry) : (tableImage gen entries).length = 28 := by
  simp [tableImage, recordSectors]

/-- An assembled area reads as the sectors it holds. -/
theorem mapM_imageArea {sectors : List Payload} (h : sectors.length = 28) :
    (imageArea sectors).toList.mapM id = some sectors := by
  have hlist : (imageArea sectors).toList = sectors.map some := by
    refine List.ext_getElem (by simp [h]) fun j hj hj' => ?_
    simp only [List.length_map] at hj'
    simp [imageArea, hj']
  rw [hlist]
  exact mapM_map_eq_some fun _ _ => rfl

theorem judgeCopy_of_image {c : TableCopy} {area : ImageArea} {gen : Nat} {entries : List RemapEntry}
    (hgood : copyAllGood s.cc.mount c = true) (harea : area = imageArea (tableImage gen entries)) (hfirst : 1 ≤ gen)
    (hlast : gen ≤ maxGeneration) (hmost : entries.length ≤ 3440) (hsound : EntriesSound entries)
    (hrecordable : ∀ e ∈ entries, e.Recordable gen) :
    judgeCopy s.cc.mount c area = some (gen, entries) := by
  simp only [judgeCopy, hgood, if_true, harea, mapM_imageArea (length_tableImage gen entries)]
  exact decodeCopy_tableImage hfirst hlast hmost hsound hrecordable

theorem judgeCopy_of_notGood {c : TableCopy} (h : ¬ copyAllGood s.cc.mount c = true) (area : ImageArea) :
    judgeCopy s.cc.mount c area = none :=
  if_neg h

theorem mountChoice_of_none (ha : ¬ copyAllGood s.cc.mount .a = true) (hb : ¬ copyAllGood s.cc.mount .b = true) :
    mountChoice s =
      if (s.cc.mount.toList.all fun r => r.outcome == some .blank) = true then .unformatted else .unusable := by
  simp only [mountChoice, judgeCopy_of_notGood ha, judgeCopy_of_notGood hb]

end

/-- Settles O12: a copy not all GOOD is invalid, and one that holds an image is valid. -/
theorem theMountLoadsTheNewestValidCopy : Obligations.TheMountLoadsTheNewestValidCopy := by
  unfold Obligations.TheMountLoadsTheNewestValidCopy
  intro s g h x y sound outcome goodA goodB holdsA holdsB
  have hgoodA : copyAllGood s.cc.mount .a = true ↔ goodA := copyAllGood_iff s .a
  have hgoodB : copyAllGood s.cc.mount .b = true ↔ goodB := copyAllGood_iff s .b
  have hvalidA (hgood : goodA) (hholds : holdsA) : judgeCopy s.cc.mount .a s.rmt.image = some (g, x) := by
    obtain ⟨⟨hfirst, hlast, hmost, hsound, hrecordable⟩, harea⟩ := hholds
    exact judgeCopy_of_image (hgoodA.mpr hgood) harea hfirst hlast hmost hsound hrecordable
  have hvalidB (hgood : goodB) (hholds : holdsB) : judgeCopy s.cc.mount .b s.rmt.assemblyB = some (h, y) := by
    obtain ⟨⟨hfirst, hlast, hmost, hsound, hrecordable⟩, harea⟩ := hholds
    exact judgeCopy_of_image (hgoodB.mpr hgood) harea hfirst hlast hmost hsound hrecordable
  refine ⟨fun ha hb hA hB => ?_, fun ha hb hA => ?_, fun ha hb hB => ?_, fun hblank => ?_, fun ha hb hsome => ?_⟩
  · simp only [mountChoice, hvalidA ha hA, hvalidB hb hB]
  · simp only [mountChoice, hvalidA ha hA, judgeCopy_of_notGood (mt hgoodB.mp hb)]
  · simp only [mountChoice, judgeCopy_of_notGood (mt hgoodA.mp ha), hvalidB hb hB]
  · have ha : ¬ goodA := fun ha => by cases (hblank 0 (by decide)).symm.trans (ha 0 (by decide))
    have hb : ¬ goodB := fun hb => by cases (hblank 28 (by decide)).symm.trans (hb 0 (by decide))
    rw [mountChoice_of_none (mt hgoodA.mp ha) (mt hgoodB.mp hb), if_pos]
    exact (all_mount_iff s (· == some .blank)).mpr fun j hj => beq_iff_eq.mpr (hblank j hj)
  · rw [mountChoice_of_none (mt hgoodA.mp ha) (mt hgoodB.mp hb), if_neg]
    intro hall
    obtain ⟨j, hj, hne⟩ := hsome
    exact hne (beq_iff_eq.mp ((all_mount_iff s (· == some .blank)).mp hall j hj))

/-! ## Mount reads and the end of the mount (R21, R22) -/

section
variable {s : State} {c : TableCopy} {i : Nat}

theorem mountIndex_lt (hi : i < 28) : mountIndex c i < 56 := by
  cases c <;> simp only [mountIndex] <;> omega

/-- The state with a control sector resolved and its read no longer due. -/
def State.mountResolved (s : State) (c : TableCopy) (i : Nat) (r : MountSector) : State :=
  { s with
    cc := { s.cc with mount := s.cc.mount.setIfInBounds (mountIndex c i) r }
    pe := { s.pe with
      due := s.pe.due.filter fun op => op.owner != .mount c i
      pass := s.pe.pass.map fun p => if p.op.owner = .mount c i then { p with withdrawn := true } else p } }

theorem mountDelivered_of_open (h : (mountRecord c i s).outcome = none) (o : PassOutcome) :
    mountDelivered c i o s = mountOutcome c i o s :=
  if_pos (by rw [h]; rfl)

theorem mountedAs_mountResolved (hi : i < 28) (r : MountSector) (j : Nat) :
    (s.mountResolved c i r).mountedAs j = if j = mountIndex c i then r.outcome else s.mountedAs j := by
  have hlt := mountIndex_lt (c := c) hi
  simp only [State.mountedAs, State.mountResolved, Vector.getElem?_setIfInBounds, hlt, if_true]
  split
  · next heq => rw [if_pos heq.symm]; rfl
  · next hne => rw [if_neg (Ne.symm hne)]

/-- With a sector resolved all are, exactly where all the others were. -/
theorem all_mountResolved_iff (hi : i < 28) (n : Nat) (o : MountOutcome) :
    ((s.mountResolved c i ⟨n, some o⟩).cc.mount.toList.all fun r => r.outcome.isSome) = true ↔
      ∀ j < 56, j ≠ mountIndex c i → s.mountedAs j ≠ none := by
  rw [all_mount_iff _ Option.isSome]
  refine forall₂_congr fun j hj => ?_
  rw [mountedAs_mountResolved hi]
  by_cases hsame : j = mountIndex c i <;> simp [hsame, Option.isSome_iff_ne_none]

theorem resolveMount_eq (o : MountOutcome) (s : State) :
    resolveMount c i o s =
      if ((s.mountResolved c i ⟨(mountRecord c i s).retries, some o⟩).cc.mount.toList.all
        fun r => r.outcome.isSome) = true then
        endMount (s.mountResolved c i ⟨(mountRecord c i s).retries, some o⟩)
      else s.mountResolved c i ⟨(mountRecord c i s).retries, some o⟩ := by
  have hresolved : withdraw (.mount c i) (setMountRecord c i { mountRecord c i s with outcome := some o } s) =
      s.mountResolved c i ⟨(mountRecord c i s).retries, some o⟩ := by
    rw [withdraw_eq]
    rfl
  simp only [resolveMount, hresolved]

/-- The mount ends with the last sector resolved (R22). -/
theorem resolveMount_of_last (hi : i < 28) (hlast : ∀ j < 56, j ≠ mountIndex c i → s.mountedAs j ≠ none)
    (o : MountOutcome) :
    resolveMount c i o s = endMount (s.mountResolved c i ⟨(mountRecord c i s).retries, some o⟩) := by
  rw [resolveMount_eq, if_pos ((all_mountResolved_iff hi _ o).mpr hlast)]

theorem resolveMount_of_others (hi : i < 28) (hopen : ∃ j < 56, j ≠ mountIndex c i ∧ s.mountedAs j = none)
    (o : MountOutcome) : resolveMount c i o s = s.mountResolved c i ⟨(mountRecord c i s).retries, some o⟩ := by
  rw [resolveMount_eq, if_neg]
  rintro hall
  obtain ⟨j, hj, hne, hnone⟩ := hopen
  exact (all_mountResolved_iff hi _ o).mp hall j hj hne hnone

theorem mountRecord_setMountRecord (hi : i < 28) (r : MountSector) : mountRecord c i (setMountRecord c i r s) = r := by
  simp [mountRecord, setMountRecord, mountIndex_lt hi]

theorem setMountRecord_setMountRecord (q r : MountSector) :
    (setMountRecord c i q s).mountResolved c i r = s.mountResolved c i r := by
  simp only [State.mountResolved, setMountRecord, Vector.setIfInBounds_setIfInBounds]

theorem endMount_eq (hattn : AttnJudged s) :
    endMount s = State.told .cartridge
      { s with
        cc := { s.cc with state := mountedState s.cc.tab (mountChoice s), mount := clearedMount }
        rmt := (mountChoice s).table s.rmt
        pe := { s.pe with
          due := s.pe.due.filter fun op => !op.owner.isMount
          pass := s.pe.pass.map fun p => if p.op.owner.isMount then { p with withdrawn := true } else p } } := by
  rw [endMount, enterCartState_of_judged (by exact hattn)]
  rfl

end

/-- Settles O13: a counted read, a sector resolved among others, and the last one, whose mount choice leads on. -/
theorem mountReadsAreResolvedAndTheLastEndsTheMount : Obligations.MountReadsAreResolvedAndTheLastEndsTheMount := by
  unfold Obligations.MountReadsAreResolvedAndTheLastEndsTheMount
  intro c i s hi hopen retries recorded resolved placed outcome
  have hdelivered (o : PassOutcome) : mountDelivered c i o s = mountOutcome c i o s := mountDelivered_of_open hopen o
  have hcounted : ({ mountRecord c i s with retries := retries + 1 } : MountSector) = ⟨retries + 1, none⟩ := by
    rw [← hopen]
  have hplaced (p : Payload) : assemble c i p s = placed p := by cases c <;> rfl
  have hplacedRecord (p : Payload) : mountRecord c i (assemble c i p s) = mountRecord c i s := by cases c <;> rfl
  have hplacedMount (p : Payload) : (assemble c i p s).cc = s.cc := by cases c <;> rfl
  refine ⟨fun hfew => ?_, fun hothers => ⟨?_, fun p n => ?_, fun hmany => ?_⟩, ?_⟩
  · rw [hdelivered]
    refine (if_neg (Nat.not_lt.mpr hfew)).trans ?_
    exact congrArg (fun r => setMountRecord c i r s) hcounted
  · rw [hdelivered]
    exact resolveMount_of_others hi hothers .blank
  · rw [hdelivered]
    refine (resolveMount_of_others hi ?_ .good).trans ?_
    · simp only [State.mountedAs, hplacedMount]
      exact hothers
    · rw [hplacedRecord, hplaced]
      rfl
  · rw [hdelivered]
    refine (if_pos (Nat.lt_succ_of_le hmany)).trans ?_
    rw [show ({ mountRecord c i s with retries := (mountRecord c i s).retries + 1 } : MountSector) =
      ⟨retries + 1, none⟩ from hcounted]
    rw [resolveMount_of_others hi ?_ .unreadable, mountRecord_setMountRecord hi, setMountRecord_setMountRecord]
    · rfl
    · obtain ⟨j, hj, hne, hnone⟩ := hothers
      refine ⟨j, hj, hne, ?_⟩
      simp only [State.mountedAs, setMountRecord]
      rw [Vector.getElem?_setIfInBounds_ne (Ne.symm hne)]
      exact hnone
  · intro hlast hattn ended p n last
    have hgood : mountDelivered c i (.good p n) s = endMount last := by
      rw [hdelivered]
      refine (resolveMount_of_last hi ?_ .good).trans ?_
      · simp only [State.mountedAs, hplacedMount]
        exact hlast
      · rw [hplacedRecord, hplaced]
        rfl
    have hattn' : AttnJudged last := by
      cases c <;> exact hattn
    have htab : last.cc.tab = s.cc.tab := by cases c <;> rfl
    refine ⟨fun g x hchoice => ?_, fun hchoice => ?_, fun hchoice => ?_⟩
    · rw [hgood, endMount_eq hattn', hchoice, htab]
      rfl
    · rw [hgood, endMount_eq hattn', hchoice]
      rfl
    · rw [hdelivered]
      refine (resolveMount_of_last hi hlast .blank).trans ((endMount_eq (by exact hattn)).trans ?_)
      have hchoice' : mountChoice (s.mountResolved c i ⟨(mountRecord c i s).retries, some .blank⟩) = .unformatted := hchoice
      rw [hchoice']
      rfl

end Sys2Proof.Machine
end

section
/-! SUPPORT and PROOFS. How the console's lines are spelled (Sections 10.2 to 10.6): settles O60. -/

namespace Sys2Proof.Machine

/-! ## Hexadecimal numbers (R179) -/

theorem hexChar_toNat {d : Nat} (h : d < 16) :
    (48 ≤ (hexChar d).toNat ∧ (hexChar d).toNat ≤ 57) ∨ (65 ≤ (hexChar d).toNat ∧ (hexChar d).toNat ≤ 70) := by
  decide +revert

theorem hexDigit_hexChar {d : Nat} (h : d < 16) : hexDigit (hexChar d) = some d := by
  decide +revert

theorem hexChar_ne_zero {d : Nat} (h : d < 16) (hd : 0 < d) : hexChar d ≠ '0' := by
  decide +revert

/-- The digits of a number read back as it, before the digits already written. -/
theorem hexValue_hexDigits (k : Nat) : ∀ {n : Nat} (written : Text), n < k →
    hexValue 0 (hexDigits k n written) = hexValue n written := by
  induction k with
  | zero => exact fun _ h => absurd h (Nat.not_lt_zero _)
  | succ k ih =>
    intro n written h
    rw [hexDigits]
    split
    · next hsmall =>
      rw [hexValue, hexDigit_hexChar hsmall]
      simp only [Nat.mul_zero, Nat.zero_add]
    · rw [ih _ (by omega), hexValue, hexDigit_hexChar (Nat.mod_lt _ (by decide))]
      simp only [Nat.div_add_mod]

/-- The first digit of a number other than 0 is no zero. -/
theorem head?_hexDigits (k : Nat) : ∀ {n : Nat} (written : Text), n < k → 0 < n →
    (hexDigits k n written).head? ≠ some '0' := by
  induction k with
  | zero => exact fun _ h => absurd h (Nat.not_lt_zero _)
  | succ k ih =>
    intro n written h hn
    rw [hexDigits]
    split
    · next hsmall =>
      rw [List.head?_cons, ne_eq, Option.some.injEq]
      exact hexChar_ne_zero hsmall hn
    · exact ih _ (by omega) (by omega)

theorem mem_hexDigits (k : Nat) : ∀ {n : Nat} (written : Text), ∀ c ∈ hexDigits k n written,
    c ∈ written ∨ ∃ d < 16, c = hexChar d := by
  induction k with
  | zero => exact fun _ c hc => .inl hc
  | succ k ih =>
    intro n written c hc
    have hstep {d : Nat} (hd : d < 16) (h : c ∈ hexChar d :: written) : c ∈ written ∨ ∃ d < 16, c = hexChar d := by
      rcases List.mem_cons.mp h with h | h
      · exact .inr ⟨d, hd, h⟩
      · exact .inl h
    rw [hexDigits] at hc
    split at hc
    · next hsmall => exact hstep hsmall hc
    · rcases ih _ c hc with h | h
      · exact hstep (Nat.mod_lt _ (by decide)) h
      · exact .inr h

/-! ## Words (R179) -/

theorem spaced_cons (word : Text) (words : List Text) :
    spaced (word :: words) = word ++ words.flatMap fun w => ' ' :: w := by
  induction words generalizing word with
  | nil => simp [spaced]
  | cons next words ih =>
    have hnext : spaced (word :: next :: words) = word ++ ' ' :: spaced (next :: words) := by
      simp [spaced, List.intercalate]
    rw [hnext, ih, List.flatMap_cons]
    rfl

theorem spaced_pair (v w : Text) : spaced [v, w] = v ++ [' '] ++ w := by
  simp [spaced_cons]

theorem spaced_triple (u v w : Text) : spaced [u, v, w] = u ++ [' '] ++ v ++ [' '] ++ w := by
  simp [spaced_cons]

theorem markText_eq (set : Bool) : markText set = if set then "SET".toList else "CLEAR".toList := by
  cases set <;> rfl

theorem orDash_eq {α : Type} (g : α → Text) (x : Option α) :
    orDash g x = match x.map g with | some v => v | none => ['-'] := by
  cases x <;> rfl

/-- The line of a display: its item and index, then each field's name and value (R182, R183). -/
theorem text_shown {x : Shown} (h : x.text = spaced ([hexText x.item] ++ (x.index.map hexText).toList ++ x.fields)) :
    (ConsoleLine.reply (.shown x)).text =
      "> ".toList ++ hexText x.item ++ (match x.index with | some i => [' '] ++ hexText i | none => []) ++
        (x.values.zipIdx x.firstName).flatMap fun v => [' '] ++ Config.fieldName x.item v.2 ++ [' '] ++ v.1 := by
  have hfields : (x.fields.flatMap fun w => ' ' :: w) =
      (x.values.zipIdx x.firstName).flatMap fun v => [' '] ++ Config.fieldName x.item v.2 ++ [' '] ++ v.1 := by
    simp [Shown.fields, List.flatMap_assoc]
  have hprompt : "> ".toList = ['>', ' '] := rfl
  have htext : (ConsoleLine.reply (.shown x)).text = spaced [['>'], x.text] := rfl
  rw [← hfields, hprompt, htext, h, spaced_pair]
  generalize x.fields = fields
  generalize hexText x.item = item
  cases x.index with
  | none => simp [spaced_cons]
  | some i => simp [spaced_cons]

/-- The mark of an unsolicited line, before its words (R181). -/
theorem text_notice (plus : Bool) (x : ConsoleNotice) :
    (ConsoleLine.notice plus x).text =
      (if plus then "=+ ".toList else "= ".toList) ++ spaced x.words := by
  have hwords : ∃ word words, x.words = word :: words := by cases x <;> exact ⟨_, _, rfl⟩
  obtain ⟨word, words, hwords⟩ := hwords
  have hplus : "=+ ".toList = ['=', '+', ' '] := rfl
  have hplain : "= ".toList = ['=', ' '] := rfl
  rw [ConsoleLine.text, hwords, spaced_cons, spaced_cons, List.flatMap_cons, hplus, hplain]
  cases plus <;> simp

/-- Settles O60: numbers by their digits, lines by their words, and a display by its fields. -/
theorem consoleLinesAreSpelled : Obligations.ConsoleLinesAreSpelled := by
  unfold Obligations.ConsoleLinesAreSpelled
  intro sp
  refine ⟨fun n => ⟨?_, fun hn => ?_, fun c hc => ?_⟩, fun m line rest hqueue => ?_, ?_, ?_, fun slot => ⟨?_, ?_⟩,
    fun id value => ?_, ?_, fun n => ?_, ?_⟩
  · rw [hexText, hexValue_hexDigits _ _ (Nat.lt_succ_self n), hexValue]
  · exact head?_hexDigits _ _ (Nat.lt_succ_self n) hn
  · rcases mem_hexDigits _ _ c hc with h | ⟨d, hd, rfl⟩
    · exact absurd h List.not_mem_nil
    · exact hexChar_toNat hd
  · simp only [Console.sending, hqueue]
  · intro plus stamp p start place ending
    have hheld : "HELD ".toList = "HELD".toList ++ [' '] := rfl
    have hstep : "T ".toList = ['T', ' '] := rfl
    have hwatch : "W ".toList = ['W', ' '] := rfl
    refine ⟨fun track => ?_, fun kind o => ⟨?_, fun slot action => ?_⟩⟩
    · rw [text_notice, ConsoleNotice.words, hheld]
      simp [spaced_cons, stampText, start, ending, sp]
    · rw [text_notice, ConsoleNotice.words, hstep]
      simp [spaced_cons, stampText, start, ending, place, sp, Phys.text]
    · rw [text_notice, ConsoleNotice.words, hwatch]
      cases action <;> simp [spaced_cons, stampText, start, ending, place, sp, Phys.text, WatchAction.letter]
  · decide
  · exact spaced_pair ..
  · exact spaced_pair ..
  · exact spaced_triple ..
  · repeat refine List.forall_mem_cons.mpr ⟨rfl, ?_⟩
    exact List.forall_mem_nil _
  · exact spaced_pair ..
  · intro mark dash address head shows
    have hmark (set : Bool) : mark set = markText set := (markText_eq set).symm
    have hdash {α : Type} (g : α → Text) (x : Option α) : dash (x.map g) = orDash g x := (orDash_eq g x).symm
    have haddress : address = Phys.text := funext fun p => (spaced_pair ..).symm
    have hfree (item n : Nat) (word : Text) :
        spaced [['>'], spaced [hexText item, hexText n, word]] = head item (some n) ++ ' ' :: word := by
      have hprompt : "> ".toList = ['>', ' '] := rfl
      simp only [head, hprompt, sp]
      simp [spaced_cons]
    have hshows {x : Shown} {values : List Text} (hvalues : x.values = values)
        (h : x.text = spaced ([hexText x.item] ++ (x.index.map hexText).toList ++ x.fields)) :
        shows x x.item x.index x.firstName values := by
      rw [← hvalues]
      exact text_shown h
    refine ⟨fun i => ⟨hfree 3 i _, hfree 3 i _, hfree 12 i _⟩, fun state tab recovery prior limit => hshows ?_ rfl,
      fun track angle polarity state => hshows rfl rfl, fun a b c d e f g h i => hshows rfl rfl,
      fun n x => hshows ?_ rfl, fun n x => hshows ?_ rfl, fun n x => hshows rfl rfl, fun n x => hshows ?_ rfl,
      fun n x => hshows rfl rfl, ?_, ?_, fun x => hshows rfl rfl, fun n w => hshows rfl rfl⟩
    · simp only [Shown.values, hmark, hdash]
    · simp only [Shown.values, haddress, hdash]
    · simp only [Shown.values, haddress, hdash]
    · simp only [Shown.values, haddress, hdash, spaced_triple]
      rfl
    · intro ch x
      cases ch
      all_goals
        refine hshows ?_ rfl
        simp only [Shown.values, ShownChannel.values, hmark, hdash, spaced_triple, spaced_pair]
        rfl
    · intro ch x
      cases ch
      all_goals
        refine hshows ?_ rfl
        simp only [Shown.values, ShownStream.values, hmark, hdash]

end Sys2Proof.Machine
end

section
/-! SUPPORT and PROOFS. The console's lines: building, judging and queueing them (Sections 10.2 and 10.7): settles
O59. -/

namespace Sys2Proof.Machine

/-! ## The answer to an ended line (R179 to R181) -/

section
variable {s t : State} {letter : ConsoleLetter} {fields : Fields} {act : State → LineAnswer} {judge : State → State}
  {r : Reply}

/-- The state with the input line emptied. -/
def State.lineEnded (s : State) : State := { s with mci := { s.mci with line := [], overlong := false } }

theorem replied_of_room {m : Console} (h : m.queue.length < 8) (r : Reply) :
    m.replied r = { m with queue := m.queue ++ [.reply r] } := if_pos h

theorem replied_of_full {m : Console} (h : 8 ≤ m.queue.length) (r : Reply) :
    m.replied r = { m with queue := withoutOldestNotice m.queue ++ [.reply r], lost := true } :=
  if_neg (Nat.not_lt.mpr h)

theorem hasReplyRoom_of_room {m : Console} (h : m.queue.length < 8) : m.hasReplyRoom = true := by
  simp [Console.hasReplyRoom, h]

theorem answerEnded_of_clearing (h : s.mci.clearing ≠ .none) (judge : State → State) : answerEnded judge s = s :=
  if_pos h

theorem answerEnded_of_noRoom (h : s.mci.clearing = .none) (hroom : s.mci.hasReplyRoom = false)
    (judge : State → State) : answerEnded judge s = s.lineEnded := by
  simp [answerEnded, h, hroom, updConsole, Console.lineEnded, State.lineEnded]

theorem answerEnded_of_overlong (h : s.mci.clearing = .none) (hroom : s.mci.hasReplyRoom = true)
    (hlong : s.mci.overlong = true) (judge : State → State) : answerEnded judge s = errorLine s.lineEnded := by
  simp [answerEnded, h, hroom, hlong, updConsole, Console.lineEnded, State.lineEnded]

theorem answerEnded_of_whole (h : s.mci.clearing = .none) (hroom : s.mci.hasReplyRoom = true)
    (hwhole : s.mci.overlong = false) (judge : State → State) : answerEnded judge s = judge s.lineEnded := by
  simp [answerEnded, h, hroom, hwhole, updConsole, Console.lineEnded, State.lineEnded]

theorem answerEnded_of_ready (h : s.mci.Ready) (judge : State → State) : answerEnded judge s = judge s.lineEnded :=
  answerEnded_of_whole h.noClear (hasReplyRoom_of_room h.room) h.whole judge

theorem errorLine_of_room (h : s.mci.queue.length < 8) :
    errorLine s.lineEnded = { s with mci := s.mci.answered (.error s.mci.last) } := by
  rw [errorLine, updConsole, replied_of_room (by exact h)]
  rfl

theorem acceptLine_of_room (h : t.mci.queue.length < 8) (letter : ConsoleLetter) (r : Reply) :
    acceptLine letter r t =
      { t with mci := { t.mci with queue := t.mci.queue ++ [.reply r], last := some letter } } := by
  rw [acceptLine, updConsole, replied_of_room h]

theorem answerCommand_of_none (h : act s = none) (letter : ConsoleLetter) : answerCommand letter act s = errorLine s := by
  simp only [answerCommand, h]

theorem answerCommand_of_some (h : act s = some (t, r)) (letter : ConsoleLetter) :
    answerCommand letter act s = acceptLine letter r t := by
  simp only [answerCommand, h]

/-- A row of a command letter is an ended line of that letter (log entry 19). -/
theorem exec_consoleCommand {q : State} (hq : answerEnded (answerCommand letter (commandOf letter fields)) s = q)
    (hidle : letter = .e → IdleHasNothingDue q) : exec (consoleCommand letter fields) s = .next q := by
  subst hq
  cases letter
  case e => exact congrArg Host.Outcome.next (workArrival_eq_self (hidle rfl))
  all_goals rfl

/-- A line that the command's rule does not take is answered with the error line. -/
theorem exec_consoleCommand_of_none (h : s.mci.Ready) (hnone : commandOf letter fields s.lineEnded = none)
    (hidle : letter = .e → IdleHasNothingDue s) :
    exec (consoleCommand letter fields) s = .next { s with mci := s.mci.answered (.error s.mci.last) } := by
  refine exec_consoleCommand ?_ (by exact hidle)
  rw [answerEnded_of_ready h, answerCommand_of_none hnone, errorLine_of_room h.room]

/-- A line that the command's rule takes is answered with its response line. -/
theorem exec_consoleCommand_of_some (h : s.mci.Ready) (hsome : commandOf letter fields s.lineEnded = some (t, r))
    (hroom : t.mci.queue.length < 8) (hidle : letter = .e → IdleHasNothingDue t) :
    exec (consoleCommand letter fields) s =
      .next { t with mci := { t.mci with queue := t.mci.queue ++ [.reply r], last := some letter } } := by
  refine exec_consoleCommand ?_ (by exact hidle)
  rw [answerEnded_of_ready h, answerCommand_of_some hsome, acceptLine_of_room hroom]

/-- A line ends with a carriage return. -/
theorem characterReceived_return (s : State) :
    characterReceived .carriageReturn s = answerEnded (judgeFields (splitFields s.mci.line)) s := by
  unfold characterReceived
  split
  · next h => rw [answerEnded_of_clearing h]
  · rfl

theorem exec_consoleCharacter {q : State} {c : ConsoleChar} (hidle : IdleHasNothingDue q)
    (hq : characterReceived c s = q) : exec (.consoleCharacter c) s = .next q := by
  subst hq
  exact congrArg Host.Outcome.next (workArrival_eq_self hidle)

theorem judgeFields_of_letter {first : List Char} {rest : Fields} (h : commandLetter first = some letter) :
    judgeFields (first :: rest) = answerCommand letter (commandOf letter rest) := by
  funext s
  simp only [judgeFields, h]

theorem judgeFields_of_unknown {first : List Char} {rest : Fields} (h : commandLetter first = none) :
    judgeFields (first :: rest) = errorLine := by
  funext s
  simp only [judgeFields, h]

/-- The line of a command letter, ended by its carriage return, is that command's row. -/
theorem exec_return_of_letter {first : List Char} {rest : Fields} (hfields : splitFields s.mci.line = first :: rest)
    (h : commandLetter first = some letter) :
    ∃ t, exec (consoleCommand letter rest) s = .next t ∧
      exec (.consoleCharacter .carriageReturn) s = .next (workArrival t) := by
  have hreceived : characterReceived .carriageReturn s = answerEnded (answerCommand letter (commandOf letter rest)) s := by
    rw [characterReceived_return, hfields, judgeFields_of_letter h]
  have hreturn : exec (.consoleCharacter .carriageReturn) s =
      .next (workArrival (answerEnded (answerCommand letter (commandOf letter rest)) s)) :=
    congrArg (fun q => Host.Outcome.next (workArrival q)) hreceived
  cases letter
  case e => exact ⟨_, rfl, hreturn.trans (congrArg _ (workArrival_eq_self (workArrival_idle _)).symm)⟩
  all_goals exact ⟨_, rfl, hreturn⟩

end

/-! ## The full queue (R181) -/

section
variable {s : State} {sending : ConsoleLine} {waiting before after : List ConsoleLine} {plus : Bool} {x : ConsoleNotice}

theorem hasReplyRoom_of_none {m : Console} (hfull : 8 ≤ m.queue.length) (hqueue : m.queue = sending :: waiting)
    (hnone : ∀ line ∈ waiting, line.isNotice = false) : m.hasReplyRoom = false := by
  have hlength : (sending :: waiting).length = m.queue.length := by rw [hqueue]
  have hany : waiting.any ConsoleLine.isNotice = false := by simpa using hnone
  simp only [Console.hasReplyRoom, hqueue, List.tail_cons, hany, Bool.or_false, decide_eq_false_iff_not, hlength]
  omega

theorem hasReplyRoom_of_notice {m : Console} (hqueue : m.queue = sending :: before ++ .notice plus x :: after) :
    m.hasReplyRoom = true := by
  simp [Console.hasReplyRoom, hqueue, ConsoleLine.isNotice]

theorem withoutOldestNotice_eq (hbefore : ∀ line ∈ before, line.isNotice = false) :
    withoutOldestNotice (sending :: before ++ .notice plus x :: after) = sending :: before ++ after := by
  have herase : (before ++ .notice plus x :: after).eraseP ConsoleLine.isNotice = before ++ after := by
    rw [List.eraseP_append_right _ (by simpa using hbefore), List.eraseP_cons_of_pos rfl]
  rw [List.cons_append, withoutOldestNotice, herase]
  rfl

/-- A response line displaces the oldest unsolicited line not being sent. -/
theorem replied_of_notice {m : Console} (hfull : 8 ≤ m.queue.length)
    (hqueue : m.queue = sending :: before ++ .notice plus x :: after)
    (hbefore : ∀ line ∈ before, line.isNotice = false) (r : Reply) :
    m.replied r = { m with queue := sending :: before ++ after ++ [.reply r], lost := true } := by
  rw [replied_of_full hfull, hqueue, withoutOldestNotice_eq hbefore]

end

/-- Settles O59: characters, ended lines and sent lines, then unsolicited lines, then response lines at a full queue. -/
theorem consoleLinesAreBuiltJudgedQueuedAndDisplaced : Obligations.ConsoleLinesAreBuiltJudgedQueuedAndDisplaced := by
  unfold Obligations.ConsoleLinesAreBuiltJudgedQueuedAndDisplaced
  refine ⟨fun s hsteady => ⟨fun c hclearing => ?_, fun hopen => ⟨fun c => ?_, ?_, ?_, fun c hc => ?_⟩,
    fun first rest letter hfields hletter => exec_return_of_letter hfields hletter, fun hready => ?_,
    fun hopen hlong hroom => ?_, fun line rest hqueue => ?_, fun hqueue => ?_, fun hready => ?_⟩, fun x s => ⟨?_, ?_⟩, ?_⟩
  · exact exec_consoleCharacter hsteady.idle (if_pos hclearing)
  · exact exec_consoleCharacter (by exact hsteady.idle) (if_neg (not_not.mpr hopen))
  · exact exec_consoleCharacter (by exact hsteady.idle) (if_neg (not_not.mpr hopen))
  · exact exec_consoleCharacter hsteady.idle (if_neg (not_not.mpr hopen))
  · refine exec_consoleCharacter (by exact hsteady.idle) ((if_neg (not_not.mpr hopen)).trans ?_)
    simp only [List.mem_cons, List.not_mem_nil, or_false] at hc
    rcases hc with rfl | rfl <;> rfl
  · intro answered
    have hanswered {r : Reply} (h : judgeFields (splitFields s.mci.line) s.lineEnded = { s with mci := s.mci.answered r }) :
        answered r :=
      exec_consoleCharacter (by exact hsteady.idle)
        ((characterReceived_return s).trans ((answerEnded_of_ready hready _).trans h))
    refine ⟨fun hnone => hanswered ?_, fun first rest hfields hunknown => hanswered ?_⟩
    · rw [hnone, judgeFields, updConsole, replied_of_room (by exact hready.room)]
      rfl
    · rw [hfields, judgeFields_of_unknown hunknown, errorLine_of_room hready.room]
  · refine exec_consoleCharacter (by exact hsteady.idle) ?_
    rw [characterReceived_return, answerEnded_of_overlong hopen (hasReplyRoom_of_room hroom) hlong,
      errorLine_of_room hroom]
  · have hsent : s.mci.sent = { s.mci with
        queue := rest
        clearing := if s.mci.clearing = .lineQueued ∧ line = .reply .clear then .lineSent else s.mci.clearing } := by
      simp only [Console.sent, hqueue]
    exact congrArg (fun m => Host.Outcome.next { s with mci := m }) hsent
  · have hsent : s.mci.sent = s.mci := by simp only [Console.sent, hqueue]
    exact congrArg (fun m => Host.Outcome.next { s with mci := m }) hsent
  · cases hstrap : s.lines.strapHigh with
    | true =>
      have htake : (s.mci.queue.take 1).length < 8 := by simp only [List.length_take]; omega
      refine (exec_consoleCommand_of_some (letter := .question) (fields := []) hready
        (t := { s.lineEnded with mci := { s.lineEnded.mci with queue := s.mci.queue.take 1, clearing := .lineQueued } })
        (r := .clear) ?_ htake nofun).trans ?_
      · exact if_pos hstrap
      · simp only [State.lineEnded, ← hready.whole, if_true]
    | false =>
      refine exec_consoleCommand_of_none (letter := .question) (fields := []) hready ?_ nofun
      exact if_neg (by simp [State.lineEnded, hstrap])
  · exact fun hroom => congrArg (fun m => { s with mci := m }) (if_pos hroom)
  · exact fun hfull => congrArg (fun m => { s with mci := m }) (if_neg (Nat.not_lt.mpr hfull))
  · intro s hsteady hopen hfull ended
    refine ⟨fun sending waiting hqueue hnone => ?_, ?_⟩
    · have hdiscarded (judge : State → State) : answerEnded judge s = { s with mci := ended } :=
        answerEnded_of_noRoom hopen (hasReplyRoom_of_none hfull hqueue hnone) judge
      refine ⟨exec_consoleCharacter (by exact hsteady.idle) ((characterReceived_return s).trans (hdiscarded _)),
        fun letter fields => exec_consoleCommand (hdiscarded _) fun _ => by exact hsteady.idle⟩
    · intro sending before plus x after hqueue hbefore displaced
      have hroom := hasReplyRoom_of_notice hqueue
      have herror : errorLine s.lineEnded = { s with mci := displaced (.error s.mci.last) } := by
        rw [errorLine, updConsole, replied_of_notice (by exact hfull) (by exact hqueue) hbefore]
        rfl
      refine ⟨fun hlong letter fields => exec_consoleCommand ?_ fun _ => by exact hsteady.idle, fun hwhole => ⟨?_, fun field rest => ?_⟩⟩
      · rw [answerEnded_of_overlong hopen hroom hlong, herror]
      · refine exec_consoleCommand (letter := .h) (fields := []) ?_ nofun
        rw [answerEnded_of_whole hopen hroom hwhole, answerCommand_of_some rfl, acceptLine, updConsole,
          replied_of_notice (by exact hfull) (by exact hqueue) hbefore]
        rfl
      · refine exec_consoleCommand (letter := .h) (fields := field :: rest) ?_ nofun
        rw [answerEnded_of_whole hopen hroom hwhole, answerCommand_of_none rfl, herror]

end Sys2Proof.Machine
end

section
/-! SUPPORT and PROOFS. The console's display (Section 10.3): settles O57. -/

namespace Sys2Proof.Machine

/-! ## The selected item (R182) -/

section
variable {s : State} {letter : ConsoleLetter} {fields : Fields}

/-- An index held within a collection of a size. -/
def heldIndex (size : Option Nat) (index : Nat) : Nat :=
  match size with
  | none => index
  | some 0 => 0
  | some (n + 1) => min index n

/-- The display of an item at an index. -/
def shownAt (s : State) (item index : Nat) : Shown :=
  if collectionSize s item = some 0 then .empty item
  else shownItem item (heldIndex (collectionSize s item) index) s

theorem displayItem_eq (t : State) :
    displayItem t =
      ({ t with mci := { t.mci with index := heldIndex (collectionSize t t.mci.item) t.mci.index } },
        .shown (shownAt t t.mci.item t.mci.index)) := by
  unfold displayItem shownAt
  match collectionSize t t.mci.item with
  | none => rfl
  | some 0 => rfl
  | some (n + 1) => rfl

/-- What an item shows does not depend on the line that asks for it. -/
theorem shownAt_of_console {m : Console} (h0 : m.watch0 = s.mci.watch0) (h1 : m.watch1 = s.mci.watch1)
    (item index : Nat) : shownAt { s with mci := m } item index = shownAt s item index := by
  have hshown (n : Nat) : shownItem item n { s with mci := m } = shownItem item n s := by
    have hslot : m.watchSlot n = s.mci.watchSlot n := by simp only [Console.watchSlot, h0, h1]
    match item with
    | 0 | 1 | 2 | 3 | 4 | 5 | 6 | 7 | 8 | 9 | 10 | 11 => rfl
    | _ + 12 => exact congrArg (Shown.watch n) hslot
  have hsize : collectionSize { s with mci := m } item = collectionSize s item := rfl
  simp only [shownAt, hshown, hsize]

/-- A display command selects an item and an index, and shows it. -/
theorem exec_display (h : s.mci.Ready) {item index : Nat} (hletter : letter ≠ .e)
    (hline : commandOf letter fields s.lineEnded = some (displayItem
      { s with mci := { s.mci with line := [], overlong := false, item := item, index := index } })) :
    exec (consoleCommand letter fields) s = .next
      { s with mci := { s.mci.answered (.shown (shownAt s item index)) with
        item := item, index := heldIndex (collectionSize s item) index, last := some letter } } := by
  have hshown := hline.trans ((congrArg some (displayItem_eq _)).trans
    (congrArg (fun x => some (_, Reply.shown x)) (shownAt_of_console rfl rfl item index)))
  exact exec_consoleCommand_of_some h hshown h.room fun he => absurd he hletter

end

/-! ## The fields of each item (R183) -/

section
variable {s : State}

theorem reservedSlots_iff (s : State) (n : Nat) :
    (reservedSlots s).contains n = true ↔ n ∈ s.links.a.reservedSlots ∨ n ∈ s.links.b.reservedSlots := by
  simp [reservedSlots]

theorem shownSlot_of_free {n : Nat} (h : ∀ e ∈ s.sc.entries, e.slot ≠ n) :
    shownSlot n s = if (reservedSlots s).contains n then .slotReserved n else .slotFree n := by
  have hnone : (s.sc.entries.find? fun e => e.slot == n) = none :=
    List.find?_eq_none.mpr fun e he => by simpa using h e he
  simp only [shownSlot, hnone]

end

/-- Settles O57: each display command selects an item and an index, and each item shows its own fields. -/
theorem displayCommandsShowTheSelectedItem : Obligations.DisplayCommandsShowTheSelectedItem := by
  unfold Obligations.DisplayCommandsShowTheSelectedItem
  intro s hready shown error
  have hdisplay {letter : ConsoleLetter} {fields : Fields} {item index : Nat} (hletter : letter ≠ .e)
      (hline : commandOf letter fields s.lineEnded = some (displayItem
        { s with mci := { s.mci with line := [], overlong := false, item := item, index := index } })) :
      exec (consoleCommand letter fields) s = .next (shown letter item index) :=
    exec_display hready hletter hline
  have herror {letter : ConsoleLetter} {fields : Fields} (hletter : letter ≠ .e)
      (hline : commandOf letter fields s.lineEnded = none) : exec (consoleCommand letter fields) s = .next error :=
    exec_consoleCommand_of_none hready hline fun he => absurd he hletter
  refine ⟨fun i item hi hmost => ?_, fun i n item index hi hmost hn => ?_, fun i item hi hmany => ?_, ?_, ?_, ?_,
    fun field rest => ⟨?_, ?_⟩, fun n e he => ?_, ?_⟩
  · refine hdisplay (letter := .s) (fields := [i]) (by decide) ?_
    simp only [commandOf, lineS, hi, Option.bind_some, selectItem, hmost, if_true]
    rfl
  · refine hdisplay (letter := .s) (fields := [i, n]) (by decide) ?_
    simp only [commandOf, lineS, hi, hn, Option.bind_some, selectItem, hmost, if_true]
    rfl
  · refine herror (letter := .s) (fields := [i]) (by decide) ?_
    simp only [commandOf, lineS, hi, Option.bind_some, selectItem, Nat.not_le.mpr hmany, if_false]
  · exact herror (letter := .s) (fields := []) (by decide) rfl
  · exact hdisplay (letter := .n) (fields := []) (by decide) rfl
  · exact hdisplay (letter := .d) (fields := []) (by decide) rfl
  · exact herror (letter := .n) (fields := field :: rest) (by decide) rfl
  · exact herror (letter := .d) (fields := field :: rest) (by decide) rfl
  · simp only [shownItem, shownSlot, he]
    rfl
  · intro count reserved
    refine ⟨fun n => ⟨rfl, rfl, ?_, rfl, ?_⟩, fun n hnone => ⟨fun hreserved => ?_, fun ha hb => ?_⟩, fun n t ht => ?_,
      fun n t ht => ?_, fun n e he => ?_, fun ch n => ?_, fun n e he => ?_, fun ch n => ?_⟩
    · rfl
    · rfl
    · exact (shownSlot_of_free hnone).trans (if_pos ((reservedSlots_iff s n).mpr hreserved))
    · exact (shownSlot_of_free hnone).trans (if_neg fun h => ((reservedSlots_iff s n).mp h).elim ha hb)
    · simp only [shownItem, shownTask, ht]
      rfl
    · have hnone : s.cmu.tasks[s.cmu.tasks.length + n]? = none := List.getElem?_eq_none (Nat.le_add_right ..)
      have hsome : (tableTasksShown s)[s.cmu.tasks.length + n - s.cmu.tasks.length]? = some t := by
        rw [Nat.add_sub_cancel_left]
        exact ht
      simp only [shownItem, shownTask, hnone, hsome]
    · simp only [shownItem, shownLock, he]
    · have hlink : shownItem (match ch with | .a => 7 | .b => 8) n s = .channel ch (shownChannel ch s) := by
        cases ch <;> rfl
      refine hlink.trans ?_
      simp only [shownChannel, committingCount, EntryState.isCommitting_eq]
      rfl
    · simp only [shownItem, shownRemap, he]
      rfl
    · cases ch <;> rfl

end Sys2Proof.Machine
end

section
/-! SUPPORT and PROOFS. The console's engine, watch and setting lines (Sections 10.4 to 10.6): settles O58. -/

namespace Sys2Proof.Machine

/-! ## What does not read the console -/

section
variable {s : State} {m : Console}

/-- The state with another console. -/
def State.withConsole (m : Console) (s : State) : State := { s with mci := m }

/-- A change of the state that neither reads nor changes the console. -/
def IgnoresConsole (f : State → State) : Prop := ∀ m s, f (s.withConsole m) = (f s).withConsole m

theorem IgnoresConsole.comp {f g : State → State} (hf : IgnoresConsole f) (hg : IgnoresConsole g) :
    IgnoresConsole fun s => f (g s) := fun m s => (congrArg f (hg m s)).trans (hf m (g s))

theorem IgnoresConsole.ite {c : State → Prop} [DecidablePred c] {f g : State → State}
    (hc : ∀ m s, c (s.withConsole m) ↔ c s) (hf : IgnoresConsole f) (hg : IgnoresConsole g) :
    IgnoresConsole fun s => if c s then f s else g s := by
  intro m s
  simp only [hc m s, hf m s, hg m s]
  split <;> rfl

theorem evict_ignoresConsole (lba : Nat) : IgnoresConsole fun s => evict s lba := by
  intro m s
  have hentry : entryAt (s.withConsole m) lba = entryAt s lba := rfl
  cases h : entryAt s lba with
  | none => simp only [evict, hentry, h]
  | some e =>
    simp only [evict, hentry, h]
    rfl

theorem foldl_evict_ignoresConsole (gone : List Nat) : IgnoresConsole fun s => gone.foldl evict s := by
  induction gone with
  | nil => exact fun _ _ => rfl
  | cons lba rest ih => exact ih.comp (evict_ignoresConsole lba)

theorem evictFor_ignoresConsole (count : Nat) (isHit : Nat → Bool) : IgnoresConsole (evictFor count isHit) :=
  fun m s => foldl_evict_ignoresConsole (victims count isHit s) m s

theorem checkWant_ignoresConsole (ch : Channel) : IgnoresConsole (checkWant ch) := by
  intro m s
  have hwant : (s.withConsole m).sc.wants = s.sc.wants := rfl
  have hmet (w : Want) : wantMet ch w (s.withConsole m) = wantMet ch w s := rfl
  cases h : s.sc.wants.get ch with
  | none => simp only [checkWant, hwant, h]
  | some w =>
    simp only [checkWant, hwant, h, hmet]
    split <;> rfl

theorem prefetchOne_ignoresConsole (ch : Channel) : IgnoresConsole (prefetchOne ch) := by
  intro m s
  generalize hlba : positionLba (s.su.get ch).extents (s.su.get ch).prefetchCursor = lba
  cases h : entryAt s lba with
  | some e =>
    rw [prefetchOne_of_held hlba h, prefetchOne_of_held (s := s.withConsole m) hlba h]
    let taken := fun s : State => updStream ch (Stream.prefetched lba e.state.hasData) (touch lba s)
    exact IgnoresConsole.ite (c := fun s => e.state.hasData = true ∧ (s.su.get ch).level = 0)
      (f := fun s => notify ch .streamData (taken s)) (g := taken)
      (fun _ _ => Iff.rfl) (fun _ _ => rfl) (fun _ _ => rfl) m s
  | none =>
    cases hspace : spaceFor 1 (fun _ => false) s with
    | true =>
      rw [prefetchOne_of_space hlba h hspace, prefetchOne_of_space (s := s.withConsole m) hlba h hspace,
        evictFor_ignoresConsole]
      rfl
    | false =>
      rw [prefetchOne_of_noSpace hlba h hspace, prefetchOne_of_noSpace (s := s.withConsole m) hlba h hspace]
      rfl

theorem prefetchUpTo_ignoresConsole (ch : Channel) : ∀ n, IgnoresConsole (prefetchUpTo ch n)
  | 0 => fun _ _ => rfl
  | n + 1 =>
    have hrest : IgnoresConsole fun s => if (s.su.get ch).prefetchWaiting then s else prefetchUpTo ch n s :=
      .ite (fun _ _ => Iff.rfl) (fun _ _ => rfl) (prefetchUpTo_ignoresConsole ch n)
    .ite (fun _ _ => Iff.rfl) (hrest.comp (prefetchOne_ignoresConsole ch)) fun _ _ => rfl

theorem retryPrefetch_ignoresConsole (ch : Channel) : IgnoresConsole (retryPrefetch ch) :=
  .ite (fun _ _ => Iff.rfl) (fun m s => prefetchUpTo_ignoresConsole ch (s.su.get ch).depth m s) fun _ _ => rfl

theorem retryPrefetches_ignoresConsole : IgnoresConsole retryPrefetches := by
  have ha := retryPrefetch_ignoresConsole .a
  have hb := retryPrefetch_ignoresConsole .b
  have hcount : IgnoresConsole fun s => { s with freeCount := s.freeCount + 1 } := fun _ _ => rfl
  exact .ite (fun _ _ => Iff.rfl)
    (.ite (fun _ _ => Iff.rfl) (ha.comp (hb.comp hcount)) (hb.comp (ha.comp hcount))) (hb.comp ha)

theorem freeingEvent_ignoresConsole : IgnoresConsole freeingEvent :=
  retryPrefetches_ignoresConsole.comp ((checkWant_ignoresConsole .b).comp (checkWant_ignoresConsole .a))

theorem startTarget_ignoresConsole (t : Target) : IgnoresConsole (startTarget t) :=
  .ite (fun _ _ => Iff.rfl) (fun _ _ => rfl) fun _ _ => rfl

theorem actOnChoice_ignoresConsole : ∀ choice, IgnoresConsole (actOnChoice choice)
  | none => fun _ _ => rfl
  | some t => .ite (fun _ _ => Iff.rfl) (fun _ _ => rfl) (startTarget_ignoresConsole t)

theorem makeChoice_ignoresConsole : IgnoresConsole makeChoice :=
  fun m s => actOnChoice_ignoresConsole (choose s.pe.due s) m s

end

/-! ## Watch slots and setting entry (R186, R187) -/

section
variable {s : State}

theorem slotNumber_of_other {slot : List Char} (h0 : slot ≠ ['0']) (h1 : slot ≠ ['1']) : slotNumber slot = none := by
  unfold slotNumber
  split
  · exact absurd rfl h0
  · exact absurd rfl h1
  · rfl

theorem watchSlotOf_eq {kinds action track sector : List Char} {k : KindSet} {a : WatchAction} {t n : Nat}
    (hk : watchKinds kinds = some k) (ha : watchAction action = some a) (ht : hexNumber 4 track = some t)
    (hn : hexNumber 2 sector = some n) :
    watchSlotOf kinds action track sector =
      if t ≤ 20001 ∧ n < sectorsOn t then some ⟨⟨t, n⟩, k, a, true⟩ else none := by
  simp only [watchSlotOf, hk, ha, ht, hn, Option.bind_eq_bind, Option.bind_some]

theorem compatibleHere_iff (s : State) : compatibleHere s = true ↔
    ∃ op ∈ s.pe.due, op.addr.track = s.pe.headTrack ∧ op.kind.compatible s.pe.polarity = true := by
  simp [compatibleHere]

/-- Settings with no raised dirty limit are written and told. -/
theorem writeSettings_of_not_raised (h : AttnJudged s) {x : Settings}
    (hraised : x.dirtyLimit ≤ s.cu.settings.dirtyLimit) :
    writeSettings x s = State.told .settings { s with cu := { s.cu with settings := x } } := by
  rw [writeSettings, notifyBoth_eq_told (by exact h)]
  exact if_neg (Nat.not_lt.mpr hraised)

/-- A raised dirty limit is a freeing event. -/
theorem writeSettings_of_raised (h : AttnJudged s) {x : Settings}
    (hraised : s.cu.settings.dirtyLimit < x.dirtyLimit) :
    writeSettings x s = freeingEvent (State.told .settings { s with cu := { s.cu with settings := x } }) := by
  rw [writeSettings, notifyBoth_eq_told (by exact h)]
  exact if_pos hraised

theorem writeSettings_ignoresConsole (x : Settings) : IgnoresConsole (writeSettings x) := by
  have htold : IgnoresConsole fun s => notifyBoth .settings { s with cu := { s.cu with settings := x } } :=
    fun _ _ => rfl
  exact .ite (c := fun s => s.cu.settings.dirtyLimit < x.dirtyLimit) (fun _ _ => Iff.rfl)
    (freeingEvent_ignoresConsole.comp htold) htold

/-- An entered setting is written, and the answer shows the value applied. -/
theorem exec_settingEntry (hready : s.mci.Ready) {i v : List Char} {id value : Nat} {x : Settings}
    (hi : hexNumber 1 i = some id) (hv : hexNumber 4 v = some value)
    (hx : settingsEntered id value s.cu.settings = some x) :
    exec (.settingEntry [i, v]) s = .next (workArrival
      { writeSettings x s with mci :=
        { s.mci.answered (.setting id (settingValue id x)) with last := some .e } }) := by
  have hline : commandOf .e [i, v] s.lineEnded =
      some ((writeSettings x s).withConsole s.lineEnded.mci, .setting id (settingValue id x)) := by
    have hentered : settingsEntered id value s.lineEnded.cu.settings = some x := hx
    simp only [commandOf, lineE, hi, hv, Option.bind_some, hentered, Option.map_some]
    exact congrArg (fun t => some (t, Reply.setting id (settingValue id x)))
      (writeSettings_ignoresConsole x s.lineEnded.mci s)
  have hanswered : answerEnded (answerCommand .e (commandOf .e [i, v])) s =
      { writeSettings x s with mci := { s.mci.answered (.setting id (settingValue id x)) with last := some .e } } := by
    rw [answerEnded_of_ready hready, answerCommand_of_some hline, acceptLine_of_room (by exact hready.room)]
    rfl
  exact congrArg (fun t => Host.Outcome.next (workArrival t)) hanswered

end

/-! ## Hold, GO and STEP (R125 to R127, R184, R185) -/

section
variable {s : State}

theorem goHeld_of_noPass (h : s.pe.pass = none) :
    goHeld s = (makeChoice s).withConsole { s.mci with stepReq := false } := by
  rw [← makeChoice_ignoresConsole]
  exact if_neg (by simp [stepUnderWay, h])

theorem goHeld_of_pass (hheld : s.pe.state = .held) (hpass : s.pe.pass ≠ none) :
    goHeld s = { s with pe := { s.pe with goWaiting := true } } :=
  if_pos (by simp [stepUnderWay, hheld, Option.isSome_iff_ne_none.mpr hpass])

theorem lineG_of_held (h : s.pe.state = .held) : lineG [] s = some (goHeld s, .go) := if_pos h

theorem lineG_of_hold (h : s.pe.state ≠ .held) (hhold : s.mci.hold = true) :
    lineG [] s = some (s.withConsole { s.mci with hold := false }, .holdCancelled) :=
  (if_neg h).trans (if_pos hhold)

theorem lineG_of_running (h : s.pe.state ≠ .held) (hhold : s.mci.hold = false) : lineG [] s = some (s, .running) :=
  (if_neg h).trans (if_neg (Bool.eq_false_iff.mp hhold))

theorem lineT_of_step (hheld : s.pe.state = .held) (hstep : s.mci.stepReq = false)
    (hhere : compatibleHere s = true) :
    lineT [] s = some (s.withConsole { s.mci with stepReq := true }, .step) :=
  if_pos (by simp [hheld, hstep, hhere])

theorem lineT_of_refused (h : s.pe.state ≠ .held ∨ s.mci.stepReq = true ∨ ¬compatibleHere s = true) :
    lineT [] s = none := by
  refine if_neg fun haccepted => ?_
  simp only [Bool.and_eq_true, Bool.not_eq_true', decide_eq_true_eq] at haccepted
  obtain ⟨⟨hheld, hstep⟩, hhere⟩ := haccepted
  rcases h with hrun | hstepping | hnone
  · exact hrun hheld
  · exact Bool.eq_false_iff.mp hstep hstepping
  · exact hnone hhere

end

/-- Settles O58: the lines of the engine, of the watch slots and of the settings, each in its case. -/
theorem engineWatchAndSettingLinesAreAnswered : Obligations.EngineWatchAndSettingLinesAreAnswered := by
  unfold Obligations.EngineWatchAndSettingLinesAreAnswered
  refine ⟨fun s hready => ?_, fun s hready hsteady => ?_⟩
  · intro error here
    have hhere : compatibleHere s.lineEnded = true ↔ here := compatibleHere_iff s
    have hgo {t : State} {r : Reply} (hline : lineG [] s.lineEnded = some (t, r)) (hroom : t.mci.queue.length < 8) :
        exec (.go []) s =
          .next { t with mci := { t.mci with queue := t.mci.queue ++ [.reply r], last := some .g } } :=
      exec_consoleCommand_of_some (letter := .g) hready hline hroom nofun
    refine ⟨?_, fun hheld hnone => ?_, fun hheld hpass => ?_, fun hrun hhold => ?_, fun hrun hhold => ?_,
      fun hheld hstep hcompatible => ?_, fun hrefused => ?_⟩
    · exact exec_consoleCommand_of_some (letter := .h) (fields := []) hready rfl hready.room nofun
    · have hchosen : makeChoice s.lineEnded = (makeChoice s).withConsole s.lineEnded.mci :=
        makeChoice_ignoresConsole s.lineEnded.mci s
      have hline := lineG_of_held (s := s.lineEnded) hheld
      rw [goHeld_of_noPass (by exact hnone), hchosen] at hline
      generalize makeChoice s = chosen at hline ⊢
      exact hgo hline hready.room
    · have hline := lineG_of_held (s := s.lineEnded) hheld
      rw [goHeld_of_pass (by exact hheld) (by exact hpass)] at hline
      exact hgo hline hready.room
    · exact hgo (lineG_of_hold (by exact hrun) (by exact hhold)) hready.room
    · exact hgo (lineG_of_running (by exact hrun) (by exact hhold)) hready.room
    · exact exec_consoleCommand_of_some (letter := .t) (fields := []) hready
        (lineT_of_step (by exact hheld) (by exact hstep) (hhere.mpr hcompatible)) hready.room nofun
    · refine exec_consoleCommand_of_none (letter := .t) (fields := []) hready (lineT_of_refused ?_) nofun
      rw [hhere]
      exact hrefused
  · intro error
    have hset {letter : ConsoleLetter} {fields : Fields} {m : Console} {r : Reply} (hletter : letter ≠ .e)
        (hline : commandOf letter fields s.lineEnded = some (s.withConsole m, r)) (hqueue : m.queue = s.mci.queue) :
        exec (consoleCommand letter fields) s =
          .next (s.withConsole { m with queue := m.queue ++ [.reply r], last := some letter }) :=
      exec_consoleCommand_of_some hready hline (by exact hqueue ▸ hready.room) fun he => absurd he hletter
    have herror {letter : ConsoleLetter} {fields : Fields} (hline : commandOf letter fields s.lineEnded = none) :
        exec (consoleCommand letter fields) s = .next error :=
      exec_consoleCommand_of_none hready hline fun _ => hsteady.idle
    refine ⟨fun kinds action track sector k a t n hk ha ht hn => ⟨fun htrack hsector => ⟨?_, ?_⟩, fun hbad slot => ?_⟩,
      fun slot kinds action track sector h0 h1 => ?_, ?_, ?_, fun slot h0 h1 => ?_,
      fun i v id value hi hv => ?_⟩
    · have hslot := (watchSlotOf_eq hk ha ht hn).trans (if_pos ⟨htrack, hsector⟩)
      exact hset (letter := .w) (fields := [['0'], kinds, action, track, sector])
        (m := { s.lineEnded.mci with watch0 := some ⟨⟨t, n⟩, k, a, true⟩ }) (by decide) (congrArg (Option.map _) hslot) rfl
    · have hslot := (watchSlotOf_eq hk ha ht hn).trans (if_pos ⟨htrack, hsector⟩)
      exact hset (letter := .w) (fields := [['1'], kinds, action, track, sector])
        (m := { s.lineEnded.mci with watch1 := some ⟨⟨t, n⟩, k, a, true⟩ }) (by decide) (congrArg (Option.map _) hslot) rfl
    · have hslot := (watchSlotOf_eq hk ha ht hn).trans (if_neg (by omega))
      refine herror (letter := .w) (fields := [slot, kinds, action, track, sector]) ?_
      simp [commandOf, lineW, hslot]
    · refine herror (letter := .w) (fields := [slot, kinds, action, track, sector]) ?_
      simp only [commandOf, lineW, slotNumber_of_other h0 h1, Option.bind_none]
    · exact hset (letter := .c) (fields := [['0']]) (m := { s.lineEnded.mci with watch0 := none }) (by decide) rfl rfl
    · exact hset (letter := .c) (fields := [['1']]) (m := { s.lineEnded.mci with watch1 := none }) (by decide) rfl rfl
    · refine herror (letter := .c) (fields := [slot]) ?_
      simp only [commandOf, lineC, slotNumber_of_other h0 h1, Option.map_none]
    · intro written
      have hentered {x : Settings} (hx : settingsEntered id value s.cu.settings = some x)
          (hraised : x.dirtyLimit ≤ s.cu.settings.dirtyLimit) :
          exec (.settingEntry [i, v]) s = .next (written x (settingValue id x)) := by
        rw [exec_settingEntry hready hi hv hx, writeSettings_of_not_raised hsteady.attn hraised,
          workArrival_eq_self (by exact hsteady.idle)]
      refine ⟨?_, ?_, ?_, ?_, ?_, fun hmany => ?_⟩
      · rintro rfl
        exact hentered rfl le_rfl
      · rintro rfl
        exact hentered rfl le_rfl
      · rintro rfl
        refine (hentered rfl le_rfl).trans ?_
        by_cases hnever : value = 1
        · simp [written, Settings.written, chosen, policyOf, settingValue, hnever, VerifyPolicy.code]
        · simp [written, Settings.written, chosen, policyOf, settingValue, hnever, VerifyPolicy.code]
      · rintro rfl hraised
        exact hentered rfl hraised
      · rintro rfl hraised
        rw [exec_settingEntry hready hi hv rfl, writeSettings_of_raised hsteady.attn (by exact hraised)]
        rfl
      · refine herror (letter := .e) (fields := [i, v]) ?_
        have hnone : settingsEntered id value s.lineEnded.cu.settings = none := by
          match id, hmany with
          | n + 4, _ => rfl
        simp only [commandOf, lineE, hi, hv, Option.bind_some, hnone, Option.map_none]

end Sys2Proof.Machine
end
